-- ==== Sys2Proof/Word.lean ====
section
/-! DEFINITION. The data sizes of R4 as bit-vector types. -/

namespace Sys2Proof

/-- 8 bits (R4). -/
abbrev Byte := BitVec 8
/-- 16 bits (R4). -/
abbrev Half := BitVec 16
/-- 32 bits (R4). -/
abbrev Word := BitVec 32
/-- 64 bits (R4). -/
abbrev DWord := BitVec 64
/-- An instruction word: 96 bits (R33). -/
abbrev IWord := BitVec 96
/-- A shape register: 512 bits (R272). -/
abbrev Shape := BitVec 512

end Sys2Proof
end

