-- ==== Sys2Proof/Config.lean ====
section
/-! DEFINITION. What an implementation fixes and the values the spec leaves open: constants with no
body, so that no proof can see a value of one. -/

namespace Sys2Proof.Config

/-- CLOCK as read at the n-th step of the machine (R67; no rule gives cycle counts; log 5). -/
opaque clockAt : Nat → DWord

/-- Entries of a cluster's range-lock table (R195 names the table and gives no size; log 6). -/
opaque rangeEntries : Nat

/-- Data that a failed transaction leaves in a poisoned register (R175, R350, R351; log 9). -/
opaque failedWord : Nat → Word

/-- SHA-384 digest of the boot ROM (R358; the spec gives no image of it; log 7). -/
opaque bootRomDigest : BitVec 384

/-- The RSA-3072 public key that boot ROM holds (R357; the spec gives none; log 7). -/
opaque rsaModulus : Nat
opaque rsaExponent : Nat

/-- The 48 bytes of the SLH-DSA public key that boot ROM holds: its seed and its root (R357; the spec gives none;
log 7). -/
opaque slhKey : BitVec 384

/-- Whether a dirty line was already written back when `CACHEOP.inv` drops it (R322; log 8). -/
opaque writtenBack : Nat → Bool

/-- Dies of a member module's partition in a launch domain, taken as 1 where it is less and as 8 where it is more
(R299; firmware's choice; log 22). -/
opaque moduleDies : Nat → Nat

/-- Word `i` of what another module counts in its report of a spanning grid, by draw (R299; log 22). -/
opaque moduleCount : Nat → Nat → Nat

/-- What another module reports of the first fault on a die of its own, by draw and die: code number, work
identifier and TADDR (R291, R299; log 22). -/
opaque moduleFirst : Nat → Nat → Option (Nat × DWord × DWord)

/-- What `CTXSV` writes for a GID that names no gang, by draw: R316 ignores such a GID and R317 gives no
result for it (log 26). -/
opaque noGangResult : Nat → Word

end Sys2Proof.Config
end

