-- ==== Sys2Proof/Machine/Sha.lean ====
section
/-! DEFINITION. SHA-384 and the other hashes of its family (R357, R358; the standard itself is outside the spec:
FIPS 180-4, log 7). -/

namespace Sys2Proof.Machine

/-! ## The constants, from the roots of primes that the standard takes them from -/

/-- The largest `r` below `acc + 2 ^ bits` with `r ^ k ≤ n`, found bit by bit from `acc` on. -/
def rootFrom (k n : Nat) : Nat → Nat → Nat
  | 0, acc => acc
  | bits + 1, acc => rootFrom k n bits (if (acc + 2 ^ bits) ^ k ≤ n then acc + 2 ^ bits else acc)

/-- The first 64 bits of the fraction of the `k`-th root of a number below 2^12. -/
def rootFraction (k p : Nat) : DWord := BitVec.ofNat 64 (rootFrom k (p * 2 ^ (64 * k)) 72 0)

/-- The primes below 410, which are the first 80. -/
def firstPrimes : List Nat :=
  (List.range 410).filter fun p => 2 ≤ p && (List.range 21).all fun d => d < 2 || p ≤ d || p % d ≠ 0

/-- The round constants: cube roots of the first 80 primes. -/
def roundConstants : List DWord := firstPrimes.map (rootFraction 3)

/-- Square roots of the first sixteen primes: the first eight begin SHA-512, the others SHA-384. -/
def squareRoots : List DWord := (firstPrimes.take 16).map (rootFraction 2)

/-- The first half of a constant, as the hashes of 32-bit words take it. -/
def upperHalf (w : DWord) : Word := w.extractLsb' 32 32

/-! ## The hashes -/

/-- Two rotations, and a third or a shift. -/
structure Mix where
  r : Nat
  q : Nat
  p : Nat
  deriving DecidableEq, Repr

/-- A hash of the family, by the width of its words. -/
structure Sha2 (w : Nat) where
  /-- The schedule's functions, of rotations and a shift. -/
  sched0 : Mix
  sched1 : Mix
  /-- A round's functions, of rotations. -/
  round0 : Mix
  round1 : Mix
  /-- One constant a round. -/
  consts : List (BitVec w)
  deriving DecidableEq, Repr

def Mix.turned {w : Nat} (m : Mix) (x : BitVec w) : BitVec w :=
  x.rotateRight m.r ^^^ x.rotateRight m.q ^^^ x.rotateRight m.p
def Mix.shifted {w : Nat} (m : Mix) (x : BitVec w) : BitVec w :=
  x.rotateRight m.r ^^^ x.rotateRight m.q ^^^ (x >>> m.p)

/-- Big-endian bytes to a word. -/
def shaWord (w : Nat) (bs : List Byte) : BitVec w :=
  bs.foldl (fun a b => (a <<< 8) ||| b.setWidth w) 0

/-- A word as big-endian bytes. -/
def shaBytes {w : Nat} (x : BitVec w) : List Byte :=
  (List.range (w / 8)).map fun i => (x >>> (w - 8 - 8 * i)).setWidth 8

/-- Extends the message schedule (kept newest first) by as many words. -/
def Sha2.extend {w : Nat} (h : Sha2 w) : Nat → List (BitVec w) → List (BitVec w)
  | 0, ws => ws
  | n + 1, ws =>
    h.extend n ((h.sched1.shifted (ws.getD 1 0) + ws.getD 6 0 + h.sched0.shifted (ws.getD 14 0) + ws.getD 15 0) :: ws)

/-- One round on the eight working variables. -/
def Sha2.round {w : Nat} (h : Sha2 w) (v : List (BitVec w)) (kw : BitVec w × BitVec w) : List (BitVec w) :=
  let a := v.getD 0 0
  let b := v.getD 1 0
  let c := v.getD 2 0
  let e := v.getD 4 0
  let f := v.getD 5 0
  let g := v.getD 6 0
  let ch := (e &&& f) ^^^ (~~~e &&& g)
  let t1 := v.getD 7 0 + h.round1.turned e + ch + kw.1 + kw.2
  let maj := (a &&& b) ^^^ (a &&& c) ^^^ (b &&& c)
  [t1 + h.round0.turned a + maj, a, b, c, v.getD 3 0 + t1, e, f, g]

/-- One block of sixteen words. -/
def Sha2.block {w : Nat} (h : Sha2 w) (x : List (BitVec w)) (blk : List Byte) : List (BitVec w) :=
  let w16 := (List.range 16).map fun i => shaWord w ((blk.drop (w / 8 * i)).take (w / 8))
  let ws := (h.extend (h.consts.length - 16) w16.reverse).reverse
  List.zipWith (· + ·) x ((List.zip h.consts ws).foldl h.round x)

/-- All blocks of a padded message. -/
def Sha2.blocks {w : Nat} (h : Sha2 w) : Nat → List (BitVec w) → List Byte → List (BitVec w)
  | 0, x, _ => x
  | n + 1, x, m => h.blocks n (h.block x (m.take (2 * w))) (m.drop (2 * w))

/-- The hash of a list of bytes from its initial value: the length in bits stands in the last two words. -/
def Sha2.digest {w : Nat} (h : Sha2 w) (first : List (BitVec w)) (m : List Byte) : List Byte :=
  let zeros := (4 * w - 1 - w / 4 - m.length % (2 * w)) % (2 * w)
  let len := (List.range (w / 4)).map fun i => BitVec.ofNat 8 (8 * m.length / 256 ^ (w / 4 - 1 - i))
  let padded := m ++ [0x80] ++ List.replicate zeros 0 ++ len
  (h.blocks (padded.length / (2 * w)) first padded).flatMap shaBytes

/-- Hashes of 64-bit words, and of 32-bit words. -/
def sha64 : Sha2 64 := ⟨⟨1, 8, 7⟩, ⟨19, 61, 6⟩, ⟨28, 34, 39⟩, ⟨14, 18, 41⟩, roundConstants⟩
def sha32 : Sha2 32 := ⟨⟨7, 18, 3⟩, ⟨17, 19, 10⟩, ⟨2, 13, 22⟩, ⟨6, 11, 25⟩, (roundConstants.take 64).map upperHalf⟩

/-- SHA-256 and SHA-512 of a list of bytes. -/
def sha256 (m : List Byte) : List Byte := sha32.digest ((squareRoots.take 8).map upperHalf) m
def sha512 (m : List Byte) : List Byte := sha64.digest (squareRoots.take 8) m

/-- SHA-384 of a list of bytes. -/
def sha384 (m : List Byte) : BitVec 384 := shaWord 384 ((sha64.digest (squareRoots.drop 8) m).take 48)

/-- A digest as 48 bytes, the first byte highest, as SHA-384 writes it. -/
def bytes384 (d : BitVec 384) : List Byte := shaBytes d

end Sys2Proof.Machine
end

