-- ==== Sys2Proof/Syntax.lean ====
section
/-! DEFINITION. Operands, type codes, function suffixes and the one inductive of instructions and
events: one constructor per row of spec/opcode_table.json. An instruction row carries the operand
fields of its 96-bit word (R33), already turned into operand forms; an event row carries what
names the event's place. -/

namespace Sys2Proof

/-- Operand codes, Table 2-4 (R36). -/
inductive Opnd where
  | g (n : Fin 240)
  | k (n : Fin 8)
  | gz
  | idx (x : Fin 4)
  | imm
  | s (n : Fin 64)
  | p (n : Fin 8)
  | x (n : Fin 4)
  | j (n : Fin 16)
  | sh (n : Fin 16)
  | tk (n : Fin 8)
  | sp (n : Fin 128)
  deriving DecidableEq, Repr

/-- Type codes, Table 2-6 (R42). -/
inductive Ty where
  | n8 | n16 | n32 | n64 | i8 | i16 | i32 | i64
  | f64 | f32 | f16 | bf16 | e4m3 | e5m2 | e2m1 | b128
  deriving DecidableEq, Repr

/-- The guard field (R35): a predicate number and its negation. -/
structure Guard where
  pred : Fin 8
  neg : Bool
  deriving DecidableEq, Repr

/-- The fields of an instruction word other than MAJOR and FUNC (R33). -/
structure Ops where
  guard : Guard
  dst : Opnd
  a : Opnd
  b : Opnd
  c : Opnd
  ty : Ty
  mod : BitVec 4
  imm : Word
  deriving DecidableEq, Repr

/-- `ICMP` relations, Table 2-10. -/
inductive Cmp where
  | eq | ne | lt | le | gt | ge
  deriving DecidableEq, Repr

/-- `FCMP` relations, Table 2-10. -/
inductive FCmp where
  | eq | ne | lt | le | gt | ge | un | ord
  deriving DecidableEq, Repr

/-- `ATOM`, `ATOMN` and `SATOM` operations, Table 2-10. -/
inductive AtomOp where
  | add | min | max | and | or | xor | swap
  deriving DecidableEq, Repr

/-- `VOTE` operations, Table 2-10. -/
inductive VoteOp where
  | every | some | nobody | same | mask | count
  deriving DecidableEq, Repr

/-- `SHFL` operations, Table 2-10. -/
inductive ShflOp where
  | abs | rise | fall | flip | rot
  deriving DecidableEq, Repr

/-- `MATCH` operations, Table 2-10. -/
inductive MatchOp where
  | peers | agree
  deriving DecidableEq, Repr

/-- `SCAN` operations, and those of `RDUC` other than `.maxi`, Table 2-10. -/
inductive RedOp where
  | add | min | max | and | or | xor
  deriving DecidableEq, Repr

/-- `RDUC` operations, Table 2-10. -/
inductive RducOp where
  | tree (op : RedOp)
  | maxi
  deriving DecidableEq, Repr

/-- Bank modes of `BKCFG`, Table 2-10. -/
inductive BankSel where
  | cache | scratch | fifo
  deriving DecidableEq, Repr

/-- Parts of a tile that `BZLD` fills, Table 11-2. -/
inductive BzPart where
  | data | cscale | bscale | band
  deriving DecidableEq, Repr

/-- An agent that holds or shares a line, or that touches a granule (R184, R190). -/
inductive Agent where
  | core (n : Nat)
  | host
  | peer (m : Nat)
  deriving DecidableEq, Repr

/-- A holder of a line's copy in the directory (R190). -/
inductive Holder where
  | cluster (n : Nat)
  | host
  | peer (m : Nat)
  deriving DecidableEq, Repr

/-- An access by the host or a peer module: one event of 1 to 16 bytes (R194, R345). -/
structure ExtAccess where
  pa : Nat
  size : Nat
  /-- `none` for a load, the bytes for a store. -/
  store : Option (List Byte)
  /-- Bytes that a compare-and-swap compares before it stores: an atomic of the host (R345, R349, R352). -/
  cmp : Option (List Byte) := none
  deriving DecidableEq, Repr

/-- A unit whose corrected errors are counted (R337). -/
inductive ErrUnit where
  | cluster (die cl : Nat)
  | slice (die n : Nat)
  | page (pa : Nat)
  deriving DecidableEq, Repr

/-- Where an uncorrectable error strikes (R336, R337). -/
inductive ErrPlace where
  /-- HBM or second-tier DRAM. -/
  | memory (pa : Nat)
  /-- A last-level cache slice that holds the line of `pa`. -/
  | slice (pa : Nat)
  /-- A bank of cluster SRAM in cache mode: a way that holds the line of `pa`. -/
  | way (die cl pa : Nat)
  /-- A gang's bank in scratchpad or FIFO mode. -/
  | scratch (gang bank off : Nat)
  /-- A cluster's logic, or a register file. -/
  | logic (die cl : Nat)
  /-- Bezel storage, or its saved copy. -/
  | tile (gang entry elem : Nat)
  | accum (gang acc elem : Nat)
  /-- Shadow storage: a thread's registers, a group's scalars and shape registers, and everything else of a
  saved context. -/
  | shadowReg (gang grp gi reg : Nat)
  | shadowScalar (gang grp n : Nat)
  | shadowShape (gang grp n : Nat)
  | shadowControl (gang grp : Nat)
  deriving DecidableEq, Repr

/-- A port of the link die (R341). -/
inductive Port where
  | pcie
  | cxl (n : Nat)
  | fabric (n : Nat)
  deriving DecidableEq, Repr

/-- The completion of a PCIe request (R205, R350): successful, with poisoned data or an error, or
with Unsupported Request or Completer Abort. -/
inductive XReply where
  | ok
  | poisoned
  | refused
  deriving DecidableEq, Repr

/-- One constructor per row of spec/opcode_table.json. -/
inductive Instr where
  -- control (R85 to R91, R120)
  | nop (o : Ops)
  | br (o : Ops)
  | bany (o : Ops)
  | ball (o : Ops)
  | bnone (o : Ops)
  | jmpi (o : Ops)
  | call (o : Ops)
  | calli (o : Ops)
  | ret (o : Ops)
  | exit (o : Ops)
  | yield (o : Ops)
  -- integer (R92 to R102)
  | iadd (o : Ops)
  | iadd3 (o : Ops)
  | iaddc (o : Ops)
  | isub (o : Ops)
  | imul (o : Ops)
  | imulh (o : Ops)
  | imad (o : Ops)
  | imadw (o : Ops)
  | idiv (o : Ops)
  | irem (o : Ops)
  | imin (o : Ops)
  | imax (o : Ops)
  | iabs (o : Ops)
  | ineg (o : Ops)
  | icmp (cc : Cmp) (o : Ops)
  | and (o : Ops)
  | or (o : Ops)
  | xor (o : Ops)
  | andn (o : Ops)
  | not (o : Ops)
  | shl (o : Ops)
  | shr (o : Ops)
  | shra (o : Ops)
  | rol (o : Ops)
  | ror (o : Ops)
  | bfe (o : Ops)
  | bfi (o : Ops)
  | popc (o : Ops)
  | clz (o : Ops)
  | ctz (o : Ops)
  | brev (o : Ops)
  | perm (o : Ops)
  | lea (o : Ops)
  | idot4 (o : Ops)
  -- move, select, predicate, index (R103 to R108)
  | mov (o : Ops)
  | isel (o : Ops)
  | pset (o : Ops)
  | pmov (o : Ops)
  | movs (o : Ops)
  | xset (o : Ops)
  | xsetAdd (o : Ops)
  | xget (o : Ops)
  -- floating point (R142 to R149)
  | fadd (o : Ops)
  | fsub (o : Ops)
  | fmul (o : Ops)
  | ffma (o : Ops)
  | fscale (o : Ops)
  | fmin (o : Ops)
  | fmax (o : Ops)
  | fminn (o : Ops)
  | fmaxn (o : Ops)
  | fcmp (cc : FCmp) (o : Ops)
  | fclass (o : Ops)
  | frnd (o : Ops)
  | padd2 (o : Ops)
  | pmul2 (o : Ops)
  | pfma2 (o : Ops)
  | pdot2 (o : Ops)
  | frcp (o : Ops)
  | frsq (o : Ops)
  | fsqrt (o : Ops)
  | fdiv (o : Ops)
  | fexp2 (o : Ops)
  | flog2 (o : Ops)
  | fsin (o : Ops)
  | fcos (o : Ops)
  | ftanh (o : Ops)
  | sfuResultWrite (grp gi : Nat)
  -- conversion (R150 to R155)
  | cvt (o : Ops)
  | cvpk (o : Ops)
  | cvq8 (o : Ops)
  | dq (o : Ops)
  | rnd (o : Ops)
  -- rejoin sets and cross-lane (R109 to R126)
  | jnew (o : Ops)
  | jent (o : Ops)
  | jquit (o : Ops)
  | jwait (o : Ops)
  | jinfo (o : Ops)
  | vote (op : VoteOp) (o : Ops)
  | shfl (op : ShflOp) (o : Ops)
  | matchLanes (op : MatchOp) (o : Ops)
  | rduc (op : RducOp) (o : Ops)
  | scan (op : RedOp) (o : Ops)
  -- memory (R158 to R174)
  | ld (o : Ops)
  | st (o : Ops)
  | pref (o : Ops)
  | ldsp (o : Ops)
  | stsp (o : Ops)
  | cbrd (o : Ops)
  | cbwr (o : Ops)
  | bkcfg (mode : BankSel) (o : Ops)
  | bkcfgPhys (mode : BankSel) (o : Ops)
  | waitc (o : Ops)
  | accessQueuePerform (core : Nat)
  | strictAccessPerformed (grp gi : Nat)
  | invalidationAck (line : Nat) (who : Holder)
  | annealDrain (core granule : Nat)
  | annealAck (granule : Nat) (who : Agent)
  | bankServe (cluster bank : Nat)
  -- atomics (R201 to R214)
  | atom (op : AtomOp) (o : Ops)
  | atomn (op : AtomOp) (o : Ops)
  | acas (o : Ops)
  | acas2 (o : Ops)
  | ldrsv (o : Ops)
  | stcnd (o : Ops)
  | axadd (o : Ops)
  | axrd (o : Ops)
  | amaxi (o : Ops)
  | satom (op : AtomOp) (o : Ops)
  | sacas (o : Ops)
  -- matrix (R221 to R248)
  | bzaloc (o : Ops)
  | bzld (part : BzPart) (o : Ops)
  | bzfree (o : Ops)
  | mmaLb (o : Ops)
  | mmaBb (o : Ops)
  | macz (o : Ops)
  | maczRel (o : Ops)
  | mrd (o : Ops)
  | mst (o : Ops)
  | amxrd (o : Ops)
  | amxclr (o : Ops)
  | mstat (o : Ops)
  | engineOpBegin (op : Nat)
  | matrixPass (cluster : Nat)
  | matrixOpFinish (op : Nat)
  -- Ladle (R252 to R267)
  | cpy (o : Ops)
  | cpy2d (o : Ops)
  | cpyg (o : Ops)
  | cpys (o : Ops)
  | cpycb (o : Ops)
  | ladleCopyBegin (op : Nat)
  | copyFinish (op : Nat)
  | tkwait (o : Ops)
  | tktest (o : Ops)
  | tkdrop (o : Ops)
  -- stream unit (R271 to R277)
  | chain (o : Ops)
  | chainSweepFinish (op : Nat)
  | spk24 (o : Ops)
  | spk24ResultWrite (grp gi : Nat)
  | shld (o : Ops)
  | shst (o : Ops)
  | shset (o : Ops)
  | shget (o : Ops)
  -- launch (R279 to R299)
  | lnch (o : Ops)
  | graph (o : Ops)
  | gwait (o : Ops)
  | gcan (o : Ops)
  | gstat (o : Ops)
  | wid (o : Ops)
  | gridJoin (part die : Nat)
  | rangeRequest (grid die : Nat)
  | gangPlace (die : Nat)
  | dieReport (grid die : Nat)
  | spanAck (grid module : Nat)
  | spanAckTimeout (grid : Nat)
  | spanCancel (grid : Nat)
  -- system (R303 to R322)
  | trap (o : Ops)
  | tret (o : Ops)
  | uiack (o : Ops)
  | clk (o : Ops)
  | idphys (o : Ops)
  | mss (o : Ops)
  | tstickyClear (o : Ops)
  | uiraise (o : Ops)
  | svwait (o : Ops)
  | svwake (o : Ops)
  | ctxsv (o : Ops)
  | ctxld (o : Ops)
  | tlbinvPage (o : Ops)
  | tlbinvPasid (o : Ops)
  | tlbinvAll (o : Ops)
  | pasidset (o : Ops)
  | aclsClear (o : Ops)
  | cacheopClean (o : Ops)
  | cacheopInv (o : Ops)
  | cacheopFlush (o : Ops)
  | halt (o : Ops)
  | haltGo (o : Ops)
  | haltTerm (o : Ops)
  | gangStopComplete (gang : Nat)
  -- Planisher and fetch (R26, R74, R117)
  | planisherSelect (core : Nat)
  | lineRefetch (core : Nat)
  | orphanSet (grp : Nat)
  -- translation (R330)
  | walkStart (die : Nat)
  | walkComplete (die walker : Nat)
  -- queues and firmware commands (R305 to R307, R314, R346)
  | faultRingAppend (die : Nat)
  | qnotify (die queue : Nat) (value : Word)
  | notifyRelease (die queue : Nat)
  | launch (die queue : Nat)
  | ringGraph (die queue : Nat)
  | cancel (die queue : Nat)
  | wait (die queue : Nat)
  | interrupt (die queue : Nat)
  | ringBadOpcode (die queue : Nat)
  | msixSend (value : Word)
  | msixDeliver (vector : Nat)
  -- registers, firmware and boot (R334, R338, R342, R354 to R358)
  | errStatusClear (die : Nat) (value : DWord)
  | fwAperture (off : Nat) (bytes : List Byte)
  | lock
  | bootVerifyComplete (die : Nat)
  | partLock
  | pwrLimit (value : Word)
  | hallmarkExtend (digest : BitVec 384)
  | registerWrite (off : Nat) (value : DWord)
  -- attestation (R359)
  | getVersion
  | getCapabilities
  | negotiateAlgorithms
  | getDigests
  | getCertificate
  | challenge (nonce : BitVec 256)
  | getMeasurements (block : Nat)
  | spdmUnsupportedRequest (code : Byte)
  | conventionalReset
  -- power (R360, R361)
  | powerAverage (watts : Nat)
  | temperatureAlarm (die degrees : Nat)
  | alarmClear
  | thermalTrip (die degrees : Nat)
  -- errors (R336 to R339, R319)
  | correctedError (unit : ErrUnit)
  | correctedWindowExpiry (unit : ErrUnit)
  | uncorrectableError (place : ErrPlace)
  | schedulerCoreRecovery (die : Nat)
  -- links, host and peers (R192 to R197, R345, R350, R351)
  | xCompletion (grp gi : Nat) (reply : XReply)
  | completionTimeout (grp gi : Nat)
  | linkDown (port : Port)
  | linkL0Change (port : Port) (up : Bool)
  | hostSnoop (page : Nat)
  | peerReclaim (page : Nat)
  | pageHandoverComplete (page : Nat)
  | hostCxlAccess (acc : ExtAccess)
  | peerAccess (module : Nat) (acc : ExtAccess)
  | hostMemoryAccess (acc : ExtAccess)
  | peerPageReturn (page : Nat)
  deriving DecidableEq, Repr

end Sys2Proof
end

