-- ==== Sys2Proof/Machine/State.lean ====
section
/-! DEFINITION. The state of the machine as plain data, the two reasons a step can stop, and the
state after reset. Types only: every operation over them stands in the other files of this folder. -/

namespace Sys2Proof.Machine

/-- A finite map from natural numbers, kept with strictly rising keys. -/
abbrev NMap (α : Type) := List (Nat × α)

/-! ## Faults of the architecture -/

/-- Fault codes, Table 16-6 (R308). -/
inductive Code where
  | illegalOp | privOp | illegalLine | lineParity | badTarget | indexBound | callOverflow
  | retUnderflow | setNotMember | setMismatch | setMode | setBusy | setLaneClash | orphanSet
  | misalign | pageFault | pagePerm | scratchBound | bankMode | rangeLock | poison
  | atomicUnsupported | tileFree | accBusy | engineOperand | tokenBusy | launchHeader | gridSelf
  | cancel | userInt | softTrap | nestedFault | unitLost
  deriving DecidableEq, Repr

/-- A fault of one thread: its code and what TADDR receives. -/
structure Exc where
  code : Code
  addr : DWord := 0
  deriving DecidableEq, Repr

/-- The five FSTAT flags, Table 3-3 (R68). -/
structure Flags where
  iv : Bool := false
  dz : Bool := false
  ovf : Bool := false
  uf : Bool := false
  nx : Bool := false
  deriving DecidableEq, Repr

/-- A thread: its group's key and its GINDEX (R60). -/
structure Tid where
  grp : Nat
  gi : Nat
  deriving DecidableEq, Repr

/-! ## Translations and accesses -/

/-- Page types (R326). -/
inductive PageTy where
  | n | d | x
  deriving DecidableEq, Repr

/-- A valid leaf, checked by R327. -/
structure Leaf where
  base : Nat
  /-- log2 of the page size: 16, 29 or 42 (R325). -/
  bits : Nat
  ty : PageTy
  r : Bool
  w : Bool
  ex : Bool
  global : Bool
  /-- BIAS: true for host. -/
  bias : Bool
  forceS : Bool
  pin : Bool
  deriving DecidableEq, Repr

/-- An entry of a core's translation cache (R329); `pasid` is `none` for a GLOBAL translation. -/
structure TlbEntry where
  pasid : Option Nat
  vpn : Nat
  leaf : Leaf
  deriving DecidableEq, Repr

/-- Where a result goes: registers by code (g at 0 to 239, k at 240 to 247, s at 256 to 319). -/
inductive Dest where
  | none
  | reg (code w : Nat)
  | pred (n : Nat)
  | shape (n : Nat)
  deriving DecidableEq, Repr

/-- What an access does at its place, once translated. -/
inductive MemOp where
  | load (ty : Ty)
  | store (data : List Byte)
  | atom (op : AtomOp) (ty : Ty) (v : DWord) (returns : Bool)
  | cas (cmp new : List Byte)
  | axadd (ty : Ty) (v : Word)
  | axrd (clr : Bool)
  | amaxi (packed : DWord)
  | ldrsv
  | stcnd (data : List Byte)
  deriving DecidableEq, Repr

/-- One access of a thread. -/
structure Access where
  op : MemOp
  va : DWord
  pa : Nat
  size : Nat
  dst : Dest
  /-- To host memory biased to the host (R158, R204). -/
  host : Bool := false
  deriving DecidableEq, Repr

/-- Where an outstanding strict access stands (R160). -/
inductive Place where
  /-- Held at the Assay unit while the granule anneals (R185). -/
  | held (granule : Nat)
  /-- At the home slice, waiting for acknowledgements or in a queue (R190, R191). -/
  | home
  /-- Goes to the home once the lower lanes of its pack have been performed (R161, R206). -/
  | turn
  /-- May be performed by the next STRICT_ACCESS_PERFORMED. -/
  | ready
  /-- In a bank's request queue (R168). -/
  | bank (bank : Nat)
  /-- A PCIe request awaiting its completion (R350). -/
  | link
  /-- Parked because its page is departing (R193). -/
  | departing (page : Nat)
  deriving DecidableEq, Repr

/-- A thread's outstanding strict access. -/
structure Strict where
  acc : Access
  place : Place
  /-- The number of the pack that issued it, on its core (R161, R206; the model's own, log 1). -/
  pack : Nat := 0
  /-- The translation by which it was issued; none for the scratchpad (R321, R329). -/
  leaf : Option Leaf := none
  deriving DecidableEq, Repr

/-- An entry of a core's access queue (R187). -/
structure QEntry where
  tid : Tid
  acc : Access
  deriving DecidableEq, Repr

/-- A register write of the special-function unit or of `SPK24` not yet made (R148, R277). -/
structure LateWrite where
  dst : Dest
  value : DWord
  flags : Flags
  spk : Bool
  deriving DecidableEq, Repr

/-! ## Threads -/

/-- Completion tokens, Table 13-1 (R253). -/
inductive Token where
  | empty
  | pending (op : Nat)
  | done
  | faulted (e : Exc)
  deriving DecidableEq, Repr

/-- Modes of a bank of cluster SRAM (R166, R169). -/
inductive BankMode where
  | cache
  | scratch
  | fifo (slot : Nat)
  deriving DecidableEq, Repr

/-- Operands of a copy, captured at issue (R255). A place in scratchpad is an offset. -/
inductive CopyKind where
  | flat (d s : DWord) (len : Nat)
  | rows (d s : DWord) (shape : Shape)
  | gather (d s : DWord) (shape : Shape)
  | scatter (d s : DWord) (shape : Shape)
  | fifo (bank : Nat) (s : DWord) (len : Nat)
  deriving DecidableEq, Repr

/-- Conditions a parked thread waits for (R78). Its PC stays the slot of the instruction at which it
parked; it resumes there or at the next slot, as the instruction states. -/
inductive Wait where
  /-- Registers still awaiting a load, by code (R159). -/
  | regs (codes : List Nat)
  /-- A count that would pass 255: 0 LD, 1 ST, 2 CP, 3 MX (R70). -/
  | count (which : Nat)
  /-- A translation miss on a virtual 64 KiB page (R164, R330). -/
  | walk (vpn : Nat)
  /-- A PASID that is DYING (R332). -/
  | dying
  /-- The outstanding strict access. -/
  | strict
  /-- CNT.LD and CNT.ST not both zero before a D access (R160). -/
  | drained
  /-- A token, `TKWAIT`. -/
  | token (n : Nat)
  /-- Limits of `WAITC` (R174). -/
  | counts (ld st cp mx : Nat)
  /-- Completion of a grid or graph, `GWAIT`. -/
  | grid (handle : Word)
  /-- A notify, `SVWAIT`, with the register that receives TAIL. -/
  | notify (dst : Dest)
  /-- Stopping of gangs, `HALT`. -/
  | stop (gangs : List Nat)
  /-- An arrived member of a set (R115). -/
  | arrived (j : Nat)
  /-- A pending signing that this thread has signed (R230, R231). -/
  | signing (j : Nat)
  /-- A full reservation table met by the last signer (R231). -/
  | reservation (op : Nat)
  /-- Registers to be written by `MRD`; it resumes at the next slot (R241). -/
  | mrd (j : Nat)
  /-- Range-lock entries or lock records for an operation (R195). -/
  | ranges
  /-- Range-lock entries or lock records for the captured copy, or a full Ladle (R195, R255, R266). -/
  | ladle (op : Nat)
  /-- A full grid table at `LNCH`, with the header as captured and the destination (R284). -/
  | launch (hdr : Shape) (dst : Dest)
  /-- A full grid table at `GRAPH` (R284, R297). -/
  | gridTable
  /-- Acknowledgements of a spanning launch (R299). -/
  | span (grid : Nat)
  /-- A FIFO bank, as reader or writer (R170). -/
  | fifo (bank : Nat)
  /-- `CBRD`, or `CBWR` with its data, of slots of `size` bytes, in the queue of a bank whose earlier requests come
  first (R168, R172). -/
  | fifoTurn (bank size : Nat) (dst : Dest) (data : Option (List Byte))
  /-- `BKCFG` in the queue of a gang's bank, with the mode it sets and the bank that it names (R172, R176). -/
  | bank (gang bank : Nat) (mode : BankMode) (named : Nat)
  /-- The signing that a member has signed and would leave (`JQUIT`, `RET`, `EXIT`; R231). -/
  | leaving (set : Nat)
  /-- Operations and signings that name a tile, `BZFREE`. -/
  | tile (entry : Nat)
  /-- Lock records or an Anneal on granules, `ACLS.clear`. -/
  | granules (lo n : Nat)
  /-- Walks in flight, `TLBINV`: in a page of the given number and log2 of its size, if one is named. -/
  | walks (page : Option (Nat × Nat)) (pasid : Option Nat)
  /-- A page that is passing or away, on which a line or a range lies that the thread's instruction uses; `host`:
  under host bias, while the module still holds it (R193, R349). -/
  | page (page : Nat) (host : Bool)
  /-- The pages of the trap record: their walks, or their return (R193, R309, R330); then the trap is taken, in the
  order of the packs by their numbers and of the lanes (R310). -/
  | trap (e : Exc) (tepc : DWord) (flags pack : Nat)
  deriving DecidableEq, Repr

/-- Lane-slot states of a placed thread, Table 3-8. -/
inductive Run where
  | ready
  | issuing
  | parked (w : Wait)
  | held (w : Option Wait)
  | done
  deriving DecidableEq, Repr

/-- The state of one thread, Table 3-1 (R64). Maps default to zero, tokens to EMPTY. -/
structure Thread where
  regs : NMap Word := []
  rpoison : NMap DWord := []
  xr : NMap (Nat × Nat) := []
  preds : BitVec 7 := 0
  tokens : NMap Token := []
  pc : DWord := 0
  link : DWord := 0
  callDepth : Nat := 0
  fstat : Flags := {}
  tsticky : BitVec 2 := 0
  rndctr : DWord := 0
  cntLd : Nat := 0
  cntSt : Nat := 0
  cntCp : Nat := 0
  cntMx : Nat := 0
  inTrap : Bool := false
  uiPend : Bool := false
  cancelPend : Bool := false
  tcause : Word := 0
  tepc : DWord := 0
  taddr : DWord := 0
  uiCause : Word := 0
  pasid : BitVec 20 := 0
  /-- What privileged `MSS` has put in PCORE, PDIE and PMODULE, by code less 0x1C0 (R66); unlisted
  ones read the physical place (R65). -/
  ident : NMap Word := []
  run : Run := .ready
  late : List LateWrite := []
  strict : Option Strict := none
  /-- Instructions issued since the thread's `LDRSV` (R214). -/
  sinceRsv : Nat := 0
  /-- The instruction at PC has been counted by an earlier issue at its own slot (R214). -/
  counted : Bool := false
  /-- Set from trap entry until the first issue from TVEC (R64). -/
  checkTvec : Bool := false
  /-- Set from placement until the first issue: an unmarked ENTRY slot faults there (R282). -/
  checkEntry : Bool := false
  /-- Virtual 64 KiB pages whose walks have failed for the instruction at PC, which meets them as it issues again
  (R249, R330). -/
  walkFails : List Nat := []
  deriving DecidableEq, Repr

/-! ## Groups and rejoin sets -/

/-- What an arrival captures (R109): operand values, predicate, destinations and successors. -/
structure Capture where
  a : DWord := 0
  sel : Word := 0
  fallback : DWord := 0
  p : Bool := false
  dst : Dest := .none
  pmiss : Nat := 7
  taken : DWord := 0
  next : DWord := 0
  deriving DecidableEq, Repr

/-- Output of `MST` and of the engine's whole-operation operands (R230). -/
inductive SignKind where
  | mmaLb (fmt : Ty) (btile : Word) (b0 acc : Nat)
  | mmaBb (fmt : Ty) (atile : Word) (a0 : Nat) (btile : Word) (b0 acc n : Nat)
  | macz (fp : Bool) (acc : Nat)
  | maczRel (acc : Nat)
  | mrd (fp : Bool) (acc slice : Nat)
  | mst (fp : Bool) (fmt : Ty) (acc : Nat) (addr : DWord) (pitch : Word) (trans sat : Bool) (scale : Word)
      (cell : Option Nat)
  deriving DecidableEq, Repr

/-- What the member in one lane signs: A row bits, row scale, and `MRD` destination. -/
structure SignRow where
  gi : Nat
  row : List Word := []
  scale : Word := 0x3F800000
  dst : Dest := .none
  deriving DecidableEq, Repr

/-- A pending signing (R230): the first signer's operands and the rows signed, by lane, and for an `MST` its
destination as the first signing translated and checked it (R242). -/
structure Signing where
  pc : DWord
  kind : SignKind
  rows : NMap SignRow
  dest : List (Nat × Nat × Leaf) := []
  deriving DecidableEq, Repr

/-- A rejoin set (R109). -/
structure JSet where
  lx : Bool := false
  /-- Members by GINDEX with their entered depth. -/
  members : NMap Nat := []
  arrived : NMap Capture := []
  pending : DWord := 0
  /-- The instruction at which the arrivals stand. -/
  what : Option Instr := none
  signing : Option Signing := none
  deriving DecidableEq, Repr

/-- A counted fault (R291). -/
structure FirstFault where
  code : Code
  workid : DWord
  addr : DWord
  deriving DecidableEq, Repr

/-- A placed group (Table 3-1, R60 to R64). -/
structure Group where
  gang : Nat
  pos : Nat := 0
  /-- The group number within the grid (R279). -/
  num : Nat := 0
  gsize : Nat := 1
  /-- Registers per thread rounded up to a multiple of 8 (R41). -/
  gcount : Nat := 8
  nsets : Nat := 0
  prio : Nat := 0
  core : Nat := 0
  /-- Physical turns of every lane that the group takes, in ascending order (R60, R63). -/
  turns : List Nat := []
  /-- First strip of its run in every lane (R62, R63). -/
  strip : Nat := 0
  scal : NMap Word := []
  spoison : NMap DWord := []
  shapes : NMap Shape := []
  shpoison : NMap DWord := []
  sets : NMap JSet := []
  tvec : DWord := 0
  trec : DWord := 0
  threads : List Thread := []
  /-- Stopped alone, by escalation (R314). -/
  stopped : Bool := false
  /-- The fault that escalated, counted if the group is terminated (R291, R314). -/
  fault : Option FirstFault := none
  /-- An uncorrectable error has struck a PC, a set or a token of its saved context (R339). -/
  damaged : Bool := false
  /-- To be terminated once the pack that is issuing has issued (R315, R316). -/
  doomed : Bool := false
  terminated : Bool := false
  deriving DecidableEq, Repr

/-! ## Gangs: banks, tiles, accumulators -/

/-- A waiting writer of a FIFO bank: a thread with its captured data, or a copy (R170, R262). -/
inductive Writer where
  | thread (t : Tid) (data : List Byte)
  | copy (op : Nat)
  deriving DecidableEq, Repr

/-- A bank of cluster SRAM. -/
structure Bank where
  mode : BankMode := .scratch
  data : NMap Byte := []
  poison : List Nat := []
  head : Nat := 0
  tail : Nat := 0
  filled : Nat := 0
  readers : List (Tid × Dest) := []
  writers : List Writer := []
  queue : List Tid := []
  deriving DecidableEq, Repr

/-- Tile formats (R223). -/
inductive TileFmt where
  | bf16 | f16 | e4m3 | e5m2 | i8 | e2m1 | i4
  deriving DecidableEq, Repr

/-- An allocated tile (R223, R224). Element (k, j) of a B tile is listed under 64k + j, element
(i, k) of an A tile under 65536i + k; unlisted elements read as `BZALOC` leaves them. -/
structure Tile where
  isA : Bool
  fmt : TileFmt
  depth : Nat
  base : Nat
  units : Nat
  data : NMap (BitVec 16) := []
  cscale : NMap Word := []
  bscale : NMap Byte := []
  band : NMap (BitVec 16) := []
  poison : List Nat := []
  deriving DecidableEq, Repr

/-- An accumulator tile (R239): element (i, j) under 64i + j. Binding is to (group, set). -/
structure Accum where
  bound : Option (Nat × Nat) := none
  reserved : Option (Nat × Nat) := none
  fp : Bool := true
  data : NMap Word := []
  poison : List Nat := []
  deriving DecidableEq, Repr

/-- Status of a gang (R81, R316 to R318). -/
inductive GangStatus where
  | running
  | stopping
  | held
  | saved (die ctx : Nat)
  deriving DecidableEq, Repr

/-- A placed gang. -/
structure Gang where
  grid : Nat
  num : Nat := 0
  /-- Slot in its cluster, part of the GID (R316). -/
  slot : Nat := 0
  cluster : Nat := 0
  core0 : Nat := 0
  groups : List Nat := []
  status : GangStatus := .running
  nbanks : Nat := 0
  phys : List Nat := []
  banks : NMap Bank := []
  tiles : NMap Tile := []
  gens : NMap Nat := []
  accs : NMap Accum := []
  deriving DecidableEq, Repr

/-! ## Engine operations -/

/-- A held range (R195): bytes of memory, in physical pieces, or of the gang's scratchpad. -/
structure Range where
  /-- `none` for memory, `some gang` for scratchpad. -/
  scratch : Option Nat
  /-- Start, length, and whether lock records stand for it at this module's Assay units (R195, R197):
  bytes of host-biased memory and of X pages have none. -/
  pieces : List (Nat × Nat × Bool)
  dst : Bool
  /-- The cluster whose engine reads it. -/
  cluster : Nat := 0
  /-- Bytes of X pages whose read has ended in an error or a timeout, or of banks that are lost (R268, R339, R350). -/
  lost : List (Nat × Nat) := []
  deriving DecidableEq, Repr

/-- Kinds of engine operations. -/
inductive OpKind where
  | copy (kind : CopyKind) (spd sps : Bool) (token : Nat)
  | chain (prog : Shape) (count : Nat)
  | bzld (part : BzPart) (tile k0 n : Nat) (addr : DWord) (pitch : Word) (trans sp : Bool)
  | sign (kind : SignKind) (rows : NMap SignRow) (j : Nat)
  deriving DecidableEq, Repr

/-- Phases of an operation (R195, R198, R233): a completed signing or an issued copy whose range-lock entries
are not yet taken; ranges held; begun. -/
inductive Phase where
  | claiming
  | waiting
  | running
  deriving DecidableEq, Repr

/-- An engine operation. -/
structure EngineOp where
  kind : OpKind
  grp : Nat
  gang : Nat
  core : Nat
  /-- The issuer, or every signer. -/
  threads : List Nat
  ranges : List Range
  phase : Phase := .waiting
  /-- Start event (R195 step 4): `none` until the issuing core's queue has drained. -/
  start : Option Nat := none
  /-- Accesses of the core's queue that must be performed first. -/
  ahead : Nat := 0
  /-- Passes made, slots of a `CPYCB` or segments of a sweep written, bytes that another copy has written. -/
  done : Nat := 0
  /-- Grants since it became ready (R234). -/
  waited : Nat := 0
  stopped : Bool := false
  /-- Slots of a `CPYCB` as read, each with its poisoned 64-bit words (R256, R262, R268). -/
  slots : List (List Byte × List Nat) := []
  /-- The destination of an `MST`, as its first signing translated it (R242). -/
  dest : List (Nat × Nat × Leaf) := []
  /-- The pack whose issue made the copy (R255). -/
  pack : Nat := 0
  /-- Virtual 64 KiB pages whose walks have failed for the operation (R256, R330). -/
  walkFails : List Nat := []
  /-- What a running copy or sweep has read and has still to write: offset, bytes, poison (R256, R267, R276). -/
  moves : Option (List (Nat × List Byte × Bool)) := none
  deriving DecidableEq, Repr

/-! ## Cores, clusters, dies -/

/-- A block-table slot in use (R72): waiting threads by GINDEX with their stamps. -/
structure Slot where
  grp : Nat
  pc : DWord
  waiting : NMap Nat
  deriving DecidableEq, Repr

/-- The stream of the current selection (R75). -/
structure Stream where
  grp : Nat
  pc : DWord
  slot : Option Nat
  /-- Packs still to issue the current instruction, in order. -/
  todo : List (List Nat)
  /-- Packs that have issued it and stay. -/
  cont : List (List Nat)
  /-- The part of the current pack that has issued it and stays. -/
  part : List Nat
  /-- The current pack has begun to issue: it issues whole (R75; the model's own, log 1). -/
  begun : Bool := false
  /-- Scalars as the current pack found them. -/
  snap : NMap Word
  /-- Threads of the snapshot that were not formed into a pack, with their stamps. -/
  rest : NMap Nat
  /-- Lines read by this block: line number and 64 bytes. -/
  lines : List (Nat × List Byte)
  deriving DecidableEq, Repr

/-- A core. Its key is die × 64 + number. -/
structure Core where
  table : NMap Slot := []
  overflow : List (Tid × DWord × Nat) := []
  selections : Nat := 0
  /-- Packs that have begun to issue an instruction (the model's own, log 1). -/
  packs : Nat := 0
  stream : Option Stream := none
  queue : List QEntry := []
  tlb : List TlbEntry := []
  /-- Damaged bits of the instruction cache's copy of a line (R26). -/
  icache : NMap (BitVec 512) := []
  deriving DecidableEq, Repr

/-- A cluster. Its key is die × 16 + number. -/
structure Cluster where
  quenched : Bool := false
  withdrawn : Bool := false
  /-- Physical banks outside any gang that `BKCFG.phys` has taken from cache mode (R173). -/
  banks : NMap Bank := []
  errors : Nat := 0
  deriving DecidableEq, Repr

/-- What waits for a walk beside threads: an engine operation, or the command at the head of a die's queue
(R256, R306, R330). -/
inductive Asker where
  | op (key : Nat)
  | ring (die queue : Nat)
  deriving DecidableEq, Repr

/-- A translation miss: queued, or in flight in a walker (R330). -/
structure Miss where
  pasid : Nat
  vpn : Nat
  waiters : List Tid
  cores : List Nat
  others : List Asker := []
  deriving DecidableEq, Repr

/-- A record waiting for the fault ring (R314). -/
structure Escalation where
  grp : Nat
  gi : Nat
  code : Code
  orig : Nat
  reason : Nat
  epc : DWord
  addr : DWord
  workid : DWord := 0
  depth : Nat := 0
  grid : Word := 0
  phys : Word := 0
  /-- FLAGS of the record (Table 16-7). -/
  flags : Nat := 0
  deriving DecidableEq, Repr

/-- A compute die. -/
structure Die where
  /-- Number of the scheduler core on the die (R11). -/
  sched : Option Nat := none
  qbase : NMap DWord := []
  qcfg : NMap Word := []
  tail : NMap (BitVec 16) := []
  pend : List Nat := []
  /-- Queue head and the entry in progress, in shadow storage (R319). -/
  qhead : NMap Nat := []
  inprog : NMap (Word × Word) := []
  /-- Virtual 64 KiB pages whose walks have failed for the command at a queue's head (R330). -/
  ringFails : NMap (List Nat) := []
  /-- Host queues whose entry in progress the loss of the scheduler core has interrupted, still to be completed
  (R319 step 4). -/
  lost : List Nat := []
  /-- Notifies behind earlier CXL writes: number of arrival, queue, value (R346). -/
  notifies : List (Nat × Nat × Word) := []
  escalated : List Escalation := []
  launchFrag : Word := 0
  clustersLost : BitVec 16 := 0
  pagesRetired : Nat := 0
  uncorrected : Nat := 0
  corrected : Nat := 0
  sliceErrors : NMap Nat := []
  slicesLost : List Nat := []
  /-- Saved contexts: number to gangs (R317). -/
  contexts : NMap (List Nat) := []
  walks : List Miss := []
  misses : List Miss := []
  /-- Grids running on the die, in the order they joined (R288). -/
  grids : List Nat := []
  temp : Nat := 0
  functioning : Bool := true
  /-- Cores that failed self-test at boot (R357). -/
  failedCores : List Nat := []
  /-- The core chosen to take over as scheduler core, until it is one (R319 step 2). -/
  heir : Option Nat := none
  digest : Option (BitVec 384) := none
  deriving DecidableEq, Repr

/-! ## The memory side -/

/-- Assay classes (R183). -/
inductive Class where
  | u
  | p (owner : Nat)
  | r
  | s
  deriving DecidableEq, Repr

/-- The Assay state of a granule (R183, R185). -/
structure Granule where
  cls : Class := .u
  /-- External agents that have loaded from it while R. -/
  loaders : List Agent := []
  /-- Acknowledgements still to come while ANNEALING, and the class to take. -/
  annealing : Option (List Agent × Class) := none
  /-- Cores that have drained but not acknowledged. -/
  drained : List Nat := []
  /-- Thread accesses held, in arrival order. -/
  held : List Tid := []
  deriving DecidableEq, Repr

/-- Directory states of a line (R190). -/
inductive DirState where
  | inv
  | sh (holders : List Holder)
  | ow (holder : Holder)
  deriving DecidableEq, Repr

/-- A line's directory entry (R190, R191). -/
structure Line where
  st : DirState := .inv
  /-- The request being served and the acknowledgements it awaits. -/
  busy : Option (Tid × List Holder) := none
  queue : List Tid := []
  deriving DecidableEq, Repr

/-- A reservation (R213). -/
structure Reservation where
  tid : Tid
  line : Nat
  slice : Nat
  deriving DecidableEq, Repr

/-- Who holds a page that may pass between devices (R192, R193). It is listed under its first 64 KiB
unit. -/
structure PageHold where
  /-- log2 of the page size of the mapping (R192, R325). -/
  bits : Nat := 16
  /-- The page has passed between devices: a granule of it that is not listed reads as S (R193). -/
  passed : Bool := false
  /-- Granules that a remap or `ACLS.clear` has returned to U since it passed: first granule and number (R184). -/
  cleared : List (Nat × Nat) := []
  /-- `none`: this module. -/
  holder : Option Holder := none
  departing : Bool := false
  /-- Who takes the page at the handover; kept until the new holder's own access is performed
  (R193 step 4). -/
  taker : Option Holder := none
  /-- The host has asked for the page and has still to make its access (R193, R349). -/
  snooped : Bool := false
  /-- An access of the module waits for the page to come back (R193 step 4). -/
  wanted : Bool := false
  /-- Cores still to drain. -/
  drains : List Nat := []
  errors : Nat := 0
  retired : Bool := false
  deriving DecidableEq, Repr

/-! ## Launch -/

/-- Grid states (R293). -/
inductive GridState where
  | queued | running | cancelling
  deriving DecidableEq, Repr

/-- What a die holds of a running grid (R287): next gang and end of its range. -/
structure DieWork where
  next : Nat
  stop : Nat
  reported : Bool := false
  /-- The next gang has been attempted since the last retirement on the die (R63, R289). -/
  tried : Bool := false
  deriving DecidableEq, Repr

/-- A grid between its launch event and its completion. -/
structure Grid where
  hdr : Shape
  event : Nat
  part : Nat
  pasid : Nat
  slot : Nat
  state : GridState := .queued
  nextRange : Nat := 0
  dies : NMap DieWork := []
  gangsRun : Nat := 0
  terminated : Nat := 0
  count : NMap Nat := []
  first : NMap FirstFault := []
  failed : Bool := false
  /-- The command that launched it: die, queue, SEQ (R319). -/
  origin : Option (Nat × Nat × Word) := none
  /-- The graph and node it runs for (R298). -/
  graph : Option (Nat × Nat) := none
  /-- Modules still to acknowledge a spanning launch (R299). -/
  acks : List Nat := []
  /-- Modules that have not yet reported (R299). -/
  modules : List Nat := []
  /-- Gangs dealt to other modules (R287, R299). -/
  dealt : NMap Nat := []
  /-- Dies of other modules that have joined, as module × 8 + die (R288, R293, R299). -/
  farDies : List Nat := []
  /-- Dies of other modules that have ever joined (R291). -/
  farRan : List Nat := []
  /-- First faults that other modules have reported, each die under module × 8 + die: code number, work
  identifier and TADDR (R291, R299). -/
  far : NMap (Option (Nat × DWord × DWord)) := []
  /-- The launcher parked until a spanning launch is placed. -/
  launcher : Option (Tid × Dest) := none
  /-- For a grid of another module's root, of whose domain this module is a member: that module and the handle
  its root gave (R299; log 22). -/
  root : Option (Nat × Word) := none
  /-- This module has asked such a root for a range, and has no answer yet (R287). -/
  asked : Bool := false
  /-- One more than the last range that it has dealt here. -/
  granted : Nat := 0
  /-- Such a root has no range left. -/
  closed : Bool := false
  deriving DecidableEq, Repr

/-- States of a graph node, Table 15-4. -/
inductive NodeState where
  | waiting | launched | done | faulted | cancelled | skipped
  deriving DecidableEq, Repr

/-- A graph node, Table 15-4 (R297). -/
structure Node where
  hdrAddr : DWord
  pred : Nat
  state : NodeState := .waiting
  succ : List Nat
  handle : Word := 0
  cont : Bool
  taint : Bool := false
  deriving DecidableEq, Repr

/-- A running graph (R298). -/
structure Graph where
  part : Nat
  pasid : Nat
  slot : Nat
  table : DWord
  nodes : List Node
  cancelled : Bool := false
  deriving DecidableEq, Repr

/-- What a grid-table entry holds (R286). -/
inductive Launched where
  | grid (key : Nat)
  | graph (key : Nat)
  deriving DecidableEq, Repr

/-- A grid-table entry (R286). -/
structure TableEntry where
  gen : BitVec 20 := 0
  what : Option Launched := none
  deriving DecidableEq, Repr

/-- PASID states (R331). -/
inductive PasidState where
  | free | active | dying
  deriving DecidableEq, Repr

/-- A partition: its map registers (Table 17-4) and what it holds as a whole (R20). -/
structure Part where
  dies : BitVec 8 := 0
  pasidBase : DWord := 0
  pasidCfg : BitVec 5 := 0
  tier : DWord := 0
  cxl : DWord := 0
  xwin : DWord := 0
  pasids : NMap PasidState := []
  table : NMap TableEntry := []
  queue : List Nat := []
  amax : NMap Word := []
  /-- Other modules of its launch domain (R299). -/
  domain : List Nat := []
  /-- Dies of those modules, as module × 8 + die, that have told of no free grid position (R288, R299; log 22). -/
  farShut : List Nat := []
  /-- Modules of the domain whose own launch queue has a spanning grid at its head that waits for positions (R288,
  R299; log 22). -/
  farWant : List Nat := []
  stopped : Bool := false
  deriving DecidableEq, Repr

/-! ## Link die, firmware, power -/

/-- Reports to the host or to a scheduler core's log. -/
inductive Report where
  | fatal
  | advisory (unit : ErrUnit)
  /-- The same withdrawal as an entry of the die's scheduler core's log (R338). -/
  | withdrawal (die : Nat) (unit : ErrUnit)
  | uncorrectable (die : Nat)
  | poisonMet (die : Nat)
  | linkError (die : Nat)
  | reportAbandoned (part : Nat)
  | badHeader (part node : Nat)
  | copyFault (die : Nat) (code : Code)
  /-- A gang is placed or retires: the internal queues' news, whose records the spec lays out nowhere
  (R304, R316; logs 36, 46). -/
  | placement (die gid : Nat)
  | retirement (die gid : Nat)
  /-- This module acknowledges a spanning launch of another module's root (R299). -/
  | memberAck (module : Nat) (handle : Word)
  /-- This module's gangs of such a grid have retired: the gangs run, the groups terminated, the counts and the
  first faults (R291, R299). -/
  | memberDone (module : Nat) (handle : Word) (gangsRun terminated : Nat) (count : NMap Nat)
      (first : NMap FirstFault)
  deriving DecidableEq, Repr

/-- FW_BOOT.STATE, Table 19-3. -/
inductive BootState where
  | staging | verifying | running | ready | failed
  deriving DecidableEq, Repr

/-- A response of the DOE mailbox (R359). -/
inductive Spdm where
  | version
  | capabilities
  | algorithms
  | digests
  | certificate
  | challenge (nonce : BitVec 256)
  | measurement (block : Nat) (value : BitVec 384)
  | unsupported (code : Byte)
  deriving DecidableEq, Repr

/-- Registers and state of the link die. -/
structure Link where
  partLock : Bool := false
  index : BitVec 3 := 0
  recalls : BitVec 16 := 0
  atomicRefused : Nat := 0
  fabricUp : BitVec 4 := 0
  cxlUp : BitVec 2 := 0
  pcieUp : Bool := false
  down : List Port := []
  /-- MSI-X table in BAR 2: four words a vector (log 19), and the pending bits (R342, R348). The
  mask bit is listed inverted, since it is set at reset. -/
  msix : NMap Word := []
  msixPending : List Nat := []
  /-- Vectors held until earlier host stores are performed (R347). -/
  msixHeld : List Nat := []
  /-- Messages sent: vector, address and data (R348). -/
  msixSent : List (Nat × DWord × Word) := []
  fwStage : BitVec 14 := 0
  fwLock : Bool := false
  fwState : BootState := .staging
  diePass : BitVec 8 := 0
  fwError : BitVec 4 := 0
  denied : Nat := 0
  /-- Dies whose boot ROM has reported in this boot, with the error code of each. -/
  booted : NMap Nat := []
  hallmark : NMap (BitVec 384) := []
  pwrLimit : BitVec 13 := 3300
  /-- The limit in force: a write of PWR_LIMIT takes effect at the next average (R360). -/
  limit : BitVec 13 := 3300
  power : BitVec 13 := 0
  alarm : Bool := false
  trip : Bool := false
  quenchCount : BitVec 16 := 0
  doe : Option Spdm := none
  reports : List Report := []
  deriving DecidableEq, Repr

/-! ## The whole machine -/

/-- What moves next (the model's own; log 1): one issue of a core, a named event, a core's cache that
drops what it holds of a page (log 34), or a soft error in the instruction cache's copy of a line. -/
inductive Turn where
  | core (n : Nat)
  | event (i : Instr)
  | evict (core : Nat) (va : DWord)
  | upset (core line : Nat) (bits : BitVec 512)
  /-- Pages over `n` granules from `lo` on have been remapped (R184, R214; log 42). -/
  | remap (lo n : Nat)
  /-- Firmware joins a partition to a launch domain of other modules (R21, R299; log 43). -/
  | join (part : Nat) (modules : List Nat)
  /-- The root of another module of a partition's domain broadcasts a header and its handle (R299; log 22). -/
  | farGrid (part module pasid : Nat) (hdr : Shape) (handle : Word)
  /-- A die of this module joins a grid of another module's root, at the grid's start (R288, R299; log 22). -/
  | farStart (grid die : Nat)
  /-- That root deals a range to this module, or has none left (R287, R299; log 22). -/
  | farRange (grid : Nat) (range : Option Nat)
  /-- That root's user interrupt comes to this module (R299, R313; log 22). -/
  | farRaise (grid : Nat) (cause : Word)
  /-- Another module of a partition's domain tells which of its dies have no free position, or whether the head of
  its own launch queue wants positions (R288, R299; log 22). -/
  | farShut (part module : Nat) (dies : List Nat)
  | farWant (part module : Nat) (wants : Bool)
  /-- A running copy writes the bytes of its destination up to the next 4 KiB boundary, a running sweep its next
  segment (R267, R276; log 57). -/
  | engineStep (op : Nat)
  /-- A core fails its self-test at boot (R357; log 44). -/
  | coreFail (core : Nat)
  /-- An engine's read of bytes of an X page ends in an error, or in a timeout (R268, R350; log 45). -/
  | readFail (op pa n : Nat) (timeout : Bool)
  /-- The completion of a write to an X page fails (R175, R268; log 45). -/
  | writeFail (die : Nat)
  deriving DecidableEq, Repr

/-- The thread for which an instruction executes, with the group scalars as its pack found them
(R75; the model's own, log 1). -/
structure Cursor where
  tid : Tid
  snap : NMap Word
  deriving DecidableEq, Repr

/-- What memory itself holds of a line that a cache holds otherwise: its bytes and marked words, and whether the line is
dirty in the cache, or differs by a mark alone (R322, R362). -/
structure Beneath where
  bytes : List Byte
  marks : List Nat
  dirty : Bool
  deriving DecidableEq, Repr

/-- The machine. Cores are keyed by die × 64 + core, clusters by die × 16 + cluster; groups, gangs,
grids, graphs and operations by keys of the model's own (log 1). -/
structure State where
  /-- Bytes by physical address; an unlisted byte reads 0 (log 3). -/
  mem : List Host.Cell := []
  /-- Poisoned 64-bit words: physical address div 8 (R362). -/
  poison : List Nat := []
  /-- Contents that memory itself holds under lines that a cache holds otherwise, by line (R322, R362). -/
  backing : NMap Beneath := []
  /-- Poisoned words of clean copies in the ways of a cluster, by cluster and word (R336, R362). -/
  wayPoison : List (Nat × Nat) := []
  cores : NMap Core := []
  clusters : NMap Cluster := []
  dies : NMap Die := []
  groups : NMap Group := []
  gangs : NMap Gang := []
  grids : NMap Grid := []
  graphs : NMap Graph := []
  ops : NMap EngineOp := []
  assay : NMap Granule := []
  dir : NMap Line := []
  /-- Requests refused by a full pool, by slice, in the order refused (R191). -/
  refusedQ : NMap (List Tid) := []
  resv : List Reservation := []
  pages : NMap PageHold := []
  parts : NMap Part := []
  /-- Host and peer accesses held at a home behind an engine operation, with their numbers of
  arrival (R197). -/
  extHeld : List (Nat × Agent × ExtAccess) := []
  /-- What loads from outside were answered with: agent, physical address and bytes (R345, R356). -/
  answers : List (Agent × Nat × List Byte) := []
  link : Link := {}
  agenda : List Turn := []
  cur : Option Cursor := none
  /-- Counter from which free values are drawn (log 6). -/
  free : Nat := 0
  /-- Steps made, for CLOCK's free value (log 5). -/
  ticks : Nat := 0
  nextId : Nat := 0
  /-- Number of the next launch or start event in the order (R16). -/
  events : Nat := 0
  deriving DecidableEq, Repr

/-- The machine right after reset: every map empty (each unlisted record reads as its default, whose
field values are those of INVENTORY.md, State), HALLMARK[0] extended with the digest of the boot ROM
(R358), PWR_LIMIT 3,300 (Table 19-1). Values the spec gives no reset for are named in log 4. -/
def State.reset : State :=
  { link := { hallmark := [(0, sha384 (bytes384 0 ++ bytes384 Config.bootRomDigest))] } }

/-- Reasons the machine stops. -/
inductive Fault where
  /-- Raised by the meaning of an instruction when no thread is issuing (`State.cur` is `none`).
  `step` never does this: it names the issuing thread first. Safe: nothing runs. -/
  | noIssuer
  deriving DecidableEq, Repr

/-- Reasons an instruction has no meaning here. -/
inductive Refusal where
  /-- Raised by an arm of `exec` for an instruction that has no meaning yet. Safe: nothing runs. -/
  | notModelled (mnemonic : String)
  deriving DecidableEq, Repr

end Sys2Proof.Machine
end

