-- ==== Sys2Proof/Machine/Map.lean ====
section
/-! DEFINITION. Finite maps as lists with strictly rising keys; sets of numbers as rising lists. -/

namespace Sys2Proof.Machine

/-- The value listed under `k`. -/
def mfind {α : Type} : NMap α → Nat → Option α
  | [], _ => none
  | (j, v) :: m, k => if j = k then some v else mfind m k

/-- The value under `k`, or `d` where none is listed. -/
def mget {α : Type} (d : α) (m : NMap α) (k : Nat) : α := (mfind m k).getD d

/-- Lists `v` under `k`, in key order. -/
def mput {α : Type} : NMap α → Nat → α → NMap α
  | [], k, v => [(k, v)]
  | (j, w) :: m, k, v =>
    if k < j then (k, v) :: (j, w) :: m
    else if k = j then (k, v) :: m
    else (j, w) :: mput m k v

/-- Removes what is listed under `k`. -/
def mdel {α : Type} : NMap α → Nat → NMap α
  | [], _ => []
  | (j, w) :: m, k => if j = k then mdel m k else (j, w) :: mdel m k

/-- Makes the value under `k` be `v` in a map whose unlisted keys read `d`: nothing equal to `d`
is ever listed. -/
def mset {α : Type} [DecidableEq α] (d : α) (m : NMap α) (k : Nat) (v : α) : NMap α :=
  if v = d then mdel m k else mput m k v

/-- Applies `f` to a listed value. -/
def mmod {α : Type} (m : NMap α) (k : Nat) (f : α → α) : NMap α :=
  match mfind m k with
  | some v => mput m k (f v)
  | none => m

/-- Applies `f` to the value under `k`, `d` where none is listed. -/
def mupd {α : Type} (d : α) (m : NMap α) (k : Nat) (f : α → α) : NMap α :=
  mput m k (f (mget d m k))

/-- Keys in rising order. -/
def mkeys {α : Type} (m : NMap α) : List Nat := m.map Prod.fst

/-- Keys strictly rising: the one form of a map. -/
def risingKeys {α : Type} : NMap α → Bool
  | [] => true
  | [_] => true
  | (j, _) :: (k, w) :: m => decide (j < k) && risingKeys ((k, w) :: m)

/-- Adds a number to a rising list. -/
def nadd : List Nat → Nat → List Nat
  | [], k => [k]
  | j :: m, k => if k < j then k :: j :: m else if k = j then j :: m else j :: nadd m k

/-- Removes a number from a rising list. -/
def ndel (m : List Nat) (k : Nat) : List Nat := m.filter (· ≠ k)

/-- The lowest of `lo, lo+1, …` (at most `fuel` of them) for which `p` holds. -/
def lowest (p : Nat → Bool) : Nat → Nat → Option Nat
  | 0, _ => none
  | fuel + 1, k => if p k then some k else lowest p fuel (k + 1)

/-- The low bits of a word as a number: bits `[lo + w - 1 : lo]`. -/
def bitsOf {n : Nat} (v : BitVec n) (lo w : Nat) : Nat := (v.extractLsb' lo w).toNat

end Sys2Proof.Machine
end

