-- ==== Sys2Proof/Machine/Formats.lean ====
section
/-! DEFINITION. The format of each instruction: what each field of its word may hold (Tables 2-5, 4-1
to 4-5, 5-7, 6-2, 9-1, 11-2, 13-2, 14-1, 15-2 and 16-8), whether it ends a block (Table 2-2) and
whether it is privileged (R49). -/

namespace Sys2Proof.Machine

/-- What an operand field may hold, with the operand's width in registers. -/
inductive Use where
  /-- Unused: the code 0x000 (R34). -/
  | none
  /-- A data source (R83), 0x0FD if `imm`; `bits` is the width 0x0FD must fit (R39). -/
  | src (w : Nat) (imm : Bool) (bits : Nat)
  /-- A register source: g, k, s or indexed, and gz where `gz`. -/
  | reg (w : Nat) (gz : Bool)
  /-- A data destination (R83). -/
  | dst (w : Nat)
  | pred
  | xr
  | set
  | shape
  | token
  | special
  /-- A group of 16 g registers (R235). -/
  | block
  /-- gz only. -/
  | zero
  deriving DecidableEq, Repr

/-- The format of an instruction. -/
structure Fmt where
  dst : Use := .none
  a : Use := .none
  b : Use := .none
  c : Use := .none
  types : List Ty := [.n8]
  mods : List Nat := [0]
  /-- The IMM bits the instruction gives a meaning of its own, if any (R34, R83). -/
  own : Option Nat := none
  /-- Indexed codes are accepted. -/
  idx : Bool := true
  /-- GUARD must be 0b0111 (R115, R235). -/
  always : Bool := false
  /-- The prior content of DST is read. -/
  readsDst : Bool := false
  /-- Ends a block (R29). -/
  ends : Bool := false
  /-- Privileged (R49). -/
  priv : Bool := false
  /-- Privileged by its `.phys` form (R173). -/
  phys : Bool := false
  /-- Further conditions decided from the encoding. -/
  ok : Bool := true
  deriving DecidableEq, Repr

/-- Registers of a value of a type (R38). -/
def tw : Ty → Nat
  | .n64 | .i64 | .f64 => 2
  | .b128 => 4
  | .n8 | .n16 | .n32 | .i8 | .i16 | .i32 | .f32 | .f16 | .bf16 | .e4m3 | .e5m2 | .e2m1 => 1

/-- Bits that a 0x0FD float operand of a type must fit (R39). -/
def fbits : Ty → Nat
  | .f16 | .bf16 => 16
  | .e4m3 | .e5m2 => 8
  | .e2m1 => 4
  | .n8 | .n16 | .n32 | .n64 | .i8 | .i16 | .i32 | .i64 | .f64 | .f32 | .b128 => 32

/-- Floating-point types (Table 5-1). -/
def isFloat : Ty → Bool
  | .f64 | .f32 | .f16 | .bf16 | .e4m3 | .e5m2 | .e2m1 => true
  | .n8 | .n16 | .n32 | .n64 | .i8 | .i16 | .i32 | .i64 | .b128 => false

/-- Type of a 4-bit code, Table 2-6 (R42). -/
def tyOf (n : Nat) : Ty :=
  [Ty.n8, .n16, .n32, .n64, .i8, .i16, .i32, .i64,
   .f64, .f32, .f16, .bf16, .e4m3, .e5m2, .e2m1, .b128].getD n .b128

/-- An operand is an indexed code. -/
def Opnd.isIdx : Opnd → Bool
  | .idx _ => true
  | .g _ | .k _ | .gz | .imm | .s _ | .p _ | .x _ | .j _ | .sh _ | .tk _ | .sp _ => false

/-- The instruction holds an indexed code. -/
def hasIdx (o : Ops) : Bool :=
  Opnd.isIdx o.dst || Opnd.isIdx o.a || Opnd.isIdx o.b || Opnd.isIdx o.c

/-- IMM as every use but the index offset sees it (R39, R40). -/
def ownImm (o : Ops) : Word :=
  if hasIdx o then (o.imm.extractLsb' 0 24).signExtend 32 else o.imm

/-- The second type, IMM[3:0] (R42). -/
def srcTy (o : Ops) : Ty := tyOf (bitsOf (ownImm o) 0 4)

/-- Rounding is `.rsr` (Table 2-7). -/
def isRsr (o : Ops) : Bool := o.mod.extractLsb' 0 3 = 4

def allImm : Nat := 0xFFFFFFFF
def i4t : List Ty := [.i32, .n32, .i64, .n64]
def n2t : List Ty := [.n32, .n64]
def f4t : List Ty := [.f64, .f32, .f16, .bf16]
def f3t : List Ty := [.f32, .f16, .bf16]
def allTypes : List Ty :=
  [.n8, .n16, .n32, .n64, .i8, .i16, .i32, .i64, .f64, .f32, .f16, .bf16, .e4m3, .e5m2, .e2m1]
def loadTypes : List Ty := [.n8, .n16, .i8, .i16, .n32, .n64, .b128]
def storeTypes : List Ty := [.n8, .n16, .n32, .n64, .b128]
def fifoTypes : List Ty := [.n32, .n64, .b128]
def satMods : List Nat := [0, 8]
def roundSat : List Nat := [0, 1, 2, 3, 4, 8, 9, 10, 11, 12]
def roundSatNoR : List Nat := [0, 1, 2, 3, 8, 9, 10, 11]

/-- A float source of TYPE (R140). -/
def fsrc (o : Ops) : Use := .src (tw o.ty) true (fbits o.ty)

/-- The random operand: present only under `.rsr` (R140). -/
def rsrc (o : Ops) : Use := if isRsr o then .src 1 true 32 else .none

/-- The random operand of an instruction whose IMM is its own. -/
def rsrcReg (o : Ops) : Use := if isRsr o then .src 1 false 32 else .none

def fTwo (o : Ops) (ts : List Ty) (ms : List Nat) : Fmt :=
  { dst := .dst (tw o.ty), a := .src (tw o.ty) true 32, b := .src (tw o.ty) true 32,
    types := ts, mods := ms }
def fOne (o : Ops) (ts : List Ty) (ms : List Nat) : Fmt :=
  { dst := .dst (tw o.ty), a := .src (tw o.ty) true 32, types := ts, mods := ms }
def fThree32 (ts : List Ty) : Fmt :=
  { dst := .dst 1, a := .src 1 true 32, b := .src 1 true 32, c := .src 1 true 32, types := ts }
def fFlt (o : Ops) (ts : List Ty) : Fmt :=
  { dst := .dst (tw o.ty), a := fsrc o, types := ts }
def fAddr : Fmt := { a := .reg 2 true, own := some allImm }
def fOff : Fmt := { a := .src 1 false 32, own := some allImm }
def fSign : Fmt := { a := .set, idx := false, always := true }
def fMma (o : Ops) : Fmt :=
  { fSign with
    dst := if o.ty = .e4m3 || o.ty = .e5m2 then .reg 1 true else .none, c := .reg 2 false,
    types := [.bf16, .f16, .e4m3, .e5m2, .i8], own := some 0xFFF7 }
def fCopy (o : Ops) : Fmt :=
  { dst := .token, a := .reg (if o.mod.getLsbD 0 then 1 else 2) true,
    b := .reg (if o.mod.getLsbD 1 then 1 else 2) true,
    mods := [0, 1, 2, 3], idx := false }

/-- Positions that `CVPK` may fill (R152). -/
def packPos : Ty → Nat
  | .e4m3 | .e5m2 => 2
  | .e2m1 => 4
  | .f16 | .bf16 | .n8 | .n16 | .n32 | .n64 | .i8 | .i16 | .i32 | .i64 | .f64 | .f32 | .b128 => 1

/-- A p code, which `LEA` does not take for its index: R97 asks for a register or 0x0FD there (log 39). -/
def isPred : Opnd → Bool
  | .p _ => true
  | .g _ | .k _ | .gz | .idx _ | .imm | .s _ | .x _ | .j _ | .sh _ | .tk _ | .sp _ => false

/-- Types of `RDUC` and `SCAN` (R124). -/
def redTypes : RedOp → List Ty
  | .add | .min | .max => i4t ++ f4t
  | .and | .or | .xor => i4t

/-- Types of `ATOM`, `ATOMN` and `SATOM`, Table 9-2. -/
def atomTypes : AtomOp → List Ty
  | .add => i4t
  | .min | .max => i4t ++ f4t
  | .and | .or | .xor | .swap => n2t

/-- The slot field of `BKCFG` (R172). -/
def slotOk (m : BankSel) (o : Ops) : Bool :=
  match m with
  | .fifo => bitsOf (ownImm o) 4 2 != 3
  | .cache | .scratch => bitsOf (ownImm o) 4 2 == 0

/-- `.i4` and `.a` of `BZALOC` (R235). -/
def bzFmtOk (o : Ops) : Bool :=
  (!o.mod.getLsbD 0 || o.ty = .i8) && (!o.mod.getLsbD 1 || o.ty != .e2m1)

/-- LO and WIDTH of `SHSET` and `SHGET` (R273). -/
def fieldOk (o : Ops) : Bool :=
  bitsOf (ownImm o) 0 9 + bitsOf (ownImm o) 9 6 + 1 ≤ 512 &&
    bitsOf (ownImm o) 9 6 + 1 ≤ 32 * tw o.ty

/-- Assigned special registers, by code less 0x180 (Tables 3-2 and 16-1). -/
def spAssigned (n : Nat) : Bool :=
  n ≤ 0x0C || (0x10 ≤ n && n ≤ 0x14) || (0x40 ≤ n && n ≤ 0x46)

/-- Width in registers of a special register (Tables 3-2 and 16-1). -/
def spWidth : Opnd → Nat
  | .sp n => if [0x0B, 0x0C, 0x10, 0x11, 0x13, 0x14, 0x40, 0x46].contains n.val then 2 else 1
  | .g _ | .k _ | .gz | .idx _ | .imm | .s _ | .p _ | .x _ | .j _ | .sh _ | .tk _ => 1

/-- User access RO (Table 3-2): an `MSS` raises ILLEGAL_OP (R66). -/
def mssOk : Opnd → Bool
  | .sp n => !([0x00, 0x01, 0x02, 0x03, 0x04, 0x05, 0x06, 0x09, 0x0A, 0x12, 0x14].contains n.val)
  | .g _ | .k _ | .gz | .idx _ | .imm | .s _ | .p _ | .x _ | .j _ | .sh _ | .tk _ => false

/-- Operand fields and format of an instruction; none for an event. `JMPI` and `CALLI` take gz as the pair of their
code pointer, and a shift amount may be a p code, since Table 4-1 calls the fields a pair and data (DEDUCED,
log 39). gz stands at the quads of `CVQ8` and `DQ`, reads 0 and discards (DESIGN CHOICE, log 39). -/
def form : Instr → Option (Ops × Fmt)
  | .nop o => some (o, { idx := false })
  | .br o => some (o, { own := some allImm, idx := false, ends := true })
  | .bany o => some (o, { a := .set, b := .pred, own := some allImm, idx := false, always := true, ends := true })
  | .ball o => some (o, { a := .set, b := .pred, own := some allImm, idx := false, always := true, ends := true })
  | .bnone o => some (o, { a := .set, b := .pred, own := some allImm, idx := false, always := true, ends := true })
  | .jmpi o => some (o, { a := .reg 2 true, idx := false, ends := true })
  | .call o => some (o, { own := some allImm, idx := false, ends := true })
  | .calli o => some (o, { a := .reg 2 true, idx := false, ends := true })
  | .ret o => some (o, { a := .reg 2 true, idx := false, ends := true })
  | .exit o => some (o, { idx := false, ends := true })
  | .yield o => some (o, { idx := false, ends := true })
  | .iadd o => some (o, fTwo o i4t satMods)
  | .isub o => some (o, fTwo o i4t satMods)
  | .imul o => some (o, fTwo o i4t [0])
  | .imulh o => some (o, fTwo o i4t [0])
  | .idiv o => some (o, fTwo o i4t [0])
  | .irem o => some (o, fTwo o i4t [0])
  | .imin o => some (o, fTwo o i4t [0])
  | .imax o => some (o, fTwo o i4t [0])
  | .iadd3 o => some (o, { fTwo o i4t satMods with c := .src (tw o.ty) true 32 })
  | .imad o => some (o, { fTwo o i4t [0] with c := .src (tw o.ty) true 32 })
  | .iaddc o => some (o, { dst := .dst (tw o.ty), a := .src (tw o.ty) false 32, b := .src (tw o.ty) false 32, c := .pred, types := n2t, own := some 7 })
  | .imadw o => some (o, { dst := .dst 2, a := .src 1 true 32, b := .src 1 true 32, c := .src 2 true 32, types := [.i32, .n32] })
  | .iabs o => some (o, fOne o [.i32, .i64] satMods)
  | .ineg o => some (o, fOne o [.i32, .i64] satMods)
  | .icmp _ o => some (o, { fTwo o i4t [0] with dst := .pred })
  | .and o => some (o, fTwo o n2t [0])
  | .or o => some (o, fTwo o n2t [0])
  | .xor o => some (o, fTwo o n2t [0])
  | .andn o => some (o, fTwo o n2t [0])
  | .not o => some (o, fOne o n2t [0])
  | .shl o => some (o, { fOne o n2t [0] with b := .src 1 true 32 })
  | .shr o => some (o, { fOne o n2t [0] with b := .src 1 true 32 })
  | .shra o => some (o, { fOne o [.i32, .i64] [0] with b := .src 1 true 32 })
  | .rol o => some (o, { fOne o n2t [0] with b := .src 1 true 32 })
  | .ror o => some (o, { fOne o n2t [0] with b := .src 1 true 32 })
  | .bfe o => some (o, { fOne o i4t [0] with b := .src 1 true 32 })
  | .bfi o => some (o, { fTwo o i4t [0] with c := .src 1 true 32 })
  | .popc o => some (o, { fOne o n2t [0] with dst := .dst 1 })
  | .clz o => some (o, { fOne o n2t [0] with dst := .dst 1 })
  | .ctz o => some (o, { fOne o n2t [0] with dst := .dst 1 })
  | .brev o => some (o, fOne o n2t [0])
  | .perm o => some (o, fThree32 [.n8])
  | .lea o => some (o, { dst := .dst 2, a := .src 2 true 32, b := .src 1 true 32, types := [.i32, .n32], mods := List.range 16, ok := !isPred o.b })
  | .idot4 o => some (o, fThree32 [.i8, .n8])
  | .mov o => some (o, { fOne o [.n32, .n64, .i64, .b128] [0] with ok := o.ty != .b128 || (o.dst != .gz && o.a != .gz && o.a != .imm) })
  | .isel o => some (o, { fTwo o n2t [0] with c := .pred })
  | .pset o => some (o, { fOne o n2t [0] with dst := .pred })
  | .pmov o => some (o, { dst := .pred, a := .pred, b := if o.mod.toNat < 2 then .none else .pred, mods := List.range 6 })
  | .movs o => some (o, { dst := .dst (spWidth o.a), a := .special })
  | .xset o => some (o, { dst := .xr, a := .src 1 true 32, b := .src 1 true 32 })
  | .xsetAdd o => some (o, { dst := .xr, a := .src 1 true 32, mods := [1] })
  | .xget o => some (o, { dst := .dst 1, a := .xr })
  | .fadd o => some (o, { fFlt o f4t with b := fsrc o, c := rsrc o, mods := roundSat })
  | .fsub o => some (o, { fFlt o f4t with b := fsrc o, c := rsrc o, mods := roundSat })
  | .fmul o => some (o, { fFlt o f4t with b := fsrc o, c := rsrc o, mods := roundSat })
  | .fdiv o => some (o, { fFlt o f4t with b := fsrc o, c := rsrc o, mods := roundSat })
  | .ffma o => some (o, { fFlt o f4t with b := fsrc o, c := fsrc o, mods := roundSatNoR })
  | .fmin o => some (o, { fFlt o f4t with b := fsrc o })
  | .fmax o => some (o, { fFlt o f4t with b := fsrc o })
  | .fminn o => some (o, { fFlt o f4t with b := fsrc o })
  | .fmaxn o => some (o, { fFlt o f4t with b := fsrc o })
  | .fcmp _ o => some (o, { fFlt o f4t with dst := .pred, b := fsrc o })
  | .fclass o => some (o, { fFlt o (f4t ++ [.e4m3, .e5m2]) with dst := .dst 1 })
  | .frnd o => some (o, { fFlt o f4t with mods := [0, 1, 2, 3] })
  | .fscale o => some (o, { fFlt o f4t with b := .src 1 true 32, c := rsrc o, mods := roundSat })
  | .padd2 o => some (o, { dst := .dst 1, a := .src 1 true 32, b := .src 1 true 32, c := rsrc o, types := [.f16, .bf16], mods := roundSat })
  | .pmul2 o => some (o, { dst := .dst 1, a := .src 1 true 32, b := .src 1 true 32, c := rsrc o, types := [.f16, .bf16], mods := roundSat })
  | .pfma2 o => some (o, { fThree32 [.f16, .bf16] with mods := roundSatNoR })
  | .pdot2 o => some (o, { fThree32 [.f16, .bf16] with mods := roundSatNoR })
  | .frcp o => some (o, { fFlt o f3t with mods := satMods })
  | .frsq o => some (o, { fFlt o f3t with mods := satMods })
  | .fexp2 o => some (o, { fFlt o f3t with mods := satMods })
  | .flog2 o => some (o, { fFlt o f3t with mods := satMods })
  | .fsin o => some (o, { fFlt o f3t with mods := satMods })
  | .fcos o => some (o, { fFlt o f3t with mods := satMods })
  | .ftanh o => some (o, { fFlt o f3t with mods := satMods })
  | .fsqrt o => some (o, { fFlt o f4t with mods := roundSatNoR })
  | .cvt o => some (o, { dst := .dst (tw o.ty), a := .src (tw (srcTy o)) false 32, b := rsrcReg o, types := allTypes, mods := roundSat, own := some 0xF, ok := srcTy o != .b128 && !(o.mod.toNat ≥ 8 && isFloat (srcTy o) && !isFloat o.ty) })
  | .cvpk o => some (o, { dst := .dst 1, a := .src 1 false 32, b := .src 1 false 32, c := rsrcReg o, types := [.f16, .bf16, .e4m3, .e5m2, .e2m1], mods := roundSat, own := some 0x3F, readsDst := true, ok := f3t.contains (srcTy o) && (bitsOf (ownImm o) 4 2 < packPos o.ty) })
  | .cvq8 o => some (o, { dst := .dst 2, a := .reg 4 true, b := rsrcReg o, types := [.e2m1], mods := List.range 5, own := some 0xF, ok := [Ty.f16, .bf16].contains (srcTy o) })
  | .dq o => some (o, { dst := .dst 4, a := .src 1 false 32, b := .src 1 false 32, c := .src 1 false 32, types := [.bf16], mods := satMods, own := some 0xF, ok := [Ty.e2m1, .i8].contains (srcTy o) })
  | .rnd o => some (o, { dst := .dst (tw o.ty), types := [.n32, .n64, .f32] })
  | .jnew o => some (o, { dst := .set, mods := [0, 1] })
  | .jent o => some (o, { a := .set })
  | .jquit o => some (o, { a := .set })
  | .jwait o => some (o, { a := .set, always := true, ends := true })
  | .jinfo o => some (o, { dst := .dst 1, a := .set, mods := List.range 8 })
  | .vote op o => some (o, { dst := (match op with | .mask => .dst 1 | .count => .dst 1 | .every => .pred | .some => .pred | .nobody => .pred | .same => .pred), a := .set, b := .pred, always := true, ends := true })
  | .shfl _ o => some (o, { dst := .dst (tw o.ty), a := .set, b := .src (tw o.ty) false 32, c := .reg 1 true, types := n2t, mods := List.range 6, own := some 0x7FF, always := true, ends := true, readsDst := true })
  | .matchLanes _ o => some (o, { dst := .dst 1, a := .set, b := .src (tw o.ty) true 32, types := n2t, always := true, ends := true })
  | .rduc op o => some (o, (match op with | .tree k => { dst := .dst (tw o.ty), a := .set, b := .src (tw o.ty) true (fbits o.ty), types := redTypes k, always := true, ends := true } | .maxi => { dst := .dst 2, a := .set, b := .src 1 true (fbits o.ty), c := .src 1 true 32, types := [.i32, .n32, .f32, .f16, .bf16], always := true, ends := true }))
  | .scan op o => some (o, { dst := .dst (tw o.ty), a := .set, b := .src (tw o.ty) true (fbits o.ty), types := redTypes op, mods := [0, 1], always := true, ends := true })
  | .ld o => some (o, { fAddr with dst := .dst (tw o.ty), types := loadTypes })
  | .st o => some (o, { fAddr with b := .src (tw o.ty) false 32, types := storeTypes })
  | .ldsp o => some (o, { fOff with dst := .dst (tw o.ty), types := loadTypes })
  | .stsp o => some (o, { fOff with b := .src (tw o.ty) false 32, types := storeTypes })
  | .pref o => some (o, { fAddr with mods := [0, 1] })
  | .cbrd o => some (o, { dst := .dst (tw o.ty), types := fifoTypes, own := some 0xF })
  | .cbwr o => some (o, { b := .src (tw o.ty) false 32, types := fifoTypes, own := some 0xF })
  | .bkcfg mode o => some (o, { own := some 0x3F, ok := slotOk mode o })
  | .bkcfgPhys mode o => some (o, { own := some 0xF3F, mods := [1], ok := slotOk mode o, phys := true })
  | .waitc o => some (o, { own := some 0xFFFF, ends := true })
  | .atom op o => some (o, { fAddr with dst := .dst (tw o.ty), b := .src (tw o.ty) false 32, types := atomTypes op })
  | .atomn op o => some (o, { fAddr with b := .src (tw o.ty) false 32, types := atomTypes op })
  | .acas o => some (o, { fAddr with dst := .dst (tw o.ty), b := .src (tw o.ty) false 32, c := .src (tw o.ty) false 32, types := n2t })
  | .acas2 o => some (o, { fAddr with dst := .dst 4, b := .src 4 false 32, c := .src 4 false 32, types := [.b128] })
  | .ldrsv o => some (o, { fAddr with dst := .dst (tw o.ty), types := n2t })
  | .stcnd o => some (o, { fAddr with dst := .pred, b := .src (tw o.ty) false 32, types := n2t })
  | .axadd o => some (o, { fAddr with b := .src 1 false 32, types := f3t })
  | .axrd o => some (o, { fAddr with dst := .dst 1, types := [.f32], mods := [0, 1] })
  | .amaxi o => some (o, { fAddr with dst := .dst 2, b := .src 1 false 32, c := .src 1 false 32, types := [.i32, .n32, .f32, .f16, .bf16] })
  | .satom op o => some (o, { fOff with dst := .dst (tw o.ty), b := .src (tw o.ty) false 32, types := atomTypes op })
  | .sacas o => some (o, { fOff with dst := .dst (tw o.ty), b := .src (tw o.ty) false 32, c := .src (tw o.ty) false 32, types := [.n32, .n64, .b128] })
  | .bzaloc o => some (o, { dst := .dst 1, a := .src 1 true 32, types := [.bf16, .f16, .e4m3, .e5m2, .i8, .e2m1], mods := [0, 1, 2], idx := false, ok := bzFmtOk o })
  | .bzld part o => some (o, { a := .reg 2 false, b := if o.mod.getLsbD 1 then .src 1 false 32 else .reg 2 true, c := if part = .cscale then .zero else .src 1 false 32, mods := if part = .cscale then [0, 2] else [0, 1, 2, 3], own := some 0xFFF, idx := false })
  | .bzfree o => some (o, { a := .src 1 false 32, idx := false })
  | .mmaLb o => some (o, { fMma o with b := .block, ok := bitsOf o.imm 4 12 = 1 })
  | .mmaBb o => some (o, { fMma o with b := .reg 2 false })
  | .macz o => some (o, { fSign with types := [.f32, .i32], own := some 7 })
  | .maczRel o => some (o, { fSign with mods := [1], own := some 7 })
  | .mrd o => some (o, { fSign with dst := .block, types := [.f32, .i32], own := some 0x37 })
  | .mst o => some (o, { fSign with dst := .reg 1 true, b := .reg 2 true, c := .src 1 false 32, types := [.f32, .bf16, .f16, .e4m3, .e5m2, .i32], mods := [0, 1, 8, 9], own := some 0xBF07 })
  | .amxrd o => some (o, { dst := .dst 1, mods := [0, 1], own := some 0x3F, idx := false })
  | .amxclr o => some (o, { own := some 0x3F, idx := false })
  | .mstat o => some (o, { dst := .dst 1, idx := false })
  | .cpy o => some (o, { fCopy o with c := .src 1 true 32 })
  | .cpy2d o => some (o, { fCopy o with c := .shape })
  | .cpyg o => some (o, { fCopy o with c := .shape })
  | .cpys o => some (o, { fCopy o with c := .shape })
  | .cpycb o => some (o, { fCopy o with a := .none, c := .src 1 false 32, mods := [0, 2], own := some 0xF })
  | .tkwait o => some (o, { a := .token, idx := false, ends := true })
  | .tktest o => some (o, { dst := .pred, a := .token, idx := false })
  | .tkdrop o => some (o, { a := .token, idx := false })
  | .chain o => some (o, { a := .shape, b := .src 1 true 32, own := if o.b = .imm then none else some 0 })
  | .spk24 o => some (o, { dst := .dst 2, a := .reg (if o.ty = .f16 || o.ty = .bf16 then 2 else 1) true, types := [.f16, .bf16, .e4m3, .e5m2], own := some 0 })
  | .shld o => some (o, { fAddr with dst := .shape })
  | .shst o => some (o, { fAddr with b := .shape })
  | .shset o => some (o, { dst := .shape, a := .src (tw o.ty) false 32, types := n2t, own := some 0x7FFF, ok := fieldOk o })
  | .shget o => some (o, { dst := .dst (tw o.ty), a := .shape, types := n2t, own := some 0x7FFF, ok := fieldOk o })
  | .lnch o => some (o, { dst := .dst 1, a := .shape })
  | .graph o => some (o, { dst := .dst 1, a := .reg 2 true, b := .src 1 true 32 })
  | .gwait o => some (o, { a := .src 1 true 32, ends := true })
  | .gcan o => some (o, { a := .src 1 true 32 })
  | .gstat o => some (o, { dst := .dst 1, a := .src 1 true 32 })
  | .wid o => some (o, { dst := .dst (tw o.ty), types := n2t, mods := [0, 1], own := some 7, ok := ownImm o != 6 || (o.mod = 0 && o.ty = .n64) })
  | .trap o => some (o, { own := some 0xFFFF, idx := false, ends := true })
  | .tret o => some (o, { idx := false, ends := true })
  | .uiack o => some (o, { idx := false })
  | .clk o => some (o, { dst := .dst 2, idx := false })
  | .idphys o => some (o, { dst := .dst 1, idx := false })
  | .mss o => some (o, { dst := .special, a := .src (spWidth o.dst) true 32, idx := false, ok := mssOk o.dst })
  | .tstickyClear o => some (o, { dst := .special, a := .src (spWidth o.dst) true 32, idx := false, ok := mssOk o.dst })
  | .uiraise o => some (o, { dst := .special, a := .src (spWidth o.dst) true 32, idx := false, ok := mssOk o.dst })
  | .svwait o => some (o, { dst := .dst 1, idx := false, ends := true, priv := true })
  | .svwake o => some (o, { a := .src 1 true 32, b := .src 1 true 32, idx := false, priv := true })
  | .ctxsv o => some (o, { dst := .dst 1, a := if o.mod = 0 then .src 1 false 32 else .none, mods := [0, 1], idx := false, priv := true })
  | .ctxld o => some (o, { dst := .dst 1, a := .src 1 false 32, idx := false, priv := true })
  | .tlbinvPage o => some (o, { a := .reg 2 true, b := .src 1 false 32, idx := false, priv := true })
  | .tlbinvPasid o => some (o, { b := .src 1 false 32, idx := false, priv := true })
  | .tlbinvAll o => some (o, { idx := false, priv := true })
  | .pasidset o => some (o, { dst := .dst 1, a := .src 1 false 32, b := .src 1 false 32, idx := false, priv := true })
  | .aclsClear o => some (o, { a := .reg 2 true, b := .src 1 false 32, idx := false, priv := true })
  | .cacheopClean o => some (o, { a := .reg 2 true, b := .src 1 false 32, idx := false, priv := true })
  | .cacheopInv o => some (o, { a := .reg 2 true, b := .src 1 false 32, idx := false, priv := true })
  | .cacheopFlush o => some (o, { a := .reg 2 true, b := .src 1 false 32, idx := false, priv := true })
  | .halt o => some (o, { a := .src 1 true 32, idx := false, ends := true, priv := true })
  | .haltGo o => some (o, { a := .src 1 true 32, mods := [1], idx := false, ends := true, priv := true })
  | .haltTerm o => some (o, { a := .src 1 true 32, b := .src 1 true 32, mods := [2], idx := false, ends := true, priv := true })
  | .sfuResultWrite _ _ => none
  | .accessQueuePerform _ => none
  | .strictAccessPerformed _ _ => none
  | .invalidationAck _ _ => none
  | .annealDrain _ _ => none
  | .annealAck _ _ => none
  | .bankServe _ _ => none
  | .engineOpBegin _ => none
  | .matrixPass _ => none
  | .matrixOpFinish _ => none
  | .ladleCopyBegin _ => none
  | .copyFinish _ => none
  | .chainSweepFinish _ => none
  | .spk24ResultWrite _ _ => none
  | .gridJoin _ _ => none
  | .rangeRequest _ _ => none
  | .gangPlace _ => none
  | .dieReport _ _ => none
  | .spanAck _ _ => none
  | .spanAckTimeout _ => none
  | .spanCancel _ => none
  | .gangStopComplete _ => none
  | .planisherSelect _ => none
  | .lineRefetch _ => none
  | .orphanSet _ => none
  | .walkStart _ => none
  | .walkComplete _ _ => none
  | .faultRingAppend _ => none
  | .qnotify _ _ _ => none
  | .notifyRelease _ _ => none
  | .launch _ _ => none
  | .ringGraph _ _ => none
  | .cancel _ _ => none
  | .wait _ _ => none
  | .interrupt _ _ => none
  | .ringBadOpcode _ _ => none
  | .msixSend _ => none
  | .msixDeliver _ => none
  | .errStatusClear _ _ => none
  | .fwAperture _ _ => none
  | .lock => none
  | .bootVerifyComplete _ => none
  | .partLock => none
  | .pwrLimit _ => none
  | .hallmarkExtend _ => none
  | .registerWrite _ _ => none
  | .getVersion => none
  | .getCapabilities => none
  | .negotiateAlgorithms => none
  | .getDigests => none
  | .getCertificate => none
  | .challenge _ => none
  | .getMeasurements _ => none
  | .spdmUnsupportedRequest _ => none
  | .conventionalReset => none
  | .powerAverage _ => none
  | .temperatureAlarm _ _ => none
  | .alarmClear => none
  | .thermalTrip _ _ => none
  | .correctedError _ => none
  | .correctedWindowExpiry _ => none
  | .uncorrectableError _ => none
  | .schedulerCoreRecovery _ => none
  | .xCompletion _ _ _ => none
  | .completionTimeout _ _ => none
  | .linkDown _ => none
  | .linkL0Change _ _ => none
  | .hostSnoop _ => none
  | .peerReclaim _ => none
  | .pageHandoverComplete _ => none
  | .hostCxlAccess _ => none
  | .peerAccess _ _ => none
  | .hostMemoryAccess _ => none
  | .peerPageReturn _ => none

/-- MAJOR and FUNC of an instruction, Tables 2-9 and 2-10 (R48); none for an event. -/
def opcode : Instr → Option (Nat × Nat)
  | .nop _ => some (0x00, 0)
  | .br _ => some (0x01, 0)
  | .bany _ => some (0x02, 0)
  | .ball _ => some (0x03, 0)
  | .bnone _ => some (0x04, 0)
  | .jmpi _ => some (0x05, 0)
  | .call _ => some (0x06, 0)
  | .calli _ => some (0x07, 0)
  | .ret _ => some (0x08, 0)
  | .exit _ => some (0x09, 0)
  | .yield _ => some (0x0A, 0)
  | .iadd _ => some (0x10, 0)
  | .isub _ => some (0x10, 3)
  | .imul _ => some (0x11, 0)
  | .imulh _ => some (0x11, 1)
  | .idiv _ => some (0x12, 0)
  | .irem _ => some (0x12, 1)
  | .imin _ => some (0x13, 0)
  | .imax _ => some (0x13, 1)
  | .iadd3 _ => some (0x10, 1)
  | .imad _ => some (0x11, 2)
  | .iaddc _ => some (0x10, 2)
  | .imadw _ => some (0x11, 3)
  | .iabs _ => some (0x13, 2)
  | .ineg _ => some (0x13, 3)
  | .icmp .eq _ => some (0x14, 0)
  | .icmp .ne _ => some (0x14, 1)
  | .icmp .lt _ => some (0x14, 2)
  | .icmp .le _ => some (0x14, 3)
  | .icmp .gt _ => some (0x14, 4)
  | .icmp .ge _ => some (0x14, 5)
  | .and _ => some (0x15, 0)
  | .or _ => some (0x15, 1)
  | .xor _ => some (0x15, 2)
  | .andn _ => some (0x15, 3)
  | .not _ => some (0x15, 4)
  | .shl _ => some (0x16, 0)
  | .shr _ => some (0x16, 1)
  | .shra _ => some (0x16, 2)
  | .rol _ => some (0x16, 3)
  | .ror _ => some (0x16, 4)
  | .bfe _ => some (0x17, 0)
  | .bfi _ => some (0x17, 1)
  | .popc _ => some (0x18, 0)
  | .clz _ => some (0x18, 1)
  | .ctz _ => some (0x18, 2)
  | .brev _ => some (0x18, 3)
  | .perm _ => some (0x19, 0)
  | .lea _ => some (0x1A, 0)
  | .idot4 _ => some (0x1B, 0)
  | .mov _ => some (0x30, 0)
  | .isel _ => some (0x31, 0)
  | .pset _ => some (0x32, 0)
  | .pmov _ => some (0x33, 0)
  | .movs _ => some (0x34, 0)
  | .xset _ => some (0x35, 0)
  | .xsetAdd _ => some (0x35, 0)
  | .xget _ => some (0x36, 0)
  | .fadd _ => some (0x40, 0)
  | .fsub _ => some (0x40, 1)
  | .fmul _ => some (0x41, 0)
  | .fdiv _ => some (0x60, 3)
  | .ffma _ => some (0x42, 0)
  | .fmin _ => some (0x43, 0)
  | .fmax _ => some (0x43, 1)
  | .fminn _ => some (0x43, 2)
  | .fmaxn _ => some (0x43, 3)
  | .fcmp .eq _ => some (0x44, 0)
  | .fcmp .ne _ => some (0x44, 1)
  | .fcmp .lt _ => some (0x44, 2)
  | .fcmp .le _ => some (0x44, 3)
  | .fcmp .gt _ => some (0x44, 4)
  | .fcmp .ge _ => some (0x44, 5)
  | .fcmp .un _ => some (0x44, 6)
  | .fcmp .ord _ => some (0x44, 7)
  | .fclass _ => some (0x45, 0)
  | .frnd _ => some (0x46, 0)
  | .fscale _ => some (0x47, 0)
  | .padd2 _ => some (0x48, 0)
  | .pmul2 _ => some (0x49, 0)
  | .pfma2 _ => some (0x4A, 0)
  | .pdot2 _ => some (0x4B, 0)
  | .frcp _ => some (0x60, 0)
  | .frsq _ => some (0x60, 1)
  | .fexp2 _ => some (0x61, 0)
  | .flog2 _ => some (0x61, 1)
  | .fsin _ => some (0x62, 0)
  | .fcos _ => some (0x62, 1)
  | .ftanh _ => some (0x62, 2)
  | .fsqrt _ => some (0x60, 2)
  | .cvt _ => some (0x68, 0)
  | .cvpk _ => some (0x69, 0)
  | .cvq8 _ => some (0x6A, 0)
  | .dq _ => some (0x6B, 0)
  | .rnd _ => some (0x6C, 0)
  | .jnew _ => some (0x70, 0)
  | .jent _ => some (0x71, 0)
  | .jquit _ => some (0x72, 0)
  | .jwait _ => some (0x73, 0)
  | .jinfo _ => some (0x74, 0)
  | .vote .every _ => some (0x75, 0)
  | .vote .some _ => some (0x75, 1)
  | .vote .nobody _ => some (0x75, 2)
  | .vote .same _ => some (0x75, 3)
  | .vote .mask _ => some (0x75, 4)
  | .vote .count _ => some (0x75, 5)
  | .shfl .abs _ => some (0x76, 0)
  | .shfl .rise _ => some (0x76, 1)
  | .shfl .fall _ => some (0x76, 2)
  | .shfl .flip _ => some (0x76, 3)
  | .shfl .rot _ => some (0x76, 4)
  | .matchLanes .peers _ => some (0x77, 0)
  | .matchLanes .agree _ => some (0x77, 1)
  | .rduc (.tree .add) _ => some (0x78, 0)
  | .rduc (.tree .min) _ => some (0x78, 1)
  | .rduc (.tree .max) _ => some (0x78, 2)
  | .rduc (.tree .and) _ => some (0x78, 3)
  | .rduc (.tree .or) _ => some (0x78, 4)
  | .rduc (.tree .xor) _ => some (0x78, 5)
  | .rduc .maxi _ => some (0x78, 6)
  | .scan .add _ => some (0x79, 0)
  | .scan .min _ => some (0x79, 1)
  | .scan .max _ => some (0x79, 2)
  | .scan .and _ => some (0x79, 3)
  | .scan .or _ => some (0x79, 4)
  | .scan .xor _ => some (0x79, 5)
  | .ld _ => some (0x80, 0)
  | .st _ => some (0x81, 0)
  | .ldsp _ => some (0x82, 0)
  | .stsp _ => some (0x83, 0)
  | .pref _ => some (0x84, 0)
  | .cbrd _ => some (0x85, 0)
  | .cbwr _ => some (0x86, 0)
  | .bkcfg .cache _ => some (0x87, 0)
  | .bkcfg .scratch _ => some (0x87, 1)
  | .bkcfg .fifo _ => some (0x87, 2)
  | .bkcfgPhys .cache _ => some (0x87, 0)
  | .bkcfgPhys .scratch _ => some (0x87, 1)
  | .bkcfgPhys .fifo _ => some (0x87, 2)
  | .waitc _ => some (0x88, 0)
  | .atom .add _ => some (0x90, 0)
  | .atom .min _ => some (0x90, 1)
  | .atom .max _ => some (0x90, 2)
  | .atom .and _ => some (0x90, 3)
  | .atom .or _ => some (0x90, 4)
  | .atom .xor _ => some (0x90, 5)
  | .atom .swap _ => some (0x90, 6)
  | .atomn .add _ => some (0x91, 0)
  | .atomn .min _ => some (0x91, 1)
  | .atomn .max _ => some (0x91, 2)
  | .atomn .and _ => some (0x91, 3)
  | .atomn .or _ => some (0x91, 4)
  | .atomn .xor _ => some (0x91, 5)
  | .atomn .swap _ => some (0x91, 6)
  | .acas _ => some (0x92, 0)
  | .acas2 _ => some (0x93, 0)
  | .ldrsv _ => some (0x94, 0)
  | .stcnd _ => some (0x95, 0)
  | .axadd _ => some (0x96, 0)
  | .axrd _ => some (0x97, 0)
  | .amaxi _ => some (0x98, 0)
  | .satom .add _ => some (0x99, 0)
  | .satom .min _ => some (0x99, 1)
  | .satom .max _ => some (0x99, 2)
  | .satom .and _ => some (0x99, 3)
  | .satom .or _ => some (0x99, 4)
  | .satom .xor _ => some (0x99, 5)
  | .satom .swap _ => some (0x99, 6)
  | .sacas _ => some (0x9A, 0)
  | .bzaloc _ => some (0xA0, 0)
  | .bzld .data _ => some (0xA1, 0)
  | .bzld .cscale _ => some (0xA1, 1)
  | .bzld .bscale _ => some (0xA1, 2)
  | .bzld .band _ => some (0xA1, 3)
  | .bzfree _ => some (0xA2, 0)
  | .mmaLb _ => some (0xA3, 0)
  | .mmaBb _ => some (0xA3, 1)
  | .macz _ => some (0xA4, 0)
  | .maczRel _ => some (0xA4, 0)
  | .mrd _ => some (0xA5, 0)
  | .mst _ => some (0xA6, 0)
  | .amxrd _ => some (0xA7, 0)
  | .amxclr _ => some (0xA8, 0)
  | .mstat _ => some (0xA9, 0)
  | .cpy _ => some (0xB0, 0)
  | .cpy2d _ => some (0xB1, 0)
  | .cpyg _ => some (0xB2, 0)
  | .cpys _ => some (0xB3, 0)
  | .cpycb _ => some (0xB4, 0)
  | .tkwait _ => some (0xB5, 0)
  | .tktest _ => some (0xB6, 0)
  | .tkdrop _ => some (0xB7, 0)
  | .chain _ => some (0xB8, 0)
  | .spk24 _ => some (0xB9, 0)
  | .shld _ => some (0xBA, 0)
  | .shst _ => some (0xBB, 0)
  | .shset _ => some (0xBC, 0)
  | .shget _ => some (0xBD, 0)
  | .lnch _ => some (0xC0, 0)
  | .graph _ => some (0xC1, 0)
  | .gwait _ => some (0xC2, 0)
  | .gcan _ => some (0xC3, 0)
  | .gstat _ => some (0xC4, 0)
  | .wid _ => some (0xC5, 0)
  | .trap _ => some (0xC8, 0)
  | .tret _ => some (0xC9, 0)
  | .uiack _ => some (0xCA, 0)
  | .clk _ => some (0xCB, 0)
  | .idphys _ => some (0xCC, 0)
  | .mss _ => some (0xCD, 0)
  | .tstickyClear _ => some (0xCD, 0)
  | .uiraise _ => some (0xCD, 0)
  | .svwait _ => some (0xCE, 0)
  | .svwake _ => some (0xCF, 0)
  | .ctxsv _ => some (0xD0, 0)
  | .ctxld _ => some (0xD1, 0)
  | .tlbinvPage _ => some (0xD2, 0)
  | .tlbinvPasid _ => some (0xD2, 1)
  | .tlbinvAll _ => some (0xD2, 2)
  | .pasidset _ => some (0xD3, 0)
  | .aclsClear _ => some (0xD4, 0)
  | .cacheopClean _ => some (0xD5, 0)
  | .cacheopInv _ => some (0xD5, 1)
  | .cacheopFlush _ => some (0xD5, 2)
  | .halt _ => some (0xD6, 0)
  | .haltGo _ => some (0xD6, 0)
  | .haltTerm _ => some (0xD6, 0)
  | .sfuResultWrite _ _ => none
  | .accessQueuePerform _ => none
  | .strictAccessPerformed _ _ => none
  | .invalidationAck _ _ => none
  | .annealDrain _ _ => none
  | .annealAck _ _ => none
  | .bankServe _ _ => none
  | .engineOpBegin _ => none
  | .matrixPass _ => none
  | .matrixOpFinish _ => none
  | .ladleCopyBegin _ => none
  | .copyFinish _ => none
  | .chainSweepFinish _ => none
  | .spk24ResultWrite _ _ => none
  | .gridJoin _ _ => none
  | .rangeRequest _ _ => none
  | .gangPlace _ => none
  | .dieReport _ _ => none
  | .spanAck _ _ => none
  | .spanAckTimeout _ => none
  | .spanCancel _ => none
  | .gangStopComplete _ => none
  | .planisherSelect _ => none
  | .lineRefetch _ => none
  | .orphanSet _ => none
  | .walkStart _ => none
  | .walkComplete _ _ => none
  | .faultRingAppend _ => none
  | .qnotify _ _ _ => none
  | .notifyRelease _ _ => none
  | .launch _ _ => none
  | .ringGraph _ _ => none
  | .cancel _ _ => none
  | .wait _ _ => none
  | .interrupt _ _ => none
  | .ringBadOpcode _ _ => none
  | .msixSend _ => none
  | .msixDeliver _ => none
  | .errStatusClear _ _ => none
  | .fwAperture _ _ => none
  | .lock => none
  | .bootVerifyComplete _ => none
  | .partLock => none
  | .pwrLimit _ => none
  | .hallmarkExtend _ => none
  | .registerWrite _ _ => none
  | .getVersion => none
  | .getCapabilities => none
  | .negotiateAlgorithms => none
  | .getDigests => none
  | .getCertificate => none
  | .challenge _ => none
  | .getMeasurements _ => none
  | .spdmUnsupportedRequest _ => none
  | .conventionalReset => none
  | .powerAverage _ => none
  | .temperatureAlarm _ _ => none
  | .alarmClear => none
  | .thermalTrip _ _ => none
  | .correctedError _ => none
  | .correctedWindowExpiry _ => none
  | .uncorrectableError _ => none
  | .schedulerCoreRecovery _ => none
  | .xCompletion _ _ _ => none
  | .completionTimeout _ _ => none
  | .linkDown _ => none
  | .linkL0Change _ _ => none
  | .hostSnoop _ => none
  | .peerReclaim _ => none
  | .pageHandoverComplete _ => none
  | .hostCxlAccess _ => none
  | .peerAccess _ _ => none
  | .hostMemoryAccess _ => none
  | .peerPageReturn _ => none

end Sys2Proof.Machine
end

