-- ==== Sys2Proof/Machine/Flags.lean ====
section
/-! DEFINITION. What integer and bit instructions compute (chapter 4), and FSTAT flags as sets. None of
these functions touches the state. -/

namespace Sys2Proof.Machine

/-- The flags of two results together: flags are sticky (R68). -/
def Flags.join (a b : Flags) : Flags :=
  { iv := a.iv || b.iv, dz := a.dz || b.dz, ovf := a.ovf || b.ovf, uf := a.uf || b.uf,
    nx := a.nx || b.nx }

/-- FSTAT as a word, Table 3-3. -/
def Flags.word (f : Flags) : Word :=
  BitVec.ofNat 32 (f.iv.toNat * 16 + f.dz.toNat * 8 + f.ovf.toNat * 4 + f.uf.toNat * 2 + f.nx.toNat)

/-- FSTAT from a word, reserved bits ignored (R7). -/
def Flags.ofWord (w : Word) : Flags :=
  { iv := w.getLsbD 4, dz := w.getLsbD 3, ovf := w.getLsbD 2, uf := w.getLsbD 1, nx := w.getLsbD 0 }

/-! ## Integers -/

/-- Width in bits of an integer type's operands in registers: 32 or 64 (R84). -/
def iw (t : Ty) : Nat := 32 * tw t

/-- The type is signed. -/
def isSigned : Ty → Bool
  | .i8 | .i16 | .i32 | .i64 => true
  | .n8 | .n16 | .n32 | .n64 | .f64 | .f32 | .f16 | .bf16 | .e4m3 | .e5m2 | .e2m1 | .b128 => false

/-- A number as a signed integer of `w` bits. -/
def toSigned (w v : Nat) : Int :=
  if v % 2 ^ w < 2 ^ (w - 1) then Int.ofNat (v % 2 ^ w) else Int.ofNat (v % 2 ^ w) - 2 ^ w

/-- An operand read as its type reads it (R92). -/
def intOf (t : Ty) (v : Nat) : Int :=
  if isSigned t then toSigned (iw t) v else Int.ofNat (v % 2 ^ iw t)

def typeMin (t : Ty) : Int := if isSigned t then -(2 ^ (iw t - 1)) else 0
def typeMax (t : Ty) : Int := if isSigned t then 2 ^ (iw t - 1) - 1 else 2 ^ iw t - 1

/-- An integer modulo 2^w. -/
def wrap (w : Nat) (x : Int) : Nat := (x % 2 ^ w).toNat

/-- The result of R92: clamped under `.sat`, otherwise wrapped. -/
def intResult (t : Ty) (sat : Bool) (x : Int) : Nat :=
  wrap (iw t) (if sat then max (typeMin t) (min (typeMax t) x) else x)

/-- `IDIV`, `IREM` (R93). -/
def intDiv (t : Ty) (a b : Int) : Int :=
  if b = 0 then -1 else if isSigned t && a = typeMin t && b = -1 then typeMin t else Int.tdiv a b
def intRem (t : Ty) (a b : Int) : Int :=
  if b = 0 then a else if isSigned t && a = typeMin t && b = -1 then 0 else Int.tmod a b

/-- `ICMP` relations (R96). -/
def cmpHolds : Cmp → Int → Int → Bool
  | .eq, a, b => a = b
  | .ne, a, b => a ≠ b
  | .lt, a, b => a < b
  | .le, a, b => a ≤ b
  | .gt, a, b => b < a
  | .ge, a, b => b ≤ a

/-- Shifts (R99): amounts of the width or more are defined. -/
def shlN (w a sh : Nat) : Nat := if w ≤ sh then 0 else a * 2 ^ sh % 2 ^ w
def shrN (w a sh : Nat) : Nat := if w ≤ sh then 0 else a / 2 ^ sh
def shraN (w a sh : Nat) : Nat := wrap w (toSigned w a / 2 ^ (min sh w))
def rolN (w a sh : Nat) : Nat :=
  (a * 2 ^ (sh % w) + a / 2 ^ (w - sh % w)) % 2 ^ w
def rorN (w a sh : Nat) : Nat := rolN w a (w - sh % w)

/-- `BFE` (R100): ctl[7:0] is pos and ctl[15:8] is len. -/
def bfeN (signed : Bool) (w a ctl : Nat) : Nat :=
  let pos := ctl % 256
  let len := min (ctl / 256 % 256) w
  if len = 0 then 0
  else
    let wide : Int := if signed then toSigned w a else Int.ofNat a
    let field := (wide / 2 ^ pos % 2 ^ len).toNat
    if signed then wrap w (toSigned len field) else field

/-- `BFI` (R100). -/
def bfiN (w ins base ctl : Nat) : Nat :=
  let pos := ctl % 256
  let len := min (ctl / 256 % 256) w
  let mask := (2 ^ len - 1) * 2 ^ pos % 2 ^ w
  Nat.lor (Nat.land base (2 ^ w - 1 - mask)) (Nat.land (ins * 2 ^ pos) mask)

/-- One bits among the low `w` bits. -/
def popcN : Nat → Nat → Nat
  | 0, _ => 0
  | w + 1, a => a % 2 + popcN w (a / 2)

/-- Trailing zeros among `w` bits, `w` for zero (R101). -/
def ctzN : Nat → Nat → Nat
  | 0, _ => 0
  | w + 1, a => if a % 2 = 1 then 0 else 1 + ctzN w (a / 2)

/-- The low `w` bits in reverse order. -/
def brevN : Nat → Nat → Nat
  | 0, _ => 0
  | w + 1, a => a % 2 * 2 ^ w + brevN w (a / 2)

/-- Leading zeros of a `w`-bit value, `w` for zero (R101). -/
def clzN (w a : Nat) : Nat := ctzN w (brevN w a)

/-- `PERM` (R102). -/
def permByte (a b : Word) (q : Nat) : Nat :=
  let byte := bitsOf (if q % 8 < 4 then a else b) (8 * (q % 4)) 8
  if 8 ≤ q then (if 128 ≤ byte then 255 else 0) else byte
def permN (a b sel : Word) : Nat :=
  permByte a b (bitsOf sel 0 4) + permByte a b (bitsOf sel 4 4) * 2 ^ 8 +
    permByte a b (bitsOf sel 8 4) * 2 ^ 16 + permByte a b (bitsOf sel 12 4) * 2 ^ 24

/-- `IDOT4` (R98). -/
def idot4N (signed : Bool) (a b c : Word) : Nat :=
  let byte (v : Word) (i : Nat) : Int :=
    if signed then toSigned 8 (bitsOf v (8 * i) 8) else Int.ofNat (bitsOf v (8 * i) 8)
  wrap 32 (Int.ofNat c.toNat + byte a 0 * byte b 0 + byte a 1 * byte b 1 + byte a 2 * byte b 2 +
    byte a 3 * byte b 3)

/-- `PMOV` functions, by MOD (R105). -/
def pmovN (m : Nat) (a b : Bool) : Bool :=
  match m with
  | 0 => a
  | 1 => !a
  | 2 => a && b
  | 3 => a || b
  | 4 => a != b
  | _ => a && !b

/-- The integer operation of a reduction or scan (R124, R126). -/
def redInt (op : RedOp) (t : Ty) (a b : Nat) : Nat :=
  match op with
  | .add => (a + b) % 2 ^ iw t
  | .min => if intOf t a ≤ intOf t b then a else b
  | .max => if intOf t a ≤ intOf t b then b else a
  | .and => Nat.land a b
  | .or => Nat.lor a b
  | .xor => Nat.xor a b

/-- `Mix` and `RndBits` of `RND` (R155). -/
def mixN (v : DWord) : DWord :=
  let v := (v ^^^ (v >>> 30)) * 0xBF58476D1CE4E5B9
  let v := (v ^^^ (v >>> 27)) * 0x94D049BB133111EB
  v ^^^ (v >>> 31)
def rndBits (key ctr : DWord) : DWord :=
  mixN (mixN (ctr ^^^ mixN (key + 0x9E3779B97F4A7C15)) + key)

end Sys2Proof.Machine
end

