-- ==== Sys2Proof/Machine/Float.lean ====
section
/-! DEFINITION. Number formats and the one rounding procedure (R128 to R137), and what the basic
floating-point instructions compute (R142 to R147, R150 to R154). -/

namespace Sys2Proof.Machine

/-- A format: exponent and fraction widths, bias, and which special codes it has (R129, R130). -/
structure FpFmt where
  ebits : Nat
  mbits : Nat
  bias : Nat
  /-- Infinities and NaNs as IEEE has them. -/
  ieee : Bool
  /-- E4M3: one NaN code and no infinity. -/
  nanOnly : Bool
  deriving DecidableEq, Repr

/-- Formats of Table 5-1. -/
def fpFmt : Ty → FpFmt
  | .f64 => ⟨11, 52, 1023, true, false⟩
  | .f16 => ⟨5, 10, 15, true, false⟩
  | .bf16 => ⟨8, 7, 127, true, false⟩
  | .e4m3 => ⟨4, 3, 7, false, true⟩
  | .e5m2 => ⟨5, 2, 15, true, false⟩
  | .e2m1 => ⟨2, 1, 1, false, false⟩
  | .f32 | .n8 | .n16 | .n32 | .n64 | .i8 | .i16 | .i32 | .i64 | .b128 => ⟨8, 23, 127, true, false⟩

/-- Bits of a value of a format. -/
def FpFmt.width (f : FpFmt) : Nat := 1 + f.ebits + f.mbits
/-- Exponent of the smallest normal. -/
def FpFmt.emin (f : FpFmt) : Int := 1 - f.bias
/-- The largest finite code without its sign. -/
def FpFmt.maxCode (f : FpFmt) : Nat :=
  if f.ieee then (2 ^ f.ebits - 1) * 2 ^ f.mbits - 1
  else 2 ^ (f.ebits + f.mbits) - 1 - (if f.nanOnly then 1 else 0)
/-- The code of an infinity without its sign. -/
def FpFmt.infCode (f : FpFmt) : Nat := (2 ^ f.ebits - 1) * 2 ^ f.mbits
/-- The canonical NaN; +0 for E2M1 (R134). -/
def FpFmt.canon (f : FpFmt) : Nat :=
  if f.ieee then (2 ^ f.ebits - 1) * 2 ^ f.mbits + 2 ^ (f.mbits - 1)
  else if f.nanOnly then 2 ^ (f.ebits + f.mbits) - 1 else 0

/-- A magnitude `num / den × 2^ex`; with `sticky`, a little more than that: less than any value a
rounding can tell apart. -/
structure Mag where
  num : Nat
  den : Nat := 1
  ex : Int := 0
  sticky : Bool := false
  deriving DecidableEq, Repr

/-- A value before rounding. -/
inductive FVal where
  | nan (signalling : Bool)
  | inf (neg : Bool)
  | fin (neg : Bool) (m : Mag)
  deriving DecidableEq, Repr

/-- The value of a code (R129 to R131). -/
def fpVal (f : FpFmt) (bits : Nat) : FVal :=
  let v := bits % 2 ^ f.width
  let neg : Bool := v / 2 ^ (f.ebits + f.mbits) = 1
  let e := v / 2 ^ f.mbits % 2 ^ f.ebits
  let m := v % 2 ^ f.mbits
  if f.ieee && e = 2 ^ f.ebits - 1 then
    if m = 0 then .inf neg else .nan (m < 2 ^ (f.mbits - 1))
  else if f.nanOnly && v % 2 ^ (f.ebits + f.mbits) = 2 ^ (f.ebits + f.mbits) - 1 then .nan false
  else if e = 0 then .fin neg { num := m, ex := f.emin - f.mbits }
  else .fin neg { num := 2 ^ f.mbits + m, ex := (e : Int) - f.bias - f.mbits }

/-- `num / den × 2^ex` as a fraction over 1: numerator and denominator. -/
def Mag.frac (m : Mag) : Nat × Nat :=
  if 0 ≤ m.ex then (m.num * 2 ^ m.ex.toNat, m.den) else (m.num, m.den * 2 ^ (-m.ex).toNat)

/-- floor of log2 of a positive magnitude. -/
def Mag.log2 (m : Mag) : Int :=
  let l : Int := (Nat.log2 m.num : Int) - Nat.log2 m.den
  let below : Bool :=
    if 0 ≤ l then m.num < m.den * 2 ^ l.toNat else m.num * 2 ^ (-l).toNat < m.den
  (if below then l - 1 else l) + m.ex

/-- Whether rounding goes away from zero (R132): `rem / den` is the discarded part. -/
def roundUp (mode r : Nat) (neg : Bool) (lo rem den : Nat) (sticky : Bool) : Bool :=
  if rem = 0 && !sticky then false
  else match mode with
    | 0 => den < 2 * rem || (2 * rem = den && (sticky || lo % 2 = 1))
    | 1 => false
    | 2 => neg
    | 3 => !neg
    | _ => r < rem * 2 ^ 32 / den

/-- Rounding modes of Table 2-7 by MOD[2:0]: 0 rne, 1 rtz, 2 rdn, 3 rup, 4 rsr. -/
def overflows (f : FpFmt) (mode : Nat) (neg : Bool) : Nat :=
  if !f.ieee then f.maxCode
  else match mode with
    | 0 => f.infCode
    | 1 => f.maxCode
    | 2 => if neg then f.infCode else f.maxCode
    | 3 => if neg then f.maxCode else f.infCode
    | _ => f.infCode

/-- The code of `neg` and a code without sign. -/
def signed (f : FpFmt) (neg : Bool) (c : Nat) : Nat :=
  c + (if neg then 2 ^ (f.ebits + f.mbits) else 0)

/-- Round (R132 to R137): result bits and flags. An IV that the operation itself raises is joined by
the caller. -/
def roundFp (f : FpFmt) (mode r : Nat) (sat : Bool) (x : FVal) : Nat × Flags :=
  match x with
  | .nan s => (f.canon, { iv := s || (!f.ieee && !f.nanOnly) })
  | .inf neg =>
    if f.ieee then
      if sat then (signed f neg f.maxCode, { nx := true }) else (signed f neg f.infCode, {})
    else if f.nanOnly && !sat then (f.canon, { iv := true })
    else (signed f neg f.maxCode, { iv := true, nx := true })
  | .fin neg m =>
    if m.num = 0 && !m.sticky then (signed f neg 0, {})
    else
      let l := if m.num = 0 then f.emin - f.mbits - 64 else m.log2
      let e := max l f.emin
      let qe := e - f.mbits
      let (n, d) := Mag.frac { m with ex := m.ex - qe }
      let lo := n / d
      let rem := n % d
      let up := roundUp mode r neg lo rem d m.sticky
      let k := if up then lo + 1 else lo
      -- the code of k units of 2^qe: normal codes carry into the exponent by themselves
      let code : Nat :=
        if k < 2 ^ f.mbits then k
        else ((e + f.bias - 1) * 2 ^ f.mbits + (k : Int)).toNat
      let inexact := rem ≠ 0 || m.sticky
      let ovr := f.maxCode < code
      let c := if ovr then overflows f mode neg else code
      let c := if sat && f.ieee && c = f.infCode then f.maxCode else c
      (signed f neg c,
        { ovf := ovr, uf := inexact && l < f.emin, nx := inexact || ovr })

/-! ## Exact arithmetic -/

/-- A signed exact value as an integer times a power of two. -/
structure Dy where
  n : Int
  e : Int
  deriving DecidableEq, Repr

def Dy.add (a b : Dy) : Dy :=
  if a.e ≤ b.e then ⟨a.n + b.n * 2 ^ (b.e - a.e).toNat, a.e⟩
  else ⟨a.n * 2 ^ (a.e - b.e).toNat + b.n, b.e⟩
def Dy.mul (a b : Dy) : Dy := ⟨a.n * b.n, a.e + b.e⟩

def Mag.dy (neg : Bool) (m : Mag) : Dy := ⟨if neg then -(m.num : Int) else m.num, m.ex⟩
def Dy.val (d : Dy) : FVal := .fin (d.n < 0) { num := d.n.natAbs, ex := d.e }

def FVal.isNan : FVal → Bool
  | .nan _ => true
  | .inf _ | .fin _ _ => false
def FVal.isSig : FVal → Bool
  | .nan s => s
  | .inf _ | .fin _ _ => false
def FVal.neg? : FVal → Bool
  | .nan _ => false
  | .inf n => n
  | .fin n _ => n
def FVal.isZero : FVal → Bool
  | .fin _ m => m.num = 0
  | .nan _ | .inf _ => false
def FVal.negate : FVal → FVal
  | .nan s => .nan s
  | .inf n => .inf (!n)
  | .fin n m => .fin (!n) m

/-- An exact result with the flags its operation raises by itself. -/
abbrev XRes := FVal × Flags

def ivFlag (b : Bool) : Flags := { iv := b }

/-- The sign of an exact zero sum of values with these signs (R135). -/
def zeroSign (mode : Nat) (signs : List Bool) : Bool :=
  if signs.all id then true else if signs.all (!·) then false else mode = 2

/-- A product (R135, R137). -/
def fmulX (a b : FVal) : XRes :=
  let sig := a.isSig || b.isSig
  let neg := a.neg? != b.neg?
  match a, b with
  | .nan _, _ => (.nan false, ivFlag sig)
  | _, .nan _ => (.nan false, ivFlag sig)
  | .inf _, y => if y.isZero then (.nan false, ivFlag true) else (.inf neg, {})
  | x, .inf _ => if x.isZero then (.nan false, ivFlag true) else (.inf neg, {})
  | .fin _ m, .fin _ n => (.fin neg { num := m.num * n.num, ex := m.ex + n.ex }, {})

/-- An exact sum of several values (R135, R137). A NaN among them wins over infinities of both signs, and IV is then
that of a signalling NaN alone (DESIGN CHOICE, log 66). -/
def fsumX (mode : Nat) (xs : List FVal) : XRes :=
  let sig := xs.any FVal.isSig
  let pinf := xs.contains (.inf false)
  let ninf := xs.contains (.inf true)
  if xs.any FVal.isNan then (.nan false, ivFlag sig)
  else if pinf && ninf then (.nan false, ivFlag true)
  else if pinf then (.inf false, {})
  else if ninf then (.inf true, {})
  else
    let total : Dy := xs.foldl (fun (d : Dy) x => match x with
      | .fin n m => Dy.add d (Mag.dy n m)
      | .nan _ | .inf _ => d) ⟨0, 0⟩
    if total.n = 0 then
      let all0 := xs.all FVal.isZero
      (.fin (if all0 then zeroSign mode (xs.map FVal.neg?) else mode = 2) { num := 0 }, {})
    else (total.val, {})

/-- `a × b + c` with one rounding; 0 × inf is invalid even when c is a NaN (R142). -/
def ffmaX (mode : Nat) (a b c : FVal) : XRes :=
  let (p, f) := fmulX a b
  let (r, g) := fsumX mode [p, c]
  (r, f.join g)

/-- `a / b` (R148, Table 5-10). -/
def fdivX (a b : FVal) : XRes :=
  let neg := a.neg? != b.neg?
  match a, b with
  | .nan s, y => (.nan false, ivFlag (s || y.isSig))
  | x, .nan s => (.nan false, ivFlag (s || x.isSig))
  | .inf _, .inf _ => (.nan false, ivFlag true)
  | .inf _, .fin _ _ => (.inf neg, {})
  | .fin _ _, .inf _ => (.fin neg { num := 0 }, {})
  | .fin _ m, .fin _ n =>
    if n.num = 0 then
      if m.num = 0 then (.nan false, ivFlag true) else (.inf neg, { dz := true })
    else (.fin neg { num := m.num, den := n.num, ex := m.ex - n.ex }, {})

/-- Value order of two values that are not NaN, −0 equal to +0. -/
def fle (a b : FVal) : Bool :=
  match a, b with
  | .nan _, _ | _, .nan _ => false
  | .inf true, _ => true
  | _, .inf false => true
  | .inf false, .fin _ _ => false
  | .fin _ _, .inf true => false
  | .inf false, .inf true => false
  | .fin n m, .fin k l => (Dy.add (Mag.dy n m) ⟨-(Mag.dy k l).n, (Mag.dy k l).e⟩).n ≤ 0

/-- Value order with −0 below +0 (R143). -/
def fleZ (a b : FVal) : Bool :=
  if a.isZero && b.isZero then a.neg? || !b.neg? else fle a b

/-- `FMIN`, `FMAX`, `FMINN`, `FMAXN` (R143): one operand's bits or the canonical NaN. -/
def fminmax (f : FpFmt) (isMax prop : Bool) (a b : Nat) : Nat × Flags :=
  let x := fpVal f a
  let y := fpVal f b
  let fl := ivFlag (x.isSig || y.isSig)
  if x.isNan && y.isNan then (f.canon, fl)
  else if x.isNan then (if prop then f.canon else b % 2 ^ f.width, fl)
  else if y.isNan then (if prop then f.canon else a % 2 ^ f.width, fl)
  else (if fleZ x y != isMax then a % 2 ^ f.width else b % 2 ^ f.width, fl)

/-- `FCMP` (R144): −0 equals +0 here, as R144 has it for `FCMP`, where R135 speaks of comparisons in general
(DEDUCED, log 55). -/
def fcmpN (cc : FCmp) (x y : FVal) : Bool × Flags :=
  let un := x.isNan || y.isNan
  let anyNan := ivFlag un
  let sig := ivFlag (x.isSig || y.isSig)
  match cc with
  | .eq => (fle x y && fle y x, sig)
  | .ne => (!(fle x y && fle y x), sig)
  | .lt => (fle x y && !fle y x, anyNan)
  | .le => (fle x y, anyNan)
  | .gt => (fle y x && !fle x y, anyNan)
  | .ge => (fle y x, anyNan)
  | .un => (un, sig)
  | .ord => (!un, sig)

/-- `FCLASS` (R145). -/
def fclassN (f : FpFmt) (bits : Nat) : Nat :=
  match fpVal f bits with
  | .nan s => if s then 256 else 512
  | .inf n => if n then 1 else 128
  | .fin n m =>
    if m.num = 0 then (if n then 8 else 16)
    else if m.log2 < f.emin then (if n then 4 else 32) else (if n then 2 else 64)

/-- The integer a value rounds to (R146, R151). -/
def roundInt (mode r : Nat) (neg : Bool) (m : Mag) : Int × Bool :=
  let (n, d) := m.frac
  let lo := n / d
  let k := if roundUp mode r neg lo (n % d) d m.sticky then lo + 1 else lo
  (if neg then -(k : Int) else k, n % d ≠ 0 || m.sticky)

/-- `FRND` (R146): no NX, a zero keeps the sign of a. -/
def frndN (f : FpFmt) (mode bits : Nat) : Nat × Flags :=
  match fpVal f bits with
  | .nan s => (f.canon, ivFlag s)
  | .inf n => (signed f n f.infCode, {})
  | .fin n m =>
    let k := (roundInt mode 0 n m).1
    ((roundFp f 0 0 false (.fin n { num := k.natAbs })).1, {})

/-! ## Conversions -/

/-- Width in bits of a type. -/
def tyBits : Ty → Nat
  | .n8 | .i8 | .e4m3 | .e5m2 => 8
  | .n16 | .i16 | .f16 | .bf16 => 16
  | .n32 | .i32 | .f32 => 32
  | .n64 | .i64 | .f64 => 64
  | .e2m1 => 4
  | .b128 => 128

/-- An integer source of any width (R150). -/
def intSrc (t : Ty) (v : Nat) : Int :=
  if isSigned t then toSigned (tyBits t) v else Int.ofNat (v % 2 ^ tyBits t)

/-- Range of an integer type of any width. -/
def intLo (t : Ty) : Int := if isSigned t then -(2 ^ (tyBits t - 1)) else 0
def intHi (t : Ty) : Int := if isSigned t then 2 ^ (tyBits t - 1) - 1 else 2 ^ tyBits t - 1

/-- An integer result as `CVT` writes it: widened to the register width (R150). -/
def intDst (t : Ty) (x : Int) : Nat :=
  let w := tyBits t
  let v := wrap w x
  if isSigned t then wrap (32 * tw t) (toSigned w v) else v

/-- An integer as a value. -/
def intVal (x : Int) : FVal := .fin (x < 0) { num := x.natAbs }

/-- `CVT` from `st` to `dt` (R150, R151). -/
def cvtN (st dt : Ty) (mode r : Nat) (sat : Bool) (v : Nat) : Nat × Flags :=
  if isFloat dt then
    let x := if isFloat st then fpVal (fpFmt st) v else intVal (intSrc st v)
    roundFp (fpFmt dt) mode r sat x
  else if !isFloat st then
    let x := intSrc st v
    (intDst dt (if sat then max (intLo dt) (min (intHi dt) x) else x), {})
  else match fpVal (fpFmt st) v with
    | .nan _ => (0, ivFlag true)
    | .inf n => (intDst dt (if n then intLo dt else intHi dt), ivFlag true)
    | .fin n m =>
      let (k, inexact) := roundInt mode r n m
      if k < intLo dt then (intDst dt (intLo dt), ivFlag true)
      else if intHi dt < k then (intDst dt (intHi dt), ivFlag true)
      else (intDst dt k, { nx := inexact })

/-- The value of an E3M5 block scale (R131). -/
def e3m5 (c : Nat) : FVal :=
  let e := c / 32 % 8
  if e = 0 then .fin false { num := c % 32, ex := -7 }
  else .fin false { num := 32 + c % 32, ex := (e : Int) - 3 - 5 }

/-- ROL of a 32-bit random operand. -/
def rol32 (r k : Nat) : Nat := rolN 32 r k

/-- The lesser code of E3M5 that is at least `m / 6`, 0xFF if none (R153). -/
def quantScale (m : Mag) : Nat :=
  (lowest (fun c => match e3m5 c with
    | .fin _ k => 0 ≤ (Dy.add ⟨6 * k.num, k.ex⟩ ⟨-(m.num : Int), m.ex⟩).n
    | .nan _ | .inf _ => false) 256 0).getD 255

/-- The greatest magnitude of the finite values; `some none` when one is infinite. -/
def absMax (xs : List FVal) : Option Mag :=
  xs.foldl (fun a x => match a, x with
    | some m, .fin _ k => if 0 ≤ (Dy.add ⟨m.num, m.ex⟩ ⟨-(k.num : Int), k.ex⟩).n then some m else some k
    | none, _ => none
    | some _, .inf _ => none
    | some m, .nan _ => some m) (some { num := 0 })

/-- `CVQ8` (R153): eight nibbles and the scale code. -/
def cvq8N (st : Ty) (mode r : Nat) (elems : List Nat) : Nat × Nat × Flags :=
  let xs := elems.map (fpVal (fpFmt st))
  let f := fpFmt .e2m1
  let scale := match absMax xs with
    | some m => if m.num = 0 then none else some (quantScale m)
    | none => some 255
  let one (i : Nat) (x : FVal) : Nat × Flags :=
    match scale with
    | none => if x.isNan then (0, ivFlag true) else (if x.neg? then 8 else 0, {})
    | some c =>
      let q := match x, e3m5 c with
        | .fin n m, .fin _ k => FVal.fin n { num := m.num, den := k.num, ex := m.ex - k.ex }
        | y, _ => y
      roundFp f mode (rol32 r (4 * i)) false q
  let out := (List.range 8).map fun i => one i (xs.getD i (.fin false { num := 0 }))
  (((List.range 8).foldl (fun a i => a + (out.getD i (0, {})).1 * 16 ^ i) 0),
    scale.getD 0, out.foldl (fun a x => a.join x.2) {})

/-- One weight dequantised (R154, R228): v × E3M5(sc) × BF16(band) to BF16. -/
def dequant (int4 : Bool) (nib sc band : Nat) (sat : Bool) : Nat × Flags :=
  let v := if int4 then intVal (toSigned 4 nib) else fpVal (fpFmt .e2m1) nib
  let (p, f) := fmulX v (e3m5 sc)
  let (q, g) := fmulX p (fpVal (fpFmt .bf16) band)
  let (bits, h) := roundFp (fpFmt .bf16) 0 0 sat q
  (bits, (f.join g).join h)

/-! ## Keys and cells -/

/-- `AmxKey` (R211). -/
def amxKey (t : Ty) (v : Nat) : Nat :=
  match t with
  | .i32 => Nat.xor (v % 2 ^ 32) 0x80000000
  | .f32 =>
    if (fpVal (fpFmt .f32) v).isNan then 0xFFFFFFFF
    else if v % 2 ^ 32 < 2 ^ 31 then v % 2 ^ 32 + 2 ^ 31 else 2 ^ 32 - 1 - v % 2 ^ 32
  | .f16 | .bf16 =>
    if (fpVal (fpFmt t) v).isNan then 0xFFFF0000
    else if v % 2 ^ 16 < 2 ^ 15 then (v % 2 ^ 16 + 2 ^ 15) * 2 ^ 16
    else (2 ^ 16 - 1 - v % 2 ^ 16) * 2 ^ 16
  | .n8 | .n16 | .n32 | .n64 | .i8 | .i16 | .i64 | .f64 | .e4m3 | .e5m2 | .e2m1 | .b128 => v % 2 ^ 32

/-- An exact accumulator cell after `v` is added (R139, R209). -/
def cellAdd (t : Ty) (v cell : Nat) : Nat :=
  match fpVal (fpFmt t) v with
  | .nan _ => Nat.lor cell (2 ^ 504)
  | .inf n => Nat.lor cell (if n then 2 ^ 506 else 2 ^ 505)
  | .fin n m =>
    let d := Mag.dy n m
    let units := d.n * 2 ^ (d.e + 200).toNat
    cell / 2 ^ 504 * 2 ^ 504 + ((Int.ofNat (cell % 2 ^ 504) + units) % 2 ^ 504).toNat

/-- CellToF32 (R139). -/
def cellToF32 (cell : Nat) : Nat × Flags :=
  let nan := cell / 2 ^ 504 % 2 = 1
  let pinf := cell / 2 ^ 505 % 2 = 1
  let ninf := cell / 2 ^ 506 % 2 = 1
  let f := fpFmt .f32
  if nan || (pinf && ninf) then (f.canon, ivFlag (pinf && ninf))
  else if pinf then (signed f false f.infCode, {})
  else if ninf then (signed f true f.infCode, {})
  else roundFp f 0 0 false (Dy.val ⟨toSigned 504 (cell % 2 ^ 504), -200⟩)

/-- The operation of an atomic on old and v, Table 9-2 (R202). -/
def atomNew (op : AtomOp) (t : Ty) (old v : Nat) : Nat :=
  match op with
  | .add => (old + v) % 2 ^ tyBits t
  | .min =>
    if isFloat t then (fminmax (fpFmt t) false false old v).1
    else if intSrc t old ≤ intSrc t v then old else v
  | .max =>
    if isFloat t then (fminmax (fpFmt t) true false old v).1
    else if intSrc t old ≤ intSrc t v then v else old
  | .and => Nat.land old v
  | .or => Nat.lor old v
  | .xor => Nat.xor old v
  | .swap => v

/-- One step of a reduction on a float type (R124): bits and flags. -/
def redFloat (op : RedOp) (t : Ty) (a b : Nat) : Nat × Flags :=
  let f := fpFmt t
  match op with
  | .add =>
    let (x, fl) := fsumX 0 [fpVal f a, fpVal f b]
    let (r, g) := roundFp f 0 0 false x
    (r, fl.join g)
  | .min => fminmax f false false a b
  | .max => fminmax f true false a b
  | .and | .or | .xor => (a, {})

/-- One step of a reduction or scan. -/
def redStep (op : RedOp) (t : Ty) (a b : Nat) : Nat × Flags :=
  if isFloat t then redFloat op t a b else (redInt op t a b, {})

/-- Exclusive-scan identities, Table 4-5. -/
def scanId (op : RedOp) (t : Ty) : Nat :=
  match op with
  | .add | .or | .xor => 0
  | .and => 2 ^ iw t - 1
  | .min => if isFloat t then (fpFmt t).infCode else wrap (iw t) (typeMax t)
  | .max =>
    if isFloat t then signed (fpFmt t) true (fpFmt t).infCode else wrap (iw t) (typeMin t)

end Sys2Proof.Machine
end

