-- ==== Sys2Proof/WellFormed.lean ====
section
/-! DEFINITION. Which instructions are encodings at all: every check of R34 to R44 that is decided
from the word alone. Checks that need the group's allocation or the thread's mode (R41, R37 for k,
R109) are made at issue. -/

namespace Sys2Proof

open Machine

/-- A field holds an operand of its class, aligned as R38 says. A p code stands at every data source of one register,
also where the instruction reads fewer than 32 bits of it (DESIGN CHOICE, log 39: Table 2-5 says any 32-bit data
source). -/
def useOk (idx : Bool) (u : Use) (x : Opnd) : Bool :=
  match u with
  | .none => x = .g 0
  | .src w im _ =>
    match x with
    | .g n => n.val % w = 0 && n.val + w ≤ 240
    | .k n => n.val % w = 0 && n.val + w ≤ 8
    | .gz => true
    | .idx _ => idx
    | .imm => im
    | .s n => n.val % w = 0 && n.val + w ≤ 64
    | .p _ => w = 1
    | .x _ | .j _ | .sh _ | .tk _ | .sp _ => false
  | .reg w z =>
    match x with
    | .g n => n.val % w = 0 && n.val + w ≤ 240
    | .k n => n.val % w = 0 && n.val + w ≤ 8
    | .gz => z
    | .idx _ => idx
    | .s n => n.val % w = 0 && n.val + w ≤ 64
    | .imm | .p _ | .x _ | .j _ | .sh _ | .tk _ | .sp _ => false
  | .dst w =>
    match x with
    | .g n => n.val % w = 0 && n.val + w ≤ 240
    | .k n => n.val % w = 0 && n.val + w ≤ 8
    | .gz => true
    | .idx _ => idx
    | .s n => n.val % w = 0 && n.val + w ≤ 64
    | .imm | .p _ | .x _ | .j _ | .sh _ | .tk _ | .sp _ => false
  | .pred => match x with
    | .p _ => true
    | .g _ | .k _ | .gz | .idx _ | .imm | .s _ | .x _ | .j _ | .sh _ | .tk _ | .sp _ => false
  | .xr => match x with
    | .x _ => true
    | .g _ | .k _ | .gz | .idx _ | .imm | .s _ | .p _ | .j _ | .sh _ | .tk _ | .sp _ => false
  | .set => match x with
    | .j _ => true
    | .g _ | .k _ | .gz | .idx _ | .imm | .s _ | .p _ | .x _ | .sh _ | .tk _ | .sp _ => false
  | .shape => match x with
    | .sh _ => true
    | .g _ | .k _ | .gz | .idx _ | .imm | .s _ | .p _ | .x _ | .j _ | .tk _ | .sp _ => false
  | .token => match x with
    | .tk _ => true
    | .g _ | .k _ | .gz | .idx _ | .imm | .s _ | .p _ | .x _ | .j _ | .sh _ | .sp _ => false
  | .special => match x with
    | .sp n => spAssigned n.val
    | .g _ | .k _ | .gz | .idx _ | .imm | .s _ | .p _ | .x _ | .j _ | .sh _ | .tk _ => false
  | .block => match x with
    | .g n => n.val % 16 = 0 && n.val + 16 ≤ 240
    | .k _ | .gz | .idx _ | .imm | .s _ | .p _ | .x _ | .j _ | .sh _ | .tk _ | .sp _ => false
  | .zero => x = .gz

/-- A 0x0FD operand fits a scalar float narrower than 32 bits (R39). -/
def immFits (o : Ops) (u : Use) (x : Opnd) : Bool :=
  match u with
  | .src _ _ bits =>
    x != .imm || bits ≥ 32 || (if hasIdx o then bitsOf o.imm 0 24 else o.imm.toNat) < 2 ^ bits
  | .none | .reg _ _ | .dst _ | .pred | .xr | .set | .shape | .token | .special | .block | .zero =>
    true

/-- IMM is used as R34 allows. -/
def immOk (o : Ops) (f : Fmt) : Bool :=
  match f.own with
  | some mask => (ownImm o) &&& ~~~(BitVec.ofNat 32 mask) = 0
  | none =>
    o.imm = 0 || o.dst = .imm || o.a = .imm || o.b = .imm || o.c = .imm || hasIdx o

/-- The checks of R34 to R44 on the fields of one instruction. -/
def fieldsOk (o : Ops) (f : Fmt) : Bool :=
  useOk f.idx f.dst o.dst && useOk f.idx f.a o.a && useOk f.idx f.b o.b && useOk f.idx f.c o.c &&
  f.types.contains o.ty && f.mods.contains o.mod.toNat &&
  !(o.guard.pred = 7 && o.guard.neg) && (!f.always || (o.guard.pred = 7 && !o.guard.neg)) &&
  immOk o f && immFits o f.a o.a && immFits o f.b o.b && immFits o f.c o.c && f.ok

/-- `MSS` to TSTICKY and to UIRAISE are rows of their own. -/
def mssRow (i : Instr) : Bool :=
  match i with
  | .mss o => o.dst != .sp 0x08 && o.dst != .sp 0x46
  | .tstickyClear o => o.dst = .sp 0x08
  | .uiraise o => o.dst = .sp 0x46
  | _ => true

/-- An instruction that some word encodes. Events have no word. -/
def wellFormed (i : Instr) : Bool :=
  match form i with
  | some (o, f) => fieldsOk o f && mssRow i
  | none => false

end Sys2Proof
end

