-- ==== Sys2Proof/Decode.lean ====
section
/-! DEFINITION. From 96-bit words to instructions and back (R33 to R50). -/

namespace Sys2Proof

open Machine

/-- Why a word is not an instruction (R50). -/
inductive DecodeError where
  /-- A code that Table 2-4 does not list (R36). -/
  | operandCode
  /-- A major or function code that Tables 2-9 and 2-10 do not assign. -/
  | opcode
  /-- A field that the instruction does not accept (R34 to R44). -/
  | field
  deriving DecidableEq, Repr

/-- Operand of a 9-bit code, Table 2-4 (R36). Codes of special registers are kept below 0x200; which
are assigned is checked with the fields. -/
def decodeOpnd (c : Nat) : Option Opnd :=
  if h : c < 0xF0 then some (.g ⟨c, h⟩)
  else if h : c - 0xF0 < 8 then some (.k ⟨c - 0xF0, h⟩)
  else if c = 0xF8 then some .gz
  else if h : c - 0xF9 < 4 then some (.idx ⟨c - 0xF9, h⟩)
  else if c = 0xFD then some .imm
  else if c < 0x100 then none
  else if h : c - 0x100 < 64 then some (.s ⟨c - 0x100, h⟩)
  else if h : c - 0x140 < 8 then some (.p ⟨c - 0x140, h⟩)
  else if h : c - 0x148 < 4 then some (.x ⟨c - 0x148, h⟩)
  else if c < 0x150 then none
  else if h : c - 0x150 < 16 then some (.j ⟨c - 0x150, h⟩)
  else if h : c - 0x160 < 16 then some (.sh ⟨c - 0x160, h⟩)
  else if h : c - 0x170 < 8 then some (.tk ⟨c - 0x170, h⟩)
  else if c < 0x180 then none
  else if h : c - 0x180 < 128 then some (.sp ⟨c - 0x180, h⟩)
  else none

/-- Code of an operand, Table 2-4 (R36). -/
def encodeOpnd : Opnd → Nat
  | .g n => n.val
  | .k n => 0xF0 + n.val
  | .gz => 0xF8
  | .idx x => 0xF9 + x.val
  | .imm => 0xFD
  | .s n => 0x100 + n.val
  | .p n => 0x140 + n.val
  | .x n => 0x148 + n.val
  | .j n => 0x150 + n.val
  | .sh n => 0x160 + n.val
  | .tk n => 0x170 + n.val
  | .sp n => 0x180 + n.val

/-- Code of a type, Table 2-6 (R42). -/
def encodeTy : Ty → Nat
  | .n8 => 0 | .n16 => 1 | .n32 => 2 | .n64 => 3 | .i8 => 4 | .i16 => 5 | .i32 => 6 | .i64 => 7
  | .f64 => 8 | .f32 => 9 | .f16 => 10 | .bf16 => 11 | .e4m3 => 12 | .e5m2 => 13 | .e2m1 => 14
  | .b128 => 15

/-- Guard of a 4-bit code (R35). -/
def decodeGuard (c : Nat) : Guard :=
  { pred := ⟨c % 8, Nat.mod_lt _ (by decide)⟩, neg := c / 8 % 2 = 1 }

/-- Code of a guard (R35). -/
def encodeGuard (g : Guard) : Nat := g.pred.val + (if g.neg then 8 else 0)

/-- Opcode map, Tables 2-9 and 2-10, part 0. -/
def opcodeRows0 : List (Nat × Nat × (Ops → Instr)) := [
  (0x00, 0, .nop),
  (0x01, 0, .br),
  (0x02, 0, .bany),
  (0x03, 0, .ball),
  (0x04, 0, .bnone),
  (0x05, 0, .jmpi),
  (0x06, 0, .call),
  (0x07, 0, .calli),
  (0x08, 0, .ret),
  (0x09, 0, .exit),
  (0x0A, 0, .yield),
  (0x10, 0, .iadd),
  (0x10, 1, .iadd3),
  (0x10, 2, .iaddc),
  (0x10, 3, .isub),
  (0x11, 0, .imul),
  (0x11, 1, .imulh),
  (0x11, 2, .imad),
  (0x11, 3, .imadw),
  (0x12, 0, .idiv),
  (0x12, 1, .irem),
  (0x13, 0, .imin),
  (0x13, 1, .imax),
  (0x13, 2, .iabs),
  (0x13, 3, .ineg),
  (0x14, 0, .icmp .eq),
  (0x14, 1, .icmp .ne),
  (0x14, 2, .icmp .lt),
  (0x14, 3, .icmp .le),
  (0x14, 4, .icmp .gt),
  (0x14, 5, .icmp .ge),
  (0x15, 0, .and),
  (0x15, 1, .or),
  (0x15, 2, .xor),
  (0x15, 3, .andn),
  (0x15, 4, .not),
  (0x16, 0, .shl),
  (0x16, 1, .shr),
  (0x16, 2, .shra),
  (0x16, 3, .rol)]

/-- Opcode map, Tables 2-9 and 2-10, part 1. -/
def opcodeRows1 : List (Nat × Nat × (Ops → Instr)) := [
  (0x16, 4, .ror),
  (0x17, 0, .bfe),
  (0x17, 1, .bfi),
  (0x18, 0, .popc),
  (0x18, 1, .clz),
  (0x18, 2, .ctz),
  (0x18, 3, .brev),
  (0x19, 0, .perm),
  (0x1A, 0, .lea),
  (0x1B, 0, .idot4),
  (0x30, 0, .mov),
  (0x31, 0, .isel),
  (0x32, 0, .pset),
  (0x33, 0, .pmov),
  (0x34, 0, .movs),
  (0x35, 0, fun o => if o.mod = 1 then .xsetAdd o else .xset o),
  (0x36, 0, .xget),
  (0x40, 0, .fadd),
  (0x40, 1, .fsub),
  (0x41, 0, .fmul),
  (0x42, 0, .ffma),
  (0x43, 0, .fmin),
  (0x43, 1, .fmax),
  (0x43, 2, .fminn),
  (0x43, 3, .fmaxn),
  (0x44, 0, .fcmp .eq),
  (0x44, 1, .fcmp .ne),
  (0x44, 2, .fcmp .lt),
  (0x44, 3, .fcmp .le),
  (0x44, 4, .fcmp .gt),
  (0x44, 5, .fcmp .ge),
  (0x44, 6, .fcmp .un),
  (0x44, 7, .fcmp .ord),
  (0x45, 0, .fclass),
  (0x46, 0, .frnd),
  (0x47, 0, .fscale),
  (0x48, 0, .padd2),
  (0x49, 0, .pmul2),
  (0x4A, 0, .pfma2),
  (0x4B, 0, .pdot2)]

/-- Opcode map, Tables 2-9 and 2-10, part 2. -/
def opcodeRows2 : List (Nat × Nat × (Ops → Instr)) := [
  (0x60, 0, .frcp),
  (0x60, 1, .frsq),
  (0x60, 2, .fsqrt),
  (0x60, 3, .fdiv),
  (0x61, 0, .fexp2),
  (0x61, 1, .flog2),
  (0x62, 0, .fsin),
  (0x62, 1, .fcos),
  (0x62, 2, .ftanh),
  (0x68, 0, .cvt),
  (0x69, 0, .cvpk),
  (0x6A, 0, .cvq8),
  (0x6B, 0, .dq),
  (0x6C, 0, .rnd),
  (0x70, 0, .jnew),
  (0x71, 0, .jent),
  (0x72, 0, .jquit),
  (0x73, 0, .jwait),
  (0x74, 0, .jinfo),
  (0x75, 0, .vote .every),
  (0x75, 1, .vote .some),
  (0x75, 2, .vote .nobody),
  (0x75, 3, .vote .same),
  (0x75, 4, .vote .mask),
  (0x75, 5, .vote .count),
  (0x76, 0, .shfl .abs),
  (0x76, 1, .shfl .rise),
  (0x76, 2, .shfl .fall),
  (0x76, 3, .shfl .flip),
  (0x76, 4, .shfl .rot),
  (0x77, 0, .matchLanes .peers),
  (0x77, 1, .matchLanes .agree),
  (0x78, 0, .rduc (.tree .add)),
  (0x78, 1, .rduc (.tree .min)),
  (0x78, 2, .rduc (.tree .max)),
  (0x78, 3, .rduc (.tree .and)),
  (0x78, 4, .rduc (.tree .or)),
  (0x78, 5, .rduc (.tree .xor)),
  (0x78, 6, .rduc .maxi),
  (0x79, 0, .scan .add)]

/-- Opcode map, Tables 2-9 and 2-10, part 3. -/
def opcodeRows3 : List (Nat × Nat × (Ops → Instr)) := [
  (0x79, 1, .scan .min),
  (0x79, 2, .scan .max),
  (0x79, 3, .scan .and),
  (0x79, 4, .scan .or),
  (0x79, 5, .scan .xor),
  (0x80, 0, .ld),
  (0x81, 0, .st),
  (0x82, 0, .ldsp),
  (0x83, 0, .stsp),
  (0x84, 0, .pref),
  (0x85, 0, .cbrd),
  (0x86, 0, .cbwr),
  (0x87, 0, fun o => if o.mod = 1 then .bkcfgPhys .cache o else .bkcfg .cache o),
  (0x87, 1, fun o => if o.mod = 1 then .bkcfgPhys .scratch o else .bkcfg .scratch o),
  (0x87, 2, fun o => if o.mod = 1 then .bkcfgPhys .fifo o else .bkcfg .fifo o),
  (0x88, 0, .waitc),
  (0x90, 0, .atom .add),
  (0x90, 1, .atom .min),
  (0x90, 2, .atom .max),
  (0x90, 3, .atom .and),
  (0x90, 4, .atom .or),
  (0x90, 5, .atom .xor),
  (0x90, 6, .atom .swap),
  (0x91, 0, .atomn .add),
  (0x91, 1, .atomn .min),
  (0x91, 2, .atomn .max),
  (0x91, 3, .atomn .and),
  (0x91, 4, .atomn .or),
  (0x91, 5, .atomn .xor),
  (0x91, 6, .atomn .swap),
  (0x92, 0, .acas),
  (0x93, 0, .acas2),
  (0x94, 0, .ldrsv),
  (0x95, 0, .stcnd),
  (0x96, 0, .axadd),
  (0x97, 0, .axrd),
  (0x98, 0, .amaxi),
  (0x99, 0, .satom .add),
  (0x99, 1, .satom .min),
  (0x99, 2, .satom .max)]

/-- Opcode map, Tables 2-9 and 2-10, part 4. `BZLD` has the four functions of Table 11-2, where Table 2-9 shows 0x00
alone (DEDUCED, log 54). -/
def opcodeRows4 : List (Nat × Nat × (Ops → Instr)) := [
  (0x99, 3, .satom .and),
  (0x99, 4, .satom .or),
  (0x99, 5, .satom .xor),
  (0x99, 6, .satom .swap),
  (0x9A, 0, .sacas),
  (0xA0, 0, .bzaloc),
  (0xA1, 0, .bzld .data),
  (0xA1, 1, .bzld .cscale),
  (0xA1, 2, .bzld .bscale),
  (0xA1, 3, .bzld .band),
  (0xA2, 0, .bzfree),
  (0xA3, 0, .mmaLb),
  (0xA3, 1, .mmaBb),
  (0xA4, 0, fun o => if o.mod = 1 then .maczRel o else .macz o),
  (0xA5, 0, .mrd),
  (0xA6, 0, .mst),
  (0xA7, 0, .amxrd),
  (0xA8, 0, .amxclr),
  (0xA9, 0, .mstat),
  (0xB0, 0, .cpy),
  (0xB1, 0, .cpy2d),
  (0xB2, 0, .cpyg),
  (0xB3, 0, .cpys),
  (0xB4, 0, .cpycb),
  (0xB5, 0, .tkwait),
  (0xB6, 0, .tktest),
  (0xB7, 0, .tkdrop),
  (0xB8, 0, .chain),
  (0xB9, 0, .spk24),
  (0xBA, 0, .shld),
  (0xBB, 0, .shst),
  (0xBC, 0, .shset),
  (0xBD, 0, .shget),
  (0xC0, 0, .lnch),
  (0xC1, 0, .graph),
  (0xC2, 0, .gwait),
  (0xC3, 0, .gcan),
  (0xC4, 0, .gstat),
  (0xC5, 0, .wid),
  (0xC8, 0, .trap)]

/-- Opcode map, Tables 2-9 and 2-10, part 5. -/
def opcodeRows5 : List (Nat × Nat × (Ops → Instr)) := [
  (0xC9, 0, .tret),
  (0xCA, 0, .uiack),
  (0xCB, 0, .clk),
  (0xCC, 0, .idphys),
  (0xCD, 0, fun o => if o.dst = .sp 0x08 then .tstickyClear o else if o.dst = .sp 0x46 then .uiraise o else .mss o),
  (0xCE, 0, .svwait),
  (0xCF, 0, .svwake),
  (0xD0, 0, .ctxsv),
  (0xD1, 0, .ctxld),
  (0xD2, 0, .tlbinvPage),
  (0xD2, 1, .tlbinvPasid),
  (0xD2, 2, .tlbinvAll),
  (0xD3, 0, .pasidset),
  (0xD4, 0, .aclsClear),
  (0xD5, 0, .cacheopClean),
  (0xD5, 1, .cacheopInv),
  (0xD5, 2, .cacheopFlush),
  (0xD6, 0, fun o => if o.mod = 1 then .haltGo o else if o.mod = 2 then .haltTerm o else .halt o)]

/-- Opcode map (R48). -/
def opcodeRows : List (Nat × Nat × (Ops → Instr)) :=
  opcodeRows0 ++ opcodeRows1 ++ opcodeRows2 ++ opcodeRows3 ++ opcodeRows4 ++ opcodeRows5

/-- The instruction of a major and a function code. -/
def lookupOpcode (rows : List (Nat × Nat × (Ops → Instr))) (major func : Nat) :
    Option (Ops → Instr) :=
  match rows with
  | [] => none
  | (m, f, k) :: rest => if m = major && f = func then some k else lookupOpcode rest major func

/-- The operand fields of a word, Table 2-3 (R33). -/
def decodeOps (w : IWord) : Option Ops :=
  match decodeOpnd (bitsOf w 71 9), decodeOpnd (bitsOf w 62 9), decodeOpnd (bitsOf w 53 9),
    decodeOpnd (bitsOf w 44 9) with
  | some d, some a, some b, some c =>
    some { guard := decodeGuard (bitsOf w 40 4), dst := d, a := a, b := b, c := c,
           ty := tyOf (bitsOf w 36 4), mod := w.extractLsb' 32 4, imm := w.extractLsb' 0 32 }
  | _, _, _, _ => none

/-- The instruction of a 96-bit word, or why there is none. -/
def decode (w : IWord) : Except DecodeError Instr :=
  match lookupOpcode opcodeRows (bitsOf w 88 8) (bitsOf w 80 8) with
  | none => .error .opcode
  | some k =>
    match decodeOps w with
    | none => .error .operandCode
    | some o => if wellFormed (k o) then .ok (k o) else .error .field

/-- The fields of a word other than MAJOR and FUNC. -/
def encodeOps (o : Ops) : Nat :=
  o.imm.toNat + o.mod.toNat * 2 ^ 32 + encodeTy o.ty * 2 ^ 36 + encodeGuard o.guard * 2 ^ 40 +
    encodeOpnd o.c * 2 ^ 44 + encodeOpnd o.b * 2 ^ 53 + encodeOpnd o.a * 2 ^ 62 +
    encodeOpnd o.dst * 2 ^ 71

/-- The word of an instruction; none for an event. -/
def encode (i : Instr) : Option IWord :=
  match form i, opcode i with
  | some (o, _), some (m, f) => some (BitVec.ofNat 96 (encodeOps o + f * 2 ^ 80 + m * 2 ^ 88))
  | _, _ => none

/-- Little-endian bytes of a number (R3). -/
def bytesLE : Nat → Nat → List Byte
  | 0, _ => []
  | n + 1, v => BitVec.ofNat 8 v :: bytesLE n (v / 256)

/-- The number that little-endian bytes hold (R3). -/
def ofBytesLE : List Byte → Nat
  | [] => 0
  | b :: bs => b.toNat + 256 * ofBytesLE bs

/-- The instruction in twelve bytes of a slot (R23). -/
def decodeBytes (bs : List Byte) : Except DecodeError Instr :=
  decode (BitVec.ofNat 96 (ofBytesLE (bs.take 12)))

/-- The instruction whose bits are `w`, numbered from the least significant bit of the slot's first
byte; bits above `nbits` are zero. -/
def decodeTableWord (nbits w : Nat) : Option Instr :=
  match decodeBytes (bytesLE 12 (w % 2 ^ nbits)) with
  | .ok i => some i
  | .error _ => none

end Sys2Proof
end

