-- ==== Sys2Proof/Machine/Access.lean ====
section
/-! DEFINITION. Reading and updating the parts of the state by name. -/

namespace Sys2Proof.Machine

/-! ## Records -/

def getCore (s : State) (c : Nat) : Core := mget {} s.cores c
def modCore (s : State) (c : Nat) (f : Core → Core) : State :=
  { s with cores := mupd {} s.cores c f }
def getDie (s : State) (d : Nat) : Die := mget {} s.dies d
def modDie (s : State) (d : Nat) (f : Die → Die) : State := { s with dies := mupd {} s.dies d f }
def getCluster (s : State) (c : Nat) : Cluster := mget {} s.clusters c
def modCluster (s : State) (c : Nat) (f : Cluster → Cluster) : State :=
  { s with clusters := mupd {} s.clusters c f }
def getPart (s : State) (p : Nat) : Part := mget {} s.parts p
def modPart (s : State) (p : Nat) (f : Part → Part) : State :=
  { s with parts := mupd {} s.parts p f }
/-- The page listed under `e` covers a 64 KiB unit. -/
def pageCovers (u : Nat) (e : Nat × PageHold) : Bool := e.1 ≤ u && u < e.1 + 2 ^ (e.2.bits - 16)
/-- The unit under which the page of a 64 KiB unit is listed: its own where no larger page covers it
(R192). -/
def pageKey (s : State) (u : Nat) : Nat :=
  match s.pages.find? (pageCovers u) with
  | some e => e.1
  | none => u
/-- The page that holds a 64 KiB unit. -/
def getPage (s : State) (u : Nat) : PageHold := mget {} s.pages (pageKey s u)
def modPage (s : State) (u : Nat) (f : PageHold → PageHold) : State :=
  { s with pages := mset {} s.pages (pageKey s u) (f (getPage s u)) }
/-- A 64 KiB unit by itself, for its errors (R337). -/
def getUnit (s : State) (u : Nat) : PageHold := mget {} s.pages u
def modUnit (s : State) (u : Nat) (f : PageHold → PageHold) : State :=
  { s with pages := mset {} s.pages u (f (getUnit s u)) }
/-- A granule lies in one of the ranges. -/
def inRanges (rs : List (Nat × Nat)) (g : Nat) : Bool := rs.any fun r => r.1 ≤ g && g < r.1 + r.2
/-- What a granule that is not listed reads as: U, or S once its page has passed between devices and until the
granule is cleared (R183, R184, R193). -/
def granuleRest (s : State) (g : Nat) : Granule :=
  if (getPage s (g / 16)).passed && !inRanges (getPage s (g / 16)).cleared g then { cls := .s } else {}
def getGranule (s : State) (g : Nat) : Granule := mget (granuleRest s g) s.assay g
def setGranule (s : State) (g : Nat) (v : Granule) : State :=
  { s with assay := mset (granuleRest s g) s.assay g v }
def getLine (s : State) (l : Nat) : Line := mget {} s.dir l
def setLine (s : State) (l : Nat) (v : Line) : State := { s with dir := mset {} s.dir l v }
def modGroup (s : State) (g : Nat) (f : Group → Group) : State :=
  { s with groups := mmod s.groups g f }
def modGang (s : State) (g : Nat) (f : Gang → Gang) : State := { s with gangs := mmod s.gangs g f }
def modGrid (s : State) (g : Nat) (f : Grid → Grid) : State := { s with grids := mmod s.grids g f }
def modOp (s : State) (k : Nat) (f : EngineOp → EngineOp) : State := { s with ops := mmod s.ops k f }
def modLink (s : State) (f : Link → Link) : State := { s with link := f s.link }

/-- A group that no placement made: what an unlisted key reads as. -/
def noGroup : Group := { gang := 0, terminated := true }
/-- A gang that no placement made. -/
def noGang : Gang := { grid := 0 }
def getGroup (s : State) (g : Nat) : Group := mget noGroup s.groups g
def getGang (s : State) (g : Nat) : Gang := mget noGang s.gangs g

/-! ## Threads -/

/-- Applies `f` to the element at `i`. -/
def lmod {α : Type} (f : α → α) : List α → Nat → List α
  | [], _ => []
  | x :: xs, 0 => f x :: xs
  | x :: xs, i + 1 => x :: lmod f xs i

def getThread (s : State) (t : Tid) : Thread := (getGroup s t.grp).threads.getD t.gi { run := .done }
def modThread (s : State) (t : Tid) (f : Thread → Thread) : State :=
  modGroup s t.grp fun g => { g with threads := lmod f g.threads t.gi }
def threadGroup (s : State) (t : Tid) : Group := getGroup s t.grp
def threadCore (s : State) (t : Tid) : Nat := (getGroup s t.grp).core
/-- LANE and TURN (R60). -/
def laneOf (gi : Nat) : Nat := gi % 32
/-- Threads in ascending lane order, as the accesses of a pack are performed (R161, R206). -/
def inLaneOrder (ts : List Tid) : List Tid := (List.range 32).flatMap fun l => ts.filter fun t => laneOf t.gi = l
def turnOf (gi : Nat) : Nat := gi / 32

/-- The die of a core's key. -/
def dieOfCore (c : Nat) : Nat := c / 64
/-- The cluster's key of a core's key. -/
def clusterOfCore (c : Nat) : Nat := c / 4
/-- Key of a core by die and number. -/
def coreKey (die n : Nat) : Nat := die * 64 + n

/-- Privileged mode: the thread runs on a scheduler core (R303). -/
def isPriv (s : State) (t : Tid) : Bool :=
  (getDie s (dieOfCore (threadCore s t))).sched = some (threadCore s t % 64)

/-- Boot found no functioning core on the die: it is left out of every partition (R357). -/
def dieDead (s : State) (d : Nat) : Bool := mfind s.link.booted d = some 5

/-- The die is in the partition (R20, Table 17-4). -/
def holdsDie (s : State) (p d : Nat) : Bool := (getPart s p).dies.getLsbD d && !dieDead s d

/-- The partition that holds a die. -/
def partOfDie (s : State) (d : Nat) : Option Nat := lowest (fun p => holdsDie s p d) 8 0

/-- The partition of a thread; 8, which names none, on a die outside the map. -/
def threadPart (s : State) (t : Tid) : Nat :=
  (partOfDie s (dieOfCore (threadCore s t))).getD 8

/-- The grid of a thread's gang. -/
def threadGrid (s : State) (t : Tid) : Option Grid :=
  mfind s.grids (getGang s (threadGroup s t).gang).grid

/-- The PASID under which a thread's accesses translate: its grid's, and for a service thread its
PASID register (log 11). -/
def threadPasid (s : State) (t : Tid) : Nat :=
  match threadGrid s t with
  | some g => g.pasid
  | none => (getThread s t).pasid.toNat

/-- Every placed thread, in ascending group key and GINDEX. -/
def allTids (s : State) : List Tid :=
  s.groups.flatMap fun (k, g) => (List.range g.threads.length).map fun i => ⟨k, i⟩

/-- Threads of one group in ascending GINDEX. -/
def groupTids (s : State) (g : Nat) : List Tid :=
  (List.range (getGroup s g).threads.length).map fun i => ⟨g, i⟩

/-- A fresh key. -/
def freshId (s : State) : Nat × State := (s.nextId, { s with nextId := s.nextId + 1 })

/-- The next place in the order of launch and start events (R16). -/
def nextEvent (s : State) : Nat × State := (s.events, { s with events := s.events + 1 })

/-- Records a report to the host or to a scheduler core's log. -/
def report (s : State) (r : Report) : State :=
  modLink s fun l => { l with reports := l.reports ++ [r] }

/-- Both CXL data ports are down (R351). -/
def cxlDown (s : State) : Bool := s.link.down.contains (.cxl 0) && s.link.down.contains (.cxl 1)

/-- Every fabric port is down (R341). -/
def fabricDown (s : State) : Bool := (List.range 4).all fun n => s.link.down.contains (.fabric n)

/-- Saturating add for a counter of `w` bits. -/
def satAdd (w n : Nat) : Nat := min (2 ^ w - 1) (n + 1)

/-- An uncorrectable error is counted and reported (R338). -/
def countUncorrected (s : State) (die : Nat) : State :=
  let s := modDie s die fun d => { d with uncorrected := satAdd 16 d.uncorrected }
  report s (.uncorrectable die)

/-- News for an internal queue of a die: its TAIL moves on by one and its service thread is woken, while the
queue is enabled, as by a notify (R304, R305; log 46). -/
def notifyInternal (s : State) (die q : Nat) : State :=
  if (mget 6 (getDie s die).qcfg q).getLsbD 31 then
    modDie s die fun d =>
      { d with tail := mset 0 d.tail q (mget 0 d.tail q + 1), pend := nadd d.pend q }
  else s

/-- Cores of a partition that the state lists: an unlisted core holds no access and no copy. -/
def coresOfPart (s : State) (p : Nat) : List Nat :=
  (mkeys s.cores).filter fun c => holdsDie s p (dieOfCore c)

/-! ## Code pointers -/

/-- The code pointer after `pc`: slot 4 is followed by slot 0 of the next line (R23). -/
def nextPc (pc : DWord) : DWord :=
  if bitsOf pc 0 3 = 4 then (pc &&& ~~~63) + 64 else pc + 1

/-- The form of a code pointer (R45). -/
def pcForm (pc : DWord) : Bool :=
  bitsOf pc 3 3 = 0 && bitsOf pc 0 3 ≤ 4 && (bitsOf pc 56 8 = 0 || bitsOf pc 56 8 = 255)

/-- The line address of a code pointer. -/
def lineOf (pc : DWord) : DWord := pc &&& ~~~63

/-- The slot of a code pointer. -/
def slotOf (pc : DWord) : Nat := bitsOf pc 0 3

/-- A virtual address whose upper bits are the sign extension of bit 56 (R164). -/
def canonical (va : DWord) : Bool := bitsOf va 56 8 = 0 || bitsOf va 56 8 = 255

end Sys2Proof.Machine
end

