-- ==== Sys2Proof/Machine/Memory.lean ====
section
/-! DEFINITION. Physical memory: bytes, poison marks, and the regions of the physical map. -/

namespace Sys2Proof.Machine

/-- What a byte that nothing has written reads as (DESIGN CHOICE, log 3). -/
def memDefault : Byte := 0

/-- The byte at a physical address. -/
def readByte (s : State) (a : Nat) : Byte := mget memDefault s.mem a

/-- Writes one byte, keeping the canonical form. -/
def writeByte (m : List Host.Cell) (a : Nat) (b : Byte) : List Host.Cell := mset memDefault m a b

/-- `n` bytes from `a` on. -/
def readBytes (s : State) (a n : Nat) : List Byte := (List.range n).map fun i => readByte s (a + i)

/-- Writes bytes from `a` on. -/
def writeMem (m : List Host.Cell) (a : Nat) : List Byte → List Host.Cell
  | [] => m
  | b :: bs => writeMem (writeByte m a b) (a + 1) bs

/-- The canonical form of memory: rising addresses, nothing listed equal to what is unlisted. -/
def Memory.wf (m : List Host.Cell) : Bool := risingKeys m && m.all fun c => c.2 ≠ memDefault

/-- Words of 64 bits that `[a, a + n)` touches. -/
def wordsOf (a n : Nat) : List Nat :=
  if n = 0 then [] else (List.range ((a + n - 1) / 8 - a / 8 + 1)).map (a / 8 + ·)

/-- Some word of the range is poisoned (R362). -/
def poisoned (s : State) (a n : Nat) : Bool := (wordsOf a n).any fun w => s.poison.contains w

/-- Words wholly written by a store of `n` bytes at `a`. -/
def fullWords (a n : Nat) : List Nat :=
  (wordsOf a n).filter fun w => a ≤ 8 * w && 8 * w + 8 ≤ a + n

/-- Cache lines that `[a, a + n)` touches. -/
def linesOf (a n : Nat) : List Nat :=
  if n = 0 then [] else (List.range ((a + n - 1) / 128 - a / 128 + 1)).map (a / 128 + ·)

/-- Marked words of a line. -/
def lineMarks (s : State) (l : Nat) : List Nat := s.poison.filter fun w => w / 16 = l

/-- What memory itself holds of a line is kept while a cache holds it otherwise: by a store, or by a mark alone
(R322, R362). -/
def keepBeneath (dirty : Bool) (s : State) (l : Nat) : State :=
  let b := (mfind s.backing l).getD { bytes := readBytes s (l * 128) 128, marks := lineMarks s l, dirty := false }
  { s with backing := mput s.backing l { b with dirty := b.dirty || dirty } }

/-- The same for every line of a store. -/
def keepBacking (s : State) (a n : Nat) : State := (linesOf a n).foldl (keepBeneath true) s

/-- The clean copies of lines that `p` names leave the ways, and their marks with them (R185, R190). -/
def dropWays (s : State) (p : Nat → Bool) : State :=
  { s with wayPoison := s.wayPoison.filter fun e => !p (e.2 / 16) }

/-- Some word of the range is poisoned in a cluster's own copy. -/
def wayMarked (s : State) (ck a n : Nat) : Bool := (wordsOf a n).any fun w => s.wayPoison.contains (ck, w)

/-- A cluster's copy of the lines of a store becomes the lines' value, with its marks (R190, R362). -/
def adoptWay (s : State) (ck a n : Nat) : State :=
  let s := keepBacking s a n
  let mine := s.wayPoison.filter fun e => e.1 = ck && (linesOf a n).contains (e.2 / 16)
  { s with poison := (mine.map Prod.snd).foldl nadd s.poison }

/-- A store of clean data: bytes are written, the marks of whole words cleared, and every other copy is gone (R190,
R362). -/
def storeBytes (s : State) (a : Nat) (bs : List Byte) : State :=
  let s := dropWays (keepBacking s a bs.length) (linesOf a bs.length).contains
  { s with mem := writeMem s.mem a bs,
           poison := s.poison.filter fun w => !(fullWords a bs.length).contains w }

/-- Marks the words of a range. -/
def markPoison (s : State) (a n : Nat) : State :=
  { s with poison := (wordsOf a n).foldl nadd s.poison }

/-- A little-endian number from memory (R3). -/
def readLE (s : State) (a n : Nat) : Nat := ofBytesLE (readBytes s a n)

/-- A dirty line is written back: memory holds what the cache holds (R322). -/
def writeBack (s : State) (line : Nat) : State :=
  if (mfind s.backing line).any Beneath.dirty then { s with backing := mdel s.backing line } else s

/-- Memory's own marks of a line stand again. -/
def restoreMarks (s : State) (line : Nat) (marks : List Nat) : State :=
  { s with poison := marks.foldl nadd (s.poison.filter fun w => w / 16 ≠ line) }

/-- A line leaves the caches: written back if it is dirty; a mark of a clean copy goes with it (R322, R362). -/
def leaveCaches (s : State) (line : Nat) : State :=
  match mfind s.backing line with
  | none => s
  | some b =>
    let s := { s with backing := mdel s.backing line }
    if b.dirty then s else restoreMarks s line b.marks

/-- The lines of a slice that `p` names leave it (R339). -/
def emptySlice (s : State) (p : Nat → Bool) : State := ((mkeys s.backing).filter p).foldl leaveCaches s

/-- The lines that `p` names leave the slices and the ways (R184, R193). -/
def emptyCaches (s : State) (p : Nat → Bool) : State := emptySlice (dropWays s p) p

/-- The same for every line of a range: a store to the host's memory or to a device stays in no cache. -/
def writeThrough (s : State) (a n : Nat) : State := (linesOf a n).foldl writeBack s

/-! ## Physical map -/

/-- Regions of Table 17-1 (R324). -/
inductive Region where
  | hbm (die : Nat)
  | tier
  | cxl
  | ext
  | regs
  | hole
  deriving DecidableEq, Repr

/-- The region of a physical address (R324). -/
def regionOf (pa : Nat) : Region :=
  if pa < 0x10000000000 then .hbm (pa / 0x2000000000)
  else if 0x20000000000 ≤ pa && pa < 0x40000000000 then .tier
  else if 0x1000000000000 ≤ pa && pa < 0x2000000000000 then .cxl
  else if 0x2000000000000 ≤ pa && pa < 0x3000000000000 then .ext
  else if 0xF000000000000 ≤ pa && pa < 0x10000000000000 then .regs
  else .hole

/-- The page type a region admits (Table 17-1). -/
def regionTy : Region → Option PageTy
  | .hbm _ | .tier | .cxl => some .n
  | .ext => some .x
  | .regs => some .d
  | .hole => none

/-- The carve-out (R355). -/
def inCarveOut (pa : Nat) : Bool := 0x1FE0000000 ≤ pa && pa < 0x2000000000

/-- A 1 GiB window [BASE, LIMIT) holds an offset (Table 17-4; the limit is taken as the first unit
beyond the range, log 12). -/
def inWindow (w : DWord) (off : Nat) : Bool :=
  bitsOf w 0 32 * 0x40000000 ≤ off && off < bitsOf w 32 32 * 0x40000000

/-- A physical byte belongs to a partition's memory (R334), or is a module register of a die of it, of the link die,
or of the partition map, which scheduler cores map as D pages (R342; logs 12, 17). TIER_RANGE counts from the start of
the second-tier region, as Table 17-4 has CXL_RANGE and X_RANGE count from theirs (DEDUCED, log 12). -/
def partOwns (s : State) (p pa : Nat) : Bool :=
  match regionOf pa with
  | .hbm d => holdsDie s p d && !inCarveOut pa
  | .tier => inWindow (getPart s p).tier (pa - 0x20000000000)
  | .cxl => inWindow (getPart s p).cxl (pa - 0x1000000000000)
  | .ext => inWindow (getPart s p).xwin (pa - 0x2000000000000)
  | .regs =>
    (pa < 0xF000000100000 &&
      (0xF000000080000 ≤ pa || holdsDie s p ((pa - 0xF000000000000) / 0x10000))) ||
    (0xF000000200000 ≤ pa && pa < 0xF000000210000)
  | .hole => false

/-- Dies of a partition in ascending order. -/
def partDies (s : State) (p : Nat) : List Nat :=
  (List.range 8).filter (holdsDie s p)

/-- The partition whose memory holds a physical byte, or 8. -/
def ownerPart (s : State) (pa : Nat) : Nat := (lowest (fun p => partOwns s p pa) 8 0).getD 8

/-- The home die of a line, Table 8-3 (R189). -/
def homeDie (s : State) (pa : Nat) : Nat :=
  match regionOf pa with
  | .hbm d => d
  | .tier | .cxl | .ext | .regs | .hole =>
    let ds := partDies s (ownerPart s pa)
    ds.getD (pa / 4096 % 8 % ds.length) 0

/-- The slice that stands in for slice `k` of a die: the next one that is not withdrawn (R339; log 50). -/
def liveSlice (s : State) (die k : Nat) : Nat :=
  match lowest (fun i => !(getDie s die).slicesLost.contains ((k + i) % 32)) 32 0 with
  | some i => (k + i) % 32
  | none => k

/-- The home slice of a line: die × 32 + slice, Table 8-3 (R189), rehomed as slices are withdrawn (R339). -/
def homeSlice (s : State) (pa : Nat) : Nat :=
  let die := homeDie s pa
  die * 32 + liveSlice s die (Nat.xor (pa / 128 % 32) (pa / 4096 % 32))

/-- The granule, line and 64 KiB page of a physical address. -/
def granuleOf (pa : Nat) : Nat := pa / 4096
def lineNo (pa : Nat) : Nat := pa / 128
def pageNo (pa : Nat) : Nat := pa / 65536

/-! ## Pages that pass between devices -/

/-- The page is passing, or another device holds it. -/
def PageHold.away (p : PageHold) : Bool := p.departing || p.holder.isSome

/-- A page is passing, or another device holds it (R192, R193). -/
def pageAway (s : State) (pa : Nat) : Bool :=
  (getPage s (pageNo pa)).away

/-- A physical byte lies on the page of a 64 KiB unit. -/
def onPage (s : State) (u pa : Nat) : Bool := pageKey s (pageNo pa) = pageKey s u

/-- First byte of the page of a unit, and its size (R192). -/
def pageStart (s : State) (u : Nat) : Nat := pageKey s u * 65536
def pageBytes (s : State) (u : Nat) : Nat := 2 ^ (getPage s u).bits

/-- Granules of a page that the state lists. -/
def pageGranules (s : State) (u : Nat) : List Nat := (mkeys s.assay).filter fun g => onPage s u (g * 4096)

/-- The first granule from `g` on that none of the ranges holds. -/
def firstOutside (rs : List (Nat × Nat)) : Nat → Nat → Nat
  | 0, g => g
  | fuel + 1, g =>
    match rs.find? fun r => r.1 ≤ g && g < r.1 + r.2 with
    | none => g
    | some r => firstOutside rs fuel (r.1 + r.2)

/-- A granule of a page that has passed still reads as S where it is not listed (R184, R193). -/
def passedLeft (s : State) (u : Nat) : Bool :=
  let p := getPage s u
  p.passed && firstOutside p.cleared p.cleared.length (pageStart s u / 4096) < (pageStart s u + pageBytes s u) / 4096

/-- A page of host memory that this module holds under device bias: some granule of it is classified (R192;
log 20). -/
def heldHere (s : State) (u : Nat) : Bool :=
  (getPage s u).holder.isNone && (passedLeft s u ||
    (pageGranules s u).any fun g => (getGranule s g).cls ≠ .u || (getGranule s g).annealing.isSome)

/-- Bytes of host memory under device bias that the module does not hold, with both CXL ports down: they cannot be
had (R192, R351). -/
def unreached (s : State) (pa : Nat) : Bool := regionOf pa = .cxl && cxlDown s && !heldHere s (pageNo pa)

/-- Memory of an X window with the PCIe port down: a read of it ends by timeout (R341, R350, R351). -/
def unanswered (s : State) (pa : Nat) : Bool := regionOf pa = .ext && s.link.down.contains .pcie

/-- Bytes of a read that failed: free values (R268, R351; log 9). -/
def failedBytes (s : State) (a n : Nat) : List Byte :=
  (List.range n).map fun i =>
    (Config.failedWord (s.free + (a + i) / 4)).extractLsb' (8 * ((a + i) % 4)) 8

/-- A fetch of the line fails: it lies in host memory, with both CXL ports down and not held by this module (R351). -/
def fetchLost (s : State) (pa : Nat) (host : Bool) : Bool :=
  unreached s pa || (host && regionOf pa = .cxl && cxlDown s)

/-- The 64 bytes of a line, or what a fetch that fails reads (log 9). -/
def fetchBytes (s : State) (pa : Nat) (host : Bool) : List Byte :=
  if fetchLost s pa host then failedBytes s pa 64 else readBytes s pa 64

/-- The free values that such a fetch has drawn. -/
def fetchDraws (s : State) (pa : Nat) (host : Bool) : State :=
  if fetchLost s pa host then { s with free := s.free + pa + 64 } else s

end Sys2Proof.Machine
end

