-- ==== Sys2Proof/Machine/Regs.lean ====
section
/-! DEFINITION. Registers, predicates, FSTAT and poison marks of threads and groups (R64, R175). A
register is named by its code: g at 0 to 239, k at 240 to 247, s at 256 to 319. -/

namespace Sys2Proof.Machine

/-- A register as an instruction reads it: scalars as its pack found them (R37). -/
def readReg (s : State) (t : Tid) (snap : NMap Word) (code : Nat) : Word :=
  if code < 256 then mget 0 (getThread s t).regs code else mget 0 snap (code - 256)

/-- `w` registers from `code` on, the first lowest (R38). -/
def readRegs (s : State) (t : Tid) (snap : NMap Word) (code : Nat) : Nat → Nat
  | 0 => 0
  | w + 1 => (readReg s t snap code).toNat + 2 ^ 32 * readRegs s t snap (code + 1) w

/-- A register's value and its poison mark: `mark` is the address recorded, if any (R175). -/
def setReg (s : State) (t : Tid) (code : Nat) (v : Word) (mark : Option DWord) : State :=
  if code < 256 then
    modThread s t fun th =>
      { th with regs := mset 0 th.regs code v,
                rpoison := match mark with
                  | some a => mput th.rpoison code a
                  | none => mdel th.rpoison code }
  else
    modGroup s t.grp fun g =>
      { g with scal := mset 0 g.scal (code - 256) v,
               spoison := match mark with
                 | some a => mput g.spoison (code - 256) a
                 | none => mdel g.spoison (code - 256) }

/-- Writes `w` registers from `code` on. -/
def setRegs (s : State) (t : Tid) (code : Nat) : Nat → Nat → Option DWord → State
  | 0, _, _ => s
  | w + 1, v, m => setRegs (setReg s t code (BitVec.ofNat 32 v) m) t (code + 1) w (v / 2 ^ 32) m

/-- A predicate; p7 reads 1 (R35). -/
def readPred (s : State) (t : Tid) (n : Nat) : Bool := 7 ≤ n || (getThread s t).preds.getLsbD n

/-- A predicate written; p7 discards (R37). -/
def setPred (s : State) (t : Tid) (n : Nat) (b : Bool) : State :=
  if 7 ≤ n then s
  else modThread s t fun th =>
    { th with preds := if b then th.preds ||| BitVec.ofNat 7 (2 ^ n)
                       else th.preds &&& ~~~(BitVec.ofNat 7 (2 ^ n)) }

/-- FSTAT flags joined to those already set (R68). -/
def addFlags (s : State) (t : Tid) (f : Flags) : State :=
  modThread s t fun th => { th with fstat := Flags.join th.fstat f }

/-- A shape register (R272). -/
def readShape (s : State) (t : Tid) (n : Nat) : Shape := mget 0 (threadGroup s t).shapes n

/-- A shape register written, with or without a mark (R274). -/
def setShape (s : State) (t : Tid) (n : Nat) (v : Shape) (mark : Option DWord) : State :=
  modGroup s t.grp fun g =>
    { g with shapes := mset 0 g.shapes n v,
             shpoison := match mark with
               | some a => mput g.shpoison n a
               | none => mdel g.shpoison n }

/-- Writes a result to its destination. -/
def writeDest (s : State) (t : Tid) (d : Dest) (v : Nat) (mark : Option DWord) : State :=
  match d with
  | .none => s
  | .reg code w => setRegs s t code w v mark
  | .pred n => setPred s t n (v % 2 = 1)
  | .shape n => setShape s t n (BitVec.ofNat 512 v) mark

/-- The poison mark of a register. -/
def markOf (s : State) (t : Tid) (code : Nat) : Option DWord :=
  if code < 256 then mfind (getThread s t).rpoison code
  else mfind (threadGroup s t).spoison (code - 256)

/-- A destination covers a register. -/
def destHas (d : Dest) (code : Nat) : Bool :=
  match d with
  | .reg c w => c ≤ code && code < c + w
  | .none | .pred _ | .shape _ => false

/-- A destination is a group scalar. -/
def Dest.shared (d : Dest) : Bool :=
  match d with
  | .reg c _ => 256 ≤ c
  | .none | .pred _ | .shape _ => false

/-- The instruction returns a value to a register when its access is performed. -/
def MemOp.returns : MemOp → Bool
  | .load _ => true
  | .atom _ _ _ r => r
  | .cas _ _ => true
  | .axrd _ => true
  | .amaxi _ => true
  | .ldrsv => true
  | .store _ | .axadd _ _ | .stcnd _ => false

/-- FSTAT among the registers: its special-register code (Table 3-2). A late result adds its flags to it (R137). -/
def fstatCode : Nat := 0x187

/-- The threads whose outstanding work may write a register that `t` names: `t` itself, and for a
group scalar every thread of the group. -/
def writersOf (s : State) (t : Tid) (code : Nat) : List Tid :=
  if code < 256 || code = fstatCode then [t] else groupTids s t.grp

/-- A late result changes a register: its destination, or FSTAT. -/
def LateWrite.hits (l : LateWrite) (code : Nat) : Bool := code = fstatCode || destHas l.dst code

/-- A register awaits an overlapped access (R159). FSTAT awaits none, an `AXRD` whose flags are set with its d neither
(DESIGN CHOICE, log 61). -/
def loadAwaited (s : State) (t : Tid) (code : Nat) : Bool :=
  (getCore s (threadCore s t)).queue.any fun e =>
    (writersOf s t code).contains e.tid && destHas e.acc.dst code

/-- A register awaits a late result (R148, R277). -/
def lateAwaited (s : State) (t : Tid) (code : Nat) : Bool :=
  (writersOf s t code).any fun u => (getThread s u).late.any fun l => l.hits code

/-- A register awaits an overlapped access or a late result (R159, R148). -/
def awaited (s : State) (t : Tid) (code : Nat) : Bool := loadAwaited s t code || lateAwaited s t code

end Sys2Proof.Machine
end

