-- ==== Sys2Proof/Machine/Perform.lean ====
section
/-! DEFINITION. What a memory access does at the moment it is performed, reservations, and a core's
access queue (R159, R187, R202 to R216). -/

namespace Sys2Proof.Machine

/-! ## Reservations -/

/-- The reservation entries that stores to `[a, a + n)` by `t` leave: every other thread's entry on
a line it touches is lost (R214 case 2). -/
def resvAfterStore (rs : List Reservation) (t : Option Tid) (a n : Nat) : List Reservation :=
  rs.filter fun r => some r.tid = t || r.line < lineNo a || lineNo (a + n - 1) < r.line

/-- A store by `t` (or by an engine, host or peer) takes other threads' reservations. -/
def loseResv (s : State) (t : Option Tid) (a n : Nat) : State :=
  { s with resv := resvAfterStore s.resv t a n }

/-- A thread's reservation is lost (R213, R214 case 5). -/
def dropResv (s : State) (t : Tid) : State := { s with resv := s.resv.filter fun r => r.tid ≠ t }

/-- Reservations on the lines of a range are lost (R214 case 3). -/
def dropResvRange (s : State) (a n : Nat) : State := loseResv s none a n

/-- The first entry of a slice, the oldest, is removed. -/
def evictOldest (slice : Nat) : List Reservation → List Reservation
  | [] => []
  | r :: rs => if r.slice = slice then rs else r :: evictOldest slice rs

/-- A new entry of a slice: its oldest goes when its 128 entries are in use (R213). -/
def addResv (rs : List Reservation) (r : Reservation) : List Reservation :=
  (if 128 ≤ (rs.filter fun q => q.slice = r.slice).length then evictOldest r.slice rs else rs) ++ [r]

/-- A new reservation (R213): the thread's previous one goes. -/
def takeResv (s : State) (t : Tid) (pa : Nat) : State :=
  let s := dropResv s t
  { s with resv := addResv s.resv { tid := t, line := lineNo pa, slice := homeSlice s pa } }

/-- The reservations of a partition's threads are lost, since its gangs have been stopped (R214 case 5, R316, R339). -/
def dropPartResv (s : State) (p : Nat) : State := { s with resv := s.resv.filter fun r => threadPart s r.tid ≠ p }

/-! ## One access -/

/-- The value a load of a type writes (R163). -/
def loadValue (ty : Ty) (n : Nat) : Nat :=
  if isSigned ty then wrap 32 (toSigned (tyBits ty) n) else n

/-- Bytes of an access (R163, R202). -/
def tyBytes (ty : Ty) : Nat := tyBits ty / 8

/-- The access is performed in the cluster's ways, if they hold the line: a load or store of any class, and an atomic
of a class other than S, which the home does not decide (R187, R190). -/
def throughWays (s : State) (a : Access) : Bool :=
  match a.op with
  | .load _ | .store _ => true
  | .ldrsv | .stcnd _ => false
  | .atom _ _ _ _ | .cas _ _ | .axadd _ _ | .axrd _ | .amaxi _ => (getGranule s (granuleOf a.pa)).cls ≠ .s

/-- The access meets a poisoned word, of the line's value or of its own cluster's copy (R336, R362). -/
def accessBad (s : State) (t : Tid) (a : Access) : Bool :=
  poisoned s a.pa a.size || (throughWays s a && wayMarked s (clusterOfCore (threadCore s t)) a.pa a.size)

/-- Writes the bytes of an atomic: poison marks stay (R362). -/
def atomicWrite (s : State) (t : Tid) (a : Access) (bs : List Byte) : State :=
  let s := loseResv s (some t) a.pa bs.length
  let s := if throughWays s a then adoptWay s (clusterOfCore (threadCore s t)) a.pa bs.length
           else keepBacking s a.pa bs.length
  let s := dropWays s (linesOf a.pa bs.length).contains
  { s with mem := writeMem s.mem a.pa bs }

/-- The die whose scheduler core hears of a thread's poison (R216). -/
def threadDie (s : State) (t : Tid) : Nat := dieOfCore (threadCore s t)

/-- A memory access is performed (R159, R182, R202 to R216): bytes and registers change together. A successful `STCND`
of whole words clears their poison marks as the store that it is (R214, R362; DEDUCED, log 63). An atomic loses others'
reservations when it writes (DESIGN CHOICE, log 63). -/
def performMem (s : State) (t : Tid) (a : Access) : State :=
  let bad := accessBad s t a
  let old := readLE s a.pa a.size
  let mark := if bad then some a.va else none
  match a.op with
  | .load ty => writeDest s t a.dst (loadValue ty old) mark
  | .store bs =>
    storeBytes (adoptWay (loseResv s (some t) a.pa a.size) (clusterOfCore (threadCore s t)) a.pa bs.length) a.pa bs
  | .atom op ty v returns =>
    if bad then
      if returns then writeDest s t a.dst old mark else report s (.poisonMet (threadDie s t))
    else
      let s := atomicWrite s t a (bytesLE a.size (atomNew op ty old v.toNat))
      if returns then writeDest s t a.dst old none else s
  | .cas cmp new =>
    let s := if !bad && readBytes s a.pa a.size = cmp then atomicWrite s t a new else s
    writeDest s t a.dst old mark
  | .axadd ty v =>
    if bad then report s (.poisonMet (threadDie s t))
    else atomicWrite s t a (bytesLE 64 (cellAdd ty v.toNat old))
  | .axrd clr =>
    let (bits, fl) := cellToF32 old
    let s := if clr && !bad then atomicWrite s t a (List.replicate 64 0) else s
    addFlags (writeDest s t a.dst bits mark) t fl
  | .amaxi packed =>
    let s := if !bad && old < packed.toNat then atomicWrite s t a (bytesLE 8 packed.toNat) else s
    writeDest s t a.dst old mark
  | .ldrsv =>
    let s := takeResv (writeDest s t a.dst old mark) t a.pa
    modThread s t fun th => { th with sinceRsv := 0 }
  | .stcnd bs =>
    let held := s.resv.any fun r => r.tid = t && r.line = lineNo a.pa
    let ok := held && (getThread s t).sinceRsv ≤ 64
    let s := dropResv s t
    let s := if ok then storeBytes (loseResv s (some t) a.pa a.size) a.pa bs else s
    writeDest s t a.dst (if ok then 1 else 0) none

/-! ## The access queue -/

/-- CNT.LD or CNT.ST falls as an overlapped access is performed (R159, R204). -/
def uncount (s : State) (t : Tid) (op : MemOp) : State :=
  modThread s t fun th =>
    if op.returns then { th with cntLd := th.cntLd - 1 } else { th with cntSt := th.cntSt - 1 }

/-- Operations of a core that wait for its queue come one access nearer to their start, and start
when none is left (R195 steps 3 and 4), in the order of issue. -/
def startOps (s : State) (core : Nat) : List Nat → State
  | [] => s
  | k :: ks =>
    match mfind s.ops k with
    | none => startOps s core ks
    | some o =>
      if o.core = core && o.start.isNone && o.phase ≠ .claiming then
        let s := if o.ahead ≤ 1 then
            modOp { s with events := s.events + 1 } k fun o =>
              { o with ahead := 0, start := some s.events }
          else modOp s k fun o => { o with ahead := o.ahead - 1 }
        startOps s core ks
      else startOps s core ks

/-- Performs the head of a core's access queue (R187). -/
def performHead (s : State) (core : Nat) : State :=
  match (getCore s core).queue with
  | [] => s
  | e :: q =>
    let s := modCore s core fun c => { c with queue := q }
    let s := uncount (performMem s e.tid e.acc) e.tid e.acc.op
    startOps s core (mkeys s.ops)

/-- Performs `n` entries of a core's queue, in order. -/
def performHeads (s : State) (core : Nat) : Nat → State
  | 0 => s
  | n + 1 => performHeads (performHead s core) core n

/-- Entries up to and including the last for which `p` holds. -/
def lastIndex (p : QEntry → Bool) : List QEntry → Nat
  | [] => 0
  | e :: q => match lastIndex p q with
    | 0 => if p e then 1 else 0
    | n + 1 => n + 2

/-- A drain (R188): every entry up to the last one that `p` names. -/
def drain (s : State) (core : Nat) (p : QEntry → Bool) : State :=
  performHeads s core (lastIndex p (getCore s core).queue)

/-- The entry touches a granule. -/
def touches (g : Nat) (e : QEntry) : Bool := granuleOf e.acc.pa = g

/-- One late write of a thread is made, with its flags (R137, R148, R277). -/
def makeOne (t : Tid) (s : State) (l : LateWrite) : State :=
  let s := modThread s t fun th => { th with late := th.late.erase l }
  addFlags (writeDest s t l.dst l.value.toNat none) t l.flags

/-- A thread's late writes to one destination are made, in the order of their issue. -/
def makeSame (d : Dest) (s : State) (t : Tid) : State :=
  ((getThread s t).late.filter fun l => l.dst = d).foldl (makeOne t) s

/-- The threads of a group in the lanes below a thread's, in lane order. -/
def lowerLanes (s : State) (t : Tid) : List Tid :=
  inLaneOrder ((groupTids s t.grp).filter fun u => laneOf u.gi < laneOf t.gi)

/-- A late write is made. One to a group scalar comes after those of its pack's lower lanes, so that the highest
writing lane's value stands (R37; what an earlier pack left has been written before this one issued, log 61). -/
def makeLate (t : Tid) (s : State) (l : LateWrite) : State :=
  makeOne t (if l.dst.shared then (lowerLanes s t).foldl (makeSame l.dst) s else s) l

/-- A thread's late writes that `p` names are made, in the order of their issue. -/
def makeLates (p : LateWrite → Bool) (s : State) (t : Tid) : State :=
  ((getThread s t).late.filter p).foldl (makeLate t) s

/-- The late results that registers await are written: an instruction that names one waits for the write within
its own issue, since no program can read the latency (R148, R277; log 61). -/
def finishLates (s : State) (t : Tid) (codes : List Nat) : State :=
  codes.foldl (fun s c => (writersOf s t c).foldl (makeLates fun l => l.hits c) s) s

/-- The late results of a group for its scalars are written before a pack finds them (R37, R148; log 61). -/
def shareLates (s : State) (grp : Nat) : State := (groupTids s grp).foldl (makeLates fun l => l.dst.shared) s

/-- Every late write of a thread. -/
def writeLates (s : State) (t : Tid) : State := makeLates (fun _ => true) s t

/-- Every register-writing operation that a thread has outstanding completes (R79 step 1). -/
def completeRegs (s : State) (t : Tid) : State :=
  let s := drain s (threadCore s t) fun e => e.tid = t && e.acc.op.returns
  writeLates s t

/-- Every overlapped access of a thread is performed (R316). -/
def completeAll (s : State) (t : Tid) : State :=
  writeLates (drain s (threadCore s t) fun e => e.tid = t) t

end Sys2Proof.Machine
end

