-- ==== Sys2Proof/Machine/Translate.lean ====
section
/-! DEFINITION. Page-table walks, translation caches (R325 to R332). -/

namespace Sys2Proof.Machine

/-- A table pointer: V, LEAF and PA only (R326). It names memory of the partition's own (R327), so no
register. -/
def pointerOk (s : State) (p : Nat) (e : DWord) : Bool :=
  let base := bitsOf e 16 36 * 65536
  e.getLsbD 0 && !e.getLsbD 1 && bitsOf e 2 14 = 0 && bitsOf e 52 12 = 0 &&
    partOwns s p base && regionOf base ≠ .regs

/-- A leaf of a level whose pages have `bits` offset bits, if it passes R327. -/
def leafOf (s : State) (p bits : Nat) (e : DWord) : Option Leaf :=
  let base := bitsOf e 16 36 * 65536
  let ty := ([some PageTy.n, some .d, some .x, none] : List (Option PageTy)).getD (bitsOf e 2 2) none
  match ty with
  | none => none
  | some ty =>
    if e.getLsbD 0 && e.getLsbD 1 && bitsOf e 11 5 = 0 && bitsOf e 55 9 = 0 &&
        base % 2 ^ bits = 0 && regionTy (regionOf base) = some ty &&
        (!e.getLsbD 9 || regionOf base = .cxl) && bitsOf e 52 3 = p &&
        partOwns s p base && partOwns s p (base + 2 ^ bits - 1) &&
        regionOf (base + 2 ^ bits - 1) = regionOf base then
      some { base := base, bits := bits, ty := ty, r := e.getLsbD 4, w := e.getLsbD 5,
             ex := e.getLsbD 6, global := e.getLsbD 10, bias := e.getLsbD 9,
             forceS := e.getLsbD 8, pin := e.getLsbD 7 }
    else none

/-- A page-table entry: 8 bytes; a poisoned one ends the walk (R327), and so does one of host memory or of an X window
whose ports are down (R350, R351). The locked carve-out gives a walker zeros (R356). -/
def readPte (s : State) (a : Nat) : Option DWord :=
  if s.link.fwLock && inCarveOut a then some 0
  else if poisoned s a 8 || unreached s a || unanswered s a then none else some (BitVec.ofNat 64 (readLE s a 8))

/-- The levels below the root, each by the low bit of its index (R325). -/
def walkLevels (s : State) (p : Nat) (va : DWord) : List Nat → Nat → Option Leaf
  | [], _ => none
  | sh :: rest, base =>
    match readPte s (base + 8 * bitsOf va sh 13) with
    | none => none
    | some e =>
      if e.getLsbD 1 then leafOf s p sh e
      else if rest.isEmpty then none
      else if pointerOk s p e then walkLevels s p va rest (bitsOf e 16 36 * 65536) else none

/-- The address of the root entry (R325). -/
def rootEntry (s : State) (p pasid : Nat) (va : DWord) : Nat :=
  bitsOf (getPart s p).pasidBase 12 40 * 4096 + 32 * pasid + 8 * bitsOf va 55 2

/-- PASIDs of the partition (Table 17-4): 2^LOG_COUNT, LOG_COUNT at most 20. -/
def pasidCount (s : State) (p : Nat) : Nat := 2 ^ min 20 (getPart s p).pasidCfg.toNat

/-- A walk (R325 to R327). `none` is PAGE_FAULT. -/
def walk (s : State) (p pasid : Nat) (va : DWord) : Option Leaf :=
  if 8 ≤ p || pasidCount s p ≤ pasid then none
  else match readPte s (rootEntry s p pasid va) with
    | none => none
    | some e =>
      if pointerOk s p e then walkLevels s p va [42, 29, 16] (bitsOf e 16 36 * 65536) else none

/-- State of a PASID; one beyond the table is FREE (Table 17-4). -/
def pasidState (s : State) (p pasid : Nat) : PasidState :=
  if pasid < pasidCount s p then mget .free (getPart s p).pasids pasid else .free

/-- Misses and walks outstanding for a PASID on the partition's dies (R331). -/
def pasidOutstanding (s : State) (p pasid : Nat) : Nat :=
  (partDies s p).foldl (fun n d =>
    n + ((getDie s d).walks.filter fun m => m.pasid = pasid).length +
      ((getDie s d).misses.filter fun m => m.pasid = pasid).length) 0

/-- The physical address of a virtual address under a leaf. -/
def Leaf.pa (l : Leaf) (va : DWord) : Nat := l.base + va.toNat % 2 ^ l.bits

/-- Virtual page number under a leaf's page size. -/
def vpnOf (va : DWord) (bits : Nat) : Nat := va.toNat % 2 ^ 57 / 2 ^ bits

/-- A cached translation (R329). -/
def tlbLookup (tlb : List TlbEntry) (pasid : Nat) (va : DWord) : Option Leaf :=
  match tlb.find? fun e =>
    (e.pasid = none || e.pasid = some pasid) && e.vpn = vpnOf va e.leaf.bits with
  | some e => some e.leaf
  | none => none

/-- Caches a translation in a core. -/
def tlbFill (s : State) (core pasid : Nat) (va : DWord) (l : Leaf) : State :=
  modCore s core fun c =>
    { c with tlb := { pasid := if l.global then none else some pasid,
                      vpn := vpnOf va l.bits, leaf := l } :: c.tlb }

/-- A key that names no core: the Sprue's, which translates by walks of its own (log 13). -/
def rootKey : Nat := 1024

/-- The translation that an access of a core's uses: the one that its cache holds, since what needs a walk waits
for it (R330); the Sprue's, by a walk within the step (log 13). -/
def translateNow (s : State) (core p pasid : Nat) (va : DWord) : Option Leaf :=
  if core = rootKey then walk s p pasid va else tlbLookup (getCore s core).tlb pasid va

/-- Physical pieces of a virtual range, page by page, with the first fault in ascending address;
`need` names the fault of a page that the access may not use. -/
def rangePieces (s : State) (core p pasid : Nat) (need : Leaf → Option Code) :
    Nat → DWord → Nat → Except Exc (List (Nat × Nat × Leaf))
  | 0, _, _ => .ok []
  | fuel + 1, va, n =>
    if n = 0 then .ok []
    else if !canonical va then .error { code := .pageFault, addr := va }
    else match translateNow s core p pasid va with
      | none => .error { code := .pageFault, addr := va }
      | some l =>
        match need l with
        | some c => .error { code := c, addr := va }
        | none =>
          let m := min n (2 ^ l.bits - va.toNat % 2 ^ l.bits)
          match rangePieces s core p pasid need fuel (va + BitVec.ofNat 64 m) (n - m) with
          | .error e => .error e
          | .ok ps => .ok ((l.pa va, m, l) :: ps)

/-- `rangePieces` with enough steps for any range. -/
def piecesOf (s : State) (core p pasid : Nat) (need : Leaf → Option Code) (va : DWord) (n : Nat) :
    Except Exc (List (Nat × Nat × Leaf)) :=
  rangePieces s core p pasid need (n / 65536 + 2) va n

end Sys2Proof.Machine
end

