-- ==== Sys2Proof/Machine/Sched.lean ====
section
/-! DEFINITION. Posting, parking and holding of threads (R71 to R82). -/

namespace Sys2Proof.Machine

/-! ## Posting -/

/-- Sets a thread's bit, with its stamp, in the slot that serves (group, PC), if there is one. -/
def postSlot (grp : Nat) (pc : DWord) (gi stamp : Nat) : NMap Slot → Option (NMap Slot)
  | [] => none
  | (k, sl) :: m =>
    if sl.grp = grp && sl.pc = pc then
      some ((k, { sl with waiting := mput sl.waiting gi stamp }) :: m)
    else match postSlot grp pc gi stamp m with
      | some m => some ((k, sl) :: m)
      | none => none

/-- The lowest free slot of a block table. -/
def freeSlot (m : NMap Slot) : Option Nat := lowest (fun k => (mfind m k).isNone) 64 0

/-- `post` of R73 on a core. -/
def postCore (c : Core) (t : Tid) (pc : DWord) : Core :=
  let stamp := c.selections + 1
  match postSlot t.grp pc t.gi stamp c.table with
  | some m => { c with table := m }
  | none =>
    match freeSlot c.table with
    | some k => { c with table := mput c.table k { grp := t.grp, pc := pc, waiting := [(t.gi, stamp)] } }
    | none => { c with overflow := c.overflow ++ [(t, pc, stamp)] }

/-- A thread posts itself to a code pointer (R73). -/
def post (s : State) (t : Tid) (pc : DWord) : State :=
  let s := modThread s t fun th => { th with pc := pc, run := .ready, counted := false }
  modCore s (threadCore s t) fun c => postCore c t pc

/-- A thread that waited goes on from `pc`: it posts, or, while its gang is held, keeps that as its
saved PC (R78). -/
def wake (s : State) (t : Tid) (pc : DWord) : State :=
  match (getThread s t).run with
  | .held _ => modThread s t fun th => { th with pc := pc, run := .held none, counted := false }
  | .parked _ | .issuing | .ready => post s t pc
  | .done => s

/-- A thread that waited goes on at its own slot, whose instruction has been counted if it issued (R214). -/
def retry (s : State) (t : Tid) : State :=
  let counted := (getThread s t).counted
  let s := wake s t (getThread s t).pc
  modThread s t fun th => { th with counted := counted }

/-- The instruction is done and its block goes on: the thread stays in its stream. -/
def advance (s : State) (t : Tid) : State :=
  modThread s t fun th => { th with pc := nextPc th.pc, counted := false }

/-- A thread parks at its slot. -/
def park (s : State) (t : Tid) (w : Wait) : State :=
  modThread s t fun th => { th with run := .parked w, counted := false }

/-- A thread parks before its instruction has had any effect, and will issue it again (R30). -/
def parkRetry (s : State) (t : Tid) (w : Wait) : State :=
  modThread s t fun th => { th with run := .parked w, counted := true }

/-- A thread that a fetch stops has not issued its instruction, which is counted when it does (R214). -/
def parkFetch (f : State → State) (s : State) (t : Tid) : State :=
  modThread (f s) t fun th => { th with counted := (getThread s t).counted }

/-- A thread waits to take a trap. -/
def waitTrap (s : State) (t : Tid) (e : Exc) (tepc : DWord) (flags : Nat) : State :=
  let w : Wait := .trap e tepc flags (getCore s (threadCore s t)).packs
  modThread s t fun th =>
    { th with run := match th.run with
        | .held _ => .held (some w)
        | .ready | .issuing | .parked _ | .done => .parked w }

/-- The thread's strict access is over; it goes on at the next slot (R160). A reservation taken while its
gang is stopped is lost (R214 case 5). -/
def strictDone (s : State) (t : Tid) : State :=
  let held := match (getThread s t).run with
    | .held _ => true
    | .ready | .issuing | .parked _ | .done => false
  let s := modThread (if held then dropResv s t else s) t fun th => { th with strict := none }
  wake s t (nextPc (getThread s t).pc)

/-! ## Holding -/

/-- A group leaves its core's table, overflow list and stream (R81). -/
def unschedule (s : State) (grp : Nat) : State :=
  modCore s (getGroup s grp).core fun c =>
    { c with table := c.table.filter fun e => e.2.grp ≠ grp,
             overflow := c.overflow.filter fun e => e.1.grp ≠ grp,
             stream := match c.stream with
               | some st => if st.grp = grp then none else some st
               | none => none }

/-- A waiting writer is a thread of the group. -/
def writerIn (grp : Nat) (w : Writer) : Bool :=
  match w with
  | .thread u _ => u.grp = grp
  | .copy _ => false

/-- The thread's `CBRD` or `CBWR` stands in its bank's request queue (R168). -/
def inFifoTurn (th : Thread) : Bool :=
  match th.run with
  | .parked (.fifoTurn _ _ _ _) => true
  | _ => false

/-- Threads of a group leave the queues of FIFO banks (R171). -/
def leaveFifos (s : State) (grp : Nat) : State :=
  modGang s (getGroup s grp).gang fun g =>
    { g with banks := g.banks.map fun (k, b) =>
        (k, { b with queue := b.queue.filter fun t => t.grp ≠ grp || !inFifoTurn (getThread s t),
                     readers := b.readers.filter fun r => r.1.grp ≠ grp,
                     writers := b.writers.filter fun w => !writerIn grp w }) }

/-- What a thread's state becomes as its gang is stopped (Table 3-9, R171). -/
def heldRun (r : Run) : Run :=
  match r with
  | .ready | .issuing => .held none
  | .parked (.fifo _) | .parked (.fifoTurn _ _ _ _) => .held none
  | .parked w => .held (some w)
  | .held w => .held w
  | .done => .done

/-- Stops one thread: its overlapped accesses are performed, its reservation is lost (R316), and no failed walk
is kept for it (R329). -/
def holdThread (s : State) (t : Tid) : State :=
  modThread (dropResv (completeAll s t) t) t fun th => { th with run := heldRun th.run, walkFails := [] }

/-- Stops every thread of a group. -/
def holdGroup (s : State) (grp : Nat) : State :=
  let s := leaveFifos (unschedule s grp) grp
  (groupTids s grp).foldl holdThread s

/-- A pack of the group has begun to issue and has not issued whole (R75). -/
def midPack (s : State) (grp : Nat) : Bool :=
  (getCore s (getGroup s grp).core).stream.any fun st => st.grp = grp && st.begun

/-- A group that is to stop does so between packs: one that is issuing stops when its pack has issued
whole (R75, R316). -/
def holdSoon (s : State) (grp : Nat) : State := if midPack s grp then s else holdGroup s grp

end Sys2Proof.Machine
end

