-- ==== Sys2Proof/Machine/Order.lean ====
section
/-! DEFINITION. The Assay classes and Anneal, homes and the directory, range locks, and pages that pass
between devices (R183 to R198). -/

namespace Sys2Proof.Machine

/-! ## Range locks -/

/-- Two byte ranges share a byte. -/
def overlaps (a n b m : Nat) : Bool := a < b + m && b < a + n

/-- The cluster's table holds the operation's entries: its gang is not saved (R317). -/
def tableHeld (s : State) (o : EngineOp) : Bool :=
  match (getGang s o.gang).status with
  | .saved _ _ => false
  | .running | .stopping | .held => true

/-- An access of `n` bytes at `pa` conflicts with a held memory range (R196). A piece without a lock record
refuses the accesses of threads alone, and only while its entry stands (R197, R200; a core has a key below
512). -/
def lockHit (s : State) (core : Option Nat) (pa n : Nat) (store : Bool) : Bool :=
  s.ops.any fun (_, o) => o.ranges.any fun r =>
    r.scratch.isNone && (store || r.dst) &&
      r.pieces.any fun q => overlaps pa n q.1 q.2.1 &&
        (q.2.2 || (core.any (fun c => c < 512) && tableHeld s o))

/-- An access to a gang's scratchpad conflicts with a held scratchpad range (R167, R196). -/
def scratchHit (s : State) (gang off n : Nat) (store : Bool) : Bool :=
  s.ops.any fun (_, o) => o.ranges.any fun r =>
    r.scratch = some gang && (store || r.dst) && r.pieces.any fun q => overlaps off n q.1 q.2.1

/-! ## Pages -/

/-- Pages listed within `n` units from `u` on, without those that a larger one covers. -/
def pagesWithin (s : State) (u n : Nat) : NMap PageHold :=
  s.pages.filter fun e => u ≤ e.1 && e.1 < u + n && pageKey s e.1 = e.1

/-- What stays of the granules `[lo, hi)` beside the pages that have passed, and what has been cleared in these. -/
def pageGaps (lo hi : Nat) : NMap PageHold → List (Nat × Nat)
  | [] => [(lo, hi - lo)]
  | e :: m => (lo, e.1 * 16 - lo) :: e.2.cleared ++ pageGaps (e.1 * 16 + 2 ^ (e.2.bits - 12)) hi m

/-- The page that a leaf maps is listed with its size, if it is larger than 64 KiB and host memory under
device bias: it passes whole (R192). Parts of it that have passed by themselves keep their class; while one is
away it waits. -/
def holdLeaf (s : State) (l : Leaf) : State :=
  let u := pageNo l.base
  let parts := pagesWithin s u (2 ^ (l.bits - 16))
  if regionOf l.base = .cxl && !l.bias && 16 < l.bits && (getPage s u).bits < l.bits &&
      parts.all fun e => !e.2.away then
    let went := parts.filter fun e => e.2.passed
    let still := if went.isEmpty then [] else pageGaps (u * 16) (u * 16 + 2 ^ (l.bits - 12)) went
    { s with pages := mput s.pages u { getUnit s u with bits := l.bits, passed := !went.isEmpty, cleared := still } }
  else s

/-! ## Assay -/

/-- A granule of this memory has a class (R183). -/
def classified (pa : Nat) (host : Bool) : Bool :=
  match regionOf pa with
  | .hbm _ | .tier => true
  | .cxl => !host
  | .ext | .regs | .hole => false

/-- The new class, and whether the transition is an Anneal, Table 8-2 (R184). -/
def assayNext (c : Class) (who : Agent) (store force : Bool) : Class × Bool :=
  match c with
  | .u =>
    if force then (.s, false)
    else match who with
      | .core n => if store then (.p n, false) else (.r, false)
      | .host | .peer _ => (.s, false)
  | .p o => if who = .core o then (.p o, false) else (.s, true)
  | .r => if store then (.s, true) else (.r, false)
  | .s => (.s, false)

/-- Who must acknowledge the Anneal of a granule (R185 step 2). -/
def ackers (s : State) (g : Nat) : List Agent :=
  let gr := getGranule s g
  match gr.cls with
  | .p o => [.core o]
  | .r => (coresOfPart s (ownerPart s (g * 4096))).map Agent.core ++ gr.loaders
  | .u | .s => []

/-- An access counts as a store for classification (R204, R212). -/
def MemOp.storesClass : MemOp → Bool
  | .load _ => false
  | .axrd clr => clr
  | .store _ | .atom _ _ _ _ | .cas _ _ | .axadd _ _ | .amaxi _ | .ldrsv | .stcnd _ => true

/-- An access conflicts with a held source too: every one but a load and `AXRD` without `.clr` (R196, R203,
R212). -/
def MemOp.storesLock : MemOp → Bool
  | .load _ => false
  | .axrd clr => clr
  | .store _ | .atom _ _ _ _ | .cas _ _ | .axadd _ _ | .amaxi _ | .ldrsv | .stcnd _ => true

/-- Where a thread's strict access stands. -/
def setPlace (s : State) (t : Tid) (p : Place) : State :=
  modThread s t fun th => { th with strict := th.strict.map fun x => { x with place := p } }

/-! ## Order within a pack -/

/-- A load or a store of up to 16 bytes, whose order in a pack matters at one address only (R161). -/
def MemOp.free (a : Access) : Bool :=
  match a.op with
  | .load _ | .store _ => a.size ≤ 16
  | .atom _ _ _ _ | .cas _ _ | .axadd _ _ | .axrd _ | .amaxi _ | .ldrsv | .stcnd _ => false

/-- Both accesses load the same group scalars. -/
def sameScalars (x y : Access) : Bool := x.dst.shared && x.dst = y.dst

/-- Another thread's outstanding access comes first: one of the same pack, in a lower lane, to the same bytes
(R161), or to the same group scalars (R37), or any atomic (R206), or any access of a shape register (R274); and one
of an earlier pack to the same group scalars (R75). -/
def packFirst (t : Tid) (x : Strict) (u : Tid) (th : Thread) : Bool :=
  match th.strict with
  | none => false
  | some y =>
    (y.pack = x.pack && laneOf u.gi < laneOf t.gi &&
      (!MemOp.free x.acc || sameScalars x.acc y.acc || overlaps x.acc.pa x.acc.size y.acc.pa y.acc.size)) ||
    (y.pack < x.pack && sameScalars x.acc y.acc)

/-- The lower lanes of its pack, and the packs before, leave the access free to be performed. -/
def packTurn (s : State) (t : Tid) (x : Strict) : Bool :=
  (groupTids s t.grp).all fun u => !packFirst t x u (getThread s u)

/-! ## Directory -/

/-- Holders of a line. -/
def DirState.holders : DirState → List Holder
  | .inv => []
  | .sh hs => hs
  | .ow h => [h]

/-- What a request asks of the home. -/
inductive Ask where
  | load | store | atomic
  deriving DecidableEq, Repr

def MemOp.ask : MemOp → Ask
  | .load _ | .ldrsv => .load
  | .store _ | .stcnd _ => .store
  | .atom _ _ _ _ | .cas _ _ | .axadd _ _ | .axrd _ | .amaxi _ => .atomic

/-- Performed in the cluster without the home (R190). -/
def localHit (op : MemOp) (own : Nat) (st : DirState) : Bool :=
  match op with
  | .load _ => st.holders.contains (.cluster own)
  | .store _ => st = .ow (.cluster own)
  | .ldrsv | .stcnd _ | .atom _ _ _ _ | .cas _ _ | .axadd _ _ | .axrd _ | .amaxi _ => false

/-- Agents whose answer the home awaits (R190, R204). -/
def awaitOf (k : Ask) (own : Nat) (st : DirState) : List Holder :=
  match k with
  | .load => match st with
    | .ow h => if h = .cluster own then [] else [h]
    | .inv | .sh _ => []
  | .store => st.holders.filter fun h => h ≠ .cluster own
  | .atomic => st.holders

/-- The line's state after the request is performed. -/
def dirAfter (k : Ask) (own : Nat) (st : DirState) : DirState :=
  match k with
  | .load => .sh (st.holders.filter (· ≠ .cluster own) ++ [.cluster own])
  | .store => .ow (.cluster own)
  | .atomic => .inv

/-- Cluster of a thread. -/
def threadCluster (s : State) (t : Tid) : Nat := clusterOfCore (threadCore s t)

/-- The home serves a request for a line that is not busy (R190, R191). -/
def serveLine (s : State) (t : Tid) (op : MemOp) (l : Nat) : State :=
  let ln := getLine s l
  let acks := awaitOf op.ask (threadCluster s t) ln.st
  setPlace (setLine s l { ln with busy := some (t, acks) }) t (if acks.isEmpty then .ready else .home)

/-- Requests queued in a slice's pool (R191). -/
def poolUsed (s : State) (slice : Nat) : Nat :=
  s.dir.foldl (fun n e => if homeSlice s (e.1 * 128) = slice then n + e.2.queue.length else n) 0

/-- A request refused earlier by the slice is for the line: no later one is served ahead of it (R191). -/
def refusedFor (s : State) (slice l : Nat) : Bool :=
  (mget [] s.refusedQ slice).any fun u => (getThread s u).strict.any fun x => lineNo x.acc.pa = l

/-- A strict access to S memory goes to its cluster's copy or to the home (R190, R191), in its turn in its pack
(R161, R206): so no request that a home has taken waits for another access. -/
def homeRequest (s : State) (t : Tid) : State :=
  match (getThread s t).strict with
  | none => s
  | some x =>
    if !packTurn s t x then setPlace s t .turn
    else
    let l := lineNo x.acc.pa
    let ln := getLine s l
    let slice := homeSlice s x.acc.pa
    if localHit x.acc.op (threadCluster s t) ln.st then setPlace s t .ready
    else if ln.busy.isNone && !refusedFor s slice l then serveLine s t x.acc.op l
    else
      let s := setPlace s t .home
      if poolUsed s slice < 512 && (mget [] s.refusedQ slice).isEmpty then
        setLine s l { ln with queue := ln.queue ++ [t] }
      else { s with refusedQ := mupd [] s.refusedQ slice (· ++ [t]) }

/-- While the pool has a free entry, the request refused first enters it, and is served at once if its line
is idle (R191). -/
def admitRefused (s : State) (slice : Nat) : Nat → State
  | 0 => s
  | fuel + 1 =>
    match mget [] s.refusedQ slice with
    | [] => s
    | t :: ts =>
      if poolUsed s slice < 512 then
        let s := { s with refusedQ := mset [] s.refusedQ slice ts }
        let s := match (getThread s t).strict with
          | none => s
          | some x =>
            let l := lineNo x.acc.pa
            let ln := getLine s l
            if ln.busy.isNone then serveLine s t x.acc.op l
            else setLine s l { ln with queue := ln.queue ++ [t] }
        admitRefused s slice fuel
      else s

/-- The request that a line was busy with has been performed: the line takes its new state, the next
queued request is served, and refused ones take the room (R191). -/
def finishLine (s : State) (l : Nat) (st : DirState) : State :=
  let slice := homeSlice s (l * 128)
  let waiting := (mget [] s.refusedQ slice).length
  let ln := getLine s l
  match ln.queue with
  | [] => admitRefused (setLine s l { st := st }) slice waiting
  | t :: q =>
    let s := setLine s l { st := st, queue := q }
    let s := match (getThread s t).strict with
      | some x => serveLine s t x.acc.op l
      | none => s
    admitRefused s slice waiting

/-- The line stops being busy with the thread's request; `st` is the state it takes. -/
def releaseLine (s : State) (t : Tid) (l : Nat) (st : DirState) : State :=
  match (getLine s l).busy with
  | some (u, _) => if u = t then finishLine s l st else s
  | none => s

/-- What an acknowledgement does to the line's holders (R190): a load's owner keeps a read copy, any
other copy is gone. -/
def ackState (k : Ask) (who : Holder) (st : DirState) : DirState :=
  match k with
  | .load => .sh [who]
  | .store | .atomic =>
    match st with
    | .sh hs => if (hs.filter (· ≠ who)).isEmpty then .inv else .sh (hs.filter (· ≠ who))
    | .ow h => if h = who then .inv else .ow h
    | .inv => .inv

/-! ## Accesses that an event finds on its way (log 14) -/

/-- A thread's strict access that may be performed by itself: its pack's turn, and no held range in its
way. -/
def performable (s : State) (t : Tid) (x : Strict) : Bool :=
  packTurn s t x && !lockHit s (some (threadCore s t)) x.acc.pa x.acc.size x.acc.op.storesLock

/-- A thread's access to a granule stands ready in its core or its cluster, the home not asked. -/
def readyOn (s : State) (g : Nat) (t : Tid) : Bool :=
  (getThread s t).strict.any fun x =>
    x.place = .ready && !x.acc.host && classified x.acc.pa false && granuleOf x.acc.pa = g &&
      (getLine s (lineNo x.acc.pa)).busy.all (fun b => b.1 ≠ t) && performable s t x

/-- Neither does the thread's cluster hold the copy of its line that the access needs, nor has the home served it
(R190). -/
def needsHome (s : State) (t : Tid) (a : Access) : Bool :=
  !a.host && classified a.pa false && !pageAway s a.pa && (getGranule s (granuleOf a.pa)).cls = .s &&
    (getLine s (lineNo a.pa)).busy.all (fun b => b.1 ≠ t) &&
    !localHit a.op (threadCluster s t) (getLine s (lineNo a.pa)).st

/-- A strict access stands ready on a granule of class S without its copy: its granule's Anneal or another request
came between. -/
def strayed (s : State) (t : Tid) : Bool :=
  (getThread s t).strict.any fun x => x.place = .ready && needsHome s t x.acc

/-- A strict access to memory of the module is performed where it stands, after what its core has queued for the
granule (R187, R212); a copy that it lacks is asked for and comes within the step (R190; log 14). -/
def performLocal (s : State) (t : Tid) (a : Access) : State :=
  let s := drain s (threadCore s t) (touches (granuleOf a.pa))
  let l := lineNo a.pa
  let ln := getLine s l
  let s := if needsHome s t a then setLine s l { ln with st := dirAfter a.op.ask (threadCluster s t) ln.st } else s
  performMem s t a

/-- Accesses to a granule that stand ready in cores which `p` names are performed, each in its pack's
turn. -/
def performReady (p : Nat → Bool) (g : Nat) : Nat → State → State
  | 0, s => s
  | fuel + 1, s =>
    match (allTids s).find? fun t => p (threadCore s t) && readyOn s g t with
    | none => s
    | some t =>
      match (getThread s t).strict with
      | none => s
      | some x => performReady p g fuel (strictDone (performLocal s t x.acc) t)

/-- Threads with a strict access. -/
def strictCount (s : State) : Nat := ((allTids s).filter fun t => (getThread s t).strict.isSome).length

/-- A range taken since bars the request that a line is busy with: it is refused, and its thread takes RANGE_LOCK
as the step ends (R196). -/
def barRequest (s : State) (t : Tid) (x : Strict) (l : Nat) : State :=
  let s := waitTrap s t { code := .rangeLock, addr := x.acc.va } (getThread s t).pc 0
  releaseLine (modThread s t fun th => { th with strict := none }) t l (getLine s l).st

/-- The requests that a home has taken for a line are decided, in the order they arrived: performed, as their
acknowledgements come now, or refused by a range taken since (R191, R196). -/
def flushLine : Nat → State → Nat → State
  | 0, s, _ => s
  | fuel + 1, s, l =>
    let ln := getLine s l
    match ln.busy with
    | none => s
    | some (t, acks) =>
      match (getThread s t).strict with
      | none => s
      | some x =>
        if performable s t x then
          let own := acks.foldl (fun st who => ackState x.acc.op.ask who st) ln.st
          let s := setLine s l { ln with st := own, busy := some (t, []) }
          let st := dirAfter x.acc.op.ask (threadCluster s t) own
          flushLine fuel (strictDone (releaseLine (performLocal s t x.acc) t l st) t) l
        else if packTurn s t x then flushLine fuel (barRequest s t x l) l
        else s

/-- The same for every line of a slice: what its pool refused comes in. -/
def flushSlice (s : State) (slice : Nat) : State :=
  ((mkeys s.dir).filter fun l => homeSlice s (l * 128) = slice).foldl
    (fun s l => flushLine (strictCount s + 1) s l) s

/-- Everything that has reached a line's home before is served, what a full pool has refused included (R191). -/
def flushHome (l : Nat) : Nat → State → State
  | 0, s => flushLine (strictCount s + 1) s l
  | fuel + 1, s =>
    if refusedFor s (homeSlice s (l * 128)) l then flushHome l fuel (flushSlice s (homeSlice s (l * 128)))
    else flushLine (strictCount s + 1) s l

/-- The same for every line of a range. -/
def flushRange (s : State) (pa n : Nat) : State :=
  (linesOf pa n).foldl (fun s l => flushHome l (strictCount s) s) s

/-! ## Anneal -/

/-- Lines of a granule leave every cache. -/
def dropLines (s : State) (g : Nat) : State :=
  let s := dropWays s fun l => l / 32 = g
  { s with dir := s.dir.map fun (l, ln) => (l, if l / 32 = g then { ln with st := .inv } else ln) }

/-- The Anneal point (R185 step 4): the granule takes its class, and held accesses are re-decided in
arrival order as strict S accesses. -/
def annealPoint (s : State) (g : Nat) (cls : Class) : State :=
  let held := (getGranule s g).held
  let s := dropResvRange (dropLines (setGranule s g { cls := cls }) g) (g * 4096) 4096
  held.foldl homeRequest s

/-- A core drains for an Anneal: its queue up to the last entry that touches the granule, and the strict
accesses to it that it has issued (R185 step 3, R188). -/
def drainAgent (g : Nat) (s : State) (a : Agent) : State :=
  match a with
  | .core c =>
    let s := drain s c (touches g)
    performReady (· = c) g (strictCount s) s
  | .host | .peer _ => s

/-- An Anneal made within one step (log 14). -/
def annealNow (s : State) (g : Nat) (cls : Class) : State :=
  let acks := match (getGranule s g).annealing with
    | some (l, _) => l
    | none => ackers s g
  annealPoint (acks.foldl (drainAgent g) s) g cls

/-- A thread waits for the page. -/
def waitsForPage (s : State) (u : Nat) (t : Tid) : Bool :=
  (getThread s t).strict.any (fun x => match x.place with
    | .departing v => !x.acc.host && pageKey s v = pageKey s u
    | .held _ | .home | .turn | .ready | .bank _ | .link => false) ||
  match (getThread s t).run with
  | .parked (.page v false) => pageKey s v = pageKey s u
  | .held (some (.page v false)) => pageKey s v = pageKey s u
  | _ => false

def pageAwaited (s : State) (u : Nat) : Bool := (allTids s).any (waitsForPage s u)

/-- Strict accesses parked for a page that this module holds again proceed, in the order of their packs
(R193 step 4, R206). -/
def releaseDeparting (s : State) (u : Nat) : State :=
  ((allTids s).filter fun t => (getThread s t).strict.isSome && waitsForPage s u t).foldl
    (fun s t => setPlace s t .turn) s

/-- This module holds the page again. -/
def takePage (s : State) (u : Nat) : State :=
  releaseDeparting (modPage s u fun p =>
    { p with holder := none, departing := false, taker := none, snooped := false, wanted := false }) u

/-- The class transition of an access that is one event of an engine, the host, a peer or the device
itself: an Anneal under way ends first, and the accesses it held are decided before this one; any Anneal of
its own is made within the step (log 14); a core's own queued accesses to the granule are performed first
(R187, R195). Memory that this module does not hold has no class (R192, R193). -/
def eventGranule (s : State) (who : Agent) (pa : Nat) (store force host : Bool) : State :=
  if classified pa host && !pageAway s pa && !unreached s pa then
    let g := granuleOf pa
    let s := match (getGranule s g).annealing with
      | some (_, c) => annealNow s g c
      | none => s
    let gr := getGranule s g
    let (c, anneal) := assayNext gr.cls who store force
    let loaders := match who with
      | .core _ => gr.loaders
      | .host | .peer _ => if gr.loaders.contains who then gr.loaders else gr.loaders ++ [who]
    let s := if anneal then annealNow s g c
             else setGranule s g { gr with cls := c, loaders := if c = .r then loaders else [] }
    drainAgent g s who
  else s

/-- What such an access leaves of a line's copies (R190): a core's write makes its cluster the owner, its
read a sharer; an agent outside the cores leaves no copy of its own. -/
def lineAfter (who : Agent) (store : Bool) (st : DirState) : DirState :=
  match who with
  | .core c => dirAfter (if store then .store else .load) (clusterOfCore c) st
  | .host | .peer _ =>
    if store then .inv
    else match st with
      | .ow h => .sh [h]
      | .inv | .sh _ => st

/-- The copies of a range's lines in class S after such an access. -/
def lineEvent (s : State) (who : Agent) (pa n : Nat) (store host : Bool) : State :=
  (linesOf pa n).foldl (fun s l =>
    if classified (l * 128) host && (getGranule s (l / 32)).cls = .s && (getLine s l).busy.isNone then
      setLine s l { getLine s l with st := lineAfter who store (getLine s l).st }
    else s) s

/-- An access within one line that is one event: requests that reached the line's home before it are served
first (R191; log 14). -/
def eventAccess (s : State) (who : Agent) (pa : Nat) (store force host : Bool) : State :=
  lineEvent (flushRange (eventGranule s who pa store force host) pa 1) who pa 1 store host

/-- Granules that a byte range touches. -/
def granulesOf (pa n : Nat) : List Nat :=
  if n = 0 then [] else (List.range ((pa + n - 1) / 4096 - pa / 4096 + 1)).map (pa / 4096 + ·)

/-- The same for every granule and line of a range. -/
def eventAccessRange (s : State) (who : Agent) (pa n : Nat) (store force host : Bool) : State :=
  let s := (granulesOf pa n).foldl (fun s g => eventGranule s who (max pa (g * 4096)) store force host) s
  lineEvent (flushRange s pa n) who pa n store host

/-- Copies of the lines of a range are invalid after a write at the home. -/
def invalidateRange (s : State) (pa n : Nat) : State :=
  { s with dir := s.dir.map fun (l, ln) =>
      (l, if overlaps (l * 128) 128 pa n then { ln with st := .inv } else ln) }

/-- A write that is one event, by a core's engines or the device, the host or a peer (R161, R194). -/
def writeEvent (s : State) (who : Agent) (pa : Nat) (bs : List Byte) (force host : Bool) : State :=
  let s := eventAccessRange s who pa bs.length true force host
  let s := storeBytes (invalidateRange (loseResv s none pa bs.length) pa bs.length) pa bs
  let s := lineEvent s who pa bs.length true host
  if host || regionOf pa = .ext then writeThrough s pa bs.length else s

/-! ## Pages that pass between devices -/

/-- Cores with queued accesses to a page (R193 step 2). -/
def pageCores (s : State) (u : Nat) : List Nat :=
  (mkeys s.cores).filter fun c => (getCore s c).queue.any fun e => onPage s u e.acc.pa

/-- A range that an engine operation holds at a home of this module lies on the page (R197). -/
def pageLocked (s : State) (u : Nat) : Bool :=
  s.ops.any fun e => e.2.ranges.any fun r =>
    r.scratch.isNone && r.pieces.any fun q => q.2.2 && overlaps q.1 q.2.1 (pageStart s u) (pageBytes s u)

/-- A page begins to depart (R193 step 1). -/
def departPage (s : State) (u : Nat) (taker : Option Holder) (cores : List Nat) : State :=
  modPage s u fun p => { p with departing := true, taker := taker, drains := cores }

/-- The thread's strict access to the page has been issued and not performed. -/
def strictOnPage (s : State) (u : Nat) (t : Tid) : Bool :=
  (getThread s t).strict.any fun x => !x.acc.host && classified x.acc.pa false && onPage s u x.acc.pa

/-- A request that was refused by a full pool, or queued for a line, is withdrawn. -/
def leaveHome (s : State) (t : Tid) : State :=
  { s with dir := s.dir.map fun (l, ln) => (l, { ln with queue := ln.queue.filter (· ≠ t) }),
           refusedQ := s.refusedQ.map fun (k, q) => (k, q.filter (· ≠ t)) }

/-- Such an access parks with those that come after it. -/
def parkForPage (s : State) (t : Tid) : State :=
  match (getThread s t).strict with
  | none => s
  | some x => setPlace (leaveHome s t) t (.departing (pageNo x.acc.pa))

/-- The page passes: accesses queued in cores are performed, strict ones not yet performed park, dirty lines
are written back, copies and directory entries dropped, granules S, reservations lost (R193, R214 case 3). -/
def passPage (s : State) (u : Nat) : State :=
  let s := (pageGranules s u).foldl (fun s g => annealNow s g .s) s
  let s := dropResvRange s (pageStart s u) (pageBytes s u)
  let s := ((allTids s).filter (strictOnPage s u)).foldl parkForPage s
  let off := fun (pa : Nat) => !onPage s u pa
  let s := emptyCaches s fun l => !off (l * 128)
  let s := { s with dir := s.dir.filter fun e => off (e.1 * 128),
                    assay := s.assay.filter fun e => off (e.1 * 4096) }
  modPage s u fun p => { p with passed := true, cleared := [] }

/-- Accesses at the host's home agent that waited for the page to reach the host proceed (R193 step 4,
R349). -/
def releaseHostSide (s : State) (u : Nat) : State :=
  let mine := fun (t : Tid) => (getThread s t).strict.any fun x => match x.place with
    | .departing v => x.acc.host && pageKey s v = pageKey s u
    | .held _ | .home | .turn | .ready | .bank _ | .link => false
  ((allTids s).filter mine).foldl (fun s t => setPlace s t .ready) s

/-- The page goes to its taker (R193 steps 3 and 4); a page handed to the host counts in RECALLS. Where the host has
not asked for it itself, no access of the host's is to be waited for (R349). -/
def handOver (s : State) (page : Nat) (who : Holder) : State :=
  let s := passPage s page
  let s := modPage s page fun p =>
    { p with holder := some who, departing := false, drains := [], taker := if p.snooped then some who else none }
  let s := releaseHostSide s page
  if who = .host then modLink s fun l => { l with recalls := l.recalls + 1 } else s

/-- A departing page goes to its taker, or comes back to this module. -/
def passOn (s : State) (page : Nat) : State :=
  match (getPage s page).taker with
  | none => takePage s page
  | some who => handOver s page who

/-- What the cores have queued for a page is performed (R193 step 2). -/
def drainPage (s : State) (u : Nat) : State :=
  (pageCores s u).foldl (fun s c => drain s c fun e => onPage s u e.acc.pa) s

/-- A handover under way ends within the step, unless a held range keeps the page (R193, R197; log 14). -/
def endHandover (s : State) (u : Nat) : State :=
  if !(getPage s u).departing then s
  else if pageLocked s u then drainPage s u
  else passOn (drainPage s u) u

/-! ## Waiting for a page -/

/-- The listed page meets a byte range. -/
def pageMeets (s : State) (pa n : Nat) (e : Nat × PageHold) : Bool :=
  pageKey s e.1 = e.1 && overlaps pa n (e.1 * 65536) (2 ^ e.2.bits)

/-- The first page that a range of bytes waits for: under device bias one that is passing or away (R193), under
host bias one that the module still holds (R349). Where both CXL ports are down nothing passes, and the access
fails instead (R351). -/
def pageBar (s : State) (pa n : Nat) (host : Bool) : Option Nat :=
  if host then
    if regionOf pa = .cxl && !cxlDown s then
      ((s.pages.find? fun e => pageMeets s pa n e && (e.2.departing || heldHere s e.1)).map Prod.fst).or
        ((s.assay.find? fun e => overlaps (e.1 * 4096) 4096 pa n && heldHere s (e.1 / 16)).map fun e =>
          pageKey s (e.1 / 16))
    else none
  else if classified pa false && !unreached s pa then
    (s.pages.find? fun e => pageMeets s pa n e && e.2.away).map Prod.fst
  else none

/-- An access waits for a page: it is taken back when it can be, or is handed over to the host (R193, R349). -/
def wantPage (s : State) (w : Nat × Bool) : State :=
  if w.2 then
    if heldHere s w.1 && !(getPage s w.1).departing then departPage s w.1 (some .host) (pageCores s w.1) else s
  else if (getPage s w.1).away then modPage s w.1 fun p => { p with wanted := true }
  else s

/-- What the pieces of a range wait for: the page, and whether under host bias. -/
def piecesBar (s : State) (ps : List (Nat × Nat × Leaf)) : Option (Nat × Bool) :=
  ps.findSome? fun q => (pageBar s q.1 q.2.1 q.2.2.bias).map fun u => (u, q.2.2.bias)

/-! ## A thread's access to N memory -/

/-- Which way a thread's access to N memory goes (R158, R184, R185, R204). -/
inductive Route where
  /-- Into the core's access queue. -/
  | queue
  /-- Strict and decided at the home or in the cluster's ways. -/
  | home
  /-- Strict, to a granule of class P or R, performed in the core. -/
  | core
  /-- Held until the Anneal point; the Anneal has begun, or was under way. -/
  | held
  /-- Held while the page is passing or away. -/
  | away
  /-- Strict, at the host's home agent. -/
  | host
  deriving DecidableEq, Repr

/-- An access under host bias: a page that the module still holds from a device bias is handed over first
(R349). With both CXL ports down the page stays, and the access fails at the link die (R351). -/
def hostRoute (s : State) (pa n : Nat) : Route × State :=
  match pageBar s pa n true with
  | some u => (.away, wantPage s (u, true))
  | none => (.host, s)

/-- The leaf by which the access is made says how large its page is (R192). -/
def noteLeaf (s : State) (t : Tid) (a : Access) : State :=
  match tlbLookup (getCore s (threadCore s t)).tlb (threadPasid s t) a.va with
  | some l => holdLeaf s l
  | none => s

/-- A lower lane of the pack that is issuing has an access outstanding that comes before this one (R161, R206). -/
def laneBehind (s : State) (t : Tid) (a : Access) : Bool :=
  !packTurn s t { acc := a, place := .turn, pack := (getCore s (threadCore s t)).packs }

/-- The class transition that a thread's access makes, and its route. `AXRD` without `.clr` on a granule that stays in
class R is overlapped, the owner's accesses to a reserved line of a P granule stay overlapped, and an access that must
follow a lower lane's strict one is strict and uncounted (R158, R161, R204, R206, R212; DESIGN CHOICE, log 63). -/
def assayRoute (s : State) (t : Tid) (a : Access) (force scalarLoad : Bool) : Route × State :=
  let s := noteLeaf s t a
  if a.host then hostRoute s a.pa a.size
  else if !classified a.pa a.host || unreached s a.pa then (.host, s)
  else if pageAway s a.pa then (.away, s)
  else
    let g := granuleOf a.pa
    let gr := getGranule s g
    if gr.annealing.isSome then (.held, setGranule s g { gr with held := gr.held ++ [t] })
    else
      let core := threadCore s t
      let (c, anneal) := assayNext gr.cls (.core core) a.op.storesClass force
      if anneal then
        let acks := ackers s g
        if acks.isEmpty then (.home, annealPoint s g c)
        else (.held, setGranule s g { gr with annealing := some (acks, c), held := [t] })
      else
        let s := setGranule s g { gr with cls := c }
        let pair := a.op = .ldrsv || (match a.op with | .stcnd _ => true | _ => false)
        if pair then (.home, drain s core (touches g))
        else if c = .s then (.home, s)
        else if scalarLoad || laneBehind s t a then (.core, s)
        else (.queue, s)

/-- A strict access whose turn has come is decided by the class that its granule has by then (R158, R185, R206). -/
def takeTurn (s : State) (t : Tid) (x : Strict) : State :=
  match assayRoute s t x.acc (x.leaf.any fun l => l.forceS) true with
  | (.home, r) => homeRequest r t
  | (.queue, r) | (.core, r) | (.host, r) => setPlace r t .ready
  | (.held, r) => setPlace r t (.held (granuleOf x.acc.pa))
  | (.away, r) => setPlace r t (.departing (pageNo x.acc.pa))

end Sys2Proof.Machine
end

