-- ==== Sys2Proof/Machine/Walks.lean ====
section
/-! DEFINITION. Walks as the machine makes them: the reads of a walk in the order, misses that park a
thread, and walks made within a step for whole ranges (R325 to R332). -/

namespace Sys2Proof.Machine

/-! ## Walks in the order -/

/-- A walker's read of an entry: one strict read by an agent outside the cores (R330; log 25). The locked
carve-out refuses it (R356), and with the PCIe port down it ends by timeout, an uncorrectable error of the port
(R350). -/
def touchPte (s : State) (die a : Nat) : State :=
  if s.link.fwLock && inCarveOut a then modLink s fun l => { l with denied := satAdd 16 l.denied }
  else if unanswered s a then report s (.linkError die)
  else eventAccess s .host a false false false

/-- The reads of a walk below the root, and whether one met poison (R327). -/
def touchLevels (die p : Nat) (va : DWord) : List Nat → Nat → State → State × Bool
  | [], _, s => (s, false)
  | sh :: rest, base, s =>
    let a := base + 8 * bitsOf va sh 13
    let s := touchPte s die a
    match readPte s a with
    | none => (s, true)
    | some e =>
      if !e.getLsbD 1 && pointerOk s p e then touchLevels die p va rest (bitsOf e 16 36 * 65536) s
      else (s, false)

/-- A poisoned entry is reported as an uncorrectable error of the die, whose queue for translation hears of
it (R304, R327, R338; log 46). -/
def poisonedEntry (s : State) (die : Nat) : State := notifyInternal (countUncorrected s die) die 58

/-- The reads of a walk, each of which sees the stores placed before it (R330). -/
def walkTouch (s : State) (die p pasid : Nat) (va : DWord) : State :=
  if 8 ≤ p || pasidCount s p ≤ pasid then s
  else
    let a := rootEntry s p pasid va
    let s := touchPte s die a
    match readPte s a with
    | none => poisonedEntry s die
    | some e =>
      if pointerOk s p e then
        match touchLevels die p va [42, 29, 16] (bitsOf e 16 36 * 65536) s with
        | (s, true) => poisonedEntry s die
        | (s, false) => s
      else s

/-- The entries that a walk reads below the root, as far as they stand now. -/
def levelReads (s : State) (p : Nat) (va : DWord) : List Nat → Nat → List Nat
  | [], _ => []
  | sh :: rest, base =>
    let a := base + 8 * bitsOf va sh 13
    match readPte s a with
    | none => [a]
    | some e => if !e.getLsbD 1 && pointerOk s p e then a :: levelReads s p va rest (bitsOf e 16 36 * 65536) else [a]

/-- The entries that a walk reads. -/
def walkReads (s : State) (p pasid : Nat) (va : DWord) : List Nat :=
  if 8 ≤ p || pasidCount s p ≤ pasid then []
  else
    let a := rootEntry s p pasid va
    match readPte s a with
    | none => [a]
    | some e => if pointerOk s p e then a :: levelReads s p va [42, 29, 16] (bitsOf e 16 36 * 65536) else [a]

/-- The page that a walk waits for: one of its entries lies on a page that is passing or away (R193). -/
def walkBar (s : State) (p pasid : Nat) (va : DWord) : Option Nat :=
  (walkReads s p pasid va).findSome? fun a => pageBar s a 8 false

/-! ## The Sprue's walks -/

/-- The walks of a range that the Sprue accesses, made within the step (log 13), up to the first page that does not
translate. Their errors count on the first die of the partition. -/
def walkPages (p pasid : Nat) : Nat → DWord → Nat → State → State
  | 0, _, _, s => s
  | fuel + 1, va, n, s =>
    if n = 0 || !canonical va then s
    else
      let s := walkTouch s ((partDies s p).headD 0) p pasid va
      match walk s p pasid va with
      | none => s
      | some l =>
        let m := min n (2 ^ l.bits - va.toNat % 2 ^ l.bits)
        walkPages p pasid fuel (va + BitVec.ofNat 64 m) (n - m) s

/-- `walkPages` with enough steps for any range. -/
def walkRange (s : State) (p pasid : Nat) (va : DWord) (n : Nat) : State :=
  walkPages p pasid (n / 65536 + 2) va n s

/-- What keeps the walks of a range waiting, up to the first page that does not translate. -/
def pagesBar (s : State) (p pasid : Nat) : Nat → DWord → Nat → Option Nat
  | 0, _, _ => none
  | fuel + 1, va, n =>
    if n = 0 || !canonical va then none
    else match walkBar s p pasid va with
      | some u => some u
      | none =>
        match walk s p pasid va with
        | none => none
        | some l =>
          let m := min n (2 ^ l.bits - va.toNat % 2 ^ l.bits)
          pagesBar s p pasid fuel (va + BitVec.ofNat 64 m) (n - m)

/-! ## Misses -/

/-- The virtual 64 KiB page of an address (R330). -/
def vpn64 (va : DWord) : Nat := vpnOf va 16

/-- A miss of a core's translation cache merges into a walk of the die for the same page, or queues for a walker
(R330); `wait` notes who waits for it. While the PASID is DYING no walk is made for it (R332). -/
def joinWalk (s : State) (core pasid : Nat) (va : DWord) (wait : Miss → Miss) : State :=
  let same (m : Miss) : Bool := m.pasid = pasid && m.vpn = vpn64 va
  let join (m : Miss) : Miss := if same m then wait { m with cores := nadd m.cores core } else m
  if pasidState s ((partOfDie s (dieOfCore core)).getD 8) pasid = .dying then s
  else modDie s (dieOfCore core) fun d =>
    if d.walks.any same || d.misses.any same then
      { d with walks := d.walks.map join, misses := d.misses.map join }
    else { d with misses := d.misses ++ [wait { pasid := pasid, vpn := vpn64 va, waiters := [], cores := [core] }] }

/-- A thread waits for a walk. -/
def Miss.addThread (t : Tid) (m : Miss) : Miss :=
  if m.waiters.contains t then m else { m with waiters := m.waiters ++ [t] }

/-- An operation or a ring command waits for a walk. -/
def Miss.addOther (a : Asker) (m : Miss) : Miss :=
  if m.others.contains a then m else { m with others := m.others ++ [a] }

/-- The thread's translation in its core's cache. -/
def threadLeaf (s : State) (t : Tid) (va : DWord) : Option Leaf :=
  tlbLookup (getCore s (threadCore s t)).tlb (threadPasid s t) va

/-- A line at `va` that the core's cache translates waits for its page (R193, R349). -/
def lineBar (s : State) (t : Tid) (va : DWord) : Option (Nat × Bool) :=
  (threadLeaf s t va).bind fun l => (pageBar s (l.pa va) 64 l.bias).map fun u => (u, l.bias)

/-- A translation miss parks the thread for a walk (R330), and a line whose page is away parks it for the page
(R193). -/
def missPark (s : State) (t : Tid) (va : DWord) : State :=
  match lineBar s t va with
  | some w => parkRetry (wantPage s w) t (.page w.1 w.2)
  | none =>
    parkRetry (joinWalk s (threadCore s t) (threadPasid s t) va (Miss.addThread t)) t (.walk (vpn64 va))

/-- A thread is parked for a walk. -/
def waitsWalk (r : Run) : Bool :=
  match r with
  | .parked (.walk _) | .held (some (.walk _)) => true
  | _ => false

/-- A failed walk serves the instruction that waited for it, which may wait for another page still (R249), and is kept
for no later one (R329). -/
def forgetWalks (s : State) (t : Tid) : State :=
  if waitsWalk (getThread s t).run then s else modThread s t fun th => { th with walkFails := [] }

/-- A fetch at `va`, or the check of an engine's range there, misses the core's translation cache, and no walk
for it has just failed (R330), or a fetch's page is away (R193). -/
def fetchMiss (s : State) (t : Tid) (va : DWord) : Bool :=
  canonical va &&
    match threadLeaf s t va with
    | none => !(getThread s t).walkFails.contains (vpn64 va)
    | some _ => (lineBar s t va).isSome

/-- The first page of a range that the core's translation cache does not hold, and whether a walk for it has just
failed. -/
def rangeWalk (s : State) (t : Tid) : Nat → DWord → Nat → Option (DWord × Bool)
  | 0, _, _ => none
  | fuel + 1, va, n =>
    if n = 0 || !canonical va then none
    else match tlbLookup (getCore s (threadCore s t)).tlb (threadPasid s t) va with
      | none => some (va, !fetchMiss s t va)
      | some l =>
        let m := min n (2 ^ l.bits - va.toNat % 2 ^ l.bits)
        rangeWalk s t fuel (va + BitVec.ofNat 64 m) (n - m)

/-- `rangeWalk` with enough steps for any range. -/
def walkNeeded (s : State) (t : Tid) (va : DWord) (n : Nat) : Option (DWord × Bool) :=
  rangeWalk s t (n / 65536 + 2) va n

/-- The first page of a range that the core's cache does not hold, beside those whose walks have just failed. -/
def missIn (s : State) (core pasid : Nat) (fails : List Nat) : Nat → DWord → Nat → Option DWord
  | 0, _, _ => none
  | fuel + 1, va, n =>
    if n = 0 then none
    else
      let unit := min n (65536 - va.toNat % 65536)
      if !canonical va then missIn s core pasid fails fuel (va + BitVec.ofNat 64 unit) (n - unit)
      else match tlbLookup (getCore s core).tlb pasid va with
        | some l =>
          let m := min n (2 ^ l.bits - va.toNat % 2 ^ l.bits)
          missIn s core pasid fails fuel (va + BitVec.ofNat 64 m) (n - m)
        | none =>
          if fails.contains (vpn64 va) then missIn s core pasid fails fuel (va + BitVec.ofNat 64 unit) (n - unit)
          else some va

/-- `missIn` with enough steps for any range. -/
def rangeMiss (s : State) (core pasid : Nat) (fails : List Nat) (va : DWord) (n : Nat) : Option DWord :=
  missIn s core pasid fails (n / 65536 + 2) va n

/-- What an access of a range lacks: a translation, or a page. -/
inductive Lack where
  | walk (va : DWord)
  | page (page : Nat) (host : Bool)
  deriving DecidableEq, Repr

/-- What a thread's access of a range lacks, past the walks that have failed (R193, R330). -/
def rangeLack (s : State) (t : Tid) (need : Leaf → Option Code) (va : DWord) (n : Nat) : Option Lack :=
  match walkNeeded s t va n with
  | some (a, false) => some (.walk a)
  | some (_, true) => none
  | none =>
    match piecesOf s (threadCore s t) (threadPart s t) (threadPasid s t) need va n with
    | .error _ => none
    | .ok ps => (piecesBar s ps).map fun w => .page w.1 w.2

/-- What is lacking is asked for, by a thread. -/
def askFor (s : State) (t : Tid) (l : Lack) : State :=
  match l with
  | .walk va => joinWalk s (threadCore s t) (threadPasid s t) va (Miss.addThread t)
  | .page u host => wantPage s (u, host)

/-- What a thread then waits for. -/
def Lack.wait (l : Lack) : Wait :=
  match l with
  | .walk va => .walk (vpn64 va)
  | .page u host => .page u host

end Sys2Proof.Machine
end

