-- ==== Sys2Proof/Machine/Ops.lean ====
section
/-! DEFINITION. Taking an exception, escalation and the ends of blocks (R79, R80, R309 to R314). -/

namespace Sys2Proof.Machine

/-! ## Numbers in records -/

/-- Fault code numbers, Table 16-6 (R308). -/
def codeNum : Code → Nat
  | .illegalOp => 1 | .privOp => 2 | .illegalLine => 3 | .lineParity => 4 | .badTarget => 5
  | .indexBound => 6 | .callOverflow => 7 | .retUnderflow => 8 | .setNotMember => 9
  | .setMismatch => 10 | .setMode => 11 | .setBusy => 12 | .setLaneClash => 13 | .orphanSet => 14
  | .misalign => 15 | .pageFault => 16 | .pagePerm => 17 | .scratchBound => 18 | .bankMode => 19
  | .rangeLock => 20 | .poison => 21 | .atomicUnsupported => 22 | .tileFree => 23 | .accBusy => 24
  | .engineOperand => 25 | .tokenBusy => 26 | .launchHeader => 27 | .gridSelf => 28 | .cancel => 29
  | .userInt => 30 | .softTrap => 31 | .nestedFault => 32 | .unitLost => 33

/-- Header fields of a grid (Table 15-1). -/
def hdrExt (h : Shape) (i : Nat) : Nat := bitsOf h (192 + 32 * i) 32
def hdrWidth (h : Shape) (i : Nat) : Nat := bitsOf h (384 + 6 * i) 6
def hdrGroupSize (h : Shape) : Nat := bitsOf h 420 12
def hdrGang (h : Shape) : Nat := bitsOf h 468 3

/-- Field `i` of the work identifier of thread L (R279). -/
def workField (h : Shape) (l : Nat) : Nat → Nat
  | i => l / ((List.range i).foldl (fun n k => n * hdrExt h k) 1) % hdrExt h i

/-- The work identifier of thread L (R279). -/
def workidOf (h : Shape) (l : Nat) : Nat :=
  (List.range 6).foldl (fun n i =>
    n + workField h l i * 2 ^ ((List.range i).foldl (fun b k => b + hdrWidth h k) 0)) 0

/-- The linear index L of a thread (R279). -/
def linearOf (s : State) (t : Tid) : Nat :=
  (threadGroup s t).num * (threadGroup s t).gsize + t.gi

/-- The work identifier of a thread; 0 for a service thread, which no launch made (log 15). -/
def threadWorkid (s : State) (t : Tid) : DWord :=
  match threadGrid s t with
  | some g => BitVec.ofNat 64 (workidOf g.hdr (linearOf s t))
  | none => 0

/-- The handle of a grid-table entry (R286). -/
def handleOf (s : State) (part slot : Nat) : Word :=
  BitVec.ofNat 32 ((mget {} (getPart s part).table slot).gen.toNat * 4096 + slot)

/-- The handle of a grid; of a grid of another module's root, the one that root gave (R286, R299). -/
def ownHandle (s : State) (g : Grid) : Word :=
  match g.root with
  | some (_, h) => h
  | none => handleOf s g.part g.slot

/-- The handle of a thread's grid; 0 for a service thread (log 15). -/
def threadHandle (s : State) (t : Tid) : Word :=
  match threadGrid s t with
  | some g => ownHandle s g
  | none => 0

/-- Module, die and core as `IDPHYS` packs them (R320). -/
def physOf (s : State) (core : Nat) : Word :=
  BitVec.ofNat 32 (s.link.index.toNat * 65536 + dieOfCore core * 256 + core % 64)

/-! ## Records -/

/-- What a trap record says, Table 16-7. -/
structure Record where
  code : Nat
  flags : Nat := 0
  gi : Nat
  tepc : DWord
  taddr : DWord
  workid : DWord
  seq : Nat
  depth : Nat
  reason : Nat := 0
  orig : Nat := 0
  grid : Word := 0
  phys : Word := 0
  deriving DecidableEq, Repr

/-- The 64 bytes of a record, Table 16-7 (R309). -/
def recordBytes (r : Record) : List Byte :=
  bytesLE 2 r.code ++ bytesLE 2 r.flags ++ bytesLE 4 r.gi ++ bytesLE 8 r.tepc.toNat ++
    bytesLE 8 r.taddr.toNat ++ bytesLE 8 r.workid.toNat ++ bytesLE 4 r.seq ++ bytesLE 4 r.depth ++
    List.replicate 8 0 ++ bytesLE 4 r.reason ++ bytesLE 4 r.orig ++ bytesLE 4 r.grid.toNat ++
    bytesLE 4 r.phys.toNat

/-- The page a record may lie on: N, pinned, writable (R309). -/
def recordNeed (l : Leaf) : Option Code :=
  if l.ty = .n && l.pin && l.w then none else some .pageFault

/-- Bytes written to physical pieces of a range, as one event of a core. -/
def writePieces (s : State) (core : Nat) : List (Nat × Nat × Leaf) → List Byte → State
  | [], _ => s
  | (pa, n, l) :: ps, bs =>
    writePieces (writeEvent (holdLeaf s l) (.core core) pa (bs.take n) l.forceS l.bias) core ps (bs.drop n)

/-- Bytes read from physical pieces of a range, by a core. -/
def readPieces (s : State) : List (Nat × Nat × Leaf) → List Byte
  | [] => []
  | (pa, n, _) :: ps => readBytes s pa n ++ readPieces s ps

/-- Pieces that a held range covers are refused (R196). -/
def piecesFree (s : State) (core : Nat) (store : Bool) (ps : List (Nat × Nat × Leaf)) : Bool :=
  ps.all fun q => !lockHit s (some core) q.1 q.2.1 store

/-- A piece can be reached: its port is up, or it is host memory under device bias that this module holds (R341,
R351). -/
def pieceUp (s : State) (q : Nat × Nat × Leaf) : Bool :=
  match regionOf q.1 with
  | .ext => !s.link.down.contains .pcie
  | .cxl => !(cxlDown s && q.2.2.bias) && !unreached s q.1
  | .hbm _ | .tier | .regs | .hole => true

/-- Pieces that no held range covers, all of which can be reached. -/
def piecesOpen (s : State) (core : Nat) (store : Bool) (ps : List (Nat × Nat × Leaf)) : Bool :=
  piecesFree s core store ps && ps.all (pieceUp s)

/-- A read of an X page with the PCIe port down times out, which counts as an uncorrectable error of the port
(R350, R351). -/
def noteLost (s : State) (die : Nat) (ps : List (Nat × Nat × Leaf)) : State :=
  if ps.any fun q => regionOf q.1 = .ext && !pieceUp s q then report s (.linkError die) else s

/-- The same for a range as it is translated, where no held range refuses the read. -/
def noteRead (s : State) (die core p pasid : Nat) (need : Leaf → Option Code) (va : DWord) (n : Nat) : State :=
  match piecesOf s core p pasid need va n with
  | .ok ps => if piecesFree s core false ps then noteLost s die ps else s
  | .error _ => s

/-- The class transitions of a range that an agent's event touches, whose leaves say how large its pages are
(R192). -/
def eventPieces (s : State) (who : Agent) (store : Bool) (ps : List (Nat × Nat × Leaf)) : State :=
  ps.foldl (fun s q => eventAccessRange (holdLeaf s q.2.2) who q.1 q.2.1 store q.2.2.forceS q.2.2.bias) s

/-- The same for a core. -/
def accessPieces (s : State) (core : Nat) (store : Bool) (ps : List (Nat × Nat × Leaf)) : State :=
  eventPieces s (.core core) store ps

/-- The bytes that such an event reads, once the stores placed before it have been performed (R182, R185). -/
def loadPieces (s : State) (who : Agent) (ps : List (Nat × Nat × Leaf)) : List Byte × State :=
  let r := eventPieces s who false ps
  (readPieces r ps, r)

/-- The record of a thread's trap. -/
def trapRecord (s : State) (t : Tid) (e : Exc) (tepc : DWord) (flags seq : Nat) : Record :=
  { code := codeNum e.code, flags := flags, gi := t.gi, tepc := tepc, taddr := e.addr,
    workid := threadWorkid s t, seq := seq, depth := (getThread s t).callDepth }

/-- The capacity that a TREC header gives. -/
def recordCap (area : List Byte) : Nat :=
  let cap := ofBytesLE ((area.drop 4).take 4)
  if cap = 0 then 1023 else cap

/-- The address of record `n` of an area. -/
def recordAt (trec : DWord) (n : Nat) : DWord := trec + BitVec.ofNat 64 (64 + 64 * n)

/-- What the record lacks: the pages of its area's header, then, where there is room, those of the record itself
(R193, R309, R330). -/
def recordLack (s : State) (t : Tid) : Option Lack :=
  let g := threadGroup s t
  if g.trec = 0 then none
  else match rangeLack s t recordNeed g.trec 12 with
    | some l => some l
    | none =>
      match piecesOf s (threadCore s t) (threadPart s t) (threadPasid s t) recordNeed g.trec 12 with
      | .error _ => none
      | .ok hdr =>
        let area := (loadPieces s (.core (threadCore s t)) hdr).1
        let next := ofBytesLE (area.take 4)
        if next < recordCap area && hdr.all (pieceUp s) then rangeLack s t recordNeed (recordAt g.trec next) 64 else none

/-- The record is appended at TREC as one event (R309), once nothing lacks for it; `none` when the append meets a
fault. -/
def appendRecord (s : State) (t : Tid) (e : Exc) (tepc : DWord) (flags : Nat) : Option State :=
  let g := threadGroup s t
  if g.trec = 0 then some s
  else
    let core := threadCore s t
    let pieces := piecesOf s core (threadPart s t) (threadPasid s t) recordNeed
    match pieces g.trec 12 with
    | .error _ => none
    | .ok hdr =>
      if !piecesOpen s core true hdr then none
      else
        let s := accessPieces s core true hdr
        let area := readPieces s hdr
        let next := ofBytesLE (area.take 4)
        let cap := ofBytesLE ((area.drop 4).take 4)
        let lost := ofBytesLE (area.drop 8)
        if next < recordCap area then
          match pieces (recordAt g.trec next) 64 with
          | .error _ => none
          | .ok rec =>
            if !piecesOpen s core true rec then none
            else
              let s := writePieces s core rec (recordBytes (trapRecord s t e tepc flags next))
              some (writePieces s core hdr
                (bytesLE 4 (next + 1) ++ bytesLE 4 cap ++ bytesLE 4 lost))
        else
          some (writePieces s core hdr
            (bytesLE 4 (next + 1) ++ bytesLE 4 cap ++ bytesLE 4 (lost + 1)))

/-! ## The fault ring -/

/-- QRING_CFG (Table 16-3): LOG_ENTRIES resets to 6. -/
def qcfgOf (s : State) (die q : Nat) : Word := mget 6 (getDie s die).qcfg q
/-- LOG_ENTRIES: values outside 6 to 16 read as 6. -/
def qlogOf (s : State) (die q : Nat) : Nat :=
  let l := bitsOf (qcfgOf s die q) 0 5
  if 6 ≤ l && l ≤ 16 then l else 6
/-- Entry i of a ring (R306). -/
def qentryAddr (s : State) (die q i : Nat) : Nat :=
  (mget 0 (getDie s die).qbase q).toNat + 64 * (i % 2 ^ qlogOf s die q)

/-- A ring in host memory is accessed by its physical address under host bias, since no leaf gives a bias (R183,
R305; DESIGN CHOICE, log 10). -/
def ringHost (a : Nat) : Bool := regionOf a = .cxl

/-- The scheduler core of a die, by key. -/
def schedCore (s : State) (die : Nat) : Nat := coreKey die ((getDie s die).sched.getD 0)

/-- An entry of a ring can be accessed: no held range covers it, and its port is up (R196, R351; log 10). -/
def ringUp (s : State) (die a : Nat) (store : Bool) : Bool :=
  !(ringHost a && cxlDown s) && !lockHit s (some (schedCore s die)) a 64 store

/-- The page that an access to an entry waits for (R193, R349). -/
def ringBar (s : State) (a : Nat) : Option (Nat × Bool) := (pageBar s a 64 (ringHost a)).map fun u => (u, ringHost a)

/-- The entry of the fault ring that the next record takes (R314). -/
def faultEntry (s : State) (die : Nat) : Nat := qentryAddr s die 63 (mget 0 (getDie s die).tail 63).toNat

/-- The fault ring can take a record: the queue is enabled on a die that has a scheduler core and has completed what
the loss of the former one interrupted, fewer than 2^LOG_ENTRIES − 1 entries are outstanding, and the entry can be
accessed (R306, R314, R319; logs 10, 16). -/
def faultRingOpen (s : State) (die : Nat) : Bool :=
  let d := getDie s die
  d.sched.isSome && d.lost.isEmpty && (qcfgOf s die 63).getLsbD 31 &&
    ((mget 0 d.tail 63).toNat + 65536 - mget 0 d.qhead 63) % 65536 + 1 < 2 ^ qlogOf s die 63 &&
    ringUp s die (faultEntry s die) true && (ringBar s (faultEntry s die)).isNone

/-- The record of an escalation, with SEQ (R314). -/
def escalationRecord (e : Escalation) (seq : Nat) : Record :=
  { code := codeNum e.code, flags := e.flags, gi := e.gi, tepc := e.epc, taddr := e.addr, workid := e.workid,
    seq := seq, depth := e.depth, reason := e.reason, orig := e.orig, grid := e.grid, phys := e.phys }

/-- The record stored at its entry of the ring, unless the locked carve-out refuses it (R356). -/
def ringStore (s : State) (die tail : Nat) (e : Escalation) : State :=
  let a := qentryAddr s die 63 tail
  if s.link.fwLock && inCarveOut a then modLink s fun l => { l with denied := satAdd 16 l.denied }
  else writeEvent s (.core (schedCore s die)) a (recordBytes (escalationRecord e tail)) false (ringHost a)

/-- Appends an escalation's record to the ring of queue 63 and wakes service thread 63 (R314). -/
def ringAppend (s : State) (die : Nat) (e : Escalation) : State :=
  let tail := (mget 0 (getDie s die).tail 63).toNat
  let s := ringStore s die tail e
  modDie s die fun d =>
    { d with tail := mset 0 d.tail 63 (BitVec.ofNat 16 (tail + 1)), pend := nadd d.pend 63 }

/-- The record goes to the ring, or waits for it behind those that wait. -/
def postEscalation (s : State) (die : Nat) (e : Escalation) : State :=
  if faultRingOpen s die && (getDie s die).escalated.isEmpty then ringAppend s die e
  else modDie s die fun d => { d with escalated := d.escalated ++ [e] }

/-- Escalation (R314): the group stops, and its record goes to the fault ring, or waits for it. -/
def escalateRecord (s : State) (e : Escalation) : State :=
  let t : Tid := ⟨e.grp, e.gi⟩
  let e := { e with workid := threadWorkid s t, depth := (getThread s t).callDepth,
                    grid := threadHandle s t, phys := physOf s (threadCore s t) }
  let s := holdSoon s e.grp
  let s := modGroup s e.grp fun g =>
    { g with stopped := true, fault := some { code := e.code, workid := e.workid, addr := e.addr } }
  let s := { s with ops := s.ops.map fun (k, o) =>
      (k, if o.grp = e.grp then { o with stopped := true } else o) }
  postEscalation s (dieOfCore (threadCore s t)) e

/-- Groups on the dies of a partition. -/
def groupsOfPart (s : State) (p : Nat) : List Nat :=
  (s.groups.filter fun e => (getPart s p).dies.getLsbD (dieOfCore e.2.core)).map Prod.fst

/-- The partition of a die stops (R314: a nested fault of a scheduler-core thread): its groups and their
operations stop, and the host hears of a fatal error. -/
def stopPartition (s : State) (t : Tid) : State :=
  let p := threadPart s t
  let gs := nadd (groupsOfPart s p) t.grp
  let s := modPart (report s .fatal) p fun x => { x with stopped := true }
  let s := gs.foldl (fun s g => modGroup (holdSoon s g) g fun x => { x with stopped := true }) s
  let ops := s.ops.map fun e => (e.1, if gs.contains e.2.grp then { e.2 with stopped := true } else e.2)
  { s with ops := ops }

/-- The thread leaves its stream: it goes on from its PC when its group does. -/
def leaveStream (s : State) (t : Tid) : State :=
  modThread s t fun th =>
    { th with run := match th.run with
        | .held _ => .held none
        | .done => .done
        | .ready | .issuing | .parked _ => .ready }

/-- A fault that cannot go to the group's handler (R314): that of a scheduler-core thread, which firmware's own
handler then does not take, stops the die's partition (log 41). A group has one record at a time: a further
thread of the pack with which the group stops faults again when the group goes on. -/
def escalate (s : State) (t : Tid) (code : Code) (orig reason : Nat) (epc addr : DWord) (flags : Nat) :
    State :=
  let s := leaveStream s t
  if (getGroup s t.grp).stopped then s
  else if isPriv s t then stopPartition s t
  else escalateRecord s
    { grp := t.grp, gi := t.gi, code := code, orig := orig, reason := reason, epc := epc, addr := addr,
      flags := flags }

/-! ## Trap entry -/

/-- Entry into the group's handler (R79 steps 2 and 3). -/
def enterHandler (s : State) (t : Tid) (e : Exc) (tepc : DWord) : State :=
  let s := modThread s t fun th =>
    { th with tcause := BitVec.ofNat 32 (codeNum e.code), tepc := tepc, taddr := e.addr,
              inTrap := true, checkTvec := true }
  wake s t (threadGroup s t).tvec

/-- The pages of the record are asked for, and the thread waits to take its trap (R193, R330). -/
def parkTrap (s : State) (t : Tid) (e : Exc) (tepc : DWord) (flags : Nat) (l : Lack) : State :=
  waitTrap (askFor s t l) t e tepc flags

/-- Trap entry (R79, R309, R314). `flags` are those of the record. -/
def takeTrapWith (s : State) (t : Tid) (e : Exc) (tepc : DWord) (flags : Nat) : State :=
  let s := dropResv (completeRegs s t) t
  let th := getThread s t
  let out := fun (s : State) => modThread s t fun th => { th with pc := tepc }
  if th.run = .done then s
  else if th.inTrap then escalate (out s) t .nestedFault th.tcause.toNat 1 tepc e.addr flags
  else if (threadGroup s t).tvec = 0 then escalate (out s) t e.code 0 0 tepc e.addr flags
  else match recordLack s t with
  | some l => parkTrap s t e tepc flags l
  | none =>
    match appendRecord s t e tepc flags with
    | some s => enterHandler s t e tepc
    | none => escalate (out s) t .nestedFault (codeNum e.code) 1 tepc e.addr flags

/-- A fault at the thread's own slot. -/
def takeTrap (s : State) (t : Tid) (e : Exc) : State := takeTrapWith s t e (getThread s t).pc 0

/-- Flag bits of Table 16-7. -/
def flagBlockEnd : Nat := 1
def flagToken : Nat := 2

/-- A handler that cannot be entered (R64, R314). -/
def handlerLost (s : State) (t : Tid) : State :=
  let th := getThread s t
  escalate (completeRegs s t) t .nestedFault th.tcause.toNat 1 th.tepc (threadGroup s t).tvec 0

/-! ## Ends of blocks -/

/-- CANCEL or a user interrupt is taken at the thread's next block end (R310). -/
def interrupted (th : Thread) : Bool := !th.inTrap && (th.cancelPend || th.uiPend)

/-- A block ends with a successor: a pending CANCEL or user interrupt is taken there, otherwise the
thread posts (R73, R310 item 3). -/
def endBlock (s : State) (t : Tid) (succ : DWord) : State :=
  let th := getThread s t
  if !th.inTrap && th.cancelPend then
    let s := modThread s t fun th => { th with cancelPend := false }
    takeTrapWith s t { code := .cancel } succ flagBlockEnd
  else if !th.inTrap && th.uiPend then
    takeTrapWith s t { code := .userInt, addr := th.uiCause.setWidth 64 } succ flagBlockEnd
  else wake s t succ

/-- Return from a trap (R312): the mode bit falls and the thread goes to TEPC, a block end. -/
def returnFromTrap (s : State) (t : Tid) : State :=
  let s := modThread s t fun th => { th with inTrap := false }
  endBlock s t (getThread s t).tepc

end Sys2Proof.Machine
end

