-- ==== Sys2Proof/Machine/Registers.lean ====
section
/-! DEFINITION. Memory-mapped registers: queue registers, error status, link-die, firmware and power
registers, the partition map (R305, R334, R338, R348, R354 to R360). A register word is named by its
BAR 0 offset; words of BAR 2 stand at 0x100000 + offset and those of the partition map at
0x200000 + 64n (log 17). -/

namespace Sys2Proof.Machine

/-- Hottest die (Table 19-4). -/
def tempMax (s : State) : Nat := (List.range 8).foldl (fun n d => max n (getDie s d).temp) 0

/-- Every engine of a die is in Quench (Table 19-4); withdrawn clusters have none. -/
def dieQuenched (s : State) (d : Nat) : Bool :=
  (List.range 16).all fun c => (getCluster s (d * 16 + c)).quenched ||
    (getCluster s (d * 16 + c)).withdrawn

def bootStateNum : BootState → Nat
  | .staging => 0 | .verifying => 1 | .running => 2 | .ready => 3 | .failed => 4

/-- FW_BOOT, Table 19-3. -/
def fwBootWord (l : Link) : Nat :=
  l.fwLock.toNat * 2 ^ 31 + bootStateNum l.fwState * 2 ^ 28 + l.diePass.toNat * 2 ^ 20 +
    l.fwError.toNat * 2 ^ 16 + min 65535 l.denied

/-- HLINK_STATUS, Table 18-5. -/
def hlinkStatus (l : Link) : Nat :=
  l.recalls.toNat * 2 ^ 48 + min 255 l.atomicRefused * 2 ^ 40 + l.fabricUp.toNat * 2 ^ 16 +
    l.cxlUp.toNat * 2 ^ 8 + l.pcieUp.toNat

/-- PWR_STATUS, Table 19-4. -/
def pwrStatus (s : State) : Nat :=
  s.link.quenchCount.toNat * 2 ^ 48 +
    ((List.range 8).foldl (fun n d => n + (dieQuenched s d).toNat * 2 ^ d) 0) * 2 ^ 40 +
    min 255 (tempMax s) * 2 ^ 32 + s.link.trip.toNat * 2 ^ 18 + s.link.alarm.toNat * 2 ^ 17 +
    s.link.power.toNat

/-- ERR_STATUS, Table 17-5. -/
def errStatus (d : Die) : Nat :=
  d.clustersLost.toNat * 2 ^ 48 + min 65535 d.pagesRetired * 2 ^ 32 +
    min 65535 d.uncorrected * 2 ^ 16 + min 65535 d.corrected

/-- A queue's registers answer (R305). -/
def queueAnswers (priv : Bool) (n : Nat) : Bool := priv || n < 48

/-- A word of the MSI-X table (log 19). Bits [31:1] of a vector-control word, for which the spec lays out no
fields, keep what is written (DESIGN CHOICE, log 19). -/
def msixWord (l : Link) (i : Nat) : Word := mget 0 l.msix i ^^^ (if i % 4 = 3 then 1 else 0)

/-- The message of a vector: its number, and address and data as the table's words give them (R348, log 19). -/
def msixMessage (l : Link) (v : Nat) : Nat × DWord × Word :=
  (v, (msixWord l (4 * v + 1)) ++ (msixWord l (4 * v)), msixWord l (4 * v + 2))

/-- Pending bits of 32 vectors. -/
def pendingBits (l : Link) (i : Nat) : Nat :=
  (List.range 32).foldl (fun n k => n + (l.msixPending.contains (32 * i + k)).toNat * 2 ^ k) 0

/-- Part of a number as a word: `i` = 0 low, 1 high. -/
def wordPart (n i : Nat) : Word := BitVec.ofNat 32 (n / 2 ^ (32 * i))

/-- Registers of the partition map by word: their values as read (Table 17-4). -/
def partWord (p : Part) (i : Nat) : Word :=
  match i with
  | 0 => p.dies.setWidth 32
  | 2 => wordPart p.pasidBase.toNat 0
  | 3 => wordPart p.pasidBase.toNat 1
  | 4 => p.pasidCfg.setWidth 32
  | 6 => wordPart p.tier.toNat 0
  | 7 => wordPart p.tier.toNat 1
  | 8 => wordPart p.cxl.toNat 0
  | 9 => wordPart p.cxl.toNat 1
  | 10 => wordPart p.xwin.toNat 0
  | 11 => wordPart p.xwin.toNat 1
  | _ => 0

/-- A word of the link-die window, by its offset in the window (R354, Tables 18-4, 18-5). The first byte of
a HALLMARK digest lies at its register's lowest offset: the spec gives no byte order for it (DESIGN CHOICE,
log 47). -/
def linkWord (s : State) (o : Nat) : Word :=
  if o = 0 || o = 4 then wordPart (hlinkStatus s.link) (o / 4)
  else if o = 0x200 then s.link.fwStage.setWidth 32
  else if o = 0x208 then wordPart (fwBootWord s.link) 0
  else if 0x400 ≤ o && o < 0x500 then
    if o % 64 < 48 then
      BitVec.ofNat 32 (ofBytesLE
        (((bytes384 (mget 0 s.link.hallmark ((o - 0x400) / 64))).drop (o % 64)).take 4))
    else 0
  else if o = 0x500 || o = 0x504 then wordPart (pwrStatus s) (o / 4 % 2)
  else if o = 0x508 then s.link.pwrLimit.setWidth 32
  else 0

/-- A word of a die's control window (R305). -/
def dieWord (s : State) (priv : Bool) (d o : Nat) : Word :=
  if o < 0x400 then
    if queueAnswers priv (o / 16) then
      if o % 16 < 8 then wordPart (mget 0 (getDie s d).qbase (o / 16)).toNat (o / 4 % 2)
      else if o % 16 = 8 then
        BitVec.ofNat 32 (bitsOf (qcfgOf s d (o / 16)) 8 20 * 256 + qlogOf s d (o / 16) +
          ((qcfgOf s d (o / 16)).getLsbD 31).toNat * 2 ^ 31)
      else 0
    else 0
  else if o = 0x8100 || o = 0x8104 then wordPart (errStatus (getDie s d)) (o / 4 % 2)
  else 0

/-- A register word as read. -/
def regReadWord (s : State) (priv : Bool) (off : Nat) : Word :=
  if off < 0x80000 then dieWord s priv (off / 0x10000) (off % 0x10000)
  else if off < 0x90000 then linkWord s (off - 0x80000)
  else if off < 0x100000 then 0
  else if off < 0x100400 then msixWord s.link ((off - 0x100000) / 4)
  else if 0x102000 ≤ off && off < 0x102008 then wordPart (pendingBits s.link ((off - 0x102000) / 4)) 0
  else if priv && 0x200000 ≤ off && off < 0x200200 then
    partWord (getPart s ((off - 0x200000) / 64)) (off % 64 / 4)
  else if priv && off = 0x200200 then BitVec.ofNat 32 s.link.partLock.toNat
  else 0

/-- New content of a read-write word: written bytes from `v`, others kept. -/
def merge (old v mask : Word) : Word := (old &&& ~~~mask) ||| (v &&& mask)

/-- The low or high word of a dword replaced. -/
def mergeHalf (old : DWord) (i : Nat) (v mask : Word) : DWord :=
  if i = 0 then (old &&& 0xFFFFFFFF00000000) ||| (merge (wordPart old.toNat 0) v mask).setWidth 64
  else (old &&& 0xFFFFFFFF) ||| ((merge (wordPart old.toNat 1) v mask).setWidth 64 <<< 32)

/-- QNOTIFY is performed: TAIL and PEND of the queue's latch (R305). -/
def latchNotify (s : State) (d n : Nat) (v : Word) : State :=
  modDie s d fun die => { die with tail := mset 0 die.tail n (v.setWidth 16), pend := nadd die.pend n }

/-- The queue accepts notifies (R305). -/
def queueEnabled (s : State) (d n : Nat) : Bool := (qcfgOf s d n).getLsbD 31

/-- A notify arrives on the PCIe port (R305, R346): dropped while the queue is disabled, otherwise it waits behind the
CXL writes that arrived before it. ENABLE is tested as it arrives, and not again as the link die performs it (DESIGN
CHOICE, log 68). -/
def arriveNotify (s : State) (d n : Nat) (v : Word) : State :=
  if queueEnabled s d n then
    let (k, s) := freshId s
    modDie s d fun die => { die with notifies := die.notifies ++ [(k, n, v)] }
  else s

/-- ERR_STATUS.CORRECTED is write-1-to-clear; windowed counts stay (R338). -/
def clearCorrected (s : State) (d : Nat) (v : Word) : State :=
  modDie s d fun die =>
    { die with corrected := (BitVec.ofNat 16 (min 65535 die.corrected) &&& ~~~(v.setWidth 16)).toNat }

/-- An aperture write stores its bytes in the carve-out, or is dropped and counted (R355, R356). -/
def apertureWrite (s : State) (off : Nat) (bs : List Byte) : State :=
  if s.link.fwLock then modLink s fun l => { l with denied := satAdd 16 l.denied }
  else storeBytes s (0x1FE0000000 + s.link.fwStage.toNat * 32768 + off) bs

/-- FW_BOOT.LOCK is written with 1 (R356). A write of 0 leaves the bit to be written once: the spec does not
say whether it uses up the one write of an RWO bit (R6; DESIGN CHOICE, log 48). -/
def lockCarveOut (s : State) : State :=
  if s.link.fwLock then s
  else modLink s fun l => { l with fwLock := true, fwState := .verifying }

/-- PWR_LIMIT: a value outside 1,500 to 3,300 is ignored (Table 19-1). -/
def setPwrLimit (s : State) (v : Word) : State :=
  let w := bitsOf v 0 13
  if 1500 ≤ w && w ≤ 3300 then modLink s fun l => { l with pwrLimit := BitVec.ofNat 13 w } else s

/-- An MSI-X message is held for sending, or its pending bit is set when the vector is masked
(R347, R348). -/
def sendMsix (s : State) (v : Nat) : State :=
  modLink s fun l =>
    if (msixWord l (4 * v + 3)).getLsbD 0 then { l with msixPending := nadd l.msixPending v }
    else { l with msixHeld := l.msixHeld ++ [v] }

/-- A word of the MSI-X table is written, every bit of it; unmasking a pending vector sends it (log 19). -/
def writeMsix (s : State) (i : Nat) (v mask : Word) : State :=
  let w := merge (msixWord s.link i) v mask
  let s := modLink s fun l => { l with msix := mset 0 l.msix i (w ^^^ (if i % 4 = 3 then 1 else 0)) }
  if i % 4 = 3 && !w.getLsbD 0 && s.link.msixPending.contains (i / 4) then
    modLink s fun l =>
      { l with msixPending := ndel l.msixPending (i / 4), msixHeld := l.msixHeld ++ [i / 4] }
  else s

/-- A word of the partition map is written; ignored once locked (R334). -/
def writePart (s : State) (n i : Nat) (v mask : Word) : State :=
  if s.link.partLock then s
  else modPart s n fun p =>
    match i with
    | 0 => { p with dies := (merge (p.dies.setWidth 32) v mask).setWidth 8 }
    | 2 | 3 => { p with pasidBase := mergeHalf p.pasidBase (i % 2) v mask &&& 0xFFFFFFFFFF000 }
    | 4 => { p with pasidCfg := (merge (p.pasidCfg.setWidth 32) v mask).setWidth 5 }
    | 6 | 7 => { p with tier := mergeHalf p.tier (i % 2) v mask }
    | 8 | 9 => { p with cxl := mergeHalf p.cxl (i % 2) v mask }
    | 10 | 11 => { p with xwin := mergeHalf p.xwin (i % 2) v mask }
    | _ => p

/-! ## Locking the partition map -/

/-- HALLMARK[n] := SHA-384(HALLMARK[n] ∥ d) (R358). -/
def extendHallmark (s : State) (n : Nat) (d : BitVec 384) : State :=
  modLink s fun l =>
    { l with hallmark := mset 0 l.hallmark n (sha384 (bytes384 (mget 0 l.hallmark n) ++ bytes384 d)) }

/-- Two windows [BASE, LIMIT) share a unit. -/
def windowsMeet (a b : DWord) : Bool :=
  bitsOf a 0 32 < bitsOf b 32 32 && bitsOf b 0 32 < bitsOf a 32 32 &&
    bitsOf a 0 32 < bitsOf a 32 32 && bitsOf b 0 32 < bitsOf b 32 32

/-- Two partitions' memory overlaps (R334). -/
def partsMeet (a b : Part) : Bool :=
  a.dies &&& b.dies ≠ 0 || windowsMeet a.tier b.tier || windowsMeet a.cxl b.cxl || windowsMeet a.xwin b.xwin

/-- Some two partitions overlap. -/
def mapOverlaps (s : State) : Bool :=
  (List.range 8).any fun i => (List.range i).any fun j => partsMeet (getPart s i) (getPart s j)

/-- The registers of the map in the order of Table 17-4, eight bytes each, with LOCK set (log 7). -/
def mapBytes (s : State) : List Byte :=
  let each (f : Part → Nat) : List Byte := (List.range 8).flatMap fun n => bytesLE 8 (f (getPart s n))
  each (fun p => p.dies.toNat) ++ each (fun p => p.pasidBase.toNat) ++ each (fun p => p.pasidCfg.toNat) ++
    each (fun p => p.tier.toNat) ++ each (fun p => p.cxl.toNat) ++ each (fun p => p.xwin.toNat) ++ bytesLE 8 1

/-- Dies with a functioning core. -/
def workingDies (s : State) : List Nat := (List.range 8).filter fun d => (getDie s d).functioning

/-- STATE becomes READY once the map is locked and every die's service threads are placed (R358). -/
def readyCheck (s : State) : State :=
  if s.link.fwState = .running && s.link.partLock && (workingDies s).all fun d => (getDie s d).sched.isSome then
    modLink s fun l => { l with fwState := .ready }
  else s

/-- PART_LOCK.LOCK is written with 1 (R334, R358). A write that fails for overlap leaves the register unlocked, to
be written again (log 48). -/
def lockMap (s : State) : State :=
  if s.link.partLock || mapOverlaps s then s
  else readyCheck (modLink (extendHallmark s 2 (sha384 (mapBytes s))) fun l => { l with partLock := true })

/-! ## Writes of register words -/

/-- A word of a die's control window is written (R305): QNOTIFY by a thread's D store, which sets the latch as it is
performed (R160). The low 12 bits of QRING_BASE, which is said to be a multiple of 4,096, are stored and used as they
are written (DESIGN CHOICE, log 68). -/
def writeDieWord (s : State) (priv : Bool) (d o : Nat) (v mask : Word) : State :=
  if o < 0x400 then
    let n := o / 16
    if !queueAnswers priv n then s
    else if o % 16 < 8 then
      modDie s d fun die =>
        { die with qbase := mset 0 die.qbase n (mergeHalf (mget 0 die.qbase n) (o / 4 % 2) v mask) }
    else if o % 16 = 8 then
      modDie s d fun die =>
        { die with qcfg := mset 6 die.qcfg n (merge (mget 6 die.qcfg n) v mask &&& 0x8FFFFF1F) }
    else s
  else if o < 0x500 then
    let n := (o - 0x400) / 4
    if queueAnswers priv n && queueEnabled s d n then latchNotify s d n (v &&& mask) else s
  else if o = 0x8100 then clearCorrected s d (v &&& mask)
  else s

/-- A word of the link-die window is written (R348, R354). -/
def writeLinkWord (s : State) (priv : Bool) (o : Nat) (v mask : Word) : State :=
  if o = 0x10 then if priv then sendMsix s (bitsOf (v &&& mask) 0 6) else s
  else if o = 0x200 then
    modLink s fun l => { l with fwStage := (merge (l.fwStage.setWidth 32) v mask).setWidth 14 }
  else if o = 0x208 then if (v &&& mask).getLsbD 31 then lockCarveOut s else s
  else if o = 0x508 then setPwrLimit s (merge (s.link.pwrLimit.setWidth 32) v mask)
  else s

/-- A register word is written, the bytes of `mask` only (R6, R7). `priv`: by a scheduler core. -/
def regWriteWord (s : State) (priv : Bool) (off : Nat) (v mask : Word) : State :=
  if off < 0x80000 then writeDieWord s priv (off / 0x10000) (off % 0x10000) v mask
  else if off < 0x90000 then writeLinkWord s priv (off - 0x80000) v mask
  else if off < 0x100000 then s
  else if off < 0x100400 then writeMsix s ((off - 0x100000) / 4) v mask
  else if priv && 0x200000 ≤ off && off < 0x200200 then
    writePart s ((off - 0x200000) / 64) (off % 64 / 4) v mask
  else if priv && off = 0x200200 then if (v &&& mask).getLsbD 0 then lockMap s else s
  else s

/-- A register is 64 bits wide. -/
def regIsWide (off : Nat) : Bool :=
  if off < 0x80000 then (off % 0x10000 < 0x400 && off % 16 = 0) || off % 0x10000 = 0x8100
  else 0x200000 ≤ off && off % 8 = 0 && off % 64 / 8 ≠ 0 && off % 64 / 8 ≠ 2

/-- A BAR 0 offset lies in the aperture of the carve-out (Table 19-1). -/
def inAperture (off : Nat) : Bool := 0x88000 ≤ off && off < 0x90000

/-- A BAR 0 offset is that of QNOTIFY of a die's queue (Table 16-2). -/
def isNotify (off : Nat) : Bool := off < 0x80000 && 0x400 ≤ off % 0x10000 && off % 0x10000 < 0x500

/-- A register is written whole from outside: QNOTIFY arrives at the link die (R346), and in the aperture the eight
bytes of the value are written, as far as it goes (R354, R355; log 18). -/
def regWrite (s : State) (priv : Bool) (off : Nat) (v : DWord) : State :=
  if inAperture off then apertureWrite s (off - 0x88000) ((bytesLE 8 v.toNat).take (0x90000 - off))
  else if isNotify off then
    let n := (off % 0x10000 - 0x400) / 4
    if queueAnswers priv n then arriveNotify s (off / 0x10000) n (v.setWidth 32) else s
  else
  let s := regWriteWord s priv off (wordPart v.toNat 0) 0xFFFFFFFF
  if regIsWide off then regWriteWord s priv (off + 4) (wordPart v.toNat 1) 0xFFFFFFFF else s

/-- Bytes read by a device transaction at a BAR 0 offset (R160, R342; log 18). -/
def regLoad (s : State) (priv : Bool) (off n : Nat) : List Byte :=
  (List.range n).map fun i =>
    BitVec.ofNat 8 (bitsOf (regReadWord s priv ((off + i) / 4 * 4)) (8 * ((off + i) % 4)) 8)

/-- Words written by a device transaction of `bs` at a BAR 0 offset: one word after the other. -/
def regStoreWords (s : State) (priv : Bool) (off : Nat) (bs : List Byte) : Nat → State
  | 0 => s
  | fuel + 1 =>
    if bs.isEmpty then s
    else
      let lead := off % 4
      let m := min (4 - lead) bs.length
      let v := ofBytesLE (List.replicate lead 0 ++ bs.take m)
      let mask := (2 ^ (8 * m) - 1) * 2 ^ (8 * lead)
      regStoreWords (regWriteWord s priv (off / 4 * 4) (BitVec.ofNat 32 v) (BitVec.ofNat 32 mask))
        priv (off + m) (bs.drop m) fuel

/-- Bytes written by a device transaction at a BAR 0 offset (R160, R342, R355; log 18). -/
def regStore (s : State) (priv : Bool) (off : Nat) (bs : List Byte) : State :=
  if inAperture off then apertureWrite s (off - 0x88000) bs
  else regStoreWords s priv off bs (bs.length + 1)

end Sys2Proof.Machine
end

