-- ==== Sys2Proof/Machine/Banks.lean ====
section
/-! DEFINITION. Cluster SRAM: scratchpad bytes, FIFO slots, the banks' queues (R166 to R173). -/

namespace Sys2Proof.Machine

/-- Bytes of a bank. -/
def bankBytes : Nat := 262144

def getBank (s : State) (gang b : Nat) : Bank := mget {} (getGang s gang).banks b
def modBank (s : State) (gang b : Nat) (f : Bank → Bank) : State :=
  modGang s gang fun g => { g with banks := mset {} g.banks b (f (mget {} g.banks b)) }

/-- A bank is in scratchpad mode. -/
def Bank.isScratch (b : Bank) : Bool := b.mode = .scratch

/-! ## Bytes -/

/-- A byte of the gang's scratchpad (R167). -/
def scratchByte (s : State) (gang o : Nat) : Byte :=
  mget 0 (getBank s gang (o / bankBytes)).data (o % bankBytes)

def scratchRead (s : State) (gang o n : Nat) : List Byte :=
  (List.range n).map fun i => scratchByte s gang (o + i)

/-- A word of the scratchpad range is poisoned (R362). -/
def scratchPoisoned (s : State) (gang o n : Nat) : Bool :=
  (wordsOf o n).any fun w =>
    (getBank s gang (w * 8 / bankBytes)).poison.contains (w % (bankBytes / 8))

/-- Bytes written into one bank. -/
def putBytes (m : NMap Byte) (o : Nat) : List Byte → NMap Byte
  | [] => m
  | b :: bs => putBytes (mset 0 m o b) (o + 1) bs

/-- The bytes of a write that fall in bank `b`, from bank offset on, one bank after the other. -/
def scratchWriteRaw (s : State) (gang : Nat) : Nat → Nat → List Byte → State
  | 0, _, _ => s
  | fuel + 1, o, bs =>
    if bs.isEmpty then s
    else
      let m := min bs.length (bankBytes - o % bankBytes)
      let s := modBank s gang (o / bankBytes) fun b =>
        { b with data := putBytes b.data (o % bankBytes) (bs.take m) }
      scratchWriteRaw s gang fuel (o + m) (bs.drop m)

/-- Marks or clears poison of a word of the scratchpad. -/
def scratchMark (gang : Nat) (bad : Bool) (s : State) (w : Nat) : State :=
  modBank s gang (w * 8 / bankBytes) fun b =>
    { b with poison := if bad then nadd b.poison (w % (bankBytes / 8))
                       else ndel b.poison (w % (bankBytes / 8)) }

/-- A store of clean bytes to the scratchpad (R167, R362). -/
def scratchStore (s : State) (gang o : Nat) (bs : List Byte) : State :=
  (fullWords o bs.length).foldl (scratchMark gang false) (scratchWriteRaw s gang (bs.length + 1) o bs)

/-- A write of poisoned bytes: every word touched is marked. -/
def scratchPoison (s : State) (gang o n : Nat) : State :=
  (wordsOf o n).foldl (scratchMark gang true) s

/-- A scratchpad access is performed by the bank (R167, R168, R207, R208, R216). -/
def performScratch (s : State) (t : Tid) (a : Access) : State :=
  let gang := (threadGroup s t).gang
  let bad := scratchPoisoned s gang a.pa a.size
  let old := ofBytesLE (scratchRead s gang a.pa a.size)
  let mark := if bad then some a.va else none
  match a.op with
  | .load ty => writeDest s t a.dst (loadValue ty old) mark
  | .store bs => scratchStore s gang a.pa bs
  | .atom op ty v _ =>
    let s := if bad then s
             else scratchWriteRaw s gang 2 a.pa (bytesLE a.size (atomNew op ty old v.toNat))
    writeDest s t a.dst old mark
  | .cas cmp new =>
    let s := if !bad && scratchRead s gang a.pa a.size = cmp then scratchWriteRaw s gang 2 a.pa new
             else s
    writeDest s t a.dst old mark
  | .axadd _ _ | .axrd _ | .amaxi _ | .ldrsv | .stcnd _ => s

/-! ## FIFO banks -/

/-- Bytes of a slot, by the slot code of R172. -/
def slotBytes : BankMode → Nat
  | .fifo 0 => 4
  | .fifo 1 => 8
  | .fifo _ => 16
  | .cache | .scratch => 16

/-- Slots of a FIFO bank (R169). -/
def fifoCap (b : Bank) : Nat := bankBytes / slotBytes b.mode

/-- Writes the tail slot, poisoned or clean (R170, R362). -/
def fifoPut (b : Bank) (data : List Byte) (bad : Bool) : Bank :=
  let o := b.tail * slotBytes b.mode
  let ws := wordsOf o data.length
  { b with data := putBytes b.data o data,
           poison := if bad then ws.foldl nadd b.poison
                     else b.poison.filter fun w => !(fullWords o data.length).contains w,
           tail := (b.tail + 1) % fifoCap b, filled := b.filled + 1 }

/-- The same for a slot some of whose 64-bit words are poisoned (R268, R362). -/
def fifoPutMarks (b : Bank) (data : List Byte) (marks : List Nat) : Bank :=
  let first := b.tail * slotBytes b.mode / 8
  let k := fifoPut b data false
  { k with poison := marks.foldl (fun ws m => nadd ws (first + m)) k.poison }

/-- Value of the head slot and whether it is poisoned (R170, R362). -/
def fifoHead (b : Bank) : Nat × Bool :=
  let o := b.head * slotBytes b.mode
  let n := slotBytes b.mode
  (ofBytesLE ((List.range n).map fun i => mget 0 b.data (o + i)),
    (wordsOf o n).any fun w => b.poison.contains w)

/-- The head slot is taken. -/
def fifoDrop (b : Bank) : Bank :=
  { b with head := (b.head + 1) % fifoCap b, filled := b.filled - 1 }

/-- A piece of an engine's range lies behind a port that is down (R351): an X page, or host memory,
which has no lock record (R197). -/
def linkLost (s : State) (scratch : Option Nat) (q : Nat × Nat × Bool) : Bool :=
  scratch.isNone &&
    match regionOf q.1 with
    | .ext => s.link.down.contains .pcie
    | .cxl => !q.2.2 && cxlDown s
    | .hbm _ | .tier | .regs | .hole => false

/-- A read of these bytes has failed (R268, R350), or their bank is lost (R339). -/
def readLost (lost : List (Nat × Nat)) (a n : Nat) : Bool := lost.any fun q => overlaps a n q.1 q.2

/-- Bytes of a piece, and whether they are poisoned, in memory or in the copy of the engine's cluster (R190, R362). -/
def onePiece (s : State) (ck : Nat) (scratch : Option Nat) (lost : List (Nat × Nat)) (q : Nat × Nat × Bool) (off m : Nat) :
    List Byte × Bool :=
  match scratch with
  | some g =>
    if readLost lost (q.1 + off) m then (failedBytes s (q.1 + off) m, true)
    else (scratchRead s g (q.1 + off) m, scratchPoisoned s g (q.1 + off) m)
  | none =>
    if linkLost s scratch q || readLost lost (q.1 + off) m then (failedBytes s (q.1 + off) m, true)
    else (readBytes s (q.1 + off) m, poisoned s (q.1 + off) m || wayMarked s ck (q.1 + off) m)

/-- A byte range of an operation, piece by piece: bytes and poison at offset `off` in it. -/
def pieceBytes (s : State) (ck : Nat) (scratch : Option Nat) (lost : List (Nat × Nat)) :
    List (Nat × Nat × Bool) → Nat → Nat → List Byte × Bool
  | [], _, _ => ([], false)
  | (a, n, h) :: ps, off, len =>
    if len = 0 then ([], false)
    else if n ≤ off then pieceBytes s ck scratch lost ps (off - n) len
    else
      let m := min len (n - off)
      let (bs, bad) := onePiece s ck scratch lost (a, n, h) off m
      let (rest, bad2) := pieceBytes s ck scratch lost ps 0 (len - m)
      (bs ++ rest, bad || bad2)

/-- Bytes of a range, and whether a byte of them is poisoned. -/
def rangeBytes (s : State) (rg : Range) (off len : Nat) : List Byte × Bool :=
  pieceBytes s rg.cluster rg.scratch rg.lost rg.pieces off len

/-- A reader takes the head slot and goes on at the next slot of its program (R170). -/
def serveReader (s : State) (gang b : Nat) (t : Tid) (d : Dest) : State :=
  let (v, bad) := fifoHead (getBank s gang b)
  let s := modBank s gang b fifoDrop
  let s := writeDest s t d v (if bad then some (BitVec.ofNat 64 b) else none)
  wake s t (nextPc (getThread s t).pc)

/-- A running copy fills one slot with what it read as it began (R256), and joins the writers again while
slots are left (R262). -/
def serveCopy (s : State) (gang b op : Nat) : State :=
  match mfind s.ops op with
  | none => s
  | some o =>
    match o.slots[o.done]? with
    | none => s
    | some (data, marks) =>
      let s := modBank s gang b fun x => fifoPutMarks x data marks
      let s := modOp s op fun o => { o with done := o.done + 1 }
      if o.done + 1 < o.slots.length then
        modBank s gang b fun x => { x with writers := x.writers ++ [.copy op] }
      else s

/-- A waiting writer fills the tail slot (R170). -/
def serveWriter (s : State) (gang b : Nat) (w : Writer) : State :=
  match w with
  | .thread t data =>
    let s := modBank s gang b fun x => fifoPut x data false
    wake s t (nextPc (getThread s t).pc)
  | .copy op => serveCopy s gang b op

/-- An operation may go on: its gang runs (R247, R267; one that is stopping or stopped moves nothing), or its
group is terminated, and what it has started finishes (R267). -/
def opMayRun (s : State) (o : EngineOp) : Bool :=
  (!o.stopped && (getGang s o.gang).status = .running) || ((getGroup s o.grp).terminated && tableHeld s o)

/-- A waiting writer may go. -/
def writerMayGo (s : State) (w : Writer) : Bool :=
  match w with
  | .thread _ _ => true
  | .copy op => (mfind s.ops op).all (opMayRun s)

/-- The oldest waiting reader, while a slot is filled; otherwise the oldest waiting writer, while one
is free (R170). -/
def fifoNext (s : State) (gang b : Nat) : Option State :=
  let k := getBank s gang b
  match k.readers, k.writers, decide (0 < k.filled), decide (k.filled < fifoCap k) with
  | (t, d) :: rs, _, true, _ =>
    some (serveReader (modBank s gang b fun x => { x with readers := rs }) gang b t d)
  | _, w :: ws, _, true =>
    if writerMayGo s w then
      some (serveWriter (modBank s gang b fun x => { x with writers := ws }) gang b w)
    else none
  | _, _, _, _ => none

/-- Serves waiting readers and writers until none can go on (R170). -/
def fifoServe (s : State) (gang b : Nat) : Nat → State
  | 0 => s
  | fuel + 1 =>
    match fifoNext s gang b with
    | some s => fifoServe s gang b fuel
    | none => s

/-- Steps that serving one bank can take at once: a slot of room for every waiter, and every slot a
copy can still fill. -/
def fifoFuel (s : State) (gang b : Nat) : Nat :=
  let k := getBank s gang b
  2 * (k.readers.length + k.writers.length) + fifoCap k + 2

/-- Waiting threads leave a bank's queues and re-issue, in the order they joined (R172). -/
def releaseWaiters (s : State) (gang b : Nat) : State :=
  let k := getBank s gang b
  let ts := k.readers.map Prod.fst ++ k.writers.filterMap fun w => match w with
    | .thread t _ => some t
    | .copy _ => none
  let s := modBank s gang b fun x =>
    { x with readers := [], writers := x.writers.filter fun w => match w with
        | .thread _ _ => false
        | .copy _ => true }
  ts.foldl retry s

end Sys2Proof.Machine
end

