-- ==== Sys2Proof/Machine/Strict.lean ====
section
/-! DEFINITION. Strict accesses as they are performed: at the home, in a bank, on a device, over the
links (R160, R168, R190, R204, R205, R350, R351). -/

namespace Sys2Proof.Machine

/-- A free value for `w` registers of a failed transaction (R175, R350, R351; log 9). -/
def failedValue (s : State) (w : Nat) : Nat × State :=
  ((List.range w).foldl (fun n i => n + (Config.failedWord (s.free + i)).toNat * 2 ^ (32 * i)) 0,
    { s with free := s.free + w })

/-- Registers of a destination. -/
def destWidth (d : Dest) : Nat :=
  match d with
  | .reg _ w => w
  | .shape _ => 16
  | .none | .pred _ => 0

/-- The access is one of the reservation pair: it takes the thread's entry, and `STCND` stores nothing
(R212, R213). -/
def failPair (s : State) (t : Tid) (a : Access) : State :=
  match a.op with
  | .ldrsv => dropResv s t
  | .stcnd _ => writeDest (dropResv s t) t a.dst 0 none
  | .load _ | .store _ | .atom _ _ _ _ | .cas _ _ | .axadd _ _ | .axrd _ | .amaxi _ => s

/-- An access whose data did not come: returned registers are poisoned, a store or no-return atomic is
reported to the scheduler core (R175, R216, R351). -/
def failAccess (s : State) (t : Tid) (a : Access) : State :=
  let s := failPair s t a
  if a.op.returns then
    let (v, s) := failedValue s (destWidth a.dst)
    writeDest s t a.dst v (some a.va)
  else report s (.poisonMet (threadDie s t))

/-- The thread's strict access ends in a fault at its own slot. -/
def strictFault (s : State) (t : Tid) (e : Exc) : State :=
  takeTrap (modThread s t fun th => { th with strict := none }) t e

/-- One device transaction (R160, R342). -/
def performDevice (s : State) (t : Tid) (a : Access) : State :=
  let off := a.pa - 0xF000000000000
  match a.op with
  | .load ty =>
    writeDest s t a.dst (loadValue ty (ofBytesLE (regLoad s (isPriv s t) off a.size))) none
  | .store bs => regStore s (isPriv s t) off bs
  | .atom _ _ _ _ | .cas _ _ | .axadd _ _ | .axrd _ | .amaxi _ | .ldrsv | .stcnd _ => s

/-- A held range stands in the access's way now (R196). -/
def accessBarred (s : State) (t : Tid) (a : Access) : Bool :=
  lockHit s (some (threadCore s t)) a.pa a.size a.op.storesLock

/-- A strict access to N memory is performed at the home, in the cluster's ways or in the core
(R190, R196, R204). -/
def performN (s : State) (t : Tid) (a : Access) : State :=
  let l := lineNo a.pa
  if accessBarred s t a then
    strictFault (releaseLine s t l (getLine s l).st) t { code := .rangeLock, addr := a.va }
  else if a.host || unreached s a.pa then
    strictDone (if cxlDown s then failAccess s t a else writeBack (performMem s t a) l) t
  else
    let st := dirAfter a.op.ask (threadCluster s t) (getLine s l).st
    strictDone (releaseLine (performLocal s t a) t l st) t

/-- An access to an X page is made, unless a range that an operation has taken since its issue refuses it (R196,
R205). -/
def performX (s : State) (t : Tid) (a : Access) : State :=
  if accessBarred s t a then strictFault s t { code := .rangeLock, addr := a.va }
  else strictDone (writeBack (performMem s t a) (lineNo a.pa)) t

/-- The thread's strict access is performed if it may be (STRICT_ACCESS_PERFORMED); one whose copy another cluster has
taken since asks the home (R190). A posted write to an X page needs the PCIe port (R351). -/
def performStrict (s : State) (t : Tid) : State :=
  match (getThread s t).strict with
  | none => s
  | some x =>
    if strayed s t then homeRequest s t
    else if x.place = .ready && packTurn s t x then
      match regionOf x.acc.pa with
      | .regs => strictDone (performDevice s t x.acc) t
      | .ext =>
        if unanswered s x.acc.pa then s else performX s t x.acc
      | .hbm _ | .tier | .cxl | .hole => performN s t x.acc
    else s

/-- An acknowledgement reaches the home; after the last the request is performed (R190, R191). -/
def lineAck (s : State) (l : Nat) (who : Holder) : State :=
  let ln := getLine s l
  match ln.busy with
  | none => s
  | some (t, acks) =>
    if acks.contains who then
      match (getThread s t).strict with
      | none => s
      | some x =>
        let rest := acks.filter (· ≠ who)
        let s := setLine s l { ln with st := ackState x.acc.op.ask who ln.st, busy := some (t, rest) }
        if rest.isEmpty then performStrict (setPlace s t .ready) t else s
    else s

/-- The access at the head of a bank's queue is performed (R168), in the mode that the bank then has. -/
def bankServe (s : State) (gang b : Nat) : State :=
  match (getBank s gang b).queue with
  | [] => s
  | t :: q =>
    match (getThread s t).strict with
    | none => modBank s gang b fun k => { k with queue := q }
    | some x =>
      if !packTurn s t x then s
      else
      let s := modBank s gang b fun k => { k with queue := q }
      if !(getBank s gang b).isScratch then strictFault s t { code := .bankMode, addr := x.acc.va }
      else if scratchHit s gang x.acc.pa x.acc.size x.acc.op.storesLock then
        strictFault s t { code := .rangeLock, addr := x.acc.va }
      else strictDone (performScratch s t x.acc) t

/-- A returned X read or AtomicOp (R205, R350). -/
def xReturn (s : State) (t : Tid) (reply : XReply) : State :=
  match (getThread s t).strict with
  | none => s
  | some x =>
    if x.place = .link && packTurn s t x then
      let isLoad := match x.acc.op with
        | .load _ => true
        | .store _ | .atom _ _ _ _ | .cas _ _ | .axadd _ _ | .axrd _ | .amaxi _ | .ldrsv | .stcnd _ => false
      match reply with
      | .ok => performX s t x.acc
      | .poisoned => strictDone (failAccess s t x.acc) t
      | .refused =>
        if isLoad then strictDone (failAccess s t x.acc) t
        else
          let s := modLink s fun l => { l with atomicRefused := satAdd 8 l.atomicRefused }
          strictFault s t { code := .atomicUnsupported, addr := x.acc.va }
    else s

/-- An access that stands ready is performed, where no held range bars it and its port is up. A read on the PCIe port
with the port down ends by timeout, which counts (R350); any other read that its port keeps from memory ends with its
thread. -/
def forceReady (s : State) (t : Tid) (a : Access) : State :=
  let l := lineNo a.pa
  let out := fun (down : Bool) =>
    if !down then writeBack (performMem s t a) l
    else if a.op.returns then s
    else report s (.poisonMet (threadDie s t))
  if accessBarred s t a then releaseLine s t l (getLine s l).st
  else match regionOf a.pa with
    | .regs => performDevice s t a
    | .ext => if unanswered s a.pa && a.op.returns then report s (.linkError (threadDie s t)) else out (unanswered s a.pa)
    | .hbm _ | .tier | .cxl | .hole =>
      if a.host || unreached s a.pa then out (cxlDown s)
      else releaseLine (performLocal s t a) t l (dirAfter a.op.ask (threadCluster s t) (getLine s l).st)

/-- An access that has still to be performed at its home, once the home has served everything that came before
it. -/
def forceHome (s : State) (t : Tid) (a : Access) : State :=
  let s := flushHome (lineNo a.pa) (strictCount s) s
  if (getThread s t).strict.isSome then forceReady (leaveHome s t) t a else s

/-- An access that waits for a page is performed once a handover under way has ended, as one to a page that the module
does not hold (R193 steps 2 to 4; log 14). -/
def forceAway (s : State) (t : Tid) (u : Nat) (a : Access) : State :=
  if unreached s a.pa then failAccess s t a
  else if accessBarred s t a then s
  else writeBack (performMem (endHandover s u) t a) (lineNo a.pa)

/-- A thread that is terminated has its outstanding access performed, a PCIe AtomicOp among them (R206,
R316). A read on the PCIe port ends without its thread, whose registers go with it. -/
def forceStrict (s : State) (t : Tid) : State :=
  match (getThread s t).strict with
  | none => s
  | some x =>
    match x.place with
    | .bank b =>
      let gang := (threadGroup s t).gang
      let s := modBank s gang b fun k => { k with queue := k.queue.filter (· ≠ t) }
      if scratchHit s gang x.acc.pa x.acc.size x.acc.op.storesLock then s else performScratch s t x.acc
    | .link | .ready => forceReady s t x.acc
    | .home => forceHome s t x.acc
    | .turn => forceHome (homeRequest s t) t x.acc
    | .held g => forceHome (annealNow s g .s) t x.acc
    | .departing u => forceAway s t u x.acc

end Sys2Proof.Machine
end

