-- ==== Sys2Proof/Machine/Ext.lean ====
section
/-! DEFINITION. Accesses by the host and by peer modules at a home of this module (R192 to R197, R345,
R356). -/

namespace Sys2Proof.Machine

/-- A line of the directory is busy with a thread's request. -/
def lineBusy (s : State) (pa n : Nat) : Bool :=
  s.dir.any fun e => overlaps (e.1 * 128) 128 pa n && e.2.busy.isSome

/-- Bytes of an external access. -/
def extBytes (a : ExtAccess) : List Byte := (a.store.getD []).take a.size

/-- Holders after an external access (R345). -/
def extDir (who : Holder) (store : Bool) (st : DirState) : DirState :=
  if store then .ow who else .sh (st.holders.filter (· ≠ who) ++ [who])

/-- The access stores: always, or, as the atomic that it is, where its compare finds the bytes and meets no marked
word (R208, R216, R345, R362). -/
def extStores (s : State) (a : ExtAccess) : Bool :=
  a.store.isSome && a.cmp.all fun bs => readBytes s a.pa a.size = bs && !poisoned s a.pa a.size

/-- What a load or a compare-and-swap is answered with. -/
def extAnswer (s : State) (who : Agent) (a : ExtAccess) (bs : List Byte) : State :=
  if a.store.isNone || a.cmp.isSome then { s with answers := s.answers ++ [(who, a.pa, bs)] } else s

/-- An external access is performed at the home, after the requests that reached it before, and enters the
order (R191, R194). -/
def extPerform (s : State) (who : Agent) (a : ExtAccess) : State :=
  let h : Holder := match who with
    | .peer m => .peer m
    | .host | .core _ => .host
  let s := eventAccessRange s who a.pa a.size a.store.isSome false false
  let s := extAnswer s who a (readBytes s a.pa a.size)
  let s := if extStores s a then writeEvent s who a.pa (extBytes a) false false else s
  let l := lineNo a.pa
  setLine s l { getLine s l with st := extDir h a.store.isSome (getLine s l).st }

/-- An access by the same agent to the same line arrived earlier and is still held (R346). -/
def extBehind (held : List (Nat × Agent × ExtAccess)) (who : Agent) (a : ExtAccess) : Bool :=
  held.any fun e => e.2.1 = who && lineNo e.2.2.pa = lineNo a.pa

/-- The home holds the access: behind a held range, behind a request of the line that waits itself, or
behind an earlier access of its own agent (R191, R197, R346). -/
def extWaits (s : State) (held : List (Nat × Agent × ExtAccess)) (who : Agent) (a : ExtAccess) : Bool :=
  lockHit s none a.pa a.size a.store.isSome || lineBusy s a.pa a.size || extBehind held who a

/-- An external access arrives at a home: refused by the locked carve-out, held, or performed (R197, R346,
R356). A load of the locked carve-out returns zeros. -/
def extArrive (s : State) (who : Agent) (a : ExtAccess) : State :=
  if inCarveOut a.pa then
    if s.link.fwLock then
      extAnswer (modLink s fun l => { l with denied := satAdd 16 l.denied }) who a (List.replicate a.size 0)
    else
      let s := extAnswer s who a (readBytes s a.pa a.size)
      if extStores s a then storeBytes s a.pa (extBytes a) else s
  else
    let s := flushRange s a.pa a.size
    if extWaits s s.extHeld who a then
      let (k, s) := freshId s
      { s with extHeld := s.extHeld ++ [(k, who, a)] }
    else extPerform s who a

/-- Held accesses that nothing holds any more are performed, in the order they arrived (R197). -/
def releaseList (s : State) : List (Nat × Agent × ExtAccess) → State
  | [] => s
  | (k, who, a) :: xs =>
    let s := flushRange s a.pa a.size
    if extWaits s s.extHeld who a then releaseList { s with extHeld := s.extHeld ++ [(k, who, a)] } xs
    else releaseList (extPerform s who a) xs

def releaseHeld (s : State) : State := releaseList { s with extHeld := [] } s.extHeld

/-- Threads that waited for entries or lock records issue their instruction again (R195). -/
def wakeRanges (s : State) : State :=
  ((allTids s).filter fun t => (getThread s t).run = .parked .ranges ||
    (getThread s t).run = .held (some .ranges)).foldl retry s

/-- An engine operation ends: its entries and lock records are released (R198). -/
def removeOp (s : State) (k : Nat) : State := wakeRanges (releaseHeld { s with ops := mdel s.ops k })

end Sys2Proof.Machine
end

