-- ==== Sys2Proof/Machine/Retire.lean ====
section
/-! DEFINITION. Retirement of gangs and termination of groups (R61, R291, R315). -/

namespace Sys2Proof.Machine

/-- Every thread of the group has exited, or the group is terminated. -/
def Group.over (g : Group) : Bool := g.terminated || g.threads.all fun th => th.run = .done

/-- A gang may retire (R61). Service threads' groups belong to no grid and never do. -/
def gangOver (s : State) (k : Nat) : Bool :=
  match mfind s.gangs k with
  | none => false
  | some g =>
    (mfind s.grids g.grid).isSome && g.groups.all (fun i => (getGroup s i).over) &&
      s.ops.all fun e => e.2.gang ≠ k

/-- A group leaves the machine: its queued accesses are performed, its entries go. -/
def removeGroup (s : State) (grp : Nat) : State :=
  let s := unschedule s grp
  let s := drain s (getGroup s grp).core fun e => e.tid.grp = grp
  { s with groups := mdel s.groups grp, resv := s.resv.filter fun r => r.tid.grp ≠ grp }

/-- Gangs waiting on a die are attempted again after a retirement (R63, R289). -/
def retryPlacement (s : State) (die : Nat) : State :=
  { s with grids := s.grids.map fun (k, g) =>
      (k, { g with dies := mmod g.dies die fun w => { w with tried := false } }) }

/-- A gang that is over retires, frees what it held, and is reported (R61, R304). -/
def retireGang (s : State) (k : Nat) : State :=
  if gangOver s k then
    let g := getGang s k
    let s := g.groups.foldl removeGroup s
    let s := report s (.retirement (g.cluster / 16) (g.cluster % 16 * 256 + g.slot))
    let s := notifyInternal s (g.cluster / 16) 56
    retryPlacement { s with gangs := mdel s.gangs k } (g.cluster / 16)
  else s

/-- A fault is counted in the report of a thread's grid, under its die (R291). -/
def countFault (s : State) (gridKey die : Nat) (f : FirstFault) : State :=
  modGrid s gridKey fun g =>
    { g with count := mupd 0 g.count (codeNum f.code) (· + 1),
             first := match mfind g.first die with
               | some _ => g.first
               | none => mput g.first die f }

/-- A thread's traces outside its group are removed: it waits nowhere any more. -/
def forgetThread (s : State) (t : Tid) : State :=
  let s := forceStrict s t
  let s := leaveHome s t
  { s with dies := s.dies.map fun (k, d) =>
             (k, { d with walks := d.walks.map fun m => { m with waiters := m.waiters.filter (· ≠ t) },
                          misses := d.misses.map fun m => { m with waiters := m.waiters.filter (· ≠ t) } }),
           assay := s.assay.map fun (k, g) => (k, { g with held := g.held.filter (· ≠ t) }) }

/-- An operation of the group that has not begun is discarded (R315, R267). -/
def unbegunCopy (grp : Nat) (o : EngineOp) : Bool :=
  o.grp = grp && (o.phase ≠ .running) &&
    match o.kind with
    | .copy _ _ _ _ => true
    | .chain _ _ | .bzld _ _ _ _ _ _ _ _ | .sign _ _ _ => false

/-- Terminates a group (R315). -/
def terminateGroup (s : State) (grp : Nat) : State :=
  match mfind s.groups grp with
  | none => s
  | some g =>
    if g.terminated then s
    else
      let s := leaveFifos (unschedule s grp) grp
      let s := (inLaneOrder (groupTids s grp)).foldl (fun s t => forgetThread (completeAll s t) t) s
      let s := unschedule s grp
      let kept := s.ops.filter fun e => !unbegunCopy grp e.2
      let runOn := kept.map fun e => (e.1, if e.2.grp = grp then { e.2 with stopped := false } else e.2)
      let rest := s.resv.filter fun r => r.tid.grp ≠ grp
      let s := wakeRanges (releaseHeld { s with ops := runOn, resv := rest })
      let die := dieOfCore g.core
      let grid := (getGang s g.gang).grid
      let s := modGrid s grid fun x => { x with terminated := x.terminated + 1 }
      let s := match g.fault with
        | some f => countFault s grid die f
        | none => s
      let free := fun (a : Accum) => if a.reserved.any fun r => r.1 = grp then { a with reserved := none } else a
      let s := modGang s g.gang fun x => { x with accs := x.accs.map fun e => (e.1, free e.2) }
      let s := modGroup s grp fun x =>
        { x with threads := [], sets := [], terminated := true, stopped := false }
      retireGang s g.gang

end Sys2Proof.Machine
end

