-- ==== Sys2Proof/Machine/Errors.lean ====
section
/-! DEFINITION. Error counting and withdrawal of units (R336 to R339, R319). -/

namespace Sys2Proof.Machine

/-- The gang is out in shadow storage (R317). -/
def Gang.isSaved (g : Gang) : Bool :=
  match g.status with
  | .saved _ _ => true
  | .running | .stopping | .held => false

/-- Gangs placed on a cluster. -/
def gangsOn (s : State) (ck : Nat) : List Nat :=
  (s.gangs.filter fun e => e.2.cluster = ck && !e.2.isSaved).map Prod.fst

/-- Gangs that belong to a grid. -/
def isUserGang (s : State) (k : Nat) : Bool := (mfind s.grids (getGang s k).grid).isSome

/-- A group on a lost unit takes UNIT_LOST and is terminated (R314, R339). -/
def loseGroup (s : State) (grp : Nat) : State :=
  if (getGroup s grp).terminated then s
  else
    let s := escalateRecord s
      { grp := grp, gi := 0, code := .unitLost, orig := 0, reason := 2,
        epc := (getThread s ⟨grp, 0⟩).pc, addr := 0 }
    terminateGroup s grp

/-- Groups that occupy a core: those of a saved gang have left it (R317). A terminated group keeps its turns and strips
until its gang retires (R61; DESIGN CHOICE: R315 says only that its slots are VACANT; log 59). -/
def residents (s : State) (core : Nat) : List Group :=
  (s.groups.filter fun e => e.2.core = core &&
    match (getGang s e.2.gang).status with
    | .saved _ _ => false
    | .running | .stopping | .held => true).map Prod.snd

/-- A core that passed its self-test, in a cluster that is not withdrawn (R339, R357). -/
def coreUsable (s : State) (die c : Nat) : Bool :=
  !(getDie s die).failedCores.contains c && !(getCluster s (die * 16 + c / 4)).withdrawn

/-- A core that may be a die's scheduler core, by number. -/
def coreWorks (s : State) (die c : Nat) : Bool := (getDie s die).functioning && coreUsable s die c

/-- The core that takes over as scheduler core: the one chosen before, while it works; the lowest functioning
one without a user group, or else the lowest functioning one (R319 step 2). -/
def nextSched (s : State) (die : Nat) : Option Nat :=
  (((getDie s die).heir.filter (coreWorks s die)).or
    (lowest (fun c => coreWorks s die c && (residents s (coreKey die c)).isEmpty) 64 0)).or
    (lowest (coreWorks s die) 64 0)

/-- The scheduler core's service threads stop with their core (R319 step 1). -/
def loseScheduler (s : State) (die core : Nat) : State :=
  if (getDie s die).sched = some core then
    let mine := (s.groups.filter fun e => e.2.core = coreKey die core).map Prod.fst
    let s := mine.foldl (fun s g =>
      let k := (getGroup s g).gang
      let s := (inLaneOrder (groupTids s g)).foldl (fun s t => forgetThread (completeAll s t) t) (unschedule s g)
      { removeGroup s g with gangs := mdel s.gangs k }) s
    modDie s die fun d => { d with sched := none }
  else s

/-- Firmware runs. -/
def firmwareRuns (s : State) : Bool := s.link.fwState = .running || s.link.fwState = .ready

/-- A die without a scheduler core keeps the core that it has chosen (R319 step 2). -/
def chooseHeir (s : State) (die : Nat) : State :=
  if firmwareRuns s && (getDie s die).sched.isNone then modDie s die fun d => { d with heir := nextSched s die }
  else s

/-- A withdrawal is reported to the host, and to the log of the die's scheduler core (R338). -/
def reportWithdrawal (s : State) (die : Nat) (u : ErrUnit) : State :=
  report (report s (.advisory u)) (.withdrawal die u)

/-- An operation of a lost gang goes on: a running copy finishes (R267, R315), but not into a FIFO bank, which is lost;
tiles, accumulators and sweeps are lost with the cluster (R339; log 64). -/
def outlivesCluster (o : EngineOp) : Bool :=
  o.phase = .running &&
    match o.kind with
    | .copy (.fifo _ _ _) _ _ _ | .chain _ _ | .bzld _ _ _ _ _ _ _ _ | .sign _ _ _ => false
    | .copy (.flat _ _ _) _ _ _ | .copy (.rows _ _ _) _ _ _ | .copy (.gather _ _ _) _ _ _
    | .copy (.scatter _ _ _) _ _ _ => true

/-- The scratchpad bytes of a range are lost: they read as a failed read does (R339; log 64). -/
def loseScratch (r : Range) : Range :=
  if r.scratch.isSome then { r with lost := r.pieces.map fun q => (q.1, q.2.1) } else r

/-- Operations of gangs whose cluster is lost: running copies finish, the others end (R339). -/
def loseOps (s : State) (lost : List Nat) : State :=
  let kept := s.ops.filter fun e => !lost.contains e.2.gang || outlivesCluster e.2
  let blind (o : EngineOp) : EngineOp :=
    if lost.contains o.gang then { o with ranges := o.ranges.map loseScratch } else o
  wakeRanges (releaseHeld { s with ops := kept.map fun e => (e.1, blind e.2) })

/-- A cluster is withdrawn (R339). -/
def withdrawCluster (s : State) (die cl : Nat) : State :=
  let ck := die * 16 + cl
  if (getCluster s ck).withdrawn then s
  else
    let s := { modCluster s ck fun c => { c with withdrawn := true } with
      wayPoison := s.wayPoison.filter fun e => e.1 ≠ ck }
    let s := modDie s die fun d =>
      { d with clustersLost := d.clustersLost ||| BitVec.ofNat 16 (2 ^ cl) }
    let s := reportWithdrawal s die (.cluster die cl)
    let s := (List.range 4).foldl (fun s i => loseScheduler s die (cl * 4 + i)) s
    let lost := (gangsOn s ck).filter (isUserGang s)
    let s := lost.foldl (fun s k => (getGang s k).groups.foldl loseGroup s) s
    chooseHeir (lost.foldl retireGang (loseOps s lost)) die

/-- A page is retired (R337, R339). It counts at the home die of the erring address (log 50). -/
def retirePage (s : State) (pa : Nat) : State :=
  if (getUnit s (pageNo pa)).retired then s
  else
    let s := modUnit s (pageNo pa) fun p => { p with retired := true }
    let s := modDie s (homeDie s pa) fun d => { d with pagesRetired := satAdd 16 d.pagesRetired }
    reportWithdrawal s (homeDie s pa) (.page pa)

/-- A slice is withdrawn: its lines are written back and have other homes, which moves no logical point, while every
gang of the partition is stopped, which takes its threads' reservations (R316, R339). Requests that its pool had
refused go to the new homes (log 50). -/
def withdrawSlice (s : State) (die n : Nat) : State :=
  if (getDie s die).slicesLost.contains n then s
  else
    let k := die * 32 + n
    let waiting := mget [] s.refusedQ k
    let s := emptySlice { s with refusedQ := mdel s.refusedQ k } fun l => homeSlice s (l * 128) = k
    let s := dropPartResv (modDie s die fun d => { d with slicesLost := nadd d.slicesLost n }) ((partOfDie s die).getD 8)
    reportWithdrawal (waiting.foldl homeRequest s) die (.slice die n)

/-- The die that counts a unit's errors. For a page it is the home die of the erring address, which for a second-tier
page is one die of several (R189, R338; DESIGN CHOICE, log 50). -/
def unitDie (s : State) (u : ErrUnit) : Nat :=
  match u with
  | .cluster die _ => die
  | .slice die _ => die
  | .page pa => homeDie s pa

/-- Windowed count of a unit (R337). -/
def windowCount (s : State) (u : ErrUnit) : Nat :=
  match u with
  | .cluster die cl => (getCluster s (die * 16 + cl)).errors
  | .slice die n => mget 0 (getDie s die).sliceErrors n
  | .page pa => (getUnit s (pageNo pa)).errors

/-- Sets the windowed count of a unit. -/
def setWindow (s : State) (u : ErrUnit) (n : Nat) : State :=
  match u with
  | .cluster die cl => modCluster s (die * 16 + cl) fun c => { c with errors := n }
  | .slice die k => modDie s die fun d => { d with sliceErrors := mset 0 d.sliceErrors k n }
  | .page pa => modUnit s (pageNo pa) fun p => { p with errors := n }

/-- A unit whose fault is lasting is withdrawn (R337, R339). -/
def withdrawUnit (s : State) (u : ErrUnit) : State :=
  match u with
  | .cluster die cl => withdrawCluster s die cl
  | .slice die n => withdrawSlice s die n
  | .page pa => retirePage s pa

/-- One corrected error of a unit (R337, R338). -/
def countCorrected (s : State) (u : ErrUnit) : State :=
  let s := modDie s (unitDie s u) fun d => { d with corrected := satAdd 16 d.corrected }
  let n := windowCount s u + 1
  let s := setWindow s u n
  if 8 ≤ n then withdrawUnit s u else s

end Sys2Proof.Machine
end

