-- ==== Sys2Proof/Machine/Fetch.lean ====
section
/-! DEFINITION. Fetch lines: reading, checking, refetching, and the checks of a transfer's destination
(R23 to R28, R64, R328). -/

namespace Sys2Proof.Machine

/-! ## A line's bytes -/

/-- The line word (R24). -/
def lineWord (bs : List Byte) : Nat := ofBytesLE ((bs.drop 60).take 4)

/-- Even parity over the low `w` bits. -/
def evenParity (w v : Nat) : Bool := popcN w v % 2 = 0

/-- LW_PARITY holds (R25). -/
def lwParityOk (bs : List Byte) : Bool := evenParity 32 (lineWord bs)

/-- VALID is 1 and bits [29:14] are zero (R26 step 2). -/
def lineLegal (bs : List Byte) : Bool :=
  lineWord bs / 2 ^ 31 % 2 = 1 && lineWord bs / 2 ^ 14 % 2 ^ 16 = 0

/-- The 96 bits of a slot (R23). -/
def slotBits (bs : List Byte) (s : Nat) : Nat := ofBytesLE ((bs.drop (12 * s)).take 12)

/-- A slot's SLOT_PARITY bit is set exactly when the slot holds an odd number of ones (R25). -/
def slotParityOk (bs : List Byte) (s : Nat) : Bool :=
  popcN 96 (slotBits bs s) % 2 = lineWord bs / 2 ^ (5 + s) % 2

/-- A slot's ENTRY bit (R24). -/
def isEntry (bs : List Byte) (s : Nat) : Bool := lineWord bs / 2 ^ s % 2 = 1

/-- The first check of R26 that a line fails; `slot` is the slot whose parity is checked. -/
def lineFault (bs : List Byte) (slot : Option Nat) : Option Code :=
  if !lwParityOk bs then some .lineParity
  else if !lineLegal bs then some .illegalLine
  else match slot with
    | some s => if slotParityOk bs s then none else some .lineParity
    | none => none

/-! ## Fetching -/

/-- Where a line stands in physical memory, with its page (R328). A fetch that the core's translation cache does not
serve has parked for its walk before it comes here (`fetchMiss`). -/
def fetchPa (s : State) (t : Tid) (pc : DWord) : Except Exc (Nat × Leaf) :=
  let va := lineOf pc
  if !canonical va then .error { code := .pageFault, addr := va }
  else match translateNow s (threadCore s t) (threadPart s t) (threadPasid s t) va with
    | none => .error { code := .pageFault, addr := va }
    | some l =>
      if l.ty = .n && l.ex then .ok (l.pa va, l) else .error { code := .pagePerm, addr := va }

/-- A line as the instruction cache holds it: memory's bytes, with any damaged bits (R26). -/
def cachedLine (s : State) (core pa : Nat) (host : Bool) : List Byte :=
  let bs := fetchBytes s pa host
  match mfind (getCore s core).icache (pa / 64) with
  | none => bs
  | some d => (List.range 64).map fun i => (bs.getD i 0) ^^^ BitVec.ofNat 8 (bitsOf d (8 * i) 8)

/-- A mismatch of parity is met by one refetch from memory, which counts as a corrected error exactly if the
line then passes every check (R26 step 4). Answers the line and the fault that stands. -/
def refetch (s : State) (core pa : Nat) (host : Bool) (slot : Option Nat) : List Byte × Option Code × State :=
  let bs := fetchBytes s pa host
  let f := lineFault bs slot
  let s := modCore (fetchDraws s pa host) core fun c => { c with icache := mdel c.icache (pa / 64) }
  let u := ErrUnit.cluster (dieOfCore core) (core % 64 / 4)
  (bs, f, if f.isNone then countCorrected s u else s)

/-- The walk for the fetch has just failed (R330). -/
def fetchFailed (s : State) (t : Tid) (va : DWord) : Bool :=
  (tlbLookup (getCore s (threadCore s t)).tlb (threadPasid s t) va).isNone &&
    (getThread s t).walkFails.contains (vpn64 va)

/-- A line is fetched for a thread and checked; the read is one load of the core in the order (R27). The fetch is tested
against no held range, since no rule of a fetch names RANGE_LOCK (R17, R26, R28, R196, R328: DESIGN CHOICE, log 65). -/
def fetchLine (s : State) (t : Tid) (pc : DWord) (slot : Option Nat) :
    Except Exc (List Byte) × State :=
  if fetchFailed s t (lineOf pc) then
    (.error { code := .pageFault, addr := lineOf pc }, modThread s t fun th => { th with walkFails := [] })
  else
  match fetchPa s t pc with
  | .error e => (.error e, s)
  | .ok (pa, l) =>
    let core := threadCore s t
    let s := eventAccess (holdLeaf s l) (.core core) pa false l.forceS l.bias
    let bs := cachedLine s core pa l.bias
    let s := fetchDraws s pa l.bias
    match lineFault bs slot with
    | none => (.ok bs, s)
    | some .lineParity =>
      match refetch s core pa l.bias slot with
      | (bs, none, s) => (.ok bs, s)
      | (_, some c, s) => (.error { code := c, addr := lineOf pc }, s)
    | some c => (.error { code := c, addr := lineOf pc }, s)

/-- Bits [5:3] are zero and the slot is 0 to 4 (R45). -/
def slotForm (pc : DWord) : Bool := bitsOf pc 3 3 = 0 && bitsOf pc 0 3 ≤ 4

/-- The checks of a transfer on its destination (R28, R45): `none` when they pass. A line fault
carries the destination; a fault of translation carries the line address (R328). A slot that is unmarked and
also fails its SLOT_PARITY takes the line's fault first, in the order of R26 and then R28 (log 49). -/
def checkDest (s : State) (t : Tid) (dest : DWord) : Option Exc × State :=
  if !slotForm dest then (some { code := .badTarget, addr := dest }, s)
  else match fetchLine s t dest (some (slotOf dest)) with
    | (.error e, s) =>
      (some { e with addr := if e.code = .pageFault || e.code = .pagePerm then e.addr else dest }, s)
    | (.ok bs, s) =>
      if isEntry bs (slotOf dest) then (none, s) else (some { code := .badTarget, addr := dest }, s)

/-- The PASID's fetches have stopped (R332). A scheduler core runs firmware only (R11), whose code no teardown
of a PASID takes away: its service threads carry the PASID through the steps of R333 (log 37). -/
def fetchStopped (s : State) (t : Tid) : Bool :=
  pasidState s (threadPart s t) (threadPasid s t) = .dying && !isPriv s t

/-- A transfer to `dest` for a thread: checked, then `k` (R28). While the PASID is DYING the thread
parks (R332), and a miss of the core's translation cache parks it for a walk (R328, R330). -/
def transfer (s : State) (t : Tid) (dest : DWord) (k : State → State) : State :=
  if fetchStopped s t then parkRetry s t .dying
  else if slotForm dest && fetchMiss s t (lineOf dest) then missPark s t (lineOf dest)
  else match checkDest s t dest with
    | (some e, s) => takeTrap s t e
    | (none, s) => k s

/-- The end of a block that falls through to the next slot (R28, R29). -/
def fallThrough (s : State) (t : Tid) : State :=
  let next := nextPc (getThread s t).pc
  transfer s t next fun s => endBlock s t next

end Sys2Proof.Machine
end

