-- ==== Sys2Proof/Machine/Operands.lean ====
section
/-! DEFINITION. Operands as an instruction meets them, and what every issue of an instruction has in
common: legality, privilege, guard, indexed operands, registers still awaited, poison (R35 to R41, R51,
R159, R175). -/

namespace Sys2Proof.Machine

/-- An instruction at its effect: the issuing thread, the operand fields with every indexed code
resolved and IMM as the instruction sees it, the format, and the scalars the pack found. -/
structure Ctx where
  t : Tid
  o : Ops
  f : Fmt
  snap : NMap Word
  deriving DecidableEq, Repr

/-- Registers that a field spans. -/
def Use.width : Use → Nat
  | .src w _ _ | .reg w _ | .dst w => w
  | .block => 16
  | .none | .pred | .xr | .set | .shape | .token | .special | .zero => 0

/-- Codes of the `w` registers that an operand names. -/
def regCodes (w : Nat) (x : Opnd) : List Nat :=
  match x with
  | .g n => (List.range w).map (n.val + ·)
  | .k n => (List.range w).map (240 + n.val + ·)
  | .s n => (List.range w).map (256 + n.val + ·)
  | .gz | .idx _ | .imm | .p _ | .x _ | .j _ | .sh _ | .tk _ | .sp _ => []

/-! ## Legality at issue -/

/-- A field is legal for this thread: g within the allocation (R41), k in a handler only (R37), j within
the group's sets (R109). -/
def fieldHere (g : Group) (th : Thread) (u : Use) (x : Opnd) : Bool :=
  match x with
  | .g n => u = .none || n.val + u.width ≤ g.gcount
  | .k _ => th.inTrap
  | .j n => n.val < g.nsets
  | .gz | .idx _ | .imm | .s _ | .p _ | .x _ | .sh _ | .tk _ | .sp _ => true

/-- Number of a special-register operand, its code less 0x180. -/
def spNum (x : Opnd) : Nat :=
  match x with
  | .sp n => n.val
  | .g _ | .k _ | .gz | .idx _ | .imm | .s _ | .p _ | .x _ | .j _ | .sh _ | .tk _ => 0

/-- `MSS` as R66 limits it: TEPC in a handler only; CLOCK never. -/
def mssHere (s : State) (t : Tid) (i : Instr) : Bool :=
  match i with
  | .mss o => (spNum o.dst ≠ 0x13 || (getThread s t).inTrap) && !(spNum o.dst = 0x40 && isPriv s t)
  | _ => true

/-- Every field is legal for this thread. -/
def legalHere (s : State) (t : Tid) (i : Instr) (o : Ops) (f : Fmt) : Bool :=
  let g := threadGroup s t
  let th := getThread s t
  fieldHere g th f.dst o.dst && fieldHere g th f.a o.a && fieldHere g th f.b o.b &&
    fieldHere g th f.c o.c && mssHere s t i

/-- The instruction needs privileged mode (R49, R66, R67, R173). -/
def needsPriv (i : Instr) (f : Fmt) : Bool :=
  f.priv || f.phys ||
    match i with
    | .mss o => 0x40 ≤ spNum o.dst
    | .uiraise _ => true
    | .movs o => 0x44 ≤ spNum o.a
    | _ => false

/-- The guard (R35). -/
def guardTrue (s : State) (t : Tid) (g : Guard) : Bool := readPred s t g.pred.val != g.neg

/-! ## Indexed operands -/

/-- One operand, an indexed code replaced by the register it reaches; on a bound broken, the register
number reached (R40). -/
def resolve (th : Thread) (u : Use) (off : Nat) (x : Opnd) : Except Nat Opnd :=
  match x with
  | .idx k =>
    let (base, limit) := mget (0, 0) th.xr k.val
    let n := base + off
    if h : n < 240 then
      if n + u.width ≤ limit && n % u.width = 0 then .ok (.g ⟨n, h⟩) else .error n
    else .error n
  | .g _ | .k _ | .gz | .imm | .s _ | .p _ | .x _ | .j _ | .sh _ | .tk _ | .sp _ => .ok x

/-- All operands resolved, and IMM as every other use sees it (R40). -/
def resolveOps (th : Thread) (f : Fmt) (o : Ops) : Except Nat Ops :=
  let off := bitsOf o.imm 24 8
  match resolve th f.dst off o.dst, resolve th f.a off o.a, resolve th f.b off o.b,
    resolve th f.c off o.c with
  | .error n, _, _, _ => .error n
  | _, .error n, _, _ => .error n
  | _, _, .error n, _ => .error n
  | _, _, _, .error n => .error n
  | .ok d, .ok a, .ok b, .ok c => .ok { o with dst := d, a := a, b := b, c := c, imm := ownImm o }

/-! ## Registers read and written -/

/-- A field is read as a register source. -/
def Use.isSource : Use → Bool
  | .src _ _ _ | .reg _ _ | .block => true
  | .none | .dst _ | .pred | .xr | .set | .shape | .token | .special | .zero => false

/-- DST is read: as a source of its own, or for its prior content. The block of `MRD` is written. -/
def dstRead (f : Fmt) : Bool := (f.dst.isSource && f.dst ≠ .block) || f.readsDst

/-- Registers an instruction reads, by field (R175). -/
def sourceCodes (o : Ops) (f : Fmt) : List Nat :=
  (if f.a.isSource then regCodes f.a.width o.a else []) ++
    (if f.b.isSource then regCodes f.b.width o.b else []) ++
    (if f.c.isSource then regCodes f.c.width o.c else []) ++
    (if dstRead f then regCodes f.dst.width o.dst else [])

/-- Registers an instruction writes. -/
def targetCodes (o : Ops) (f : Fmt) : List Nat :=
  match f.dst with
  | .dst w => regCodes w o.dst
  | .block => regCodes 16 o.dst
  | .none | .src _ _ _ | .reg _ _ | .pred | .xr | .set | .shape | .token | .special | .zero => []

/-- Shape registers an instruction reads (R274). -/
def shapeSources (o : Ops) (f : Fmt) : List Nat :=
  let one (u : Use) (x : Opnd) : List Nat := match u, x with
    | .shape, .sh n => [n.val]
    | _, _ => []
  one f.a o.a ++ one f.b o.b ++ one f.c o.c ++ (if f.readsDst then one f.dst o.dst else [])

/-- FSTAT, where the instruction reads or writes it as a special register (R66, R68). -/
def fstatCodes (o : Ops) : List Nat := if spNum o.a = 7 || spNum o.dst = 7 then [fstatCode] else []

/-- Registers that the instruction names. -/
def namedCodes (o : Ops) (f : Fmt) : List Nat := sourceCodes o f ++ targetCodes o f ++ fstatCodes o

/-- Those that still await a value (R159, R148). -/
def awaitedCodes (s : State) (t : Tid) (o : Ops) (f : Fmt) : List Nat := (namedCodes o f).filter (awaited s t)

/-- Those that still await an overlapped load (R159). -/
def loadCodes (s : State) (t : Tid) (o : Ops) (f : Fmt) : List Nat := (namedCodes o f).filter (loadAwaited s t)

/-- The recorded address of the first poisoned source (R51 item 4, R175): the registers in the order a, b, c, d, and
then the shape registers in the order a, b, so that `CHAIN`'s count comes before its program (DEDUCED, log 32). -/
def poisonSource (s : State) (t : Tid) (o : Ops) (f : Fmt) : Option DWord :=
  match (sourceCodes o f).findSome? (markOf s t) with
  | some a => some a
  | none => (shapeSources o f).findSome? fun n => mfind (threadGroup s t).shpoison n

/-! ## Issue -/

/-- An issue is counted for `LDRSV` and `STCND` (R214 case 6): once for each instruction, and not for a
`LDRSV` or `STCND` that acts. -/
def countIssue (s : State) (t : Tid) (own : Bool) : State :=
  modThread s t fun th =>
    { th with sinceRsv := if th.counted || own then th.sinceRsv else th.sinceRsv + 1, counted := false }

/-- The instruction is one of the reservation pair. -/
def isResv (i : Instr) : Bool :=
  match i with
  | .ldrsv _ | .stcnd _ => true
  | _ => false

/-- The instruction with fields `o` and format `f` reaches its effect: indexed operands, awaited
registers and poison (R51 item 4, R148, R159). -/
def operandsThen (t : Tid) (snap : NMap Word) (o : Ops) (f : Fmt) (body : Ctx → State → State)
    (s : State) : State :=
  match resolveOps (getThread s t) f o with
  | .error n => takeTrap s t { code := .indexBound, addr := BitVec.ofNat 64 n }
  | .ok o =>
    let waits := loadCodes s t o f
    if !waits.isEmpty then parkRetry s t (.regs waits)
    else
    let s := finishLates s t (awaitedCodes s t o f)
    match poisonSource s t o f with
      | some a => takeTrap s t { code := .poison, addr := a }
      | none => body { t := t, o := o, f := f, snap := snap } s

/-- One issue of an instruction for one thread, up to its effect `body`, in the order of R51. `pre` holds the checks
that an arrival instruction makes before those of its operands (R9, R115; log 21). What the mode forbids is ILLEGAL_OP
whatever the guard, an `MSS` to TEPC outside a handler too (DESIGN CHOICE, log 65). -/
def issueAt (i : Instr) (t : Tid) (snap : NMap Word) (o : Ops) (f : Fmt)
    (pre : State → Tid → Ops → Option Exc) (body : Ctx → State → State) (s : State) : State :=
  let act := guardTrue s t o.guard
  let s := countIssue s t (isResv i && act)
  if !legalHere s t i o f then takeTrap s t { code := .illegalOp }
  else if needsPriv i f && !isPriv s t then takeTrap s t { code := .privOp }
  else if !act then if f.ends then fallThrough s t else advance s t
  else match pre s t o with
    | some e => takeTrap s t e
    | none => operandsThen t snap o f body s

/-- No checks of its own. -/
def noPre (_ : State) (_ : Tid) (_ : Ops) : Option Exc := none

/-- The meaning of an instruction row: one issue for the thread that the state names. -/
def issueWith (i : Instr) (pre : State → Tid → Ops → Option Exc) (body : Ctx → State → State)
    (s : State) : Host.Outcome State Fault Refusal :=
  match s.cur, form i with
  | some c, some (o, f) => .next (issueAt i c.tid c.snap o f pre body s)
  | _, _ => .fault .noIssuer

def issue (i : Instr) (body : Ctx → State → State) (s : State) : Host.Outcome State Fault Refusal :=
  issueWith i noPre body s

/-! ## Values -/

/-- An FP32 value as the FP64 of the same value, NaNs included (R39). -/
def widenF32 (v : Word) : Nat :=
  let sign := bitsOf v 31 1 * 2 ^ 63
  if bitsOf v 23 8 = 255 then sign + 0x7FF * 2 ^ 52 + bitsOf v 0 23 * 2 ^ 29
  else (roundFp (fpFmt .f64) 0 0 false (fpVal (fpFmt .f32) v.toNat)).1

/-- IMM as an operand of `w` registers of an instruction of a type (R39). -/
def immValue (ty : Ty) (w : Nat) (v : Word) : Nat :=
  if w ≤ 1 then v.toNat
  else if ty = .f64 then widenF32 v
  else if isSigned ty then (v.signExtend 64).toNat
  else v.toNat

/-- The value of an operand of `w` registers (R36 to R39). -/
def operand (cx : Ctx) (s : State) (w : Nat) (x : Opnd) : Nat :=
  match x with
  | .g n => readRegs s cx.t cx.snap n.val w
  | .k n => readRegs s cx.t cx.snap (240 + n.val) w
  | .s n => readRegs s cx.t cx.snap (256 + n.val) w
  | .gz => 0
  | .imm => immValue cx.o.ty w cx.o.imm
  | .p n => (readPred s cx.t n.val).toNat
  | .idx _ | .x _ | .j _ | .sh _ | .tk _ | .sp _ => 0

def Ctx.a (cx : Ctx) (s : State) : Nat := operand cx s cx.f.a.width cx.o.a
def Ctx.b (cx : Ctx) (s : State) : Nat := operand cx s cx.f.b.width cx.o.b
def Ctx.c (cx : Ctx) (s : State) : Nat := operand cx s cx.f.c.width cx.o.c
/-- The prior content of DST. -/
def Ctx.d (cx : Ctx) (s : State) : Nat := operand cx s cx.f.dst.width cx.o.dst

/-- Number of a p, x, j, sh or tk operand. -/
def opndNum (x : Opnd) : Nat :=
  match x with
  | .p n => n.val
  | .x n => n.val
  | .j n => n.val
  | .sh n => n.val
  | .tk n => n.val
  | .g _ | .k _ | .gz | .idx _ | .imm | .s _ | .sp _ => 0

/-- The destination of a result. -/
def destOf (u : Use) (x : Opnd) : Dest :=
  match x with
  | .g n => .reg n.val u.width
  | .k n => .reg (240 + n.val) u.width
  | .s n => .reg (256 + n.val) u.width
  | .p n => .pred n.val
  | .sh n => .shape n.val
  | .gz | .idx _ | .imm | .x _ | .j _ | .tk _ | .sp _ => .none

def Ctx.dst (cx : Ctx) : Dest := destOf cx.f.dst cx.o.dst

/-- The result is written and the block goes on. -/
def finish (cx : Ctx) (s : State) (v : Nat) : State :=
  advance (writeDest s cx.t cx.dst v none) cx.t

/-- The same with FSTAT flags (R68, R137). -/
def finishF (cx : Ctx) (s : State) (r : Nat × Flags) : State :=
  advance (addFlags (writeDest s cx.t cx.dst r.1 none) cx.t r.2) cx.t

/-- A predicate result. -/
def finishP (cx : Ctx) (s : State) (b : Bool) : State := finish cx s b.toNat

end Sys2Proof.Machine
end

