-- ==== Sys2Proof/Machine/Integer.lean ====
section
/-! DEFINITION. Integer arithmetic, logic, shifts and bit instructions (R92 to R102). The value of each
is a function of its operands. -/

namespace Sys2Proof.Machine

/-- `.sat` of an integer instruction (R92). -/
def satOf (o : Ops) : Bool := o.mod.getLsbD 3

/-! ## Values -/

/-- `IADD` (R92): a + b. -/
def iaddV (ty : Ty) (sat : Bool) (a b : Nat) : Nat := intResult ty sat (intOf ty a + intOf ty b)

/-- `IADD3` (R92): a + b + c. -/
def iadd3V (ty : Ty) (sat : Bool) (a b c : Nat) : Nat := intResult ty sat (intOf ty a + intOf ty b + intOf ty c)

/-- `ISUB` (R92): a − b. -/
def isubV (ty : Ty) (sat : Bool) (a b : Nat) : Nat := intResult ty sat (intOf ty a - intOf ty b)

/-- `IMUL` (R92): a × b. -/
def imulV (ty : Ty) (a b : Nat) : Nat := intResult ty false (intOf ty a * intOf ty b)

/-- `IMULH` (R92): the high half of the product. -/
def imulhV (ty : Ty) (a b : Nat) : Nat := intResult ty false (intOf ty a * intOf ty b / 2 ^ iw ty)

/-- `IMAD` (R92): a × b + c. -/
def imadV (ty : Ty) (a b c : Nat) : Nat := intResult ty false (intOf ty a * intOf ty b + intOf ty c)

/-- `IMIN` (R92). -/
def iminV (ty : Ty) (a b : Nat) : Nat := intResult ty false (min (intOf ty a) (intOf ty b))

/-- `IMAX` (R92). -/
def imaxV (ty : Ty) (a b : Nat) : Nat := intResult ty false (max (intOf ty a) (intOf ty b))

/-- `IABS` (R92). -/
def iabsV (ty : Ty) (sat : Bool) (a : Nat) : Nat := intResult ty sat (intOf ty a).natAbs

/-- `INEG` (R92). -/
def inegV (ty : Ty) (sat : Bool) (a : Nat) : Nat := intResult ty sat (-intOf ty a)

/-- `IDIV` (R93). -/
def idivV (ty : Ty) (a b : Nat) : Nat := wrap (iw ty) (intDiv ty (intOf ty a) (intOf ty b))

/-- `IREM` (R93). -/
def iremV (ty : Ty) (a b : Nat) : Nat := wrap (iw ty) (intRem ty (intOf ty a) (intOf ty b))

/-- `IMADW` (R95): the 64-bit a × b + c. -/
def imadwV (ty : Ty) (a b c : Nat) : Nat := wrap 64 (intOf ty a * intOf ty b + Int.ofNat c)

/-- `LEA` (R97): base + (idx << N). -/
def leaV (ty : Ty) (sh : Nat) (base idx : Nat) : Nat := wrap 64 (Int.ofNat base + intOf ty idx * 2 ^ sh)

/-- `AND` (R99). -/
def andV (a b : Nat) : Nat := Nat.land a b

/-- `OR` (R99). -/
def orV (a b : Nat) : Nat := Nat.lor a b

/-- `XOR` (R99). -/
def xorV (a b : Nat) : Nat := Nat.xor a b

/-- `ANDN` (R99): a AND NOT b. -/
def andnV (w a b : Nat) : Nat := Nat.land a (2 ^ w - 1 - b % 2 ^ w)

/-- `NOT` (R99). -/
def notV (w a : Nat) : Nat := 2 ^ w - 1 - a % 2 ^ w

/-- The carry out of `IADDC` (R94). -/
def iaddcCarry (w a b p : Nat) : Bool := 2 ^ w ≤ a + b + p

/-! ## Meanings -/

/-- `IADD` (R92). -/
def execIadd (o : Ops) (s : State) : Host.Outcome State Fault Refusal :=
  issue (.iadd o) (fun cx s => finish cx s (iaddV cx.o.ty (satOf cx.o) (cx.a s) (cx.b s))) s

/-- `IADD3` (R92). -/
def execIadd3 (o : Ops) (s : State) : Host.Outcome State Fault Refusal :=
  issue (.iadd3 o) (fun cx s => finish cx s (iadd3V cx.o.ty (satOf cx.o) (cx.a s) (cx.b s) (cx.c s))) s

/-- `ISUB` (R92). -/
def execIsub (o : Ops) (s : State) : Host.Outcome State Fault Refusal :=
  issue (.isub o) (fun cx s => finish cx s (isubV cx.o.ty (satOf cx.o) (cx.a s) (cx.b s))) s

/-- `IMUL` (R92). -/
def execImul (o : Ops) (s : State) : Host.Outcome State Fault Refusal :=
  issue (.imul o) (fun cx s => finish cx s (imulV cx.o.ty (cx.a s) (cx.b s))) s

/-- `IMULH` (R92). -/
def execImulh (o : Ops) (s : State) : Host.Outcome State Fault Refusal :=
  issue (.imulh o) (fun cx s => finish cx s (imulhV cx.o.ty (cx.a s) (cx.b s))) s

/-- `IMAD` (R92). -/
def execImad (o : Ops) (s : State) : Host.Outcome State Fault Refusal :=
  issue (.imad o) (fun cx s => finish cx s (imadV cx.o.ty (cx.a s) (cx.b s) (cx.c s))) s

/-- `IMADW` (R95). -/
def execImadw (o : Ops) (s : State) : Host.Outcome State Fault Refusal :=
  issue (.imadw o) (fun cx s => finish cx s (imadwV cx.o.ty (cx.a s) (cx.b s) (cx.c s))) s

/-- `IDIV` (R93). -/
def execIdiv (o : Ops) (s : State) : Host.Outcome State Fault Refusal :=
  issue (.idiv o) (fun cx s => finish cx s (idivV cx.o.ty (cx.a s) (cx.b s))) s

/-- `IREM` (R93). -/
def execIrem (o : Ops) (s : State) : Host.Outcome State Fault Refusal :=
  issue (.irem o) (fun cx s => finish cx s (iremV cx.o.ty (cx.a s) (cx.b s))) s

/-- `IMIN` (R92). -/
def execImin (o : Ops) (s : State) : Host.Outcome State Fault Refusal :=
  issue (.imin o) (fun cx s => finish cx s (iminV cx.o.ty (cx.a s) (cx.b s))) s

/-- `IMAX` (R92). -/
def execImax (o : Ops) (s : State) : Host.Outcome State Fault Refusal :=
  issue (.imax o) (fun cx s => finish cx s (imaxV cx.o.ty (cx.a s) (cx.b s))) s

/-- `IABS` (R92). -/
def execIabs (o : Ops) (s : State) : Host.Outcome State Fault Refusal :=
  issue (.iabs o) (fun cx s => finish cx s (iabsV cx.o.ty (satOf cx.o) (cx.a s))) s

/-- `INEG` (R92). -/
def execIneg (o : Ops) (s : State) : Host.Outcome State Fault Refusal :=
  issue (.ineg o) (fun cx s => finish cx s (inegV cx.o.ty (satOf cx.o) (cx.a s))) s

/-- `AND` (R99). -/
def execAnd (o : Ops) (s : State) : Host.Outcome State Fault Refusal :=
  issue (.and o) (fun cx s => finish cx s (andV (cx.a s) (cx.b s))) s

/-- `OR` (R99). -/
def execOr (o : Ops) (s : State) : Host.Outcome State Fault Refusal :=
  issue (.or o) (fun cx s => finish cx s (orV (cx.a s) (cx.b s))) s

/-- `XOR` (R99). -/
def execXor (o : Ops) (s : State) : Host.Outcome State Fault Refusal :=
  issue (.xor o) (fun cx s => finish cx s (xorV (cx.a s) (cx.b s))) s

/-- `ANDN` (R99). -/
def execAndn (o : Ops) (s : State) : Host.Outcome State Fault Refusal :=
  issue (.andn o) (fun cx s => finish cx s (andnV (iw cx.o.ty) (cx.a s) (cx.b s))) s

/-- `NOT` (R99). -/
def execNot (o : Ops) (s : State) : Host.Outcome State Fault Refusal :=
  issue (.not o) (fun cx s => finish cx s (notV (iw cx.o.ty) (cx.a s))) s

/-- `SHL` (R99). -/
def execShl (o : Ops) (s : State) : Host.Outcome State Fault Refusal :=
  issue (.shl o) (fun cx s => finish cx s (shlN (iw cx.o.ty) (cx.a s) (cx.b s))) s

/-- `SHR` (R99). -/
def execShr (o : Ops) (s : State) : Host.Outcome State Fault Refusal :=
  issue (.shr o) (fun cx s => finish cx s (shrN (iw cx.o.ty) (cx.a s) (cx.b s))) s

/-- `SHRA` (R99). -/
def execShra (o : Ops) (s : State) : Host.Outcome State Fault Refusal :=
  issue (.shra o) (fun cx s => finish cx s (shraN (iw cx.o.ty) (cx.a s) (cx.b s))) s

/-- `ROL` (R99). -/
def execRol (o : Ops) (s : State) : Host.Outcome State Fault Refusal :=
  issue (.rol o) (fun cx s => finish cx s (rolN (iw cx.o.ty) (cx.a s) (cx.b s))) s

/-- `ROR` (R99). -/
def execRor (o : Ops) (s : State) : Host.Outcome State Fault Refusal :=
  issue (.ror o) (fun cx s => finish cx s (rorN (iw cx.o.ty) (cx.a s) (cx.b s))) s

/-- `BFE` (R100). -/
def execBfe (o : Ops) (s : State) : Host.Outcome State Fault Refusal :=
  issue (.bfe o) (fun cx s => finish cx s (bfeN (isSigned cx.o.ty) (iw cx.o.ty) (cx.a s) (cx.b s))) s

/-- `BFI` (R100). -/
def execBfi (o : Ops) (s : State) : Host.Outcome State Fault Refusal :=
  issue (.bfi o) (fun cx s => finish cx s (bfiN (iw cx.o.ty) (cx.a s) (cx.b s) (cx.c s))) s

/-- `POPC` (R101). -/
def execPopc (o : Ops) (s : State) : Host.Outcome State Fault Refusal :=
  issue (.popc o) (fun cx s => finish cx s (popcN (iw cx.o.ty) (cx.a s))) s

/-- `CLZ` (R101). -/
def execClz (o : Ops) (s : State) : Host.Outcome State Fault Refusal :=
  issue (.clz o) (fun cx s => finish cx s (clzN (iw cx.o.ty) (cx.a s))) s

/-- `CTZ` (R101). -/
def execCtz (o : Ops) (s : State) : Host.Outcome State Fault Refusal :=
  issue (.ctz o) (fun cx s => finish cx s (ctzN (iw cx.o.ty) (cx.a s))) s

/-- `BREV` (R101). -/
def execBrev (o : Ops) (s : State) : Host.Outcome State Fault Refusal :=
  issue (.brev o) (fun cx s => finish cx s (brevN (iw cx.o.ty) (cx.a s))) s

/-- `PERM` (R102). -/
def execPerm (o : Ops) (s : State) : Host.Outcome State Fault Refusal :=
  issue (.perm o) (fun cx s => finish cx s (permN (BitVec.ofNat 32 (cx.a s)) (BitVec.ofNat 32 (cx.b s)) (BitVec.ofNat 32 (cx.c s)))) s

/-- `LEA` (R97). -/
def execLea (o : Ops) (s : State) : Host.Outcome State Fault Refusal :=
  issue (.lea o) (fun cx s => finish cx s (leaV cx.o.ty cx.o.mod.toNat (cx.a s) (cx.b s))) s

/-- `IDOT4` (R98). -/
def execIdot4 (o : Ops) (s : State) : Host.Outcome State Fault Refusal :=
  issue (.idot4 o) (fun cx s => finish cx s (idot4N (isSigned cx.o.ty) (BitVec.ofNat 32 (cx.a s)) (BitVec.ofNat 32 (cx.b s)) (BitVec.ofNat 32 (cx.c s)))) s

/-- `IADDC` (R94): the sum with carry, and the carry into the predicate of IMM[2:0]. -/
def execIaddc (o : Ops) (s : State) : Host.Outcome State Fault Refusal :=
  issue (.iaddc o) (fun cx s =>
    let a := cx.a s
    let b := cx.b s
    let p := (readPred s cx.t (opndNum cx.o.c)).toNat
    let s := setPred s cx.t (bitsOf cx.o.imm 0 3) (iaddcCarry (iw cx.o.ty) a b p)
    finish cx s ((a + b + p) % 2 ^ iw cx.o.ty)) s

/-- `ICMP` (R96). -/
def execIcmp (cc : Cmp) (o : Ops) (s : State) : Host.Outcome State Fault Refusal :=
  issue (.icmp cc o) (fun cx s =>
    finishP cx s (cmpHolds cc (intOf cx.o.ty (cx.a s)) (intOf cx.o.ty (cx.b s)))) s

end Sys2Proof.Machine
end

