-- ==== Sys2Proof/Machine/Move.lean ====
section
/-! DEFINITION. Move, select, predicate, index and special-register reads (R65 to R70, R103 to R108). -/

namespace Sys2Proof.Machine

/-- `MOV` (R103). -/
def execMov (o : Ops) (s : State) : Host.Outcome State Fault Refusal :=
  issue (.mov o) (fun cx s => finish cx s (cx.a s)) s

/-- `ISEL` (R104). -/
def execIsel (o : Ops) (s : State) : Host.Outcome State Fault Refusal :=
  issue (.isel o) (fun cx s =>
    finish cx s (if readPred s cx.t (opndNum cx.o.c) then cx.a s else cx.b s)) s

/-- `PSET` (R105). -/
def execPset (o : Ops) (s : State) : Host.Outcome State Fault Refusal :=
  issue (.pset o) (fun cx s => finishP cx s (cx.a s ≠ 0)) s

/-- `PMOV` (R105). -/
def execPmov (o : Ops) (s : State) : Host.Outcome State Fault Refusal :=
  issue (.pmov o) (fun cx s =>
    finishP cx s (pmovN cx.o.mod.toNat (readPred s cx.t (opndNum cx.o.a))
      (readPred s cx.t (opndNum cx.o.b)))) s

/-! ## Special registers -/

/-- STATUS, Table 3-4 (R69). -/
def statusWord (s : State) (t : Tid) : Nat :=
  let th := getThread s t
  (threadGroup s t).prio * 16 + th.cancelPend.toNat * 8 + th.uiPend.toNat * 4 +
    (isPriv s t).toNat * 2 + th.inTrap.toNat

/-- CNT, Table 3-6 (R70). -/
def cntWord (th : Thread) : Nat :=
  th.cntMx * 2 ^ 24 + th.cntCp * 2 ^ 16 + th.cntSt * 2 ^ 8 + th.cntLd

/-- CLOCK as the issuing core reads it now (log 5). -/
def clockNow (s : State) : DWord := Config.clockAt s.ticks

/-- A special register that every thread reads alike, by code less 0x180 (Table 3-2). -/
def spUser (s : State) (t : Tid) (n : Nat) : Nat :=
  let th := getThread s t
  match n with
  | 0x00 => 32
  | 0x01 => 64
  | 0x02 => laneOf t.gi
  | 0x03 => turnOf t.gi
  | 0x04 => (threadGroup s t).gsize
  | 0x05 => t.gi
  | 0x06 => statusWord s t
  | 0x07 => (Flags.word th.fstat).toNat
  | 0x08 => th.tsticky.toNat
  | 0x09 => cntWord th
  | 0x0A => th.callDepth
  | 0x0B => th.link.toNat
  | 0x0C => th.rndctr.toNat
  | 0x10 => (threadGroup s t).tvec.toNat
  | 0x11 => (threadGroup s t).trec.toNat
  | 0x12 => th.tcause.toNat
  | 0x13 => th.tepc.toNat
  | 0x14 => th.taddr.toNat
  | _ => 0

/-- PCORE, PDIE and PMODULE as a scheduler-core thread reads them: what it wrote last, else the
physical place (R65, R66, Table 3-2). -/
def identOf (s : State) (t : Tid) (n : Nat) : Word :=
  let place := if n = 0x41 then threadCore s t % 64 else if n = 0x42 then threadDie s t
    else s.link.index.toNat
  mget (BitVec.ofNat 32 place) (getThread s t).ident (n - 0x40)

/-- A privileged special register as a scheduler-core thread reads it (R66, R67, Table 16-1). -/
def spPriv (s : State) (t : Tid) (n : Nat) : Nat :=
  match n with
  | 0x40 => (clockNow s).toNat
  | 0x41 | 0x42 | 0x43 => (identOf s t n).toNat
  | 0x44 => (getDie s (threadDie s t)).launchFrag.toNat
  | 0x45 => (getThread s t).pasid.toNat
  | _ => 0

/-- TSTICKY bits that a user read of a clock or identifier sets (R67): bit 0 CLK_READ, bit 1
PHYS_READ. -/
def stickyFor (n : Nat) : BitVec 2 := if n = 0x40 then 1 else if n ≤ 0x43 then 2 else 0

def setSticky (s : State) (t : Tid) (b : BitVec 2) : State :=
  modThread s t fun th => { th with tsticky := th.tsticky ||| b }

/-- `MOVS` (R65 to R67, R106). A user read of LAUNCH_FRAG, PASID or UIRAISE has raised PRIV_OP. -/
def execMovs (o : Ops) (s : State) : Host.Outcome State Fault Refusal :=
  issue (.movs o) (fun cx s =>
    let n := spNum cx.o.a
    if n < 0x40 then finish cx s (spUser s cx.t n)
    else if isPriv s cx.t then finish cx s (spPriv s cx.t n)
    else finish cx (setSticky s cx.t (stickyFor n)) 0) s

/-! ## Index registers -/

/-- `XSET` (R107). -/
def execXset (o : Ops) (s : State) : Host.Outcome State Fault Refusal :=
  issue (.xset o) (fun cx s =>
    let a := cx.a s
    let b := cx.b s
    if 240 < a || (threadGroup s cx.t).gcount < b then
      takeTrap s cx.t { code := .indexBound, addr := BitVec.ofNat 64 (if 240 < a then a else b) }
    else
      advance (modThread s cx.t fun th => { th with xr := mset (0, 0) th.xr (opndNum cx.o.dst) (a, b) })
        cx.t) s

/-- `XSET.add` (R107). -/
def execXsetAdd (o : Ops) (s : State) : Host.Outcome State Fault Refusal :=
  issue (.xsetAdd o) (fun cx s =>
    let n := opndNum cx.o.dst
    let x := mget (0, 0) (getThread s cx.t).xr n
    let nb : Int := (x.1 : Int) + toSigned 32 (cx.a s)
    if nb < 0 || 240 < nb then
      takeTrap s cx.t { code := .indexBound, addr := BitVec.ofInt 64 nb }
    else
      advance (modThread s cx.t fun th => { th with xr := mset (0, 0) th.xr n (nb.toNat, x.2) }) cx.t) s

/-- `XGET` (R108). -/
def execXget (o : Ops) (s : State) : Host.Outcome State Fault Refusal :=
  issue (.xget o) (fun cx s =>
    let x := mget (0, 0) (getThread s cx.t).xr (opndNum cx.o.a)
    finish cx s (x.2 % 65536 * 65536 + x.1 % 65536)) s

end Sys2Proof.Machine
end

