-- ==== Sys2Proof/Machine/Trans.lean ====
section
/-! DEFINITION. The special-function unit (R148, R149): every result is the exact value rounded once.
Square roots are found by integer root with a sticky bit; the transcendental functions by fixed-point
intervals, refined until both ends round alike. -/

namespace Sys2Proof.Machine

/-- Integer square root by bits: `fuel` bits from the top. -/
def isqrtGo : Nat → Nat → Nat → Nat
  | 0, _, r => r
  | k + 1, n, r => isqrtGo k n (if (r + 2 ^ k) * (r + 2 ^ k) ≤ n then r + 2 ^ k else r)
def isqrt (n : Nat) : Nat := isqrtGo (Nat.log2 n / 2 + 1) n 0

/-- The square root of a positive dyadic magnitude, to 160 bits and a sticky bit. -/
def magSqrt (num : Nat) (ex : Int) : Mag :=
  let n := if ex % 2 = 0 then num else 2 * num
  let e := if ex % 2 = 0 then ex else ex - 1
  let m := n * 2 ^ 320
  let r := isqrt m
  { num := r, ex := e / 2 - 160, sticky := r * r ≠ m }

/-- The reciprocal square root of a positive dyadic magnitude. -/
def magRsqrt (num : Nat) (ex : Int) : Mag :=
  let n := if ex % 2 = 0 then num else 2 * num
  let e := if ex % 2 = 0 then ex else ex - 1
  let k := 2 * Nat.log2 n + 640
  let r := isqrt (2 ^ k / n)
  { num := r, ex := -(e / 2) - (k / 2 : Nat), sticky := r * r * n ≠ 2 ^ k }

def fsqrtX : FVal → XRes
  | .nan s => (.nan false, ivFlag s)
  | .inf n => if n then (.nan false, ivFlag true) else (.inf false, {})
  | .fin n m =>
    if m.num = 0 then (.fin n m, {})
    else if n then (.nan false, ivFlag true)
    else (.fin false (magSqrt m.num m.ex), {})

def frsqX : FVal → XRes
  | .nan s => (.nan false, ivFlag s)
  | .inf n => if n then (.nan false, ivFlag true) else (.fin false { num := 0 }, {})
  | .fin n m =>
    if m.num = 0 then (.inf n, { dz := true })
    else if n then (.nan false, ivFlag true)
    else (.fin false (magRsqrt m.num m.ex), {})

/-! ## Fixed point at `P` fraction bits. Every function below errs by less than 2^20 units. -/

/-- Sum of a series whose term `k + 1` is `term * a / (d (k + 1))` in fixed point. -/
def series (P : Nat) (a : Int) (d : Nat → Nat) : Nat → Nat → Int → Int → Int
  | 0, _, _, acc => acc
  | fuel + 1, k, term, acc =>
    let t := term * a / 2 ^ P / (d (k + 1) : Int)
    series P a d fuel (k + 1) t (acc + t)

/-- exp of a fixed-point number of magnitude below 2. -/
def fxExp (P : Nat) (a : Int) : Int := series P a id (P + 8) 0 (2 ^ P) (2 ^ P)

/-- Sum over k of s^k · y^(2k+1) / (2k+1): atanh for s = 1, atan for s = −1. -/
def fxOdd (P : Nat) (y2 : Int) : Nat → Nat → Int → Int → Int
  | 0, _, _, acc => acc
  | fuel + 1, k, pow, acc => fxOdd P y2 fuel (k + 1) (pow * y2 / 2 ^ P) (acc + pow / (2 * k + 1 : Nat))

def fxAtanh (P : Nat) (y : Int) : Int := fxOdd P (y * y / 2 ^ P) (P + 8) 0 y 0
def fxAtanInv (P k : Nat) : Int :=
  let y : Int := 2 ^ P / (k : Int)
  fxOdd P (-(y * y / 2 ^ P)) (P + 8) 0 y 0

def fxLn2 (P : Nat) : Int := 2 * fxAtanh P (2 ^ P / 3)
def fxPi (P : Nat) : Int := 16 * fxAtanInv P 5 - 4 * fxAtanInv P 239

/-- sin and cos of a fixed-point number of magnitude below 2. -/
def fxSin (P : Nat) (a : Int) : Int :=
  series P (-(a * a / 2 ^ P)) (fun k => 2 * k * (2 * k + 1)) (P / 2 + 8) 0 a a
def fxCos (P : Nat) (a : Int) : Int :=
  series P (-(a * a / 2 ^ P)) (fun k => (2 * k - 1) * (2 * k)) (P / 2 + 8) 0 (2 ^ P) (2 ^ P)

/-- A dyadic number in fixed point (exact when it has no bit below 2^-P). -/
def fxOf (P : Nat) (d : Dy) : Int :=
  if 0 ≤ d.e + P then d.n * 2 ^ (d.e + P).toNat else d.n / 2 ^ (-(d.e + P)).toNat

/-- An estimate: the value lies within 2^20 units of `v`, each unit 2^(-P + sh). -/
structure Est where
  v : Int
  sh : Int
  deriving DecidableEq, Repr

/-- 2^x for x of magnitude below 2000. -/
def estExp2 (P : Nat) (x : Dy) : Est :=
  let fx := fxOf P x
  let n := fx / 2 ^ P
  ⟨fxExp P ((fx % 2 ^ P) * fxLn2 P / 2 ^ P), n⟩

/-- log2 of a positive number. -/
def estLog2 (P : Nat) (x : Dy) : Est :=
  let l := Nat.log2 x.n.natAbs
  let m := fxOf P ⟨x.n, -(l : Int)⟩
  let y := (m - 2 ^ P) * 2 ^ P / (m + 2 ^ P)
  ⟨(x.e + l) * 2 ^ P + 2 * fxAtanh P y * 2 ^ P / fxLn2 P, 0⟩

/-- sin (or cos) of any dyadic number: the argument is reduced by multiples of pi/2 taken to as many
bits as its exponent asks. -/
def estTrig (P : Nat) (cos : Bool) (x : Dy) : Est :=
  let Q := P + 200
  let fx := fxOf Q x
  let half := fxPi Q / 2
  let q := fx / half
  let rest := (fx - q * half) / 2 ^ 200
  let quadrant := (q + (if cos then 1 else 0)) % 4
  ⟨if quadrant = 0 then fxSin P rest
   else if quadrant = 1 then fxCos P rest
   else if quadrant = 2 then -(fxSin P rest)
   else -(fxCos P rest), 0⟩

/-- tanh of a number of magnitude below 100. -/
def estTanh (P : Nat) (x : Dy) : Est :=
  let t := 2 * fxOf P x
  let ln2 := fxLn2 P
  let n := t / ln2
  let e := fxExp P (t - n * ln2)
  let big := if 0 ≤ n then e * 2 ^ n.toNat else e / 2 ^ (-n).toNat
  ⟨(big - 2 ^ P) * 2 ^ P / (big + 2 ^ P), 0⟩

/-- A value a little above `v` units in magnitude. -/
def estVal (P : Nat) (sh : Int) (v : Int) : FVal :=
  .fin (v < 0) { num := v.natAbs, ex := sh - P, sticky := true }

/-- Rounds an irrational value known by estimates of rising precision. -/
def roundEst (f : FpFmt) (sat : Bool) (est : Nat → Est) : Nat → Nat → Nat × Flags
  | 0, P => roundFp f 0 0 sat (estVal P (est P).sh (est P).v)
  | fuel + 1, P =>
    let e := est P
    let lo := roundFp f 0 0 sat (estVal P e.sh (e.v - 2 ^ 20))
    let hi := roundFp f 0 0 sat (estVal P e.sh (e.v + 2 ^ 20))
    if lo = hi then lo else roundEst f sat est fuel (2 * P)

/-- The seven functions of one operand beside `FRCP` and the roots. -/
inductive Sfu where
  | exp2 | log2 | sin | cos | tanh
  deriving DecidableEq, Repr

/-- A magnitude that overflows every format, or lies below every subnormal. -/
def hugeMag : Mag := { num := 1, ex := 4000 }
def tinyMag : Mag := { num := 1, ex := -4000, sticky := true }

/-- Result of a transcendental function (R148, Table 5-10). -/
def sfuN (fn : Sfu) (f : FpFmt) (sat : Bool) (bits : Nat) : Nat × Flags :=
  let one : FVal := .fin false { num := 1 }
  let go (est : Nat → Est) := roundEst f sat est 8 640
  let exact (x : FVal) := roundFp f 0 0 sat x
  match fpVal f bits with
  | .nan s => (f.canon, ivFlag s)
  | .inf n =>
    match fn with
    | .exp2 => exact (if n then .fin false { num := 0 } else .inf false)
    | .log2 => if n then (f.canon, ivFlag true) else exact (.inf false)
    | .sin | .cos => (f.canon, ivFlag true)
    | .tanh => exact (.fin n { num := 1 })
  | .fin n m =>
    let x := Mag.dy n m
    let (num, den) := m.frac
    match fn with
    | .exp2 =>
      if num % den = 0 then
        let k : Int := if n then -(min (num / den) 4000 : Nat) else (min (num / den) 4000 : Nat)
        exact (.fin false { num := 1, ex := k })
      else if 1000 ≤ num / den then exact (.fin false (if n then tinyMag else hugeMag))
      else go fun P => estExp2 P x
    | .log2 =>
      if num = 0 then ((exact (.inf true)).1, (exact (.inf true)).2.join { dz := true })
      else if n then (f.canon, ivFlag true)
      else if m.num = 2 ^ Nat.log2 m.num then
        exact (intVal (m.ex + Nat.log2 m.num))
      else go fun P => estLog2 P x
    | .sin => if num = 0 then exact (.fin n m) else go fun P => estTrig P false x
    | .cos => if num = 0 then exact one else go fun P => estTrig P true x
    | .tanh =>
      if num = 0 then exact (.fin n m)
      else if 64 ≤ num / den then
        exact (.fin n { num := 2 ^ 90 - 1, ex := -90, sticky := true })
      else go fun P => estTanh P x

end Sys2Proof.Machine
end

