-- ==== Sys2Proof/Machine/FloatInstrs.lean ====
section
/-! DEFINITION. Floating-point, special-function, conversion and random instructions (R140 to R156). -/

namespace Sys2Proof.Machine

/-- The rounding mode of MOD (Table 2-7). -/
def roundOf (o : Ops) : Nat := bitsOf o.mod 0 3

/-- An exact result rounded to a type (R132, R137). -/
def rounded (ty : Ty) (mode r : Nat) (sat : Bool) (x : XRes) : Nat × Flags :=
  let (bits, fl) := roundFp (fpFmt ty) mode r sat x.1
  (bits, x.2.join fl)

def fval (ty : Ty) (v : Nat) : FVal := fpVal (fpFmt ty) v

/-- `FSCALE` (R142): the scale beyond every format's range is cut, which changes no result. -/
def fscaleX (a : FVal) (n : Int) : XRes :=
  match a with
  | .nan sg => (.nan false, ivFlag sg)
  | .inf neg => (.inf neg, {})
  | .fin neg m => (.fin neg { m with ex := m.ex + max (-8000) (min 8000 n) }, {})

/-- The two-operand results of Table 5-8 (R142). -/
def faddN (ty : Ty) (mode r : Nat) (sat : Bool) (a b : Nat) : Nat × Flags :=
  rounded ty mode r sat (fsumX mode [fval ty a, fval ty b])
def fsubN (ty : Ty) (mode r : Nat) (sat : Bool) (a b : Nat) : Nat × Flags :=
  rounded ty mode r sat (fsumX mode [fval ty a, (fval ty b).negate])
def fmulN (ty : Ty) (mode r : Nat) (sat : Bool) (a b : Nat) : Nat × Flags :=
  rounded ty mode r sat (fmulX (fval ty a) (fval ty b))
def ffmaN (ty : Ty) (mode : Nat) (sat : Bool) (a b c : Nat) : Nat × Flags :=
  rounded ty mode 0 sat (ffmaX mode (fval ty a) (fval ty b) (fval ty c))
def fdivN (ty : Ty) (mode r : Nat) (sat : Bool) (a b : Nat) : Nat × Flags :=
  rounded ty mode r sat (fdivX (fval ty a) (fval ty b))
def fscaleN (ty : Ty) (mode r : Nat) (sat : Bool) (a n : Nat) : Nat × Flags :=
  rounded ty mode r sat (fscaleX (fval ty a) (toSigned 32 n))
def fsqrtN (ty : Ty) (mode : Nat) (sat : Bool) (a : Nat) : Nat × Flags :=
  rounded ty mode 0 sat (fsqrtX (fval ty a))

/-- Two packed 16-bit results (R147). -/
def packed2 (lo hi : Nat × Flags) : Nat × Flags := (lo.1 + 65536 * hi.1, lo.2.join hi.2)

def pfmtLo (v : Nat) : Nat := v % 65536
def pfmtHi (v : Nat) : Nat := v / 65536 % 65536

/-- `PDOT2` (R147): exact products and sum, one rounding to binary32. -/
def pdot2N (ty : Ty) (mode : Nat) (sat : Bool) (a b c : Nat) : Nat × Flags :=
  let (p, f) := fmulX (fval ty (pfmtLo a)) (fval ty (pfmtLo b))
  let (q, g) := fmulX (fval ty (pfmtHi a)) (fval ty (pfmtHi b))
  let (x, h) := fsumX mode [fval .f32 c, p, q]
  rounded .f32 mode 0 sat (x, (f.join g).join h)

/-- `FADD` (R142). -/
def execFadd (o : Ops) (s : State) : Host.Outcome State Fault Refusal :=
  issue (.fadd o) (fun cx s =>
    finishF cx s (faddN cx.o.ty (roundOf cx.o) (cx.c s) (cx.o.mod.getLsbD 3) (cx.a s) (cx.b s))) s

/-- `FSUB` (R142). -/
def execFsub (o : Ops) (s : State) : Host.Outcome State Fault Refusal :=
  issue (.fsub o) (fun cx s =>
    finishF cx s (fsubN cx.o.ty (roundOf cx.o) (cx.c s) (cx.o.mod.getLsbD 3) (cx.a s) (cx.b s))) s

/-- `FMUL` (R142). -/
def execFmul (o : Ops) (s : State) : Host.Outcome State Fault Refusal :=
  issue (.fmul o) (fun cx s =>
    finishF cx s (fmulN cx.o.ty (roundOf cx.o) (cx.c s) (cx.o.mod.getLsbD 3) (cx.a s) (cx.b s))) s

/-- `FFMA` (R142). -/
def execFfma (o : Ops) (s : State) : Host.Outcome State Fault Refusal :=
  issue (.ffma o) (fun cx s =>
    finishF cx s (ffmaN cx.o.ty (roundOf cx.o) (cx.o.mod.getLsbD 3) (cx.a s) (cx.b s) (cx.c s))) s

/-- `FSCALE` (R142). -/
def execFscale (o : Ops) (s : State) : Host.Outcome State Fault Refusal :=
  issue (.fscale o) (fun cx s =>
    finishF cx s (fscaleN cx.o.ty (roundOf cx.o) (cx.c s) (cx.o.mod.getLsbD 3) (cx.a s) (cx.b s))) s

/-- `FMIN` (R143). -/
def execFmin (o : Ops) (s : State) : Host.Outcome State Fault Refusal :=
  issue (.fmin o) (fun cx s => finishF cx s (fminmax (fpFmt cx.o.ty) false false (cx.a s) (cx.b s))) s

/-- `FMAX` (R143). -/
def execFmax (o : Ops) (s : State) : Host.Outcome State Fault Refusal :=
  issue (.fmax o) (fun cx s => finishF cx s (fminmax (fpFmt cx.o.ty) true false (cx.a s) (cx.b s))) s

/-- `FMINN` (R143). -/
def execFminn (o : Ops) (s : State) : Host.Outcome State Fault Refusal :=
  issue (.fminn o) (fun cx s => finishF cx s (fminmax (fpFmt cx.o.ty) false true (cx.a s) (cx.b s))) s

/-- `FMAXN` (R143). -/
def execFmaxn (o : Ops) (s : State) : Host.Outcome State Fault Refusal :=
  issue (.fmaxn o) (fun cx s => finishF cx s (fminmax (fpFmt cx.o.ty) true true (cx.a s) (cx.b s))) s

/-- `FCMP` (R144). -/
def execFcmp (cc : FCmp) (o : Ops) (s : State) : Host.Outcome State Fault Refusal :=
  issue (.fcmp cc o) (fun cx s =>
    let r := fcmpN cc (fval cx.o.ty (cx.a s)) (fval cx.o.ty (cx.b s))
    finishF cx s (r.1.toNat, r.2)) s

/-- `FCLASS` (R145). -/
def execFclass (o : Ops) (s : State) : Host.Outcome State Fault Refusal :=
  issue (.fclass o) (fun cx s => finish cx s (fclassN (fpFmt cx.o.ty) (cx.a s))) s

/-- `FRND` (R146). -/
def execFrnd (o : Ops) (s : State) : Host.Outcome State Fault Refusal :=
  issue (.frnd o) (fun cx s => finishF cx s (frndN (fpFmt cx.o.ty) (roundOf cx.o) (cx.a s))) s

/-- `PADD2` (R147). -/
def execPadd2 (o : Ops) (s : State) : Host.Outcome State Fault Refusal :=
  issue (.padd2 o) (fun cx s =>
    let (a, b, r) := (cx.a s, cx.b s, cx.c s)
    let sat := cx.o.mod.getLsbD 3
    finishF cx s (packed2 (faddN cx.o.ty (roundOf cx.o) r sat (pfmtLo a) (pfmtLo b))
      (faddN cx.o.ty (roundOf cx.o) (rol32 r 16) sat (pfmtHi a) (pfmtHi b)))) s

/-- `PMUL2` (R147). -/
def execPmul2 (o : Ops) (s : State) : Host.Outcome State Fault Refusal :=
  issue (.pmul2 o) (fun cx s =>
    let (a, b, r) := (cx.a s, cx.b s, cx.c s)
    let sat := cx.o.mod.getLsbD 3
    finishF cx s (packed2 (fmulN cx.o.ty (roundOf cx.o) r sat (pfmtLo a) (pfmtLo b))
      (fmulN cx.o.ty (roundOf cx.o) (rol32 r 16) sat (pfmtHi a) (pfmtHi b)))) s

/-- `PFMA2` (R147). -/
def execPfma2 (o : Ops) (s : State) : Host.Outcome State Fault Refusal :=
  issue (.pfma2 o) (fun cx s =>
    let (a, b, c) := (cx.a s, cx.b s, cx.c s)
    let sat := cx.o.mod.getLsbD 3
    finishF cx s (packed2 (ffmaN cx.o.ty (roundOf cx.o) sat (pfmtLo a) (pfmtLo b) (pfmtLo c))
      (ffmaN cx.o.ty (roundOf cx.o) sat (pfmtHi a) (pfmtHi b) (pfmtHi c)))) s

/-- `PDOT2` (R147). -/
def execPdot2 (o : Ops) (s : State) : Host.Outcome State Fault Refusal :=
  issue (.pdot2 o) (fun cx s =>
    finishF cx s (pdot2N cx.o.ty (roundOf cx.o) (cx.o.mod.getLsbD 3) (cx.a s) (cx.b s) (cx.c s))) s

/-! ## Special-function unit -/

/-- The thread goes on while the result is still to be written (R148). -/
def finishLate (cx : Ctx) (s : State) (r : Nat × Flags) : State :=
  advance (modThread s cx.t fun th =>
    { th with late := th.late ++
        [{ dst := cx.dst, value := BitVec.ofNat 64 r.1, flags := r.2, spk := false }] }) cx.t

/-- `FRCP`: 1 / a (R148). -/
def frcpN (ty : Ty) (sat : Bool) (a : Nat) : Nat × Flags :=
  rounded ty 0 0 sat (fdivX (.fin false { num := 1 }) (fval ty a))

/-- `FRCP` (R148). -/
def execFrcp (o : Ops) (s : State) : Host.Outcome State Fault Refusal :=
  issue (.frcp o) (fun cx s => finishLate cx s (frcpN cx.o.ty (cx.o.mod.getLsbD 3) (cx.a s))) s

/-- `FRSQ` (R148). -/
def execFrsq (o : Ops) (s : State) : Host.Outcome State Fault Refusal :=
  issue (.frsq o) (fun cx s =>
    finishLate cx s (rounded cx.o.ty 0 0 (cx.o.mod.getLsbD 3) (frsqX (fval cx.o.ty (cx.a s))))) s

/-- `FSQRT` (R148). -/
def execFsqrt (o : Ops) (s : State) : Host.Outcome State Fault Refusal :=
  issue (.fsqrt o) (fun cx s =>
    finishLate cx s (fsqrtN cx.o.ty (roundOf cx.o) (cx.o.mod.getLsbD 3) (cx.a s))) s

/-- `FDIV` (R148). -/
def execFdiv (o : Ops) (s : State) : Host.Outcome State Fault Refusal :=
  issue (.fdiv o) (fun cx s =>
    finishLate cx s
      (fdivN cx.o.ty (roundOf cx.o) (cx.c s) (cx.o.mod.getLsbD 3) (cx.a s) (cx.b s))) s

/-- `FEXP2` (R148). -/
def execFexp2 (o : Ops) (s : State) : Host.Outcome State Fault Refusal :=
  issue (.fexp2 o) (fun cx s =>
    finishLate cx s (sfuN .exp2 (fpFmt cx.o.ty) (cx.o.mod.getLsbD 3) (cx.a s))) s

/-- `FLOG2` (R148). -/
def execFlog2 (o : Ops) (s : State) : Host.Outcome State Fault Refusal :=
  issue (.flog2 o) (fun cx s =>
    finishLate cx s (sfuN .log2 (fpFmt cx.o.ty) (cx.o.mod.getLsbD 3) (cx.a s))) s

/-- `FSIN` (R148). -/
def execFsin (o : Ops) (s : State) : Host.Outcome State Fault Refusal :=
  issue (.fsin o) (fun cx s =>
    finishLate cx s (sfuN .sin (fpFmt cx.o.ty) (cx.o.mod.getLsbD 3) (cx.a s))) s

/-- `FCOS` (R148). -/
def execFcos (o : Ops) (s : State) : Host.Outcome State Fault Refusal :=
  issue (.fcos o) (fun cx s =>
    finishLate cx s (sfuN .cos (fpFmt cx.o.ty) (cx.o.mod.getLsbD 3) (cx.a s))) s

/-- `FTANH` (R148). -/
def execFtanh (o : Ops) (s : State) : Host.Outcome State Fault Refusal :=
  issue (.ftanh o) (fun cx s =>
    finishLate cx s (sfuN .tanh (fpFmt cx.o.ty) (cx.o.mod.getLsbD 3) (cx.a s))) s

/-- The first late write of the unit named (`spk`: the stream unit's). -/
def writeFirst (s : State) (t : Tid) (spk : Bool) : State :=
  match (getThread s t).late.find? fun l => l.spk = spk with
  | none => s
  | some l => makeLate t s l

/-- SFU_RESULT_WRITE: the special-function unit writes its next result (R137, R148). -/
def execSfuResultWrite (grp gi : Nat) (s : State) : Host.Outcome State Fault Refusal :=
  .next (writeFirst s ⟨grp, gi⟩ false)

/-! ## Conversion -/

/-- `CVT` (R150, R151). -/
def execCvt (o : Ops) (s : State) : Host.Outcome State Fault Refusal :=
  issue (.cvt o) (fun cx s =>
    finishF cx s (cvtN (srcTy o) cx.o.ty (roundOf cx.o) (cx.b s) (cx.o.mod.getLsbD 3) (cx.a s))) s

/-- Bits of one element that `CVPK` packs. -/
def packBits (ty : Ty) : Nat := tyBits ty

/-- `CVPK` (R152). -/
def cvpkN (st dt : Ty) (pos mode r : Nat) (sat : Bool) (a b old : Nat) : Nat × Flags :=
  let (ca, f) := cvtN st dt mode r sat a
  let (cb, g) := cvtN st dt mode (rol32 r 16) sat b
  let w := 2 * packBits dt
  let lo := w * pos
  (old % 2 ^ lo + (ca + cb * 2 ^ packBits dt) * 2 ^ lo + old / 2 ^ (lo + w) * 2 ^ (lo + w) % 2 ^ 32,
    f.join g)

/-- `CVPK` (R152). -/
def execCvpk (o : Ops) (s : State) : Host.Outcome State Fault Refusal :=
  issue (.cvpk o) (fun cx s =>
    finishF cx s (cvpkN (srcTy o) cx.o.ty (bitsOf cx.o.imm 4 2) (roundOf cx.o) (cx.c s)
      (cx.o.mod.getLsbD 3) (cx.a s) (cx.b s) (cx.d s))) s

/-- `CVQ8` (R153). -/
def execCvq8 (o : Ops) (s : State) : Host.Outcome State Fault Refusal :=
  issue (.cvq8 o) (fun cx s =>
    let v := cx.a s
    let (q, sc, fl) := cvq8N (srcTy o) (roundOf cx.o) (cx.b s)
      ((List.range 8).map fun i => v / 2 ^ (16 * i) % 65536)
    finishF cx s (q + sc * 2 ^ 32, fl)) s

/-- `DQ` (R154). -/
def dqN (int4 : Bool) (w sc band : Nat) (sat : Bool) : Nat × Flags :=
  let out := (List.range 8).map fun i =>
    dequant int4 (w / 16 ^ i % 16) (sc % 256) (band % 65536) sat
  ((List.range 8).foldl (fun n i => n + (out.getD i (0, {})).1 * 2 ^ (16 * i)) 0,
    out.foldl (fun a x => a.join x.2) {})

/-- `DQ` (R154). -/
def execDq (o : Ops) (s : State) : Host.Outcome State Fault Refusal :=
  issue (.dq o) (fun cx s =>
    finishF cx s (dqN (srcTy o = .i8) (cx.a s) (cx.b s) (cx.c s) (cx.o.mod.getLsbD 3))) s

/-- `RND` (R155). -/
def rndN (ty : Ty) (key ctr : DWord) : Nat :=
  let bits := rndBits key ctr
  match ty with
  | .n64 => bits.toNat
  | .f32 =>
    (roundFp (fpFmt .f32) 0 0 false (.fin false { num := bitsOf bits 40 24, ex := -24 })).1
  | .n8 | .n16 | .n32 | .i8 | .i16 | .i32 | .i64 | .f64 | .f16 | .bf16 | .e4m3 | .e5m2 | .e2m1
  | .b128 => bitsOf bits 0 32

/-- `RND` (R155, R156). -/
def execRnd (o : Ops) (s : State) : Host.Outcome State Fault Refusal :=
  issue (.rnd o) (fun cx s =>
    let v := rndN cx.o.ty (threadWorkid s cx.t) (getThread s cx.t).rndctr
    let s := modThread s cx.t fun th => { th with rndctr := th.rndctr + 1 }
    finish cx s v) s

end Sys2Proof.Machine
end

