-- ==== Sys2Proof/Machine/Engines.lean ====
section
/-! DEFINITION. Engine operations: the ranges they hold, their start and their order (R195 to R198,
R231 to R233). -/

namespace Sys2Proof.Machine

/-! ## Ranges -/

/-- A range that an operation is about to take: of memory, by its translated pieces, or of the gang's
scratchpad. -/
inductive Claim where
  | mem (dst : Bool) (pieces : List (Nat × Nat × Leaf))
  | scratch (dst : Bool) (gang off len : Nat)
  deriving DecidableEq, Repr

/-- The range recorded (R195 step 1). Host memory that cannot be had has no lock record (R197, R351). -/
def claimRange (s : State) (core : Nat) : Claim → Range
  | .mem dst ps =>
    { scratch := none, dst := dst, cluster := clusterOfCore core,
      pieces := ps.map fun q => (q.1, q.2.1, classified q.1 q.2.2.bias && !unreached s q.1) }
  | .scratch dst gang off len => { scratch := some gang, dst := dst, cluster := clusterOfCore core, pieces := [(off, len, false)] }

/-- The class transitions of a range (R195 step 2), with the issuing core as the agent. -/
def claimAccess (core : Nat) (s : State) : Claim → State
  | .mem dst ps => accessPieces s core dst ps
  | .scratch _ _ _ _ => s

/-- Entries of a cluster's range-lock table in use (R195 step 1). -/
def entriesUsed (s : State) (ck : Nat) : Nat :=
  s.ops.foldl (fun n e =>
    if clusterOfCore e.2.core = ck && tableHeld s e.2 then n + e.2.ranges.length else n) 0

/-- Dies whose Assay units hold a record for a range (R195 step 2; a record stands for a range, log 6).
Eight granules in a row meet every home that a piece has (Table 8-3). -/
def rangeDies (s : State) (r : Range) : List Nat :=
  (r.pieces.filter fun q => q.2.2).foldl (fun ds q =>
    (granulesOf q.1 (min q.2.1 32768)).foldl (fun ds g => nadd ds (homeDie s (g * 4096))) ds) []

/-- Lock records in use at a die's Assay unit. -/
def recordsUsed (s : State) (die : Nat) : Nat :=
  s.ops.foldl (fun n e => n + (e.2.ranges.filter fun r => (rangeDies s r).contains die).length) 0

/-- A page that the claims wait for (R193, R349), and whether under host bias. -/
def claimPage (s : State) (cs : List Claim) : Option (Nat × Bool) :=
  cs.findSome? fun c => match c with
    | .mem _ ps => piecesBar s ps
    | .scratch _ _ _ _ => none

/-- That page is asked for. -/
def claimAsk (s : State) (cs : List Claim) : State :=
  match claimPage s cs with
  | some w => wantPage s w
  | none => s

/-- Entries and records for the ranges are free (R195), and they wait for no page. An operation may use an empty
table whole (log 6). -/
def claimsFree (s : State) (core : Nat) (cs : List Claim) : Bool :=
  let used := entriesUsed s (clusterOfCore core)
  let rs := cs.map (claimRange s core)
  (claimPage s cs).isNone && (rs.isEmpty || used = 0 || used + rs.length ≤ Config.rangeEntries) &&
    (List.range 8).all fun d =>
      recordsUsed s d + (rs.filter fun r => (rangeDies s r).contains d).length ≤ 1024

/-- What an instruction whose ranges cannot be taken now waits for (R193, R195). -/
def claimWait (s : State) (cs : List Claim) : Wait :=
  match claimPage s cs with
  | some w => .page w.1 w.2
  | none => .ranges

/-! ## Start -/

/-- The ranges are taken, and the operation waits for the issuing core's queue, or starts (R195). -/
def takeClaims (s : State) (k : Nat) (core : Nat) (cs : List Claim) : State :=
  let s := cs.foldl (claimAccess core) s
  let n := (getCore s core).queue.length
  let (ev, s) := if n = 0 then let (e, s) := nextEvent s; (some e, s) else (none, s)
  modOp s k fun o =>
    { o with ranges := cs.map (claimRange s core), walkFails := [], phase := .waiting, ahead := n, start := ev }

/-- A new operation of threads of a group, under a fresh key. -/
def addOp (s : State) (grp : Nat) (threads : List Nat) (kind : OpKind) : Nat × State :=
  let (k, s) := freshId s
  let g := getGroup s grp
  let o : EngineOp :=
    { kind := kind, grp := grp, gang := g.gang, core := g.core, threads := threads, ranges := [],
      phase := .claiming }
  (k, { s with ops := mput s.ops k o })

/-- A thread's operation starts at its issue (R195). -/
def startOp (s : State) (t : Tid) (kind : OpKind) (cs : List Claim) : Nat × State :=
  let (k, s) := addOp s t.grp [t.gi] kind
  (k, takeClaims s k (threadCore s t) cs)

/-! ## Order of operations -/

/-- Two ranges share a byte. -/
def rangesMeet (a b : Range) : Bool :=
  a.scratch = b.scratch && a.pieces.any fun p => b.pieces.any fun q => overlaps p.1 p.2.1 q.1 q.2.1

/-- Two operations' ranges conflict: a destination of one overlaps a range of the other (R198). -/
def rangesConflict (a b : EngineOp) : Bool :=
  a.ranges.any fun p => b.ranges.any fun q => (p.dst || q.dst) && rangesMeet p q

/-- Tiles that an operation reads (R233). -/
def tilesRead (k : OpKind) : List Nat :=
  match k with
  | .sign kind _ _ =>
    match kind with
    | .mmaLb _ bt _ _ => [bitsOf bt 0 6]
    | .mmaBb _ at_ _ bt _ _ _ => [bitsOf at_ 0 6, bitsOf bt 0 6]
    | .macz _ _ | .maczRel _ | .mrd _ _ _ | .mst _ _ _ _ _ _ _ _ _ => []
  | .copy _ _ _ _ | .chain _ _ | .bzld _ _ _ _ _ _ _ _ => []

/-- The tile that an operation writes (R233). -/
def tilesWritten (k : OpKind) : List Nat :=
  match k with
  | .bzld _ e _ _ _ _ _ _ => [e]
  | .copy _ _ _ _ | .chain _ _ | .sign _ _ _ => []

/-- Tiles that an operation names (R238). -/
def tilesNamed (k : OpKind) : List Nat := tilesRead k ++ tilesWritten k

/-- Accumulators written and read (R233). -/
def accWritten (k : OpKind) : List Nat :=
  match k with
  | .sign kind _ _ =>
    match kind with
    | .mmaLb _ _ _ acc => [acc]
    | .mmaBb _ _ _ _ _ acc _ => [acc]
    | .macz _ acc => [acc]
    | .maczRel acc => [acc]
    | .mrd _ _ _ | .mst _ _ _ _ _ _ _ _ _ => []
  | .copy _ _ _ _ | .chain _ _ | .bzld _ _ _ _ _ _ _ _ => []

def accRead (k : OpKind) : List Nat :=
  match k with
  | .sign kind _ _ =>
    match kind with
    | .mrd _ acc _ => [acc]
    | .mst _ _ acc _ _ _ _ _ _ => [acc]
    | .mmaLb _ _ _ _ | .mmaBb _ _ _ _ _ _ _ | .macz _ _ | .maczRel _ => []
  | .copy _ _ _ _ | .chain _ _ | .bzld _ _ _ _ _ _ _ _ => []

/-- Two lists share a number. -/
def share (a b : List Nat) : Bool := a.any b.contains

/-- Two operations of one gang conflict in a tile or an accumulator (R233). -/
def matrixConflict (a b : EngineOp) : Bool :=
  a.gang = b.gang &&
    (share (tilesWritten a.kind) (tilesNamed b.kind) || share (tilesWritten b.kind) (tilesNamed a.kind) ||
      share (accWritten a.kind) (accWritten b.kind ++ accRead b.kind) ||
      share (accWritten b.kind) (accRead a.kind))

/-- An operation that started earlier and conflicts has not finished (R198, R233). -/
def blockedOp (s : State) (k : Nat) (o : EngineOp) : Bool :=
  s.ops.any fun (j, p) => j ≠ k && (rangesConflict o p || matrixConflict o p) &&
    match p.start, o.start with
    | some a, some b => a < b
    | _, _ => false

/-- A signed operation, which takes an entry of the reservation table (R231). -/
def isSigned? (k : OpKind) : Bool :=
  match k with
  | .sign _ _ _ => true
  | .copy _ _ _ _ | .chain _ _ | .bzld _ _ _ _ _ _ _ _ => false

/-- A copy, which takes an entry of the Ladle (R266). -/
def isCopy (k : OpKind) : Bool :=
  match k with
  | .copy _ _ _ _ => true
  | .sign _ _ _ | .chain _ _ | .bzld _ _ _ _ _ _ _ _ => false

/-- Place of an operation among those of its kind in its cluster, in the order of issue. Operations of
a saved gang hold no entry (R317). -/
def opRank (s : State) (k : Nat) (p : OpKind → Bool) : Nat :=
  match mfind s.ops k with
  | none => 0
  | some o => (s.ops.filter fun (j, q) =>
      j < k && p q.kind && clusterOfCore q.core = clusterOfCore o.core && tableHeld s q).length

/-- A signed operation holds an entry of its cluster's reservation table of 32 (R231). -/
def reserved (s : State) (k : Nat) : Bool := opRank s k isSigned? < 32

/-- A copy is accepted: the Ladle holds 64 (R266). -/
def accepted (s : State) (k : Nat) : Bool := opRank s k isCopy < 64

/-- An operation may begin (R195, R198, R231, R233). -/
def mayBegin (s : State) (k : Nat) (o : EngineOp) : Bool :=
  o.phase = .waiting && o.start.isSome && opMayRun s o && !blockedOp s k o &&
    (!isSigned? o.kind || reserved s k)

/-- Begins an operation. -/
def beginOp (s : State) (k : Nat) : State := modOp s k fun o => { o with phase := .running }

/-- Counts of a thread fall as an operation finishes (R232, R256). -/
def uncountOp (s : State) (grp : Nat) (threads : List Nat) (mx : Bool) : State :=
  threads.foldl (fun s gi => modThread s ⟨grp, gi⟩ fun th =>
    if mx then { th with cntMx := th.cntMx - 1 } else { th with cntCp := th.cntCp - 1 }) s

/-- An operation has performed its last write: it releases what it holds, its counts fall, and its gang
may retire (R61, R198, R232, R256). -/
def finishOp (s : State) (k : Nat) (mx : Bool) : State :=
  match mfind s.ops k with
  | none => s
  | some o => retireGang (uncountOp (removeOp s k) o.grp o.threads mx) o.gang

/-- ENGINE_OP_BEGIN: an operation of the matrix engine or the stream unit begins reading (R195, R198,
R233). -/
def execEngineOpBegin (op : Nat) (s : State) : Host.Outcome State Fault Refusal :=
  match mfind s.ops op with
  | none => .next s
  | some o => .next (if !isCopy o.kind && mayBegin s op o then beginOp s op else s)

end Sys2Proof.Machine
end

