-- ==== Sys2Proof/Machine/Sets.lean ====
section
/-! DEFINITION. Rejoin sets: membership, signings and the completion of arrivals (R109 to R126, R230,
R231). -/

namespace Sys2Proof.Machine

def getSet (s : State) (grp j : Nat) : JSet := mget {} (getGroup s grp).sets j
def modSet (s : State) (grp j : Nat) (f : JSet → JSet) : State :=
  modGroup s grp fun g => { g with sets := mset {} g.sets j (f (mget {} g.sets j)) }

/-- A thread is a member. -/
def JSet.has (x : JSet) (gi : Nat) : Bool := (mfind x.members gi).isSome

/-! ## Rank -/

/-- Ascending LANE, then ascending TURN (R110). -/
def rankKey (gi : Nat) : Nat := laneOf gi * 64 + turnOf gi

def rankInsert (gi : Nat) : List Nat → List Nat
  | [] => [gi]
  | x :: xs => if rankKey gi < rankKey x then gi :: x :: xs else x :: rankInsert gi xs

/-- Members in rank order. -/
def ranked (gis : List Nat) : List Nat := gis.foldr rankInsert []

/-- Bits of the lanes that hold one of the threads. -/
def laneMask (gis : List Nat) : Nat :=
  gis.foldl (fun m gi => Nat.lor m (2 ^ laneOf gi)) 0

/-! ## Signings -/

/-- The thread has signed the pending signing of a set. -/
def hasSigned (x : JSet) (gi : Nat) : Bool :=
  match x.signing with
  | some sg => sg.rows.any fun e => e.2.gi = gi
  | none => false

/-- A pending signing names a tile (R238). -/
def signingNames (x : JSet) (e : Nat) : Bool :=
  match x.signing with
  | some sg => (tilesNamed (.sign sg.kind sg.rows 0)).contains e
  | none => false

/-- A pending signing of a group names a tile. -/
def groupSigns (s : State) (grp e : Nat) : Bool := (getGroup s grp).sets.any fun x => signingNames x.2 e

/-- An operation of a gang names a tile. -/
def opNames (s : State) (gang e : Nat) : Bool :=
  s.ops.any fun x => x.2.gang = gang && (tilesNamed x.2.kind).contains e

def getAcc (s : State) (gang acc : Nat) : Accum := mget {} (getGang s gang).accs acc
def modAcc (s : State) (gang acc : Nat) (f : Accum → Accum) : State :=
  modGang s gang fun g => { g with accs := mset {} g.accs acc (f (mget {} g.accs acc)) }

/-- Bindings change at the completion of a signing (R239); the type that `MACZ` sets is seen by the signings after it
(DEDUCED, log 51). -/
def bindAcc (s : State) (grp j : Nat) (kind : SignKind) : State :=
  let gang := (getGroup s grp).gang
  match kind with
  | .macz fp acc =>
    modAcc s gang acc fun a => { a with bound := some (grp, j), reserved := none, fp := fp }
  | .maczRel acc => modAcc s gang acc fun a => { a with bound := none }
  | .mmaLb _ _ _ _ | .mmaBb _ _ _ _ _ _ _ | .mrd _ _ _ | .mst _ _ _ _ _ _ _ _ _ => s

/-- Page check of an engine's access (R164, R237, R242, R256): a D page is no operand of an engine. -/
def engineNeed (store : Bool) (l : Leaf) : Option Code :=
  if l.ty = .d then some .engineOperand
  else if (if store then l.w else l.r) then none else some .pagePerm

/-- Bytes of an element of an output format. -/
def outBytes (ty : Ty) : Nat := tyBits ty / 8

/-- The destination of an `MST`: the smallest interval of its bytes (R242). -/
def mstLen (fmt : Ty) (pitch : Word) (tr : Bool) : Nat :=
  if tr then 63 * pitch.toNat + 32 * outBytes fmt else 31 * pitch.toNat + 64 * outBytes fmt

/-- Ranges of a signed operation: only `MST` has one, which its first signing has translated and checked (R232,
R242). -/
def signClaims (o : EngineOp) (kind : SignKind) : List Claim :=
  match kind with
  | .mst _ _ _ _ _ _ _ _ _ => [.mem true o.dest]
  | .mmaLb _ _ _ _ | .mmaBb _ _ _ _ _ _ _ | .macz _ _ | .maczRel _ | .mrd _ _ _ => []

/-- An earlier signed operation that names the same tile or accumulator has still to take its range-lock entry. -/
def claimBehind (s : State) (k : Nat) (o : EngineOp) : Bool :=
  s.ops.any fun e => e.1 < k && isSigned? e.2.kind && e.2.phase = .claiming && matrixConflict o e.2

/-- A completed signing takes its range-lock entry when one is free, and starts (R195), after the earlier ones that
it conflicts with (R233). Until then a fill may start before it (DESIGN CHOICE, log 62). -/
def claimSigned (s : State) (k : Nat) : State :=
  match mfind s.ops k with
  | none => s
  | some o =>
    match o.kind, o.phase with
    | .sign kind _ _, .claiming =>
      let cs := signClaims o kind
      if claimBehind s k o then s
      else if claimsFree s o.core cs then takeClaims s k o.core cs else claimAsk s cs
    | _, _ => s

/-- Threads parked until the set's pending signing completes (R230, R231). -/
def wakeSigners (s : State) (grp j : Nat) : State :=
  let waits := fun (w : Wait) => w = .signing j || w = .leaving j
  ((groupTids s grp).filter fun t => match (getThread s t).run with
    | .parked w | .held (some w) => waits w
    | .held none | .ready | .issuing | .done => false).foldl retry s

/-- Every current member has signed: the operation enters the reservation table (R231). Answers the
operation. -/
def checkSigning (s : State) (grp j : Nat) : Option Nat × State :=
  let x := getSet s grp j
  match x.signing with
  | none => (none, s)
  | some sg =>
    if !x.members.isEmpty && x.members.all fun m => sg.rows.any fun e => e.2.gi = m.1 then
      let s := modSet s grp j fun x => { x with signing := none }
      let s := bindAcc s grp j sg.kind
      let (k, s) := addOp s grp (ranked (sg.rows.map fun e => e.2.gi)) (.sign sg.kind sg.rows j)
      let s := modOp s k fun o => { o with dest := sg.dest }
      (some k, wakeSigners (claimSigned s k) grp j)
    else (none, s)

/-! ## Results -/

/-- Adjacent values combined: one level of the tree of R124. -/
def pairUp {α : Type} (f : α → α → α) : List α → List α
  | x :: y :: xs => f x y :: pairUp f xs
  | [x] => [x]
  | [] => []

/-- The tree of R124 over `fuel` levels. -/
def treeFold {α : Type} (f : α → α → α) : Nat → List α → List α
  | 0, xs => xs
  | fuel + 1, xs => if xs.length ≤ 1 then xs else treeFold f fuel (pairUp f xs)

/-- A value as `RDUC` and `SCAN` take it: a narrow float is its low bits (R39, R124), a NaN is the canonical NaN, and
a signalling one sets IV (R134), whether or not a step follows (DEDUCED, log 66). -/
def redIn (ty : Ty) (v : Nat) : Nat × Flags :=
  if isFloat ty then
    let x := fpVal (fpFmt ty) v
    (if x.isNan then (fpFmt ty).canon else v % 2 ^ tyBits ty, ivFlag x.isSig)
  else (v, {})

/-- `RDUC` (R124): the value and the flags of every step. -/
def rducN (op : RedOp) (ty : Ty) (vs : List Nat) : Nat × Flags :=
  let step (x y : Nat × Flags) : Nat × Flags :=
    let r := redStep op ty x.1 y.1
    (r.1, (x.2.join y.2).join r.2)
  (treeFold step vs.length (vs.map (redIn ty))).headD (0, {})

/-- One step of `RDUC.maxi` (R125): the greater key, then the lower index, then the lower rank. -/
def maxiStep (ty : Ty) (x y : Nat × Nat) : Nat × Nat :=
  let kx := amxKey ty x.1
  let ky := amxKey ty y.1
  if kx < ky then y else if ky < kx then x else if y.2 < x.2 then y else x

/-- `RDUC.maxi` (R125): {value bits, index}. -/
def maxiN (ty : Ty) (vs : List (Nat × Nat)) : Nat :=
  match vs with
  | [] => 0
  | v :: vs =>
    let r := vs.foldl (maxiStep ty) v
    r.1 % 2 ^ tyBits ty + 2 ^ 32 * r.2

/-- Running values of a scan with the flags of the steps so far (R126). -/
def scanGo (op : RedOp) (ty : Ty) : Nat × Flags → List Nat → List (Nat × Flags)
  | _, [] => []
  | acc, v :: vs =>
    let x := redIn ty v
    let r := redStep op ty acc.1 x.1
    let acc := (r.1, (acc.2.join x.2).join r.2)
    acc :: scanGo op ty acc vs

/-- `SCAN` (R126), exclusive or inclusive, in rank order. -/
def scanN (op : RedOp) (ty : Ty) (ex : Bool) (vs : List Nat) : List (Nat × Flags) :=
  match vs with
  | [] => []
  | v :: rest =>
    let incl := redIn ty v :: scanGo op ty (redIn ty v) rest
    if ex then (scanId op ty, {}) :: incl.dropLast else incl

/-- The position that `SHFL` reads, as a lane; none for a position miss (R122). -/
def shflLane (op : ShflOp) (w lane : Nat) (sel : Nat) : Option Nat :=
  let base := lane - lane % w
  let pos := lane % w
  match op with
  | .abs => some (base + sel % w)
  | .rise => if pos < sel then none else some (base + (pos - sel))
  | .fall => if w ≤ pos + sel then none else some (base + (pos + sel))
  | .flip => some (base + Nat.xor pos (sel % w))
  | .rot => some (base + (pos + sel) % w)

/-- What a completion gives one member: its result, flags, and the miss predicate of `SHFL`. -/
structure Given where
  v : Nat := 0
  flags : Flags := {}
  miss : Option Bool := none
  deriving DecidableEq, Repr

/-- `VOTE` (R121). -/
def voteN (op : VoteOp) (caps : List (Nat × Capture)) : Nat :=
  let ps := caps.map fun c => c.2.p
  match op with
  | .every => (ps.all id).toNat
  | .some => (ps.any id).toNat
  | .nobody => (!ps.any id).toNat
  | .same => (ps.all id || !ps.any id).toNat
  | .mask => laneMask ((caps.filter fun c => c.2.p).map Prod.fst)
  | .count => (ps.filter id).length

/-- `SHFL` for one member (R122). -/
def shflN (op : ShflOp) (w : Nat) (caps : List (Nat × Capture)) (gi : Nat) (c : Capture) : Given :=
  match (shflLane op w (laneOf gi) c.sel.toNat).bind fun l => caps.find? fun x => laneOf x.1 = l with
  | some x => { v := x.2.a.toNat, miss := some false }
  | none => { v := c.fallback.toNat, miss := some true }

/-- `MATCH` (R123). -/
def matchN (op : MatchOp) (caps : List (Nat × Capture)) (c : Capture) : Nat :=
  match op with
  | .peers => laneMask ((caps.filter fun x => x.2.a = c.a).map Prod.fst)
  | .agree => if caps.all fun x => x.2.a = c.a then laneMask (caps.map Prod.fst) else 0

/-- What a completion gives every member, in rank order, from the captures in rank order (R115). -/
def setResults (i : Instr) (caps : List (Nat × Capture)) : List Given :=
  let each (f : Nat → Capture → Given) : List Given := caps.map fun c => f c.1 c.2
  match i with
  | .vote op _ => each fun _ _ => { v := voteN op caps }
  | .shfl op o => each (shflN op (2 ^ o.mod.toNat) caps)
  | .matchLanes op _ => each fun _ c => { v := matchN op caps c }
  | .rduc (.tree op) o =>
    let r := rducN op o.ty (caps.map fun c => c.2.a.toNat)
    each fun _ _ => { v := r.1, flags := r.2 }
  | .rduc .maxi o =>
    each fun _ _ => { v := maxiN o.ty (caps.map fun c => (c.2.a.toNat, c.2.sel.toNat)) }
  | .scan op o =>
    (scanN op o.ty (o.mod.getLsbD 0) (caps.map fun c => c.2.a.toNat)).map fun r =>
      { v := r.1, flags := r.2 }
  | _ => each fun _ _ => {}

/-- Whether every member takes its destination (R120). -/
def branchTaken (i : Instr) (caps : List (Nat × Capture)) : Bool :=
  match i with
  | .bany _ => caps.any fun c => c.2.p
  | .ball _ => caps.all fun c => c.2.p
  | .bnone _ => !caps.any fun c => c.2.p
  | _ => false

/-- Writes what one member is given. -/
def giveMember (grp : Nat) (s : State) (x : (Nat × Capture) × Given) : State :=
  let t : Tid := ⟨grp, x.1.1⟩
  let s := writeDest s t x.1.2.dst x.2.v none
  let s := addFlags s t x.2.flags
  match x.2.miss with
  | some b => setPred s t x.1.2.pmiss b
  | none => s

/-- The order in which members go on: in ascending GINDEX those that post (R115), and then in rank order, so by lane
within a pack, those that take CANCEL or a user interrupt (R310 item 3). -/
def endOrder (s : State) (grp : Nat) (gis : List Nat) : List Nat :=
  gis.filter (fun gi => !interrupted (getThread s ⟨grp, gi⟩)) ++
    ranked (gis.filter fun gi => interrupted (getThread s ⟨grp, gi⟩))

/-- Every member has arrived: the operation is performed once, and the members go on (R115). -/
def completeSet (s : State) (grp j : Nat) : State :=
  let x := getSet s grp j
  match x.what with
  | none => s
  | some i =>
    let caps := (ranked (mkeys x.arrived)).map fun gi => (gi, mget {} x.arrived gi)
    let s := (caps.zip (setResults i caps)).foldl (giveMember grp) s
    let s := modSet s grp j fun x => { x with arrived := [], pending := 0, what := none }
    let taken := branchTaken i caps
    (endOrder s grp (mkeys x.arrived)).foldl (fun s gi =>
      let c := mget {} x.arrived gi
      endBlock s ⟨grp, gi⟩ (if taken then c.taken else c.next)) s

/-- The completion check (R115). -/
def checkSet (s : State) (grp j : Nat) : State :=
  let x := getSet s grp j
  if !x.members.isEmpty && mkeys x.members = mkeys x.arrived then completeSet s grp j else s

/-! ## Entering and leaving -/

/-- A thread leaves a set as `JQUIT` does (R113). -/
def leaveSet (s : State) (t : Tid) (j : Nat) : State :=
  if (getSet s t.grp j).has t.gi then
    let s := modSet s t.grp j fun x =>
      { x with members := mdel x.members t.gi, arrived := mdel x.arrived t.gi }
    let s := checkSet (checkSigning s t.grp j).2 t.grp j
    modSet s t.grp j fun x => if x.members.isEmpty then { lx := x.lx } else x
  else s

/-- Sets of the group that the thread belongs to and that `p` names, in ascending number. -/
def setsOf (s : State) (t : Tid) (p : Nat → JSet → Bool) : List Nat :=
  ((getGroup s t.grp).sets.filter fun e => e.2.has t.gi && p e.1 e.2).map Prod.fst

/-- The first set that the thread would leave but whose pending signing it has signed (R231). -/
def signedBar (s : State) (t : Tid) (p : Nat → JSet → Bool) : Option Nat :=
  (setsOf s t fun j x => p j x && hasSigned x t.gi).head?

/-! ## Arrivals -/

/-- Number of the set that an instruction names in SRC_A. -/
def setNum (o : Ops) : Nat := opndNum o.a

/-- The checks of an arrival on its set (R115); TADDR is the set number. -/
def arriveCheck (s : State) (t : Tid) (o : Ops) : Option Exc :=
  let j := setNum o
  let x := getSet s t.grp j
  if !x.has t.gi then some { code := .setNotMember, addr := BitVec.ofNat 64 j }
  else if !x.arrived.isEmpty && x.pending ≠ (getThread s t).pc then
    some { code := .setMismatch, addr := BitVec.ofNat 64 j }
  else none

/-- The arrival of a thread with its capture (R115). -/
def arriveAt (i : Instr) (j : Nat) (t : Tid) (c : Capture) (s : State) : State :=
  let pc := (getThread s t).pc
  let s := modSet s t.grp j fun x =>
    { x with pending := pc, what := some i, arrived := mput x.arrived t.gi c }
  checkSet (park s t (.arrived j)) t.grp j

/-- An arrival that goes on at the next slot, which is checked as the fall-through that ends the block
(R28, R115). -/
def arrive (i : Instr) (cx : Ctx) (c : Capture) (s : State) : State :=
  let next := nextPc (getThread s cx.t).pc
  transfer s cx.t next (arriveAt i (setNum cx.o) cx.t { c with taken := next, next := next })

/-- A thread's arrivals are withdrawn (R116, R117). -/
def withdrawArrival (s : State) (t : Tid) (j : Nat) : State :=
  modSet s t.grp j fun x =>
    let left := mdel x.arrived t.gi
    if left.isEmpty then { x with arrived := [], pending := 0, what := none }
    else { x with arrived := left }

/-- A thread's signature is withdrawn, and its count (R231). -/
def withdrawSignature (s : State) (t : Tid) (j : Nat) : State :=
  let x := getSet s t.grp j
  match x.signing with
  | none => s
  | some sg =>
    if hasSigned x t.gi then
      let left := sg.rows.filter fun e => e.2.gi ≠ t.gi
      let s := modSet s t.grp j fun x =>
        { x with signing := if left.isEmpty then none else some { sg with rows := left } }
      let s := if left.isEmpty then
          match sg.kind with
          | .macz _ acc => modAcc s (getGroup s t.grp).gang acc fun a => { a with reserved := none }
          | _ => s
        else s
      modThread s t fun th => { th with cntMx := th.cntMx - 1 }
    else s

end Sys2Proof.Machine
end

