-- ==== Sys2Proof/Machine/Control.lean ====
section
/-! DEFINITION. Control (R85 to R91, R120), rejoin sets and cross-lane instructions (R111 to R126), and
ORPHAN_SET (R117). -/

namespace Sys2Proof.Machine

/-! ## Control -/

/-- `NOP` (R85). -/
def execNop (o : Ops) (s : State) : Host.Outcome State Fault Refusal :=
  issue (.nop o) (fun cx s => advance s cx.t) s

/-- The destination that IMM names (R46). -/
def branchDest (pc : DWord) (imm : Word) : DWord :=
  lineOf pc + (((imm &&& ~~~7).signExtend 64) <<< 3) + (imm &&& 7).setWidth 64

/-- The destination of an instruction at the thread's slot. -/
def immDest (cx : Ctx) (s : State) : DWord := branchDest (getThread s cx.t).pc cx.o.imm

/-- The code pointer in a register pair. -/
def pairDest (cx : Ctx) (s : State) : DWord := BitVec.ofNat 64 (cx.a s)

/-- A jump to `dest` (R28, R73). -/
def jumpTo (s : State) (t : Tid) (dest : DWord) : State := transfer s t dest fun s => endBlock s t dest

/-- `BR` (R86). -/
def execBr (o : Ops) (s : State) : Host.Outcome State Fault Refusal :=
  issue (.br o) (fun cx s => jumpTo s cx.t (immDest cx s)) s

/-- A set-uniform branch arrives (R120): its destination is checked, then the next slot. -/
def arriveBranch (i : Instr) (cx : Ctx) (s : State) : State :=
  let dest := immDest cx s
  let next := nextPc (getThread s cx.t).pc
  let c : Capture := { p := readPred s cx.t (opndNum cx.o.b), taken := dest, next := next }
  transfer s cx.t dest fun s => transfer s cx.t next (arriveAt i (setNum cx.o) cx.t c)

/-- `BANY` (R120). -/
def execBany (o : Ops) (s : State) : Host.Outcome State Fault Refusal :=
  issueWith (.bany o) arriveCheck (arriveBranch (.bany o)) s

/-- `BALL` (R120). -/
def execBall (o : Ops) (s : State) : Host.Outcome State Fault Refusal :=
  issueWith (.ball o) arriveCheck (arriveBranch (.ball o)) s

/-- `BNONE` (R120). -/
def execBnone (o : Ops) (s : State) : Host.Outcome State Fault Refusal :=
  issueWith (.bnone o) arriveCheck (arriveBranch (.bnone o)) s

/-- `JMPI` (R87). -/
def execJmpi (o : Ops) (s : State) : Host.Outcome State Fault Refusal :=
  issue (.jmpi o) (fun cx s => jumpTo s cx.t (pairDest cx s)) s

/-- A call to `dest` (R88). -/
def callTo (s : State) (t : Tid) (dest : DWord) : State :=
  transfer s t dest fun s =>
    let th := getThread s t
    if 65535 ≤ th.callDepth then takeTrap s t { code := .callOverflow, addr := dest }
    else
      endBlock (modThread s t fun th =>
        { th with link := nextPc th.pc, callDepth := th.callDepth + 1 }) t dest

/-- `CALL` (R88). -/
def execCall (o : Ops) (s : State) : Host.Outcome State Fault Refusal :=
  issue (.call o) (fun cx s => callTo s cx.t (immDest cx s)) s

/-- `CALLI` (R88). -/
def execCalli (o : Ops) (s : State) : Host.Outcome State Fault Refusal :=
  issue (.calli o) (fun cx s => callTo s cx.t (pairDest cx s)) s

/-- The set holds the thread at a depth above the one it returns to (R89, R114). -/
def enteredDeeper (gi depth : Nat) (x : JSet) : Bool :=
  match mfind x.members gi with
  | some d => depth < d
  | none => false

/-- A return to `dest` (R89). A pending signing that the thread has signed in a set it would leave parks
it at the `RET` (R231). -/
def retTo (s : State) (t : Tid) (dest : DWord) : State :=
  let th := getThread s t
  if th.callDepth = 0 then takeTrap s t { code := .retUnderflow }
  else transfer s t dest fun s =>
    let depth := th.callDepth - 1
    let leaves := fun (_ : Nat) (x : JSet) => enteredDeeper t.gi depth x
    match signedBar s t leaves with
    | some j => parkRetry s t (.leaving j)
    | none =>
      let s := modThread s t fun th => { th with callDepth := depth }
      endBlock ((setsOf s t leaves).foldl (fun s j => leaveSet s t j) s) t dest

/-- `RET` (R89). -/
def execRet (o : Ops) (s : State) : Host.Outcome State Fault Refusal :=
  issue (.ret o) (fun cx s =>
    retTo s cx.t (if cx.o.a = .gz then (getThread s cx.t).link else pairDest cx s)) s

/-- A thread exits (R90): it leaves every set, its tokens are discarded and it is DONE. -/
def threadExit (s : State) (t : Tid) : State :=
  match signedBar s t fun _ _ => true with
  | some j => parkRetry s t (.leaving j)
  | none =>
    let s := (setsOf s t fun _ _ => true).foldl (fun s j => leaveSet s t j) s
    let s := modThread s t fun th => { th with tokens := [], run := .done, counted := false }
    retireGang s (threadGroup s t).gang

/-- `EXIT` (R90). -/
def execExit (o : Ops) (s : State) : Host.Outcome State Fault Refusal :=
  issue (.exit o) (fun cx s => threadExit s cx.t) s

/-- `YIELD` (R91). -/
def execYield (o : Ops) (s : State) : Host.Outcome State Fault Refusal :=
  issue (.yield o) (fun cx s => fallThrough s cx.t) s

/-! ## Rejoin sets -/

/-- `JNEW` (R111). -/
def execJnew (o : Ops) (s : State) : Host.Outcome State Fault Refusal :=
  issue (.jnew o) (fun cx s =>
    let j := opndNum cx.o.dst
    if !(getSet s cx.t.grp j).members.isEmpty then
      takeTrap s cx.t { code := .setBusy, addr := BitVec.ofNat 64 j }
    else advance (modSet s cx.t.grp j fun _ => { lx := cx.o.mod.getLsbD 0 }) cx.t) s

/-- `JENT` (R112). -/
def execJent (o : Ops) (s : State) : Host.Outcome State Fault Refusal :=
  issue (.jent o) (fun cx s =>
    let j := setNum cx.o
    let x := getSet s cx.t.grp j
    if x.has cx.t.gi then advance s cx.t
    else if x.lx && x.members.any fun m => laneOf m.1 = laneOf cx.t.gi then
      takeTrap s cx.t { code := .setLaneClash, addr := BitVec.ofNat 64 j }
    else
      advance (modSet s cx.t.grp j fun x =>
        { x with members := mput x.members cx.t.gi (getThread s cx.t).callDepth }) cx.t) s

/-- `JQUIT` (R113, R231). -/
def execJquit (o : Ops) (s : State) : Host.Outcome State Fault Refusal :=
  issue (.jquit o) (fun cx s =>
    let j := setNum cx.o
    if hasSigned (getSet s cx.t.grp j) cx.t.gi then parkRetry s cx.t (.leaving j)
    else advance (leaveSet s cx.t j) cx.t) s

/-- `JWAIT` (R118). -/
def execJwait (o : Ops) (s : State) : Host.Outcome State Fault Refusal :=
  issueWith (.jwait o) arriveCheck (fun cx s => arrive (.jwait o) cx {} s) s

/-- The thread's place in a list, from 0. -/
def placeOf (gi : Nat) : List Nat → Option Nat
  | [] => none
  | x :: xs => if x = gi then some 0 else (placeOf gi xs).map (· + 1)

/-- What `JINFO` reads, Table 4-4 (R119). -/
def jinfoN (x : JSet) (gi sel : Nat) : Nat :=
  match sel with
  | 0 => x.members.length
  | 1 => x.arrived.length
  | 2 => x.lx.toNat
  | 3 => (placeOf gi (ranked (mkeys x.members))).getD 0xFFFFFFFF
  | 4 => laneMask (mkeys x.members)
  | 5 => laneMask (mkeys x.arrived)
  | 6 => (mfind x.members gi).getD 0xFFFFFFFF
  | _ => (x.has gi).toNat

/-- `JINFO` (R119). -/
def execJinfo (o : Ops) (s : State) : Host.Outcome State Fault Refusal :=
  issue (.jinfo o) (fun cx s =>
    finish cx s (jinfoN (getSet s cx.t.grp (setNum cx.o)) cx.t.gi cx.o.mod.toNat)) s

/-! ## Cross-lane -/

/-- `VOTE` (R121). -/
def execVote (op : VoteOp) (o : Ops) (s : State) : Host.Outcome State Fault Refusal :=
  issueWith (.vote op o) arriveCheck (fun cx s =>
    arrive (.vote op o) cx { p := readPred s cx.t (opndNum cx.o.b), dst := cx.dst } s) s

/-- What `SHFL` captures (R122). -/
def shflCapture (cx : Ctx) (s : State) : Capture :=
  { a := BitVec.ofNat 64 (cx.b s), sel := BitVec.ofNat 32 (cx.c s + bitsOf cx.o.imm 0 8),
    fallback := BitVec.ofNat 64 (cx.d s), pmiss := bitsOf cx.o.imm 8 3, dst := cx.dst }

/-- `SHFL` (R122). SET_MODE is a fault of its own effect, behind the checks of the next slot (R51; log 21). -/
def execShfl (op : ShflOp) (o : Ops) (s : State) : Host.Outcome State Fault Refusal :=
  issueWith (.shfl op o) arriveCheck (fun cx s =>
    if (getSet s cx.t.grp (setNum cx.o)).lx then arrive (.shfl op o) cx (shflCapture cx s) s
    else
      transfer s cx.t (nextPc (getThread s cx.t).pc) fun s =>
        takeTrap s cx.t { code := .setMode, addr := BitVec.ofNat 64 (setNum cx.o) }) s

/-- `MATCH` (R123). -/
def execMatchLanes (op : MatchOp) (o : Ops) (s : State) : Host.Outcome State Fault Refusal :=
  issueWith (.matchLanes op o) arriveCheck (fun cx s =>
    arrive (.matchLanes op o) cx { a := BitVec.ofNat 64 (cx.b s), dst := cx.dst } s) s

/-- `RDUC` (R124, R125). -/
def execRduc (op : RducOp) (o : Ops) (s : State) : Host.Outcome State Fault Refusal :=
  issueWith (.rduc op o) arriveCheck (fun cx s =>
    arrive (.rduc op o) cx
      { a := BitVec.ofNat 64 (cx.b s), sel := BitVec.ofNat 32 (cx.c s), dst := cx.dst } s) s

/-- `SCAN` (R126). -/
def execScan (op : RedOp) (o : Ops) (s : State) : Host.Outcome State Fault Refusal :=
  issueWith (.scan op o) arriveCheck (fun cx s =>
    arrive (.scan op o) cx { a := BitVec.ofNat 64 (cx.b s), dst := cx.dst } s) s

/-! ## ORPHAN_SET -/

/-- The lowest set whose pending signing the thread has signed: the one whose signature ORPHAN_SET withdraws where
a thread on `WAITC` has signed in several (R231 does not say which; log 60). -/
def signedSet (s : State) (t : Tid) : Option Nat := signedBar s t fun _ _ => true

/-- Pending signings that the thread has signed. -/
def signedCount (s : State) (t : Tid) : Nat := (setsOf s t fun _ x => hasSigned x t.gi).length

/-- The set on which a parked thread waits in a way that nothing outstanding can end (R117, R231): an arrival,
a second signature, `MRD`, or `WAITC`. -/
def orphanOn (s : State) (t : Tid) : Option Nat :=
  match (getThread s t).run with
  | .parked (.arrived j) => some j
  | .parked (.signing j) => some j
  | .parked (.mrd j) => if hasSigned (getSet s t.grp j) t.gi then some j else none
  | .parked (.counts _ _ _ mx) => if mx < signedCount s t then signedSet s t else none
  | _ => none

/-- A park that only the group's pending signings keep, and so nothing outstanding can end, though ORPHAN_SET does
not go to it: at an instruction that would leave a set (R231), and at `BZFREE` of a tile that no operation and no
other group's signing names (R238). -/
def signsOnly (s : State) (t : Tid) : Bool :=
  match (getThread s t).run with
  | .parked (.leaving j) => hasSigned (getSet s t.grp j) t.gi
  | .parked (.tile e) =>
    let gang := (threadGroup s t).gang
    !opNames s gang e && groupSigns s t.grp e &&
      (getGang s gang).groups.all fun g => g = t.grp || !groupSigns s g e
  | _ => false

/-- The thread leaves the test of R117 as it is: it has exited, or waits on its group alone. -/
def orphanable (s : State) (t : Tid) : Bool :=
  let th := getThread s t
  th.run = .done || (((orphanOn s t).isSome || signsOnly s t) && !(th.uiPend && !th.inTrap))

/-- ORPHAN_SET is due in a group (R117). -/
def orphanDue (s : State) (grp : Nat) : Option (Tid × Nat) :=
  let g := getGroup s grp
  if (getGang s g.gang).status ≠ .running || g.stopped || !(groupTids s grp).all (orphanable s) then none
  else (groupTids s grp).findSome? fun t => (orphanOn s t).map fun j => (t, j)

/-- ORPHAN_SET: the fault goes to the lowest such member, whose arrival or signature is withdrawn. Of a member that
has arrived and has signed as well only the arrival is withdrawn, and its signature stands (R231 does not say;
log 60). -/
def execOrphanSet (grp : Nat) (s : State) : Host.Outcome State Fault Refusal :=
  match orphanDue s grp with
  | none => .next s
  | some (t, j) =>
    let s := match (getThread s t).run with
      | .parked (.arrived _) => withdrawArrival s t j
      | _ => withdrawSignature s t j
    .next (takeTrap s t { code := .orphanSet, addr := BitVec.ofNat 64 j })

end Sys2Proof.Machine
end

