-- ==== Sys2Proof/Machine/LoadStore.lean ====
section
/-! DEFINITION. Loads, stores, scratchpad, FIFO banks, bank modes and `WAITC` (R158 to R176), and the
events of the access queue, the directory, the Assay units and the banks (R160, R168, R185 to R191). -/

namespace Sys2Proof.Machine

/-! ## Addresses and translation -/

/-- The effective address (R164). -/
def effAddr (cx : Ctx) (s : State) : DWord := BitVec.ofNat 64 (cx.a s) + cx.o.imm.signExtend 64

/-- The scratchpad offset (R167). -/
def effOff (cx : Ctx) (s : State) : Nat := (cx.a s + cx.o.imm.toNat) % 2 ^ 32

/-- A data access translates its address (R164, R330), and goes on with the leaf. -/
def translated (s : State) (t : Tid) (va : DWord) (k : Leaf → State → State) : State :=
  if !canonical va then takeTrap s t { code := .pageFault, addr := va }
  else match tlbLookup (getCore s (threadCore s t)).tlb (threadPasid s t) va with
    | some l => k l s
    | none =>
      if (getThread s t).walkFails.contains (vpn64 va) then
        takeTrap (modThread s t fun th => { th with walkFails := [] }) t { code := .pageFault, addr := va }
      else if fetchStopped s t then parkRetry s t .dying
      else missPark s t va

/-! ## Issue of a memory access -/

/-- The access needs R, and needs W (R164, R203, R212). -/
def MemOp.needsR : MemOp → Bool
  | .store _ => false
  | .load _ | .atom _ _ _ _ | .cas _ _ | .axadd _ _ | .axrd _ | .amaxi _ | .ldrsv | .stcnd _ => true

def MemOp.needsW : MemOp → Bool
  | .load _ => false
  | .axrd clr => clr
  | .store _ | .atom _ _ _ _ | .cas _ _ | .axadd _ _ | .amaxi _ | .ldrsv | .stcnd _ => true

/-- An integer type of 32 or 64 bits. -/
def atomicInt (ty : Ty) : Bool := [Ty.i32, .n32, .i64, .n64].contains ty

/-- The access is a load or a store, not an atomic. -/
def MemOp.plain : MemOp → Bool
  | .load _ | .store _ => true
  | .atom _ _ _ _ | .cas _ _ | .axadd _ _ | .axrd _ | .amaxi _ | .ldrsv | .stcnd _ => false

/-- Accepted on an X page, Table 9-4 (R205). -/
def MemOp.onX : MemOp → Bool
  | .load _ | .store _ | .cas _ _ => true
  | .atom op ty _ _ => (op = .add || op = .swap) && atomicInt ty
  | .axadd _ _ | .axrd _ | .amaxi _ | .ldrsv | .stcnd _ => false

/-- One of the reservation pair. -/
def MemOp.pair : MemOp → Bool
  | .ldrsv | .stcnd _ => true
  | .load _ | .store _ | .atom _ _ _ _ | .cas _ _ | .axadd _ _ | .axrd _ | .amaxi _ => false

/-- Accepted for the page (R204, R205, R212). -/
def acceptedOn (op : MemOp) (l : Leaf) : Bool :=
  match l.ty with
  | .n => !(op.pair && l.bias)
  | .d => op.plain
  | .x => op.onX

/-- The strict access becomes the thread's outstanding one (R160). -/
def beginStrict (s : State) (t : Tid) (a : Access) (l : Option Leaf) (p : Place) : State :=
  let n := (getCore s (threadCore s t)).packs
  park (modThread s t fun th => { th with strict := some { acc := a, place := p, pack := n, leaf := l } }) t .strict

/-- A count of the thread: 0 LD, 1 ST, 2 CP, 3 MX (R70). -/
def countOf (th : Thread) : Nat → Nat
  | 0 => th.cntLd
  | 1 => th.cntSt
  | 2 => th.cntCp
  | _ => th.cntMx

/-- An overlapped access enters the core's queue and is counted (R159, R187, R204). -/
def enqueue (s : State) (t : Tid) (a : Access) : State :=
  let s := modThread s t fun th =>
    if a.op.returns then { th with cntLd := th.cntLd + 1 } else { th with cntSt := th.cntSt + 1 }
  advance (modCore s (threadCore s t) fun c => { c with queue := c.queue ++ [{ tid := t, acc := a }] }) t

/-- The destination is a group scalar or a shape register (R158). -/
def groupDest (d : Dest) : Bool :=
  match d with
  | .reg c _ => 256 ≤ c
  | .shape _ => true
  | .none | .pred _ => false

/-- A load into a group scalar, and `SHLD` and `SHST`, are strict on every class (R158, R274). -/
def strictAlways (a : Access) : Bool :=
  match a.op with
  | .load _ => groupDest a.dst
  | .store _ => a.size = 64
  | .atom _ _ _ _ | .cas _ _ | .axadd _ _ | .axrd _ | .amaxi _ | .ldrsv | .stcnd _ => false

/-- An access to an N page goes its way (R158, R184, R204). An overlapped access whose count would pass
255 parks before it issues (R70). -/
def issueN (s : State) (t : Tid) (a : Access) (l : Leaf) : State :=
  match assayRoute s t a l.forceS (strictAlways a) with
  | (.queue, r) =>
    let which := if a.op.returns then 0 else 1
    if 255 ≤ countOf (getThread s t) which then parkRetry s t (.count which) else enqueue r t a
  | (.home, r) => homeRequest (beginStrict r t a (some l) .home) t
  | (.core, r) => beginStrict r t a (some l) (if laneBehind r t a then .turn else .ready)
  | (.held, r) => beginStrict r t a (some l) (.held (granuleOf a.pa))
  | (.away, r) => beginStrict r t a (some l) (.departing (pageNo a.pa))
  | (.host, r) => beginStrict r t a (some l) .ready

/-- A memory access once its address is translated: permissions, acceptance, range locks, and the way of
its page type, Table 6-1 (R160, R164, R203). -/
def issueLeaf (t : Tid) (op : MemOp) (va : DWord) (size : Nat) (dst : Dest) (l : Leaf) (s : State) :
    State :=
  let a : Access := { op := op, va := va, pa := l.pa va, size := size, dst := dst, host := l.bias }
  if (op.needsR && !l.r) || (op.needsW && !l.w) then takeTrap s t { code := .pagePerm, addr := va }
  else if !acceptedOn op l then takeTrap s t { code := .atomicUnsupported, addr := va }
  else if lockHit s (some (threadCore s t)) a.pa size op.storesLock then
    takeTrap s t { code := .rangeLock, addr := va }
  else match l.ty with
    | .d =>
      if 0 < (getThread s t).cntLd + (getThread s t).cntSt then parkRetry s t .drained
      else beginStrict s t a (some l) .ready
    | .x =>
      match op with
      | .store _ => beginStrict s t a (some l) .ready
      | _ => beginStrict s t a (some l) .link
    | .n => issueN s t a l

/-- A memory access by virtual address (R164, R203). -/
def issueAccess (s : State) (t : Tid) (op : MemOp) (va : DWord) (size : Nat) (dst : Dest) : State :=
  if va.toNat % size ≠ 0 then takeTrap s t { code := .misalign, addr := va }
  else translated s t va (issueLeaf t op va size dst)

/-- `LD` (R164). -/
def execLd (o : Ops) (s : State) : Host.Outcome State Fault Refusal :=
  issue (.ld o) (fun cx s =>
    issueAccess s cx.t (.load cx.o.ty) (effAddr cx s) (tyBytes cx.o.ty) cx.dst) s

/-- Bytes of a value operand. -/
def valueBytes (cx : Ctx) (v : Nat) : List Byte := bytesLE (tyBytes cx.o.ty) v

/-- `ST` (R164). -/
def execSt (o : Ops) (s : State) : Host.Outcome State Fault Refusal :=
  issue (.st o) (fun cx s =>
    issueAccess s cx.t (.store (valueBytes cx (cx.b s))) (effAddr cx s) (tyBytes cx.o.ty) .none) s

/-- `PREF` has no architectural effect (R165). The faults that any instruction's operands raise before its effect,
INDEX_BOUND and POISON of its address, it raises too (DESIGN CHOICE, log 65). -/
def execPref (o : Ops) (s : State) : Host.Outcome State Fault Refusal :=
  issue (.pref o) (fun cx s => advance s cx.t) s

/-! ## Scratchpad -/

/-- Checks of a scratchpad access (R167). -/
def scratchCheck (s : State) (t : Tid) (op : MemOp) (off size : Nat) : Option Code :=
  let gang := (threadGroup s t).gang
  if off % size ≠ 0 then some .misalign
  else if (getGang s gang).nbanks * bankBytes < off + size then some .scratchBound
  else if !(getBank s gang (off / bankBytes)).isScratch then some .bankMode
  else if scratchHit s gang off size op.storesLock then some .rangeLock
  else none

/-- A scratchpad access joins its bank's request queue (R167, R168). -/
def issueScratch (s : State) (t : Tid) (op : MemOp) (off size : Nat) (dst : Dest) : State :=
  match scratchCheck s t op off size with
  | some c => takeTrap s t { code := c, addr := BitVec.ofNat 64 off }
  | none =>
    let a : Access := { op := op, va := BitVec.ofNat 64 off, pa := off, size := size, dst := dst }
    let b := off / bankBytes
    let s := beginStrict s t a none (.bank b)
    modBank s (threadGroup s t).gang b fun k => { k with queue := k.queue ++ [t] }

/-- `LDSP` (R167). -/
def execLdsp (o : Ops) (s : State) : Host.Outcome State Fault Refusal :=
  issue (.ldsp o) (fun cx s =>
    issueScratch s cx.t (.load cx.o.ty) (effOff cx s) (tyBytes cx.o.ty) cx.dst) s

/-- `STSP` (R167). -/
def execStsp (o : Ops) (s : State) : Host.Outcome State Fault Refusal :=
  issue (.stsp o) (fun cx s =>
    issueScratch s cx.t (.store (valueBytes cx (cx.b s))) (effOff cx s) (tyBytes cx.o.ty) .none) s

/-! ## FIFO banks -/

/-- The bank that IMM names. -/
def immBank (o : Ops) : Nat := bitsOf o.imm 0 4

/-- Checks of a FIFO access (R170). -/
def fifoCheck (s : State) (t : Tid) (b size : Nat) : Option Code :=
  let gang := (threadGroup s t).gang
  if (getGang s gang).nbanks ≤ b then some .scratchBound
  else match (getBank s gang b).mode with
    | .fifo _ => if size = slotBytes (getBank s gang b).mode then none else some .bankMode
    | .cache | .scratch => some .bankMode

/-- After its own access, the other side of the queue is served (R170). -/
def fifoAfter (s : State) (gang b : Nat) : State := fifoServe s gang b (fifoFuel s gang b)

/-- `CBRD` of a bank (R170): the head slot is taken and the thread goes on by `go`, or it waits as a reader. -/
def fifoRead (s : State) (t : Tid) (b : Nat) (d : Dest) (go : State → State) : State :=
  let gang := (threadGroup s t).gang
  let k := getBank s gang b
  if 0 < k.filled && k.readers.isEmpty then
    let (v, bad) := fifoHead k
    let s := writeDest (modBank s gang b fifoDrop) t d v (if bad then some (BitVec.ofNat 64 b) else none)
    fifoAfter (go s) gang b
  else
    modBank (parkRetry s t (.fifo b)) gang b fun k => { k with readers := k.readers ++ [(t, d)] }

/-- `CBWR` of a bank (R170): the tail slot is filled and the thread goes on by `go`, or it waits as a writer. -/
def fifoWrite (s : State) (t : Tid) (b : Nat) (data : List Byte) (go : State → State) : State :=
  let gang := (threadGroup s t).gang
  let k := getBank s gang b
  if k.filled < fifoCap k && k.writers.isEmpty then
    fifoAfter (go (modBank s gang b fun k => fifoPut k data false)) gang b
  else
    modBank (parkRetry s t (.fifo b)) gang b fun k => { k with writers := k.writers ++ [.thread t data] }

/-- A FIFO access by a thread: a write of `data`, or a read. -/
def fifoAccess (s : State) (t : Tid) (b : Nat) (d : Dest) (data : Option (List Byte)) (go : State → State) : State :=
  match data with
  | none => fifoRead s t b d go
  | some bs => fifoWrite s t b bs go

/-- A FIFO access past its checks: it is made at once, or behind the requests that the bank's queue holds (R168,
R170, R172). -/
def fifoArrive (s : State) (t : Tid) (b size : Nat) (d : Dest) (data : Option (List Byte)) : State :=
  let gang := (threadGroup s t).gang
  if (getBank s gang b).queue.isEmpty then fifoAccess s t b d data fun s => advance s t
  else modBank (parkRetry s t (.fifoTurn b size d data)) gang b fun k => { k with queue := k.queue ++ [t] }

/-- The bank serves a FIFO access of its queue, in the mode that it then has (R168, R170). -/
def fifoServed (s : State) (t : Tid) (b size : Nat) (d : Dest) (data : Option (List Byte)) : State :=
  match fifoCheck s t b size with
  | some c => takeTrap s t { code := c, addr := BitVec.ofNat 64 b }
  | none => fifoAccess s t b d data fun s => wake s t (nextPc (getThread s t).pc)

/-- `CBRD` (R170). -/
def execCbrd (o : Ops) (s : State) : Host.Outcome State Fault Refusal :=
  issue (.cbrd o) (fun cx s =>
    let b := immBank cx.o
    match fifoCheck s cx.t b (tyBytes cx.o.ty) with
    | some c => takeTrap s cx.t { code := c, addr := BitVec.ofNat 64 b }
    | none => fifoArrive s cx.t b (tyBytes cx.o.ty) cx.dst none) s

/-- `CBWR` (R170). -/
def execCbwr (o : Ops) (s : State) : Host.Outcome State Fault Refusal :=
  issue (.cbwr o) (fun cx s =>
    let b := immBank cx.o
    match fifoCheck s cx.t b (tyBytes cx.o.ty) with
    | some c => takeTrap s cx.t { code := c, addr := BitVec.ofNat 64 b }
    | none => fifoArrive s cx.t b (tyBytes cx.o.ty) .none (some (valueBytes cx (cx.b s)))) s

/-! ## Bank modes -/

/-- The mode that an instruction sets (R172). -/
def bankModeOf (m : BankSel) (o : Ops) : BankMode :=
  match m with
  | .cache => .cache
  | .scratch => .scratch
  | .fifo => .fifo (bitsOf o.imm 4 2)

/-- A copy into the FIFO bank runs or waits (R172, R262). -/
def copyInto (s : State) (gang b : Nat) : Bool :=
  s.ops.any fun (_, o) => o.gang = gang &&
    match o.kind with
    | .copy (.fifo bank _ _) _ _ _ => bank = b
    | .copy (.flat _ _ _) _ _ _ | .copy (.rows _ _ _) _ _ _ | .copy (.gather _ _ _) _ _ _
    | .copy (.scatter _ _ _) _ _ _ | .chain _ _ | .bzld _ _ _ _ _ _ _ _ | .sign _ _ _ => false

/-- A held scratchpad range, or a copy into the FIFO, lies in the bank (R172). -/
def bankHeld (s : State) (gang b : Nat) : Bool :=
  scratchHit s gang (b * bankBytes) bankBytes true || copyInto s gang b

/-- A bank of a gang takes its new mode, cleared (R172). Requests that arrived later stay in its queue. -/
def setBankMode (s : State) (gang b : Nat) (m : BankMode) : State :=
  modBank (releaseWaiters s gang b) gang b fun x => { mode := m, queue := x.queue }

/-- `BKCFG` of a gang's bank `b`, which the instruction names as `named`: a strict access, which joins the bank's
queue (R160, R168, R172). -/
def configBank (s : State) (t : Tid) (gang b : Nat) (m : BankMode) (named : Nat) : State :=
  if bankHeld s gang b then takeTrap s t { code := .rangeLock, addr := BitVec.ofNat 64 named }
  else modBank (parkRetry s t (.bank gang b m named)) gang b fun k => { k with queue := k.queue ++ [t] }

/-- A `BKCFG` is performed by its bank (R172). -/
def configServed (s : State) (t : Tid) (gang b : Nat) (m : BankMode) (named : Nat) : State :=
  if bankHeld s gang b then takeTrap s t { code := .rangeLock, addr := BitVec.ofNat 64 named }
  else wake (setBankMode s gang b m) t (nextPc (getThread s t).pc)

/-- The mode that a thread's `BKCFG` in a bank's queue sets, and the bank it names. -/
def configOf (th : Thread) : Option (BankMode × Nat) :=
  match th.strict, th.run with
  | none, .parked (.bank _ _ m n) => some (m, n)
  | none, .held (some (.bank _ _ m n)) => some (m, n)
  | _, _ => none

/-- `BKCFG` (R172). -/
def execBkcfg (mode : BankSel) (o : Ops) (s : State) : Host.Outcome State Fault Refusal :=
  issue (.bkcfg mode o) (fun cx s =>
    let gang := (threadGroup s cx.t).gang
    let b := immBank cx.o
    if (getGang s gang).nbanks ≤ b then
      takeTrap s cx.t { code := .scratchBound, addr := BitVec.ofNat 64 b }
    else configBank s cx.t gang b (bankModeOf mode cx.o) b) s

/-- Position of a physical bank among a gang's banks. -/
def bankAt (phys : List Nat) (b : Nat) : Option Nat := placeOf b phys

/-- The gang that owns a physical bank of a cluster, and the gang's number of it. -/
def bankOwner (s : State) (ck b : Nat) : Option (Nat × Nat) :=
  s.gangs.findSome? fun (k, g) =>
    match g.status with
    | .saved _ _ => none
    | .running | .stopping | .held =>
      if g.cluster = ck then (bankAt g.phys b).map fun i => (k, i) else none

/-- `BKCFG.phys` (R173). A bank that no gang owns has no requests, and takes its mode as the access is made;
the thread goes on by a post all the same (R160). -/
def execBkcfgPhys (mode : BankSel) (o : Ops) (s : State) : Host.Outcome State Fault Refusal :=
  issue (.bkcfgPhys mode o) (fun cx s =>
    let ck := threadDie s cx.t * 16 + bitsOf cx.o.imm 8 4
    let b := immBank cx.o
    let m := bankModeOf mode cx.o
    match bankOwner s ck b with
    | some (gang, i) => configBank s cx.t gang i m b
    | none =>
      wake (modCluster s ck fun c => { c with banks := mset { mode := .cache } c.banks b { mode := m } }) cx.t
        (nextPc (getThread s cx.t).pc)) s

/-! ## `WAITC` -/

/-- The counters are at or below the limits (R174). -/
def countsMet (th : Thread) (ld st cp mx : Nat) : Bool :=
  th.cntLd ≤ ld && th.cntSt ≤ st && th.cntCp ≤ cp && th.cntMx ≤ mx

/-- An instruction that ends its block and waits (Table 3-9): the next slot is checked first. -/
def waitOr (s : State) (t : Tid) (met : State → Bool) (w : Wait) : State :=
  let next := nextPc (getThread s t).pc
  transfer s t next fun s => if met s then endBlock s t next else park s t w

/-- `WAITC` (R174). -/
def execWaitc (o : Ops) (s : State) : Host.Outcome State Fault Refusal :=
  issue (.waitc o) (fun cx s =>
    let ld := bitsOf cx.o.imm 0 4
    let st := bitsOf cx.o.imm 4 4
    let cp := bitsOf cx.o.imm 8 4
    let mx := bitsOf cx.o.imm 12 4
    waitOr s cx.t (fun s => countsMet (getThread s cx.t) ld st cp mx) (.counts ld st cp mx)) s

/-! ## Events -/

/-- ACCESS_QUEUE_PERFORM (R159, R187). -/
def execAccessQueuePerform (core : Nat) (s : State) : Host.Outcome State Fault Refusal :=
  .next (performHead s core)

/-- STRICT_ACCESS_PERFORMED (R160). -/
def execStrictAccessPerformed (grp gi : Nat) (s : State) : Host.Outcome State Fault Refusal :=
  .next (performStrict s ⟨grp, gi⟩)

/-- INVALIDATION_ACK (R190). -/
def execInvalidationAck (line : Nat) (who : Holder) (s : State) :
    Host.Outcome State Fault Refusal :=
  .next (lineAck s line who)

/-- ANNEAL_DRAIN: a core to which a drain is on its way performs its accesses, those in its queue and the strict
ones it has issued (R185 step 3, R188), for an Anneal or for a page that departs (R193 step 2). -/
def execAnnealDrain (core granule : Nat) (s : State) : Host.Outcome State Fault Refusal :=
  let gr := getGranule s granule
  let page := granule / 16
  match gr.annealing with
  | some (acks, _) =>
    if acks.contains (.core core) && !gr.drained.contains core then
      let s := drainAgent granule s (.core core)
      .next (setGranule s granule { getGranule s granule with drained := nadd gr.drained core })
    else .next s
  | none =>
    if (getPage s page).departing && (getPage s page).drains.contains core then
      let s := drain s core fun e => onPage s page e.acc.pa
      .next (modPage s page fun p => { p with drains := ndel p.drains core })
    else .next s

/-- The agent may acknowledge: a core only once it has drained. -/
def mayAck (gr : Granule) (who : Agent) : Bool :=
  match who with
  | .core c => gr.drained.contains c
  | .host | .peer _ => true

/-- ANNEAL_ACK (R185 step 4). -/
def execAnnealAck (granule : Nat) (who : Agent) (s : State) : Host.Outcome State Fault Refusal :=
  let gr := getGranule s granule
  match gr.annealing with
  | none => .next s
  | some (acks, c) =>
    if acks.contains who && mayAck gr who then
      let rest := acks.filter (· ≠ who)
      if rest.isEmpty then .next (annealPoint s granule c)
      else .next (setGranule s granule { gr with annealing := some (rest, c) })
    else .next s

/-- The gang that owns a physical bank. -/
def bankGang (s : State) (ck b : Nat) : Option (Nat × Nat) := bankOwner s ck b

/-- The FIFO access that a thread has in a bank's queue. -/
def fifoTurnOf (th : Thread) : Option (Nat × Dest × Option (List Byte)) :=
  match th.strict, th.run with
  | none, .parked (.fifoTurn _ n d data) => some (n, d, data)
  | _, _ => none

/-- BANK_SERVE: the next request of a cluster SRAM bank's queue is performed (R168). -/
def execBankServe (cluster bank : Nat) (s : State) : Host.Outcome State Fault Refusal :=
  match bankGang s cluster bank with
  | some (gang, i) =>
    match (getBank s gang i).queue with
    | [] => .next (fifoServe s gang i (fifoFuel s gang i))
    | t :: q =>
      match configOf (getThread s t), fifoTurnOf (getThread s t) with
      | some (m, n), _ => .next (configServed (modBank s gang i fun k => { k with queue := q }) t gang i m n)
      | none, some (n, d, data) => .next (fifoServed (modBank s gang i fun k => { k with queue := q }) t i n d data)
      | none, none => .next (bankServe s gang i)
  | none => .next s

end Sys2Proof.Machine
end

