-- ==== Sys2Proof/Machine/Atomics.lean ====
section
/-! DEFINITION. Atomics and reservations (R201 to R216). -/

namespace Sys2Proof.Machine

/-- The value operand of an atomic. -/
def atomValue (cx : Ctx) (s : State) : DWord := BitVec.ofNat 64 (cx.b s)

/-- `ATOM` (R207). -/
def execAtom (op : AtomOp) (o : Ops) (s : State) : Host.Outcome State Fault Refusal :=
  issue (.atom op o) (fun cx s =>
    issueAccess s cx.t (.atom op cx.o.ty (atomValue cx s) true) (effAddr cx s) (tyBytes cx.o.ty)
      cx.dst) s

/-- `ATOMN` (R207). -/
def execAtomn (op : AtomOp) (o : Ops) (s : State) : Host.Outcome State Fault Refusal :=
  issue (.atomn op o) (fun cx s =>
    issueAccess s cx.t (.atom op cx.o.ty (atomValue cx s) false) (effAddr cx s) (tyBytes cx.o.ty)
      .none) s

/-- Compare and new values of a compare-and-swap (R208). -/
def casOp (cx : Ctx) (s : State) : MemOp := .cas (valueBytes cx (cx.b s)) (valueBytes cx (cx.c s))

/-- `ACAS` (R208). -/
def execAcas (o : Ops) (s : State) : Host.Outcome State Fault Refusal :=
  issue (.acas o) (fun cx s =>
    issueAccess s cx.t (casOp cx s) (effAddr cx s) (tyBytes cx.o.ty) cx.dst) s

/-- `ACAS2` (R208). -/
def execAcas2 (o : Ops) (s : State) : Host.Outcome State Fault Refusal :=
  issue (.acas2 o) (fun cx s =>
    issueAccess s cx.t (casOp cx s) (effAddr cx s) (tyBytes cx.o.ty) cx.dst) s

/-- `LDRSV` (R212, R213). -/
def execLdrsv (o : Ops) (s : State) : Host.Outcome State Fault Refusal :=
  issue (.ldrsv o) (fun cx s =>
    issueAccess s cx.t .ldrsv (effAddr cx s) (tyBytes cx.o.ty) cx.dst) s

/-- `STCND` (R212 to R214). -/
def execStcnd (o : Ops) (s : State) : Host.Outcome State Fault Refusal :=
  issue (.stcnd o) (fun cx s =>
    issueAccess s cx.t (.stcnd (valueBytes cx (cx.b s))) (effAddr cx s) (tyBytes cx.o.ty) cx.dst) s

/-- `AXADD` (R209). -/
def execAxadd (o : Ops) (s : State) : Host.Outcome State Fault Refusal :=
  issue (.axadd o) (fun cx s =>
    issueAccess s cx.t (.axadd cx.o.ty (BitVec.ofNat 32 (cx.b s))) (effAddr cx s) 64 .none) s

/-- `AXRD` (R210). -/
def execAxrd (o : Ops) (s : State) : Host.Outcome State Fault Refusal :=
  issue (.axrd o) (fun cx s =>
    issueAccess s cx.t (.axrd (cx.o.mod.getLsbD 0)) (effAddr cx s) 64 cx.dst) s

/-- {AmxKey, 0xFFFF_FFFF − idx} (R211). -/
def amaxPacked (ty : Ty) (v idx : Nat) : DWord :=
  BitVec.ofNat 64 (amxKey ty v * 2 ^ 32 + (0xFFFFFFFF - idx))

/-- `AMAXI` (R211). -/
def execAmaxi (o : Ops) (s : State) : Host.Outcome State Fault Refusal :=
  issue (.amaxi o) (fun cx s =>
    issueAccess s cx.t (.amaxi (amaxPacked cx.o.ty (cx.b s) (cx.c s))) (effAddr cx s) 8 cx.dst) s

/-- `SATOM` (R207). -/
def execSatom (op : AtomOp) (o : Ops) (s : State) : Host.Outcome State Fault Refusal :=
  issue (.satom op o) (fun cx s =>
    issueScratch s cx.t (.atom op cx.o.ty (atomValue cx s) true) (effOff cx s) (tyBytes cx.o.ty)
      cx.dst) s

/-- `SACAS` (R208). -/
def execSacas (o : Ops) (s : State) : Host.Outcome State Fault Refusal :=
  issue (.sacas o) (fun cx s =>
    issueScratch s cx.t (casOp cx s) (effOff cx s) (tyBytes cx.o.ty) cx.dst) s

end Sys2Proof.Machine
end

