-- ==== Sys2Proof/Machine/Planisher.lean ====
section
/-! DEFINITION. The Planisher: selection, streams, and the issue of one instruction for one thread (R71 to
R77, R26, R64, R282). -/

namespace Sys2Proof.Machine

/-! ## Selection -/

/-- A candidate (R74): its slot number, 64 for the overflow list. -/
structure Candidate where
  slot : Nat
  grp : Nat
  pc : DWord
  minStamp : Nat
  waiting : Nat
  deriving DecidableEq, Repr

/-- The smallest stamp of a slot's waiters. -/
def minStampOf : NMap Nat → Nat
  | [] => 0
  | [(_, x)] => x
  | (_, x) :: m => min x (minStampOf m)

/-- Candidates of a core: occupied slots, and the overflow list as one (R74). -/
def candidates (c : Core) : List Candidate :=
  (c.table.filter fun e => !e.2.waiting.isEmpty).map (fun e =>
    { slot := e.1, grp := e.2.grp, pc := e.2.pc, minStamp := minStampOf e.2.waiting,
      waiting := e.2.waiting.length }) ++
  match c.overflow with
  | [] => []
  | (t, pc, st) :: _ =>
    [{ slot := 64, grp := t.grp, pc := pc, minStamp := st, waiting := c.overflow.length }]

/-- Aged at selection `sel` (R74). -/
def Candidate.aged (sel : Nat) (c : Candidate) : Bool := 32 ≤ sel - c.minStamp

/-- Rank at selection `sel` (R74). -/
def Candidate.rank (s : State) (sel : Nat) (c : Candidate) : Nat :=
  if c.aged sel then 3 else (getGroup s c.grp).prio

/-- The keys of R74, most significant first; a greater list comes first. -/
def Candidate.keys (s : State) (sel : Nat) (c : Candidate) : List Nat :=
  [c.rank s sel, (c.aged sel).toNat, if c.aged sel then sel - c.minStamp else 0, c.waiting,
    2 ^ 64 - c.pc.toNat, 64 - c.slot]

/-- Lexicographic order of key lists. -/
def keysBefore : List Nat → List Nat → Bool
  | x :: xs, y :: ys => if y < x then true else if x < y then false else keysBefore xs ys
  | _, _ => false

/-- The first candidate by the keys of R74. -/
def bestCandidate (s : State) (sel : Nat) : List Candidate → Option Candidate
  | [] => none
  | c :: cs =>
    match bestCandidate s sel cs with
    | none => some c
    | some d => if keysBefore (d.keys s sel) (c.keys s sel) then some d else some c

/-! ## Packs -/

/-- In each lane, the waiting thread of the lowest turn: the first of that lane in ascending GINDEX
(R75). -/
def formPack : List Nat → List Nat → List Nat
  | [], _ => []
  | gi :: rest, lanes =>
    if lanes.contains (laneOf gi) then formPack rest lanes
    else gi :: formPack rest (laneOf gi :: lanes)

def laneInsert (gi : Nat) : List Nat → List Nat
  | [] => [gi]
  | x :: xs => if laneOf gi < laneOf x then gi :: x :: xs else x :: laneInsert gi xs

/-- A pack in ascending lane order. -/
def byLane (gis : List Nat) : List Nat := gis.foldr laneInsert []

/-- Packs of a snapshot, at most `limit` of them, and the threads left over (R75). -/
def formPacks : Nat → List Nat → List (List Nat) × List Nat
  | 0, gis => ([], gis)
  | limit + 1, gis =>
    if gis.isEmpty then ([], [])
    else
      let p := formPack gis []
      let r := formPacks limit (gis.filter fun gi => !p.contains gi)
      (byLane p :: r.1, r.2)

/-- The stream of a snapshot begins (R75). -/
def startStream (s : State) (core grp : Nat) (pc : DWord) (slot : Option Nat) (snap : NMap Nat)
    (aged : Bool) : State :=
  let (packs, left) := formPacks (if aged then snap.length else 8) (mkeys snap)
  let s := shareLates s grp
  let s := packs.flatten.foldl (fun s gi => modThread s ⟨grp, gi⟩ fun th => { th with run := .issuing }) s
  let st : Stream :=
    { grp := grp, pc := pc, slot := slot, todo := packs, cont := [], part := [],
      snap := (getGroup s grp).scal, rest := snap.filter fun e => left.contains e.1, lines := [] }
  modCore s core fun c => { c with stream := some st, packs := c.packs + 1 }

/-- Select of R74. -/
def selectBlock (s : State) (core : Nat) : State :=
  let c := getCore s core
  match c.stream with
  | some _ => s
  | none =>
    let sel := c.selections + 1
    match bestCandidate s sel (candidates c) with
    | none => s
    | some b =>
      let s := modCore s core fun c => { c with selections := sel }
      if b.slot = 64 then
        let mine (e : Tid × DWord × Nat) : Bool := e.1.grp = b.grp && e.2.1 = b.pc
        let snap := (c.overflow.filter mine).foldl (fun m e => mput m e.1.gi e.2.2) ([] : NMap Nat)
        let slot := freeSlot c.table
        let s := modCore s core fun c =>
          { c with overflow := c.overflow.filter fun e => !mine e,
                   table := match slot with
                     | some k => mput c.table k { grp := b.grp, pc := b.pc, waiting := [] }
                     | none => c.table }
        startStream s core b.grp b.pc slot snap (b.aged sel)
      else
        let snap := match mfind c.table b.slot with
          | some sl => sl.waiting
          | none => []
        let s := modCore s core fun c =>
          { c with table := mmod c.table b.slot fun sl => { sl with waiting := [] } }
        startStream s core b.grp b.pc (some b.slot) snap (b.aged sel)

/-- An entry put back into an overflow list, before the first entry whose stamp is not smaller: the list
stays in the order of its stamps, so its head's is the smallest (R74; log 33). -/
def putBack (e : Tid × DWord × Nat) : List (Tid × DWord × Nat) → List (Tid × DWord × Nat)
  | [] => [e]
  | x :: xs => if e.2.2 ≤ x.2.2 then e :: x :: xs else x :: putBack e xs

/-- Threads that did not issue go back with their stamps, and the slot is freed if none wait in it (R73,
R74). -/
def endStream (s : State) (core : Nat) (st : Stream) : State :=
  modCore s core fun c =>
    match st.slot with
    | some k =>
      let tbl := mmod c.table k fun sl =>
        { sl with waiting := st.rest.foldl (fun m e => mput m e.1 e.2) sl.waiting }
      { c with stream := none, table := tbl.filter fun e => e.1 ≠ k || !e.2.waiting.isEmpty }
    | none =>
      let back := st.rest.map fun e => ((⟨st.grp, e.1⟩ : Tid), st.pc, e.2)
      { c with stream := none, overflow := back.foldr putBack c.overflow }

/-- PLANISHER_SELECT (R74). -/
def execPlanisherSelect (core : Nat) (s : State) : Host.Outcome State Fault Refusal :=
  .next (selectBlock s core)

/-! ## Lines of a block -/

/-- What a block keeps a line under: its line number and the PASID that read it. -/
def lineKey (s : State) (t : Tid) (pc : DWord) : Nat := pc.toNat / 64 * 2 ^ 20 + threadPasid s t

/-- The line of the current block, as read by it. -/
def blockLine (st : Stream) (k : Nat) : Option (List Byte) :=
  (st.lines.find? fun e => e.1 = k).map Prod.snd

/-- Keeps a line that the block has read. -/
def keepLine (s : State) (core k : Nat) (bs : List Byte) : State :=
  modCore s core fun c =>
    { c with stream := c.stream.map fun st =>
        { st with lines := (k, bs) :: st.lines.filter fun e => e.1 ≠ k } }

/-- A slot of a line that the block has already read is checked as it issues (R26 step 3). -/
def recheckSlot (s : State) (t : Tid) (pc : DWord) (bs : List Byte) :
    Except Exc (List Byte) × State :=
  if slotParityOk bs (slotOf pc) then (.ok bs, s)
  else match fetchPa s t pc with
    | .error e => (.error e, s)
    | .ok (pa, l) =>
      match refetch s (threadCore s t) pa l.bias (some (slotOf pc)) with
      | (bs, none, s) => (.ok bs, s)
      | (_, some c, s) => (.error { code := c, addr := lineOf pc }, s)

/-- The line of a thread's slot, read once in a block (R26, R27). -/
def lineFor (s : State) (t : Tid) (st : Stream) (pc : DWord) : Except Exc (List Byte) × State :=
  let k := lineKey s t pc
  match blockLine st k with
  | some bs =>
    match recheckSlot s t pc bs with
    | (.ok bs, s) => (.ok bs, keepLine s (threadCore s t) k bs)
    | r => r
  | none =>
    match fetchLine s t pc (some (slotOf pc)) with
    | (.ok bs, s) => (.ok bs, keepLine s (threadCore s t) k bs)
    | r => r

/-- The line of the next issue fails a parity check: as the block keeps it, or, where the block has not read
it, as the instruction cache holds it (R26 steps 1 and 3). -/
def lineMismatch (s : State) (core pa : Nat) (st : Stream) (t : Tid) : Bool :=
  match blockLine st (lineKey s t st.pc) with
  | some bs => !slotParityOk bs (slotOf st.pc)
  | none =>
    let host := match fetchPa s t st.pc with
      | .ok (_, l) => l.bias
      | .error _ => false
    lineFault (cachedLine s core pa host) (some (slotOf st.pc)) = some .lineParity

/-- A line's fault is taken by a thread about to issue from it (R26): at the first issue from TVEC its handler cannot be
entered (R64, R314). -/
def lineTrap (e : Exc) (s : State) (t : Tid) : State :=
  if (getThread s t).checkTvec then handlerLost (modThread s t fun th => { th with checkTvec := false }) t
  else takeTrap s t e

/-- LINE_REFETCH: a line that fails its parity as a thread is about to issue from it is read from memory again, past
the instruction cache, and checked (R26 step 4), if it may be fetched now (R193, R332). A mismatch that persists is
LINE_PARITY for the threads about to issue from it. Without a mismatch nothing is read: the block goes on with what it
holds (R27). -/
def execLineRefetch (core : Nat) (s : State) : Host.Outcome State Fault Refusal :=
  match (getCore s core).stream with
  | none => .next s
  | some st =>
    match st.todo.flatten with
    | [] => .next s
    | gi :: _ =>
      let t : Tid := ⟨st.grp, gi⟩
      match fetchPa s t st.pc with
      | .error _ => .next s
      | .ok (pa, _) =>
        if fetchStopped s t || fetchMiss s t (lineOf st.pc) || !lineMismatch s core pa st t then .next s
        else
          match lineFor s t st st.pc with
          | (.ok _, s) => .next s
          | (.error e, s) =>
            let hit := st.todo.headD []
            let s := modCore s core fun k =>
              { k with stream := k.stream.map fun x => { x with todo := [] :: x.todo.drop 1 } }
            .next (hit.foldl (fun s gi => lineTrap e s ⟨st.grp, gi⟩) s)

/-! ## Issue -/

/-- The issue fetches the line of its slot: the block has still to read it, or holds it with a damaged slot, or the
thread checks the entry of its handler (R26, R64). -/
def readsLine (s : State) (st : Stream) (t : Tid) : Bool :=
  (getThread s t).checkTvec ||
    match blockLine st (lineKey s t st.pc) with
    | none => true
    | some bs => !slotParityOk bs (slotOf st.pc)

/-- The fetch of a line stops every thread that is about to issue from it: each parks at its slot, and the walk
posts them again together (R75, R330, R332). -/
def parkBlock (st : Stream) (park : State → Tid → State) (s : State) (t : Tid) : State :=
  let mates := (st.todo.flatten.map fun gi => (⟨st.grp, gi⟩ : Tid)).filter fun u =>
    u ≠ t && (getThread s u).run = .issuing && lineKey s u st.pc = lineKey s t st.pc
  mates.foldl (fun s u => park (modThread s u fun th => { th with pc := st.pc }) u) (park s t)

/-- One issue for one thread of the stream (R26, R51, R64, R282): `run` is the meaning of an
instruction. A fetch of a DYING PASID stops the threads of the line, and a miss of the core's translation cache
parks them for a walk, before any check of the handler (R330, R332). -/
def issueThread (run : Instr → State → Host.Outcome State Fault Refusal) (st : Stream) (gi : Nat)
    (s : State) : Host.Outcome State Fault Refusal :=
  let t : Tid := ⟨st.grp, gi⟩
  let th := getThread s t
  let s := modThread s t fun th => { th with pc := st.pc }
  if readsLine s st t && fetchStopped s t then .next (parkBlock st (fun s u => parkFetch (fun s => parkRetry s u .dying) s u) s t)
  else if readsLine s st t && fetchMiss s t (lineOf st.pc) then
    .next (parkBlock st (fun s u => parkFetch (fun s => missPark s u (lineOf st.pc)) s u) s t)
  else
  let s := modThread s t fun th => { th with checkTvec := false }
  let (lost, s) := if th.checkTvec then checkDest s t st.pc else (none, s)
  if lost.isSome then .next (handlerLost s t)
  else match lineFor s t st st.pc with
    | (.error e, s) => .next (takeTrap s t e)
    | (.ok bs, s) =>
      let s := modThread s t fun th => { th with checkEntry := false }
      if th.checkEntry && !isEntry bs (slotOf st.pc) then
        .next (takeTrap s t { code := .badTarget, addr := st.pc })
      else match decode (BitVec.ofNat 96 (slotBits bs (slotOf st.pc))) with
        | .error _ => .next (takeTrap s t { code := .illegalOp })
        | .ok i =>
          run i { s with cur := some { tid := t, snap := st.snap } }

/-- A thread stays in the stream after its issue. -/
def stays (s : State) (t : Tid) : Bool := (getThread s t).run = .issuing

/-- The group's gang is to stop, or the group alone (R314, R316). -/
def groupHalts (s : State) (grp : Nat) : Bool :=
  let g := getGroup s grp
  g.stopped || (getGang s g.gang).status ≠ .running

/-- The stream after a whole pack: the next pack, the next slot when every pack has issued, or its end (R75).
Scalars are read as the next pack finds them (R37). -/
def nextPack (s : State) (core : Nat) (st : Stream) (rest : List (List Nat)) : State :=
  let cont := if st.part.isEmpty then st.cont else st.cont ++ [st.part]
  let s := shareLates s st.grp
  let fresh := { st with part := [], begun := false, snap := (getGroup s st.grp).scal }
  let go := fun (x : Stream) => modCore s core fun c => { c with stream := some x, packs := c.packs + 1 }
  if !rest.isEmpty then go { fresh with todo := rest, cont := cont }
  else if cont.isEmpty then endStream s core st
  else go { fresh with todo := cont, cont := [], pc := nextPc st.pc }

/-- The stream moves on. A pack has issued whole before its group stops or is terminated (R75, R315, R316). -/
def streamOn (s : State) (core : Nat) : State :=
  match (getCore s core).stream with
  | none => s
  | some st =>
    match st.todo with
    | (_ :: _) :: _ => s
    | [] :: rest =>
      if (getGroup s st.grp).doomed then terminateGroup s st.grp
      else if groupHalts s st.grp then holdGroup s st.grp
      else nextPack s core st rest
    | [] => endStream s core st

/-- The first thread of the current pack is taken from it. -/
def takeFirst (s : State) (core : Nat) : State :=
  modCore s core fun c =>
    { c with stream := c.stream.map fun st =>
        { st with begun := true,
                  todo := match st.todo with
                    | (_ :: p) :: ps => p :: ps
                    | ps => ps } }

/-- One turn of a core: a selection if no stream runs, otherwise one issue for the next thread of the
current pack (R74, R75). -/
def coreTurn (run : Instr → State → Host.Outcome State Fault Refusal) (core : Nat) (s : State) :
    Host.Outcome State Fault Refusal :=
  match (getCore s core).stream with
  | none => .next (selectBlock s core)
  | some st =>
    match st.todo with
    | (gi :: _) :: _ =>
      let t : Tid := ⟨st.grp, gi⟩
      let s := takeFirst s core
      if !stays s t then .next (streamOn s core)
      else match issueThread run st gi s with
        | .next s =>
          let s := forgetWalks { s with cur := none } t
          let s := if stays s t then
              modCore s core fun c =>
                { c with stream := c.stream.map fun x => { x with part := x.part ++ [gi] } }
            else s
          .next (streamOn s core)
        | .fault f => .fault f
        | .refused r => .refused r
    | _ => .next (streamOn s core)

end Sys2Proof.Machine
end

