-- ==== Sys2Proof/Machine/Tiles.lean ====
section
/-! DEFINITION. Tiles, accumulators and the pass of the matrix engine (R221 to R229, R237, R242, R243,
R248). -/

namespace Sys2Proof.Machine

/-! ## Shapes of tiles -/

/-- Units of a gang's Bezel share and accumulators (R221). -/
def bezelShare (g : Gang) : Nat := g.nbanks * 256
def accCount (g : Gang) : Nat := g.nbanks / 2

/-- Bits of an element (R223). -/
def tileBits : TileFmt → Nat
  | .bf16 | .f16 => 16
  | .e4m3 | .e5m2 | .i8 => 8
  | .e2m1 | .i4 => 4

/-- A 4-bit format. -/
def TileFmt.narrow : TileFmt → Bool
  | .e2m1 | .i4 => true
  | .bf16 | .f16 | .e4m3 | .e5m2 | .i8 => false

def TileFmt.fp8 : TileFmt → Bool
  | .e4m3 | .e5m2 => true
  | .bf16 | .f16 | .i8 | .e2m1 | .i4 => false

/-- Elements of a K-group, and what K is a multiple of, Table of R223. -/
def groupSize (f : TileFmt) : Nat := if tileBits f = 8 then 64 else 32
def depthMultiple (f : TileFmt) : Nat := if tileBits f = 16 then 32 else 64

def ceilDiv (a b : Nat) : Nat := (a + b - 1) / b

/-- Units of a tile (R224). -/
def tileUnits (isA : Bool) (f : TileFmt) (k : Nat) : Nat :=
  1 + (if isA then ceilDiv (k / groupSize f) 2 else ceilDiv (k * tileBits f) 512) +
    (if f.narrow then ceilDiv (5 * k) 2048 else 0)

/-- K-groups of a tile. -/
def Tile.groups (t : Tile) : Nat := t.depth / groupSize t.fmt

/-- The format that `BZALOC` names (R235). -/
def fmtOf (o : Ops) : TileFmt :=
  if o.mod.getLsbD 0 then .i4
  else match o.ty with
    | .bf16 => .bf16
    | .f16 => .f16
    | .e4m3 => .e4m3
    | .e5m2 => .e5m2
    | .e2m1 => .e2m1
    | .n8 | .n16 | .n32 | .n64 | .i8 | .i16 | .i32 | .i64 | .f64 | .f32 | .b128 => .i8

/-! ## Handles -/

def tileHandle (gen e : Nat) : Nat := gen % 256 * 256 + e

/-- The live tile that a handle names (R225). -/
def liveTile (g : Gang) (h : Word) : Option (Nat × Tile) :=
  let e := bitsOf h 0 6
  if bitsOf h 16 16 = 0 && bitsOf h 6 2 = 0 && bitsOf h 8 8 = mget 0 g.gens e then
    (mfind g.tiles e).map fun t => (e, t)
  else none

def modTile (s : State) (gang e : Nat) (f : Tile → Tile) : State :=
  modGang s gang fun g => { g with tiles := mmod g.tiles e f }

/-- Units `[b, b + u)` are free. -/
def unitsFree (g : Gang) (u b : Nat) : Bool :=
  b + u ≤ bezelShare g && g.tiles.all fun e => !overlaps b u e.2.base e.2.units

/-! ## Elements -/

/-- Keys of poison marks within a tile: data elements, then column, block and band scales. -/
def poisonCscale (j : Nat) : Nat := 2 ^ 24 + j
def poisonBscale (k : Nat) : Nat := 2 ^ 25 + k
def poisonBand (k : Nat) : Nat := 2 ^ 26 + k

/-- The format of a plain tile's elements as a float type. -/
def tileTy : TileFmt → Ty
  | .bf16 => .bf16
  | .f16 => .f16
  | .e4m3 => .e4m3
  | .e5m2 => .e5m2
  | .i8 => .i8
  | .e2m1 => .e2m1
  | .i4 => .i8

/-- An element of bits of a float type as an exact value. -/
def elemVal (ty : Ty) (bits : Nat) : FVal := fpVal (fpFmt ty) bits

/-- Bits of element (k, j) of a B tile. -/
def bBits (t : Tile) (k j : Nat) : Nat := (mget 0 t.data (64 * k + j)).toNat

/-- The value of element (k, j) of a B tile as a pass takes it (R228). -/
def bVal (t : Tile) (k j : Nat) : FVal :=
  if t.fmt.narrow then
    elemVal .bf16 (dequant (t.fmt = .i4) (bBits t k j) (mget 0x60 t.bscale (64 * (k / 8) + j)).toNat
      (mget 0x3F80 t.band (64 * (k / 64) + j)).toNat false).1
  else elemVal (tileTy t.fmt) (bBits t k j)

/-- Element (k, j) of a B tile is poisoned (R248). -/
def bBad (t : Tile) (k j : Nat) : Bool :=
  t.poison.contains (64 * k + j) ||
    (t.fmt.narrow && (t.poison.contains (poisonBscale (64 * (k / 8) + j)) ||
      t.poison.contains (poisonBand (64 * (k / 64) + j)))) ||
    (t.fmt.fp8 && t.poison.contains (poisonCscale j))

/-- Element m of a row supplied in registers (R240). -/
def rowBits (bits : Nat) (row : List Word) (m : Nat) : Nat :=
  bitsOf (row.getD (m * bits / 32) 0) (bits * (m % (32 / bits))) bits

/-- Where the A operand of a pass comes from. -/
inductive ASource where
  | rows (rows : NMap SignRow)
  | tile (t : Tile) (a0 : Nat)
  deriving DecidableEq, Repr

/-- Bits of A(i, m), m counted within K-group g of the operation (R240). -/
def aBits (src : ASource) (bits gsz g i m : Nat) : Nat :=
  match src with
  | .rows rows => rowBits bits (mget { gi := 0 } rows i).row m
  | .tile t a0 => (mget 0 t.data (65536 * i + (a0 + g) * gsz + m)).toNat

/-- A(i, m) is poisoned. -/
def aBad (src : ASource) (gsz g i m : Nat) : Bool :=
  match src with
  | .rows _ => false
  | .tile t a0 => t.poison.contains (65536 * i + (a0 + g) * gsz + m)

/-! ## The pass -/

/-- One element of an FP32 accumulator (R227). -/
def passFp (acc : Word) (terms : List FVal) : Word :=
  BitVec.ofNat 32 (roundFp (fpFmt .f32) 0 0 false (fsumX 0 (fpVal (fpFmt .f32) acc.toNat :: terms)).1).1

/-- One element of an INT32 accumulator (R227). -/
def passInt (acc : Word) (terms : List Int) : Word :=
  BitVec.ofNat 32 (wrap 32 (Int.ofNat acc.toNat + terms.foldl (· + ·) 0))

/-- A product of factors, exact (R227). -/
def prodVal (xs : List FVal) : FVal :=
  match xs with
  | [] => .fin false { num := 1 }
  | x :: xs => xs.foldl (fun a b => (fmulX a b).1) x

/-- A word as an FP32 value. -/
def f32Val (w : Word) : FVal := fpVal (fpFmt .f32) w.toNat

/-- Row scale of row i (R229). -/
def rowScale (src : NMap SignRow) (i : Nat) : FVal := f32Val (mget { gi := 0 } src i).scale

/-- One pass: K-group g of the operation, B K-group b (R226 to R229, R248). `rows` are the signed rows. -/
def passTile (ty : Ty) (rows : NMap SignRow) (src : ASource) (bt : Tile) (g b : Nat) (a : Accum) : Accum :=
  let gsz := groupSize bt.fmt
  let ms := List.range gsz
  let isInt := ty = .i8
  let fp8 := bt.fmt.fp8
  let cols := (List.range 64).map fun j => (j, ms.map fun m =>
    (bVal bt (b * gsz + m) j, toSigned 8 (bBits bt (b * gsz + m) j), bBad bt (b * gsz + m) j))
  let elem (i : Nat) (c : Nat × List (FVal × Int × Bool)) : Word × Bool :=
    let old := mget 0 a.data (64 * i + c.1)
    let bad := a.poison.contains (64 * i + c.1) || c.2.any (fun x => x.2.2) ||
      ms.any fun m => aBad src gsz g i m
    let abs := ms.map fun m => aBits src (tyBits ty) gsz g i m
    let new :=
      if isInt then passInt old ((abs.zip c.2).map fun x => toSigned 8 x.1 * x.2.2.1)
      else
        let sc := if fp8 then [rowScale rows i, f32Val (mget 0x3F800000 bt.cscale c.1)] else []
        passFp old ((abs.zip c.2).map fun x => prodVal (elemVal ty x.1 :: x.2.1 :: sc))
    (new, bad)
  let all := (List.range 32).flatMap fun i => cols.map fun c => (64 * i + c.1, elem i c)
  { a with data := (all.filter fun e => e.2.1 ≠ 0).map fun e => (e.1, e.2.1),
           poison := (all.filter fun e => e.2.2).map Prod.fst }

/-! ## Fills -/

/-- Scale rows of a fill: blocks of 8 K rows, bands of 64. -/
def fillRows (part : BzPart) (t : Tile) (n : Nat) : Nat :=
  match part with
  | .data => n * groupSize t.fmt
  | .cscale => 1
  | .bscale => n * groupSize t.fmt / 8
  | .band => n * groupSize t.fmt / 64

/-- Bits of an element of a part. -/
def partBits (part : BzPart) (t : Tile) : Nat :=
  match part with
  | .data => tileBits t.fmt
  | .cscale => 32
  | .bscale => 8
  | .band => 16

/-- Elements across: columns of a B tile, rows of an A tile. -/
def acrossOf (part : BzPart) (t : Tile) : Nat := if part = .data && t.isA then 32 else 64

/-- K rows follow one another along the pitch: for B tiles without `.t`, for A tiles with it. -/
def alongK (part : BzPart) (t : Tile) (tr : Bool) : Bool :=
  if part = .data && t.isA then tr else !tr

/-- Length of the source of a fill: the smallest interval of its bytes (Table 11-3). -/
def fillLen (part : BzPart) (t : Tile) (n : Nat) (pitch : Word) (tr : Bool) : Nat :=
  let rows := fillRows part t n
  let bits := partBits part t
  if alongK part t tr then (rows - 1) * pitch.toNat + acrossOf part t * bits / 8
  else (acrossOf part t - 1) * pitch.toNat + rows * bits / 8

/-- Byte and bit offset of the element (row r of the fill, column or row c across). -/
def fillAt (part : BzPart) (t : Tile) (pitch : Word) (tr : Bool) (r c : Nat) : Nat × Nat :=
  let bits := partBits part t
  if alongK part t tr then (r * pitch.toNat + c * bits / 8, c * bits % 8)
  else (c * pitch.toNat + r * bits / 8, r * bits % 8)

/-- An element of the source: bits and poison. -/
def fillElem (s : State) (rg : Range) (bits : Nat) (at_ : Nat × Nat) : Nat × Bool :=
  let (bs, bad) := rangeBytes s rg at_.1 (max 1 (bits / 8))
  (ofBytesLE bs / 2 ^ at_.2 % 2 ^ bits, bad)

/-- Entries of a map outside `[lo, hi)`, with new ones in between, in rising order. -/
def splice {α : Type} (old : NMap α) (lo hi : Nat) (new : NMap α) : NMap α :=
  (old.filter fun e => e.1 < lo) ++ new ++ old.filter fun e => hi ≤ e.1

/-- New marks in place of those in `[lo, hi)`. -/
def spliceMarks (old : List Nat) (lo hi : Nat) (new : List Nat) : List Nat :=
  (old.filter fun k => k < lo) ++ new ++ old.filter fun k => hi ≤ k

/-- Elements of a contiguous run of keys, read from the source. -/
def readRun (s : State) (rg : Range) (bits lo n : Nat) (at_ : Nat → Nat × Nat) :
    List (Nat × Nat × Bool) :=
  (List.range n).map fun i => (lo + i, fillElem s rg bits (at_ i))

def runData (w : Nat) (dflt : BitVec w) (xs : List (Nat × Nat × Bool)) : NMap (BitVec w) :=
  (xs.map fun x => (x.1, BitVec.ofNat w x.2.1)).filter fun e => e.2 ≠ dflt
def runBad (off : Nat) (xs : List (Nat × Nat × Bool)) : List Nat :=
  (xs.filter fun x => x.2.2).map fun x => off + x.1

/-- A row of an A tile is filled, from row `r0` of the fill on. -/
def fillARow (s : State) (rg : Range) (pitch : Word) (tr : Bool) (r0 k0 n : Nat) (t : Tile) (i : Nat) :
    Tile :=
  let cnt := n * groupSize t.fmt
  let lo := 65536 * i + k0 * groupSize t.fmt
  let xs := readRun s rg (tileBits t.fmt) lo cnt fun r => fillAt .data t pitch tr (r0 + r) i
  { t with data := splice t.data lo (lo + cnt) (runData 16 0 xs),
           poison := spliceMarks t.poison lo (lo + cnt) (runBad 0 xs) }

/-- `n` K-groups of a part of a tile are filled from K-group `k0` on, with the rows of the fill from `r0` on (R237,
Table 11-3, R248). -/
def fillTile (s : State) (rg : Range) (part : BzPart) (pitch : Word) (tr : Bool) (r0 k0 n : Nat) (t : Tile) :
    Tile :=
  let cnt := fillRows part t n * 64
  let at_ (i : Nat) : Nat × Nat := fillAt part t pitch tr (r0 + i / 64) (i % 64)
  let bits := partBits part t
  match part with
  | .data =>
    if t.isA then (List.range 32).foldl (fillARow s rg pitch tr r0 k0 n) t
    else
      let lo := 64 * (k0 * groupSize t.fmt)
      let xs := readRun s rg bits lo cnt at_
      { t with data := splice t.data lo (lo + cnt) (runData 16 0 xs),
               poison := spliceMarks t.poison lo (lo + cnt) (runBad 0 xs) }
  | .cscale =>
    let xs := readRun s rg bits 0 64 at_
    { t with cscale := runData 32 0x3F800000 xs,
             poison := spliceMarks t.poison (poisonCscale 0) (poisonCscale 64) (runBad (poisonCscale 0) xs) }
  | .bscale =>
    let lo := 64 * (k0 * groupSize t.fmt / 8)
    let xs := readRun s rg bits lo cnt at_
    { t with bscale := splice t.bscale lo (lo + cnt) (runData 8 0x60 xs),
             poison := spliceMarks t.poison (poisonBscale lo) (poisonBscale (lo + cnt))
               (runBad (poisonBscale 0) xs) }
  | .band =>
    let lo := 64 * (k0 * groupSize t.fmt / 64)
    let xs := readRun s rg bits lo cnt at_
    { t with band := splice t.band lo (lo + cnt) (runData 16 0x3F80 xs),
             poison := spliceMarks t.poison (poisonBand lo) (poisonBand (lo + cnt))
               (runBad (poisonBand 0) xs) }

/-! ## Stores and amax -/

/-- An element as `MST` writes it (R242). -/
def mstElem (fp : Bool) (fmt : Ty) (sat : Bool) (scale : Word) (v : Word) : Nat :=
  if fmt = .i32 then v.toNat
  else
    let x := if fp then f32Val v else intVal (toSigned 32 v.toNat)
    (roundFp (fpFmt fmt) 0 0 sat (fmulX x (f32Val scale)).1).1

/-- |v| as the amax cell takes it: FP32 magnitude bits, none for a NaN (R243). -/
def amaxMag (fp : Bool) (v : Word) : Option Nat :=
  if fp then if (f32Val v).isNan then none else some (v.toNat % 2 ^ 31)
  else some (roundFp (fpFmt .f32) 0 0 false (intVal (toSigned 32 v.toNat).natAbs)).1

/-- AmaxUpdate (R243). -/
def amaxUpdate (fp : Bool) (a : Accum) (cell : Word) : Word :=
  let vals := (List.range 2048).map fun k => mget 0 a.data k
  let m := vals.foldl (fun n v => max n ((amaxMag fp v).getD 0)) (bitsOf cell 0 31)
  let nan := cell.getLsbD 31 || vals.any fun v => (amaxMag fp v).isNone
  BitVec.ofNat 32 (m + nan.toNat * 2 ^ 31)

/-- Bytes of an engine's write at a physical place: every other copy of the lines is gone, and in class S the core's
cluster owns them; the marks of its own copy stay on the words that are not written whole (R190, R362). What lies
outside this module's homes stays in no cache of it. -/
def engineWrite (s : State) (core pa : Nat) (home : Bool) (bs : List Byte) (bad : Bool) : State :=
  let n := bs.length
  let s := adoptWay (invalidateRange (loseResv s none pa n) pa n) (clusterOfCore core) pa n
  let s := storeBytes s pa bs
  let s := if home then lineEvent s (.core core) pa n true false else writeThrough s pa n
  if bad then markPoison s pa n else s

/-- Bytes written at an offset of a memory or scratchpad range, piece by piece. -/
def rangeWrite (core : Nat) (s : State) (scratch : Option Nat) : List (Nat × Nat × Bool) → Nat → List Byte → Bool → State
  | [], _, _, _ => s
  | (a, n, h) :: ps, off, bs, bad =>
    if bs.isEmpty then s
    else if n ≤ off then rangeWrite core s scratch ps (off - n) bs bad
    else
      let now := bs.take (n - off)
      let s := match scratch with
        | some g =>
          let s := scratchStore s g (a + off) now
          if bad then scratchPoison s g (a + off) now.length else s
        | none => if linkLost s scratch (a, n, h) then s else engineWrite s core (a + off) h now bad
      rangeWrite core s scratch ps 0 (bs.drop (n - off)) bad

/-- A write of `len` bytes at an offset of the pieces meets one that lies behind a port that is down. -/
def lossIn (s : State) (scratch : Option Nat) : List (Nat × Nat × Bool) → Nat → Nat → Bool
  | [], _, _ => false
  | q :: ps, off, len =>
    if len = 0 then false
    else if q.2.1 ≤ off then lossIn s scratch ps (off - q.2.1) len
    else linkLost s scratch q || lossIn s scratch ps 0 (len - (q.2.1 - off))

/-- Writes of a step, by offset and length, of which one fails: that is reported to the scheduler core (R268, R351). -/
def reportLost (s : State) (core : Nat) (rg : Range) (ws : List (Nat × Nat)) : State :=
  if ws.any fun w => lossIn s rg.scratch rg.pieces w.1 w.2 then report s (.linkError (dieOfCore core)) else s

/-- The pieces of a range that hold the `len` bytes at an offset. -/
def piecesIn : List (Nat × Nat × Bool) → Nat → Nat → List (Nat × Nat × Bool)
  | [], _, _ => []
  | q :: ps, off, len =>
    if len = 0 then []
    else if q.2.1 ≤ off then piecesIn ps (off - q.2.1) len
    else q :: piecesIn ps 0 (len - (q.2.1 - off))

/-- What reads of a range that have failed leave: the free values they have drawn (log 9), and, where the PCIe port is
down and they end by timeout, an uncorrectable error of the port (R350, R351). -/
def drawFree (core : Nat) (s : State) (rg : Range) : State :=
  let out := rg.pieces.filter (linkLost s rg.scratch)
  let s := if out.any (fun q => regionOf q.1 = .ext) then report s (.linkError (dieOfCore core)) else s
  if !out.isEmpty || !rg.lost.isEmpty then
    { s with free := s.free + rg.pieces.foldl (fun n q => max n (q.1 + q.2.1)) 0 }
  else s

end Sys2Proof.Machine
end

