-- ==== Sys2Proof/Machine/Matrix.lean ====
section
/-! DEFINITION. The matrix instructions and the events of the matrix engine (R230 to R249). -/

namespace Sys2Proof.Machine

/-- An operand fault with a number for TADDR. -/
def operandFault (n : Nat) : Exc := { code := .engineOperand, addr := BitVec.ofNat 64 n }

/-- Gang of a thread. -/
def threadGang (s : State) (t : Tid) : Gang := getGang s (threadGroup s t).gang

/-! ## Tile management -/

/-- The lowest free entry and units for a tile of `u` units (R236). -/
def placeTile (g : Gang) (u : Nat) : Option (Nat × Nat) :=
  match lowest (fun e => (mfind g.tiles e).isNone) 64 0 with
  | none => none
  | some e => (lowest (unitsFree g u) (bezelShare g + 1) 0).map fun b => (e, b)

/-- `BZALOC` (R236). -/
def execBzaloc (o : Ops) (s : State) : Host.Outcome State Fault Refusal :=
  issue (.bzaloc o) (fun cx s =>
    let k := cx.a s
    let f := fmtOf cx.o
    let isA := cx.o.mod.getLsbD 1
    let g := threadGang s cx.t
    if k = 0 || 65536 < k || k % depthMultiple f ≠ 0 then takeTrap s cx.t (operandFault 0)
    else match placeTile g (tileUnits isA f k) with
      | none => takeTrap s cx.t (operandFault 0)
      | some (e, b) =>
        let tile : Tile := { isA := isA, fmt := f, depth := k, base := b, units := tileUnits isA f k }
        let s := modGang s (threadGroup s cx.t).gang fun g => { g with tiles := mput g.tiles e tile }
        finish cx s (tileHandle (mget 0 g.gens e) e)) s

/-- A tile pair: handle and first K-group. -/
def pairHandle (v : Nat) : Word := BitVec.ofNat 32 v
def pairGroup (v : Nat) : Nat := v / 2 ^ 32

/-- The part of a fill and its bounds suit the tile (R237 item 2). -/
def fillOk (part : BzPart) (t : Tile) (k0 n : Nat) : Bool :=
  n ≠ 0 && k0 + n ≤ t.groups &&
    match part with
    | .data => true
    | .cscale => !t.isA && t.fmt.fp8 && k0 = 0 && n = 1
    | .bscale => t.fmt.narrow
    | .band => t.fmt.narrow && k0 % 2 = 0 && n % 2 = 0

/-- A page of a range that translates is a D page. -/
def touchesD (s : State) (t : Tid) : Nat → DWord → Nat → Bool
  | 0, _, _ => false
  | fuel + 1, va, n =>
    if n = 0 then false
    else
      let m := min n (65536 - va.toNat % 65536)
      (match translateNow s (threadCore s t) (threadPart s t) (threadPasid s t) va with
        | some l => canonical va && l.ty = .d
        | none => false) || touchesD s t fuel (va + BitVec.ofNat 64 m) (n - m)

/-- Checks of a memory range that an engine instruction names, each over every page before the next: D pages,
alignment, translation, permission, held ranges (R164, R176, R237, R242, R249). `num` is TADDR of an operand fault. -/
def engineRange (s : State) (t : Tid) (store : Bool) (num : Nat) (addr : DWord) (pitch : Word) (len : Nat) :
    Except Exc (List (Nat × Nat × Leaf)) :=
  if touchesD s t (len / 65536 + 2) addr len then .error (operandFault num)
  else if addr.toNat % 16 ≠ 0 || pitch.toNat % 16 ≠ 0 then .error { code := .misalign, addr := addr }
  else
    let pieces (need : Leaf → Option Code) := piecesOf s (threadCore s t) (threadPart s t) (threadPasid s t) need addr len
    match pieces fun _ => none, pieces (engineNeed store) with
    | .error e, _ => .error e
    | .ok _, .error e => .error e
    | .ok _, .ok ps =>
      if piecesFree s (threadCore s t) store ps then .ok ps
      else .error { code := .rangeLock, addr := addr }

/-- The first page that an instruction's range has still to walk: its checks come once every page is translated, or
its walk has failed (R164, R249, R330). -/
def rangeWants (s : State) (t : Tid) (addr : DWord) (len : Nat) : Option DWord :=
  rangeMiss s (threadCore s t) (threadPasid s t) (getThread s t).walkFails addr len

/-- The walks that an instruction's range needs come first: the thread parks for each miss (R164, R330). -/
def walksFirst (s : State) (t : Tid) (addr : DWord) (len : Nat) (k : State → State) : State :=
  match rangeWants s t addr len with
  | some va => missPark s t va
  | none => k (modThread s t fun th => { th with walkFails := [] })

/-- Banks that a scratchpad range touches. -/
def banksOf (off len : Nat) : List Nat :=
  if len = 0 then []
  else (List.range ((off + len - 1) / bankBytes - off / bankBytes + 1)).map (off / bankBytes + ·)

/-- Checks of a scratchpad range that an engine instruction names (R167, R237, R255). -/
def scratchRange (s : State) (gang off len : Nat) : Option Code :=
  if (getGang s gang).nbanks * bankBytes < off + len then some .scratchBound
  else if !(banksOf off len).all fun b => (getBank s gang b).isScratch then some .bankMode
  else none

/-- The claim of a fill's source, checked (R237). -/
def fillClaim (s : State) (t : Tid) (sp : Bool) (h : Nat) (addr : Nat) (pitch : Word) (len : Nat) :
    Except Exc Claim :=
  let gang := (threadGroup s t).gang
  if sp then
    if addr % 16 ≠ 0 || pitch.toNat % 16 ≠ 0 then
      .error { code := .misalign, addr := BitVec.ofNat 64 addr }
    else match scratchRange s gang addr len with
      | some c => .error { code := c, addr := BitVec.ofNat 64 addr }
      | none =>
        if scratchHit s gang addr len false then
          .error { code := .rangeLock, addr := BitVec.ofNat 64 addr }
        else .ok (.scratch false gang addr len)
  else match engineRange s t false h (BitVec.ofNat 64 addr) pitch len with
    | .error e => .error e
    | .ok ps => .ok (.mem false ps)

/-- CNT.MX rises. -/
def countMx (s : State) (t : Tid) : State := modThread s t fun th => { th with cntMx := th.cntMx + 1 }

/-- A fill starts once its claim is checked and its ranges are free (R232, R237). -/
def startFill (s : State) (t : Tid) (kind : OpKind) (c : Except Exc Claim) : State :=
  match c with
  | .error x => takeTrap s t x
  | .ok c =>
    if 255 ≤ (getThread s t).cntMx then parkRetry s t (.count 3)
    else if !claimsFree s (threadCore s t) [c] then parkRetry (claimAsk s [c]) t (claimWait s [c])
    else advance (countMx (startOp s t kind [c]).2 t) t

/-- `BZLD` (R232, R237). -/
def execBzld (part : BzPart) (o : Ops) (s : State) : Host.Outcome State Fault Refusal :=
  issue (.bzld part o) (fun cx s =>
    let h := pairHandle (cx.a s)
    let k0 := pairGroup (cx.a s)
    let n := bitsOf cx.o.imm 0 12
    let tr := cx.o.mod.getLsbD 0
    let sp := cx.o.mod.getLsbD 1
    let pitch := BitVec.ofNat 32 (cx.c s)
    match liveTile (threadGang s cx.t) h with
    | none => takeTrap s cx.t { code := .tileFree, addr := h.setWidth 64 }
    | some (e, tile) =>
      if !fillOk part tile k0 n then takeTrap s cx.t (operandFault h.toNat)
      else
        let addr : DWord := BitVec.ofNat 64 (cx.b s)
        let len := fillLen part tile n pitch tr
        let start (s : State) : State :=
          startFill s cx.t (.bzld part e k0 n addr pitch tr sp) (fillClaim s cx.t sp h.toNat (cx.b s) pitch len)
        if sp then start s
        else walksFirst s cx.t addr len start) s

/-- An operation or a pending signing of the gang names a tile (R238). -/
def tileBusy (s : State) (gang e : Nat) : Bool :=
  opNames s gang e || (getGang s gang).groups.any fun g => groupSigns s g e

/-- `BZFREE` (R238). -/
def execBzfree (o : Ops) (s : State) : Host.Outcome State Fault Refusal :=
  issue (.bzfree o) (fun cx s =>
    let h := BitVec.ofNat 32 (cx.a s)
    let gang := (threadGroup s cx.t).gang
    match liveTile (getGang s gang) h with
    | none => takeTrap s cx.t { code := .tileFree, addr := h.setWidth 64 }
    | some (e, _) =>
      if tileBusy s gang e then parkRetry s cx.t (.tile e)
      else
        advance (modGang s gang fun g =>
          { g with tiles := mdel g.tiles e, gens := mset 0 g.gens e ((mget 0 g.gens e + 1) % 256) })
          cx.t) s

/-! ## Signing -/

/-- The destination that an `MST` checks at its first signing, in physical pieces (R242). -/
def mstPieces (s : State) (t : Tid) (kind : SignKind) : List (Nat × Nat × Leaf) :=
  match kind with
  | .mst _ fmt _ addr pitch tr _ _ _ =>
    match piecesOf s (threadCore s t) (threadPart s t) (threadPasid s t) (engineNeed true) addr
        (mstLen fmt pitch tr) with
    | .ok ps => ps
    | .error _ => []
  | .mmaLb _ _ _ _ | .mmaBb _ _ _ _ _ _ _ | .macz _ _ | .maczRel _ | .mrd _ _ _ => []

/-- A signature is recorded (R230). -/
def recordSign (s : State) (t : Tid) (j : Nat) (kind : SignKind) (row : SignRow) : State :=
  let pc := (getThread s t).pc
  let dest := mstPieces s t kind
  let s := modSet s t.grp j fun x =>
    { x with signing := match x.signing with
        | some sg => some { sg with rows := mput sg.rows (laneOf t.gi) row }
        | none => some { pc := pc, kind := kind, rows := [(laneOf t.gi, row)], dest := dest } }
  let s := match kind with
    | .macz _ acc => modAcc s (threadGroup s t).gang acc fun a =>
        { a with reserved := if a.bound.isNone then some (t.grp, j) else a.reserved }
    | .mmaLb _ _ _ _ | .mmaBb _ _ _ _ _ _ _ | .maczRel _ | .mrd _ _ _ | .mst _ _ _ _ _ _ _ _ _ => s
  countMx s t

/-- A signer of `MRD` parks until its registers are written; another goes on, or, when its signature
completes a signing that finds no free entry, parks until one is free (R230, R231, R241). -/
def afterSign (s : State) (t : Tid) (j : Nat) (kind : SignKind) (op : Option Nat) : State :=
  match kind with
  | .mrd _ _ _ => park s t (.mrd j)
  | .mmaLb _ _ _ _ | .mmaBb _ _ _ _ _ _ _ | .macz _ _ | .maczRel _ | .mst _ _ _ _ _ _ _ _ _ =>
    match op with
    | some k =>
      let waiting : Bool := match mfind s.ops k with
        | some o => decide (o.phase = .claiming) || !reserved s k
        | none => false
      if waiting then park s t (.reservation k) else advance s t
    | none => advance s t

/-- A signed instruction (R230): the checks of the set, of the operands, and of agreement; then the
signature. `check` gives the fault of the operands at a first or a later signing. -/
def signWith (cx : Ctx) (s : State) (kind : SignKind) (row : SignRow) (check : Option Exc) : State :=
  let t := cx.t
  let j := setNum cx.o
  let x := getSet s t.grp j
  let num := BitVec.ofNat 64 j
  if !x.has t.gi then takeTrap s t { code := .setNotMember, addr := num }
  else if !x.lx then takeTrap s t { code := .setMode, addr := num }
  else if hasSigned x t.gi then parkRetry s t (.signing j)
  else if (x.signing.any fun sg => sg.pc ≠ (getThread s t).pc) then
    takeTrap s t { code := .setMismatch, addr := num }
  else match check with
    | some e => takeTrap s t e
    | none =>
      if x.signing.any fun sg => sg.kind ≠ kind then takeTrap s t (operandFault 0)
      else if 255 ≤ (getThread s t).cntMx then parkRetry s t (.count 3)
      else
        let (op, s) := checkSigning (recordSign s t j kind row) t.grp j
        afterSign s t j kind op

/-- The accumulator is bound or reserved to another set (R239). -/
def accOther (a : Accum) (me : Nat × Nat) : Bool :=
  (a.bound.any fun b => b ≠ me) || (a.reserved.any fun b => b ≠ me)

/-- Checks of an accumulator that an instruction uses (R239); `fp` is the type it needs, if any. -/
def accCheck (s : State) (cx : Ctx) (acc : Nat) (fp : Option Bool) : Option Exc :=
  let me := (cx.t.grp, setNum cx.o)
  let g := threadGang s cx.t
  let a := mget {} g.accs acc
  if accCount g ≤ acc then some (operandFault acc)
  else if accOther a me then some { code := .accBusy, addr := BitVec.ofNat 64 acc }
  else if a.bound.isNone || (fp.any fun f => f ≠ a.fp) then some (operandFault acc)
  else none

def immAcc (o : Ops) : Nat := bitsOf o.imm 0 3

/-- Table 11-1: an A format with a B tile's format (R226). -/
def combines (ty : Ty) (f : TileFmt) : Bool :=
  match ty with
  | .bf16 => f = .bf16 || f.narrow
  | .f16 => f = .f16 || f.narrow
  | .e4m3 | .e5m2 => f.fp8
  | .i8 => f = .i8
  | .n8 | .n16 | .n32 | .n64 | .i16 | .i32 | .i64 | .f64 | .f32 | .e2m1 | .b128 => false

/-- The row scale that a signer supplies (R229). -/
def scaleOf (cx : Ctx) (s : State) : Word :=
  match cx.f.dst with
  | .reg _ _ => if cx.o.dst = .gz then 0x3F800000 else BitVec.ofNat 32 (cx.d s)
  | _ => 0x3F800000

/-- Checks of the tiles of an `MMA` (R240), TILE_FREE first. -/
def mmaTiles (g : Gang) (ty : Ty) (at_ : Option (Word × Nat)) (bt : Word) (b0 n : Nat) :
    Option Exc × Option Exc :=
  match liveTile g bt with
  | none => (some { code := .tileFree, addr := bt.setWidth 64 }, none)
  | some (_, b) =>
    let okB := !b.isA && combines ty b.fmt && b0 + n ≤ b.groups
    match at_ with
    | none => (none, if okB then none else some (operandFault bt.toNat))
    | some (h, a0) =>
      match liveTile g h with
      | none => (some { code := .tileFree, addr := h.setWidth 64 }, none)
      | some (_, a) =>
        let okA := a.isA && tileTy a.fmt = ty && a0 + n ≤ a.groups && groupSize a.fmt = groupSize b.fmt
        (none, if !okB then some (operandFault bt.toNat)
               else if okA then none else some (operandFault h.toNat))

/-- The first of the faults of an `MMA` (R249). -/
def mmaCheck (cx : Ctx) (s : State) (at_ : Option (Word × Nat)) (bt : Word) (b0 n : Nat) : Option Exc :=
  let (free, shape) := mmaTiles (threadGang s cx.t) cx.o.ty at_ bt b0 n
  let acc := accCheck s cx (immAcc cx.o) (some (cx.o.ty ≠ .i8))
  match free, acc with
  | some e, _ => some e
  | none, some e => if e.code = .accBusy then some e else shape.or (some e)
  | none, none => shape

/-- The A row in 16 registers. -/
def rowRegs (cx : Ctx) (s : State) : List Word :=
  match cx.o.b with
  | .g n => (List.range 16).map fun i => readReg s cx.t cx.snap (n.val + i)
  | .k _ | .gz | .idx _ | .imm | .s _ | .p _ | .x _ | .j _ | .sh _ | .tk _ | .sp _ => []

/-- `MMA.lb` (R240). -/
def execMmaLb (o : Ops) (s : State) : Host.Outcome State Fault Refusal :=
  issue (.mmaLb o) (fun cx s =>
    let bt := pairHandle (cx.c s)
    let b0 := pairGroup (cx.c s)
    signWith cx s (.mmaLb cx.o.ty bt b0 (immAcc cx.o))
      { gi := cx.t.gi, row := rowRegs cx s, scale := scaleOf cx s } (mmaCheck cx s none bt b0 1)) s

/-- `MMA.bb` (R240). -/
def execMmaBb (o : Ops) (s : State) : Host.Outcome State Fault Refusal :=
  issue (.mmaBb o) (fun cx s =>
    let bt := pairHandle (cx.c s)
    let b0 := pairGroup (cx.c s)
    let at_ := pairHandle (cx.b s)
    let a0 := pairGroup (cx.b s)
    let n := bitsOf cx.o.imm 4 12
    signWith cx s (.mmaBb cx.o.ty at_ a0 bt b0 (immAcc cx.o) n)
      { gi := cx.t.gi, scale := scaleOf cx s } (mmaCheck cx s (some (at_, a0)) bt b0 n)) s

/-- `MACZ` (R239). -/
def execMacz (o : Ops) (s : State) : Host.Outcome State Fault Refusal :=
  issue (.macz o) (fun cx s =>
    let acc := immAcc cx.o
    let g := threadGang s cx.t
    let check : Option Exc :=
      if accCount g ≤ acc then some (operandFault acc)
      else if accOther (mget {} g.accs acc) (cx.t.grp, setNum cx.o) then
        some { code := .accBusy, addr := BitVec.ofNat 64 acc }
      else none
    signWith cx s (.macz (cx.o.ty = .f32) acc) { gi := cx.t.gi } check) s

/-- `MACZ.rel` (R239). -/
def execMaczRel (o : Ops) (s : State) : Host.Outcome State Fault Refusal :=
  issue (.maczRel o) (fun cx s =>
    let acc := immAcc cx.o
    let g := threadGang s cx.t
    let check : Option Exc :=
      if accCount g ≤ acc then some (operandFault acc)
      else if (mget {} g.accs acc).bound ≠ some (cx.t.grp, setNum cx.o) then
        some { code := .accBusy, addr := BitVec.ofNat 64 acc }
      else none
    signWith cx s (.maczRel acc) { gi := cx.t.gi } check) s

/-- The 16 registers that `MRD` writes. -/
def blockDest (x : Opnd) : Dest :=
  match x with
  | .g n => .reg n.val 16
  | .k _ | .gz | .idx _ | .imm | .s _ | .p _ | .x _ | .j _ | .sh _ | .tk _ | .sp _ => .none

/-- `MRD` (R241). -/
def execMrd (o : Ops) (s : State) : Host.Outcome State Fault Refusal :=
  issue (.mrd o) (fun cx s =>
    let fp := cx.o.ty = .f32
    signWith cx s (.mrd fp (immAcc cx.o) (bitsOf cx.o.imm 4 2))
      { gi := cx.t.gi, dst := blockDest cx.o.dst } (accCheck s cx (immAcc cx.o) (some fp))) s

/-- The output format suits the accumulator (R242). -/
def mstFmtOk (fp : Bool) (o : Ops) : Bool :=
  if fp then o.ty ≠ .i32
  else o.ty ≠ .i32 || (o.dst = .gz && !o.mod.getLsbD 3 && !o.imm.getLsbD 15)

/-- Checks of an `MST`'s accumulator and format (R242). -/
def mstOperands (cx : Ctx) (s : State) : Option Exc :=
  let acc := immAcc cx.o
  match accCheck s cx acc none with
  | some e => some e
  | none => if mstFmtOk (mget {} (threadGang s cx.t).accs acc).fp cx.o then none else some (operandFault acc)

/-- The check of an `MST`'s destination (R242). -/
def mstRange (cx : Ctx) (s : State) (addr : DWord) (pitch : Word) : Except Exc (List (Nat × Nat × Leaf)) :=
  engineRange s cx.t true (immAcc cx.o) addr pitch (mstLen cx.o.ty pitch (cx.o.mod.getLsbD 0))

/-- Checks of `MST` (R242, R249); the destination is checked at the first signing. -/
def mstCheck (cx : Ctx) (s : State) (addr : DWord) (pitch : Word) : Option Exc :=
  match mstOperands cx s with
  | some e => some e
  | none =>
    if (getSet s cx.t.grp (setNum cx.o)).signing.isSome then none
    else match mstRange cx s addr pitch with
      | .error e => some e
      | .ok _ => none

/-- An `MST` has come to the check of its destination: it is the first to sign, and every check before that one
holds (R230, R242, R249). -/
def mstAtRange (cx : Ctx) (s : State) : Bool :=
  let x := getSet s cx.t.grp (setNum cx.o)
  x.has cx.t.gi && x.lx && x.signing.isNone && (mstOperands cx s).isNone

/-- `MST` (R242). -/
def execMst (o : Ops) (s : State) : Host.Outcome State Fault Refusal :=
  issue (.mst o) (fun cx s =>
    let acc := immAcc cx.o
    let addr := BitVec.ofNat 64 (cx.b s)
    let pitch := BitVec.ofNat 32 (cx.c s)
    let cell := if cx.o.imm.getLsbD 15 then some (bitsOf cx.o.imm 8 6) else none
    let tr := cx.o.mod.getLsbD 0
    let sign (s : State) : State :=
      signWith cx s
        (.mst (mget {} (threadGang s cx.t).accs acc).fp cx.o.ty acc addr pitch tr (cx.o.mod.getLsbD 3)
          (scaleOf cx s) cell)
        { gi := cx.t.gi } (mstCheck cx s addr pitch)
    if mstAtRange cx s then
      walksFirst s cx.t addr (mstLen cx.o.ty pitch tr) sign
    else sign s) s

/-! ## Amax cells and status -/

/-- The cell that IMM names. -/
def immCell (o : Ops) : Nat := bitsOf o.imm 0 6

/-- An amax cell of the thread's partition (R243). -/
def amaxCell (s : State) (t : Tid) (c : Nat) : Word := mget 0 (getPart s (threadPart s t)).amax c
def setCell (s : State) (p c : Nat) (v : Word) : State :=
  modPart s p fun x => { x with amax := mset 0 x.amax c v }

/-- `AMXRD` (R244). -/
def execAmxrd (o : Ops) (s : State) : Host.Outcome State Fault Refusal :=
  issue (.amxrd o) (fun cx s =>
    let v := amaxCell s cx.t (immCell cx.o)
    let s := if cx.o.mod.getLsbD 0 then setCell s (threadPart s cx.t) (immCell cx.o) 0 else s
    finish cx s v.toNat) s

/-- `AMXCLR` (R244). -/
def execAmxclr (o : Ops) (s : State) : Host.Outcome State Fault Refusal :=
  issue (.amxclr o) (fun cx s =>
    advance (setCell s (threadPart s cx.t) (immCell cx.o) 0) cx.t) s

/-- MSTAT, Table 11-5 (R245). -/
def mstatWord (s : State) (t : Tid) : Nat :=
  let g := threadGang s t
  let used := g.tiles.foldl (fun n e => n + e.2.units) 0
  let bound := g.accs.foldl (fun n e => if e.2.bound.isSome then n + 2 ^ e.1 else n) 0
  (isPriv s t && (getCluster s (clusterOfCore (threadCore s t))).quenched).toNat * 2 ^ 31 +
    (bezelShare g - used) * 2 ^ 16 + bound * 2 ^ 8 + accCount g * 2 ^ 4

/-- `MSTAT` (R245). -/
def execMstat (o : Ops) (s : State) : Host.Outcome State Fault Refusal :=
  issue (.mstat o) (fun cx s =>
    let v := mstatWord s cx.t
    let s := if isPriv s cx.t then s
      else modThread s cx.t fun th => { th with tsticky := th.tsticky ||| 1 }
    finish cx s v) s

/-! ## Passes -/

/-- Passes of an operation. -/
def passesOf (k : OpKind) : Nat :=
  match k with
  | .sign kind _ _ =>
    match kind with
    | .mmaLb _ _ _ _ => 1
    | .mmaBb _ _ _ _ _ _ n => n
    | .macz _ _ | .maczRel _ | .mrd _ _ _ | .mst _ _ _ _ _ _ _ _ _ => 0
  | .copy _ _ _ _ | .chain _ _ | .bzld _ _ _ _ _ _ _ _ => 0

/-- A ready `MMA` entry of a cluster (R234). -/
def passReady (s : State) (ck : Nat) (o : EngineOp) : Bool :=
  clusterOfCore o.core = ck && o.phase = .running && opMayRun s o && o.done < passesOf o.kind

/-- An entry has waited 64 or more grants since it became ready (R234). -/
def grantLate (o : EngineOp) : Bool := 64 ≤ o.waited

/-- `a` comes before `b` in the arbiter: by waiting, by group priority, by start event (R234). -/
def grantBefore (s : State) (a b : EngineOp) : Bool :=
  if grantLate a ≠ grantLate b then grantLate a
  else if (getGroup s a.grp).prio ≠ (getGroup s b.grp).prio then
    (getGroup s b.grp).prio < (getGroup s a.grp).prio
  else a.start.getD 0 < b.start.getD 0

/-- The entry that the arbiter grants (R234). -/
def grantOf (s : State) (ck : Nat) : NMap EngineOp → Option (Nat × EngineOp)
  | [] => none
  | (k, o) :: m =>
    match grantOf s ck m with
    | none => if passReady s ck o then some (k, o) else none
    | some (j, p) => if passReady s ck o && !grantBefore s p o then some (k, o) else some (j, p)

/-- The accumulator after pass `done` of an operation. -/
def passOf (s : State) (o : EngineOp) : State :=
  let g := getGang s o.gang
  let tile (h : Word) : Tile := mget { isA := false, fmt := .bf16, depth := 0, base := 0, units := 0 } g.tiles (bitsOf h 0 6)
  match o.kind with
  | .sign (.mmaLb ty bt b0 acc) rows _ =>
    modAcc s o.gang acc (passTile ty rows (.rows rows) (tile bt) o.done (b0 + o.done))
  | .sign (.mmaBb ty at_ a0 bt b0 acc _) rows _ =>
    modAcc s o.gang acc (passTile ty rows (.tile (tile at_) a0) (tile bt) o.done (b0 + o.done))
  | _ => s

/-- MATRIX_PASS: one grant (R227, R234). A pass boundary is where an engine enters or leaves Quench
(R246). -/
def execMatrixPass (cluster : Nat) (s : State) : Host.Outcome State Fault Refusal :=
  match grantOf s cluster s.ops with
  | none => .next s
  | some (k, o) =>
    let ready := fun (e : EngineOp) => passReady s cluster e
    let s := passOf s o
    let ops := s.ops.map fun e =>
      (e.1, if e.1 = k then { e.2 with done := e.2.done + 1, waited := 0 }
            else if ready e.2 then { e.2 with waited := e.2.waited + 1 } else e.2)
    .next (modCluster { s with ops := ops } cluster fun c => { c with quenched := s.link.alarm })

/-! ## Ends of operations -/

/-- One register of an `MRD` (R241, R248). -/
def mrdReg (a : Accum) (lane slice : Nat) (t : Tid) (code : Nat) (s : State) (c : Nat) : State :=
  let k := 64 * lane + 16 * slice + c
  setReg s t (code + c) (mget 0 a.data k) (if a.poison.contains k then some 0 else none)

/-- `MRD` writes the registers of one signer, which goes on at the next slot (R241). -/
def mrdRow (grp : Nat) (a : Accum) (slice : Nat) (s : State) (r : Nat × SignRow) : State :=
  let t : Tid := ⟨grp, r.2.gi⟩
  let s := match r.2.dst with
    | .reg code _ => (List.range 16).foldl (mrdReg a r.1 slice t code) s
    | .none | .pred _ | .shape _ => s
  wake s t (nextPc (getThread s t).pc)

/-- Offset of element `k` of an `MST` in its range (R242). -/
def mstAt (fmt : Ty) (pitch : Word) (tr : Bool) (k : Nat) : Nat :=
  let i := k / 64
  let j := k % 64
  if tr then j * pitch.toNat + i * outBytes fmt else i * pitch.toNat + j * outBytes fmt

/-- One element of an `MST` (R242, R248). -/
def mstWrite (core : Nat) (rg : Range) (a : Accum) (fp : Bool) (fmt : Ty) (pitch : Word) (tr sat : Bool) (scale : Word)
    (s : State) (k : Nat) : State :=
  let v := mstElem fp fmt sat scale (mget 0 a.data k)
  rangeWrite core s rg.scratch rg.pieces (mstAt fmt pitch tr k) (bytesLE (outBytes fmt) v) (a.poison.contains k)

/-- `n` K-groups of a fill, from the fill's K-group `d` on, are read into their tile (R237). -/
def fillGroups (s : State) (o : EngineOp) (part : BzPart) (e k0 : Nat) (pitch : Word) (tr : Bool) (d n : Nat) : State :=
  match o.ranges, mfind (getGang s o.gang).tiles e with
  | rg :: _, some tile =>
    if n = 0 then s
    else
      let r0 := fillRows part tile d
      let read := piecesIn rg.pieces (fillAt part tile pitch tr r0 0).1 (fillLen part tile n pitch tr)
      drawFree o.core (modTile s o.gang e (fillTile s rg part pitch tr r0 (k0 + d) n)) { rg with pieces := read }
  | _, _ => s

/-- A running fill reads its next K-group, or the two that one row of band scales covers, and records how far it has
come: there a pre-empted fill has stopped (R247; log 57). -/
def fillPart (s : State) (op : Nat) (o : EngineOp) (part : BzPart) (e k0 n : Nat) (pitch : Word) (tr : Bool) : State :=
  let m := min (if part = .band then 2 else 1) (n - o.done)
  modOp (fillGroups s o part e k0 pitch tr o.done m) op fun o => { o with done := o.done + m }

/-- What an operation of the matrix engine does as it finishes: a fill reads the K-groups that are left. The elements
of an `MST` are written in ascending (i, j): where a short pitch lays several over one byte, the last one stands
(DESIGN CHOICE, log 56). -/
def matrixEffect (s : State) (o : EngineOp) : State :=
  match o.kind with
  | .bzld part e k0 n _ pitch tr _ => fillGroups s o part e k0 pitch tr o.done (n - o.done)
  | .sign kind rows _ =>
    match kind with
    | .macz _ acc => modAcc s o.gang acc fun a => { a with data := [], poison := [] }
    | .mrd _ acc slice => rows.foldl (mrdRow o.grp (getAcc s o.gang acc) slice) s
    | .mst fp fmt acc _ pitch tr sat scale cell =>
      let a := getAcc s o.gang acc
      let s := match o.ranges with
        | rg :: _ =>
          let ks := List.range 2048
          reportLost (ks.foldl (mstWrite o.core rg a fp fmt pitch tr sat scale) s) o.core rg
            (ks.map fun k => (mstAt fmt pitch tr k, outBytes fmt))
        | [] => s
      let s := if a.poison.isEmpty then s else report s (.poisonMet (dieOfCore o.core))
      match cell with
      | some c =>
        let p := (partOfDie s (dieOfCore o.core)).getD 8
        setCell s p c (amaxUpdate fp a (mget 0 (getPart s p).amax c))
      | none => s
    | .mmaLb _ _ _ _ | .mmaBb _ _ _ _ _ _ _ | .maczRel _ => s
  | .copy _ _ _ _ | .chain _ _ => s

/-- An operation of the matrix engine may finish: its passes are made, and a fill's gang runs (R247). -/
def matrixDone (s : State) (o : EngineOp) : Bool :=
  o.phase = .running && passesOf o.kind ≤ o.done &&
    match o.kind with
    | .bzld _ _ _ _ _ _ _ _ => opMayRun s o
    | .sign _ _ _ => true
    | .copy _ _ _ _ | .chain _ _ => false

/-- MATRIX_OP_FINISH (R232). -/
def execMatrixOpFinish (op : Nat) (s : State) : Host.Outcome State Fault Refusal :=
  match mfind s.ops op with
  | none => .next s
  | some o => .next (if matrixDone s o then finishOp (matrixEffect s o) op true else s)

end Sys2Proof.Machine
end

