-- ==== Sys2Proof/Machine/Ladle.lean ====
section
/-! DEFINITION. The Ladle: copies, tokens, and the events of a copy (R252 to R269). -/

namespace Sys2Proof.Machine

/-! ## Operands of a copy -/

/-- Copy fields of a shape register, Table 13-3. -/
def cpRows (x : Shape) : Nat := bitsOf x 0 32
def cpRowBytes (x : Shape) : Nat := bitsOf x 32 32
def cpSrcPitch (x : Shape) : Nat := bitsOf x 64 32
def cpDstPitch (x : Shape) : Nat := bitsOf x 96 32
def cpCount (x : Shape) : Nat := bitsOf x 128 32
def cpElem (x : Shape) : Nat := bitsOf x 160 8
def cpIdxSp (x : Shape) : Bool := x.getLsbD 168
def cpSpan (x : Shape) : Nat := bitsOf x 192 64
def cpIdx (x : Shape) : Nat := if cpIdxSp x then bitsOf x 256 32 else bitsOf x 256 64

/-- A shape is legal for `CPY2D` (R259). -/
def rowsShapeOk (x : Shape) : Bool :=
  bitsOf x 128 384 = 0 && (cpRows x ≤ 1 || cpRowBytes x ≤ cpDstPitch x)

/-- A shape is legal for `CPYG` and `CPYS` (R259). With COUNT = 0 every SPAN suits an ESIZE of 0 (DESIGN CHOICE,
log 67). -/
def gatherShapeOk (x : Shape) : Bool :=
  bitsOf x 0 128 = 0 && bitsOf x 320 192 = 0 && bitsOf x 169 23 = 0 && bitsOf x 256 64 % 4 = 0 &&
    cpSpan x ≤ 2 ^ 40 && (cpElem x = 0 || cpSpan x % cpElem x = 0) &&
    cpCount x * cpElem x ≤ 0xFFFFFFF0 &&
    (cpCount x = 0 || ([4, 8, 16].contains (cpElem x) && cpSpan x ≠ 0))

/-- One range of a copy: a place, its length, and whether it is the destination. -/
structure Side where
  sp : Bool
  addr : DWord
  len : Nat
  dst : Bool
  deriving DecidableEq, Repr

/-- Length of rows (R260); a copy of no bytes has none. -/
def rowsLen (rows bytes pitch : Nat) : Nat :=
  if rows = 0 || bytes = 0 then 0 else (rows - 1) * pitch + bytes

/-- Bytes that a copy moves. -/
def copyBytes (k : CopyKind) : Nat :=
  match k with
  | .flat _ _ len => len
  | .rows _ _ x => cpRows x * cpRowBytes x
  | .gather _ _ x => cpCount x * cpElem x
  | .scatter _ _ x => cpCount x * cpElem x
  | .fifo _ _ len => len

/-- The index list of a gather or scatter (R261). -/
def idxSide (x : Shape) : Side :=
  { sp := cpIdxSp x, addr := BitVec.ofNat 64 (cpIdx x), len := 4 * cpCount x, dst := false }

/-- The ranges of a copy: source, destination, index list (R258 to R262). -/
def copySides (k : CopyKind) (spd sps : Bool) : List Side :=
  let src (s : DWord) (n : Nat) : Side := { sp := sps, addr := s, len := n, dst := false }
  let dest (d : DWord) (n : Nat) : Side := { sp := spd, addr := d, len := n, dst := true }
  match k with
  | .flat d s len => [src s len, dest d len]
  | .rows d s x =>
    [src s (rowsLen (cpRows x) (cpRowBytes x) (cpSrcPitch x)),
     dest d (rowsLen (cpRows x) (cpRowBytes x) (cpDstPitch x))]
  | .gather d s x =>
    [src s (cpSpan x), dest d (copyBytes k), idxSide x]
  | .scatter d s x =>
    [src s (copyBytes k), dest d (cpSpan x), idxSide x]
  | .fifo _ s len => [src s len]

/-! ## Issue -/

/-- The first scratchpad range that the gang's banks do not serve: the index list, the source, the
destination (R255). A range of no bytes touches no bank. -/
def copyPlaces (s : State) (gang : Nat) (sides : List Side) : Option Exc :=
  (sides.drop 2 ++ sides.take 2).findSome? fun x =>
    if x.sp then
      (scratchRange s gang x.addr.toNat x.len).map fun c => { code := c, addr := x.addr }
    else none

/-- Checks of the bank and length of a `CPYCB` (R262). -/
def copyFifo (s : State) (t : Tid) (k : CopyKind) : Option Exc :=
  match k with
  | .fifo b _ len =>
    let gang := (threadGroup s t).gang
    if (getGang s gang).nbanks ≤ b then some { code := .scratchBound, addr := BitVec.ofNat 64 b }
    else match (getBank s gang b).mode with
      | .fifo _ =>
        if len % slotBytes (getBank s gang b).mode ≠ 0 || 0xFFFFFFF0 < len then
          some { code := .misalign, addr := BitVec.ofNat 64 len }
        else none
      | .cache | .scratch => some { code := .bankMode, addr := BitVec.ofNat 64 b }
  | .flat _ _ _ | .rows _ _ _ | .gather _ _ _ | .scatter _ _ _ => none

/-- Physical pieces of the pages of a range that translate. The Ladle checks the rest later (R256). -/
def loosePieces (s : State) (core p pasid : Nat) : Nat → DWord → Nat → List (Nat × Nat × Leaf)
  | 0, _, _ => []
  | fuel + 1, va, n =>
    if n = 0 then []
    else match (if canonical va then translateNow s core p pasid va else none) with
      | some l =>
        let m := min n (2 ^ l.bits - va.toNat % 2 ^ l.bits)
        (l.pa va, m, l) :: loosePieces s core p pasid fuel (va + BitVec.ofNat 64 m) (n - m)
      | none =>
        let m := min n (65536 - va.toNat % 65536)
        loosePieces s core p pasid fuel (va + BitVec.ofNat 64 m) (n - m)

/-- What a copy takes of a range at issue (R195). -/
def sideClaim (s : State) (t : Tid) (x : Side) : Claim :=
  if x.sp then .scratch x.dst (threadGroup s t).gang x.addr.toNat x.len
  else
    .mem x.dst (loosePieces s (threadCore s t) (threadPart s t) (threadPasid s t)
      (x.len / 65536 + 2) x.addr x.len)

def getToken (s : State) (t : Tid) (n : Nat) : Token := mget .empty (getThread s t).tokens n
def setToken (s : State) (t : Tid) (n : Nat) (v : Token) : State :=
  modThread s t fun th => { th with tokens := mset .empty th.tokens n v }

/-- The first value that is not a multiple of `m`; every value suits 0 (DESIGN CHOICE, log 67). -/
def misaligned (m : Nat) (vs : List Nat) : Option Nat := if m = 0 then none else vs.find? fun v => v % m ≠ 0

/-- The issuing thread of an operation. -/
def opThread (o : EngineOp) : Tid := ⟨o.grp, o.threads.headD 0⟩

/-- The PASID of an operation. -/
def opPasid (s : State) (o : EngineOp) : Nat := threadPasid s (opThread o)

/-- The first page of a copy's memory ranges that the issuing core's cache does not hold and whose walk has not
failed (R330). -/
def copyMiss (s : State) (o : EngineOp) : Option DWord :=
  match o.kind with
  | .copy kind spd sps _ =>
    (copySides kind spd sps).findSome? fun x =>
      if x.sp then none else rangeMiss s o.core (opPasid s o) o.walkFails x.addr x.len
  | .chain _ _ | .bzld _ _ _ _ _ _ _ _ | .sign _ _ _ => none

/-- A copy of a lower lane of the same pack has still to take its ranges: its start event comes first (R255). -/
def copyBehind (s : State) (k : Nat) (o : EngineOp) : Bool :=
  s.ops.any fun e => e.1 < k && isCopy e.2.kind && e.2.phase = .claiming && e.2.grp = o.grp && e.2.pack = o.pack

/-- A captured copy takes its entries and lock records when its pages are translated and they are free, and starts
(R195). -/
def claimCopy (s : State) (k : Nat) : State :=
  match mfind s.ops k with
  | none => s
  | some o =>
    match o.kind, o.phase with
    | .copy kind spd sps _, .claiming =>
      let cs := (copySides kind spd sps).map (sideClaim s (opThread o))
      if !opMayRun s o || copyBehind s k o || (copyMiss s o).isSome then s
      else if claimsFree s o.core cs then takeClaims s k o.core cs else claimAsk s cs
    | _, _ => s

/-- The copy's ranges are taken and the Ladle holds it (R195, R266). -/
def copyHeld (s : State) (k : Nat) : Bool :=
  match mfind s.ops k with
  | none => true
  | some o => o.phase ≠ .claiming && accepted s k

/-- The operands are captured, the token is PENDING and the copy counted; then it starts, and the thread goes
on once the Ladle holds it (R255, R266). -/
def startCopy (s : State) (t : Tid) (tk : Nat) (k : CopyKind) (spd sps : Bool) : State :=
  let (op, s) := addOp s t.grp [t.gi] (.copy k spd sps tk)
  let pack := (getCore s (threadCore s t)).packs
  let s := modOp s op fun o => { o with pack := pack }
  let s := setToken s t tk (.pending op)
  let s := modThread s t fun th => { th with cntCp := th.cntCp + 1 }
  let s := claimCopy s op
  if copyHeld s op then advance s t else park s t (.ladle op)

/-- A copy instruction (R255). `vs` are the values that must be multiples of `m`. -/
def issueCopy (cx : Ctx) (k : CopyKind) (shapeOk : Bool) (m : Nat) (vs : List Nat) (s : State) : State :=
  let t := cx.t
  let tk := opndNum cx.o.dst
  let spd := cx.o.mod.getLsbD 0
  let sps := cx.o.mod.getLsbD 1
  let sides := copySides k spd sps
  if getToken s t tk ≠ .empty then takeTrap s t { code := .tokenBusy, addr := BitVec.ofNat 64 tk }
  else if !shapeOk then takeTrap s t (operandFault 0)
  else match misaligned m vs with
    | some v => takeTrap s t { code := .misalign, addr := BitVec.ofNat 64 v }
    | none =>
      match (copyPlaces s (threadGroup s t).gang sides).or (copyFifo s t k) with
      | some e => takeTrap s t e
      | none =>
        if copyBytes k = 0 then advance (setToken s t tk .done) t
        else if 255 ≤ (getThread s t).cntCp then parkRetry s t (.count 2)
        else startCopy s t tk k spd sps

/-- A place operand. -/
def placeA (cx : Ctx) (s : State) : DWord := BitVec.ofNat 64 (cx.a s)
def placeB (cx : Ctx) (s : State) : DWord := BitVec.ofNat 64 (cx.b s)

/-- The shape that SRC_C names. -/
def shapeC (cx : Ctx) (s : State) : Shape := readShape s cx.t (opndNum cx.o.c)

/-- `CPY` (R258). -/
def execCpy (o : Ops) (s : State) : Host.Outcome State Fault Refusal :=
  issue (.cpy o) (fun cx s =>
    issueCopy cx (.flat (placeA cx s) (placeB cx s) (cx.c s)) true 16 [cx.a s, cx.b s, cx.c s] s) s

/-- `CPY2D` (R260). -/
def execCpy2d (o : Ops) (s : State) : Host.Outcome State Fault Refusal :=
  issue (.cpy2d o) (fun cx s =>
    let x := shapeC cx s
    issueCopy cx (.rows (placeA cx s) (placeB cx s) x) (rowsShapeOk x) 16
      [cx.a s, cx.b s, cpRowBytes x, cpSrcPitch x, cpDstPitch x] s) s

/-- `CPYG` (R261). -/
def execCpyg (o : Ops) (s : State) : Host.Outcome State Fault Refusal :=
  issue (.cpyg o) (fun cx s =>
    let x := shapeC cx s
    issueCopy cx (.gather (placeA cx s) (placeB cx s) x) (gatherShapeOk x) (cpElem x)
      [cx.a s, cx.b s] s) s

/-- `CPYS` (R261). -/
def execCpys (o : Ops) (s : State) : Host.Outcome State Fault Refusal :=
  issue (.cpys o) (fun cx s =>
    let x := shapeC cx s
    issueCopy cx (.scatter (placeA cx s) (placeB cx s) x) (gatherShapeOk x) (cpElem x)
      [cx.a s, cx.b s] s) s

/-- `CPYCB` (R262). -/
def execCpycb (o : Ops) (s : State) : Host.Outcome State Fault Refusal :=
  issue (.cpycb o) (fun cx s =>
    issueCopy cx (.fifo (immBank cx.o) (placeB cx s) (cx.c s)) true 16 [cx.b s] s) s

/-! ## Tokens -/

/-- The token that an operand names. -/
def tokenA (cx : Ctx) : Nat := opndNum cx.o.a

/-- `TKWAIT` past the check of its successor (R263). -/
def waitToken (s : State) (t : Tid) (n : Nat) (next : DWord) : State :=
  match getToken s t n with
  | .empty => endBlock s t next
  | .done => endBlock (setToken s t n .empty) t next
  | .pending _ => park s t (.token n)
  | .faulted e => takeTrapWith (setToken s t n .empty) t e (getThread s t).pc flagToken

/-- `TKWAIT` (R263). -/
def execTkwait (o : Ops) (s : State) : Host.Outcome State Fault Refusal :=
  issue (.tkwait o) (fun cx s =>
    let next := nextPc (getThread s cx.t).pc
    transfer s cx.t next fun s => waitToken s cx.t (tokenA cx) next) s

/-- A token whose copy has not finished. -/
def Token.isPending (k : Token) : Bool :=
  match k with
  | .pending _ => true
  | .empty | .done | .faulted _ => false

/-- `TKTEST` (R264). -/
def execTktest (o : Ops) (s : State) : Host.Outcome State Fault Refusal :=
  issue (.tktest o) (fun cx s => finishP cx s (!(getToken s cx.t (tokenA cx)).isPending)) s

/-- `TKDROP` (R265). -/
def execTkdrop (o : Ops) (s : State) : Host.Outcome State Fault Refusal :=
  issue (.tkdrop o) (fun cx s => advance (setToken s cx.t (tokenA cx) .empty) cx.t) s

/-! ## Checks of the Ladle -/

/-- Pieces of a side, every page checked (R256). -/
def sidePieces (s : State) (t : Tid) (x : Side) : Except Exc (List (Nat × Nat × Leaf)) :=
  piecesOf s (threadCore s t) (threadPart s t) (threadPasid s t) (engineNeed x.dst) x.addr x.len

/-- The claim of a checked side. -/
def sideChecked (s : State) (t : Tid) (x : Side) : Except Exc Claim :=
  if x.sp then .ok (.scratch x.dst (threadGroup s t).gang x.addr.toNat x.len)
  else match sidePieces s t x with
    | .error e => .error e
    | .ok ps => .ok (.mem x.dst ps)

/-- Index word i, and whether it is poisoned. -/
def idxWord (s : State) (rg : Range) (i : Nat) : Nat × Bool :=
  let (bs, bad) := rangeBytes s rg (4 * i) 4
  (ofBytesLE bs, bad)

/-- An index beyond its span, R261; poison never makes a copy fault (R268). -/
def idxOver (s : State) (rg : Range) (es span i : Nat) : Bool :=
  let (v, bad) := idxWord s rg i
  !bad && span < (v + 1) * es

/-- Reads of an operation that have failed (R268). -/
def EngineOp.lost (o : EngineOp) : List (Nat × Nat) := o.ranges.flatMap fun r => r.lost

/-- The part of an index list that the check reads, with its count of words, and the fault of the page after it. -/
def idxPart (s : State) (t : Tid) (x : Side) (lost : List (Nat × Nat)) : Option (Range × Nat) × Option Exc :=
  let part (n : Nat) (c : Claim) : Range × Nat := ({ claimRange s (threadCore s t) c with lost := lost }, n / 4)
  match sideChecked s t x with
  | .ok c => (some (part x.len c), none)
  | .error e =>
    let n := (e.addr - x.addr).toNat
    match sideChecked s t { x with len := n } with
    | .ok c => (some (part n c), some e)
    | .error _ => (none, some e)

/-- The first fault of an index list (R257 item 1): an index beyond the span, or a page. -/
def idxFault (s : State) (t : Tid) (x : Side) (es span : Nat) (lost : List (Nat × Nat)) : Option Exc :=
  match idxPart s t x lost with
  | (some (rg, n), e) =>
    ((lowest (idxOver s rg es span) n 0).map fun i => operandFault (x.addr.toNat + 4 * i)).or e
  | (none, e) => e

/-- The check of an index list has read a poisoned word, up to the index that faults (R268). -/
def idxMet (s : State) (t : Tid) (x : Side) (es span : Nat) (lost : List (Nat × Nat)) : Bool :=
  match idxPart s t x lost with
  | (some (rg, n), _) =>
    (List.range ((lowest (idxOver s rg es span) n 0).getD n)).any fun i => (idxWord s rg i).2
  | (none, _) => false

/-- Element size and span of a gather or scatter. -/
def copyElem (k : CopyKind) : Nat × Nat :=
  match k with
  | .gather _ _ x => (cpElem x, cpSpan x)
  | .scatter _ _ x => (cpElem x, cpSpan x)
  | .flat _ _ _ | .rows _ _ _ | .fifo _ _ _ => (0, 0)

/-- Faults of a side as the Ladle finds them. -/
def sideFault (s : State) (t : Tid) (x : Side) : Option Exc :=
  match sideChecked s t x with
  | .ok _ => none
  | .error e => some e

/-- The fault of a copy, in the order of R257. -/
def copyFaultOf (s : State) (t : Tid) (k : CopyKind) (sides : List Side) (lost : List (Nat × Nat)) :
    Option Exc :=
  match sides with
  | [a, b, i] =>
    (idxFault s t i (copyElem k).1 (copyElem k).2 lost).or ((sideFault s t a).or (sideFault s t b))
  | [a, b] => (sideFault s t a).or (sideFault s t b)
  | [a] => sideFault s t a
  | _ => none

/-- The uncorrectable data that the check of a copy has read is reported as the copy ends in a fault (R257, R268). -/
def noteIndex (s : State) (o : EngineOp) (k : CopyKind) (sides : List Side) : State :=
  match sides with
  | [_, _, i] =>
    if idxMet s (opThread o) i (copyElem k).1 (copyElem k).2 o.lost then report s (.poisonMet (dieOfCore o.core)) else s
  | _ => s

/-- Every side checked, as the ranges that the copy holds. -/
def sideClaims (s : State) (t : Tid) (sides : List Side) : List Claim :=
  sides.filterMap fun x =>
    match sideChecked s t x with
    | .ok c => some c
    | .error _ => none

/-! ## Ends of copies -/

/-- The token to which a copy is attached, if it still is. -/
def tokenOf (s : State) (t : Tid) (op : Nat) : Option Nat :=
  ((getThread s t).tokens.find? fun e => e.2 = .pending op).map Prod.fst

/-- A copy ends in a fault (R257, R265). -/
def failCopy (s : State) (k : Nat) (o : EngineOp) (e : Exc) : State :=
  let t := opThread o
  let s := match tokenOf s t k with
    | some n => setToken s t n (.faulted e)
    | none =>
      let s := report s (.copyFault (dieOfCore o.core) e.code)
      countFault s (getGang s o.gang).grid (dieOfCore o.core)
        { code := e.code, workid := threadWorkid s t, addr := e.addr }
  finishOp s k false

/-- A copy has written its last byte (R256). -/
def doneCopy (s : State) (k : Nat) (o : EngineOp) : State :=
  let t := opThread o
  let s := match tokenOf s t k with
    | some n => setToken s t n .done
    | none => s
  finishOp s k false

/-! ## LADLE_COPY_BEGIN -/

/-- The copy's turn has come: what it checks comes next (R198, R266). -/
def copyDue (s : State) (k : Nat) (o : EngineOp) : Bool := isCopy o.kind && accepted s k && mayBegin s k o

/-- A piece lies on what the operation holds already, which its page cannot leave (R197). -/
def pieceHeld (o : EngineOp) (q : Nat × Nat × Leaf) : Bool :=
  o.ranges.any fun r => r.scratch.isNone && r.pieces.any fun p => p.2.2 && overlaps p.1 p.2.1 q.1 q.2.1

/-- The page that a copy's checked ranges wait for, beside what it holds (R193). -/
def copyBar (s : State) (o : EngineOp) : Option (Nat × Bool) :=
  match o.kind with
  | .copy kind spd sps _ =>
    (sideClaims s (opThread o) (copySides kind spd sps)).findSome? fun c => match c with
      | .mem _ ps => piecesBar s (ps.filter fun q => !pieceHeld o q)
      | .scratch _ _ _ _ => none
  | .chain _ _ | .bzld _ _ _ _ _ _ _ _ | .sign _ _ _ => none

/-- The copy could begin: its pages are translated, and none is away (R193, R256, R330). -/
def copyReady (s : State) (k : Nat) (o : EngineOp) : Bool :=
  copyDue s k o && (copyMiss s o).isNone && (copyBar s o).isNone

/-- A copy that waits asks for what its ranges lack: a walk, or the return of a page (R193, R330). -/
def askCopy (s : State) (k : Nat) : State :=
  match mfind s.ops k with
  | none => s
  | some o =>
    if copyDue s k o || (isCopy o.kind && o.phase = .claiming && opMayRun s o && !copyBehind s k o) then
      match copyMiss s o with
      | some va => joinWalk s o.core (opPasid s o) va (Miss.addOther (.op k))
      | none =>
        match if o.phase = .waiting then copyBar s o else none with
        | some w => wantPage s w
        | none => s
    else s

/-- Copies that a cluster's Ladle runs. -/
def copiesRunning (s : State) (ck : Nat) : Nat :=
  (s.ops.filter fun e => isCopy e.2.kind && e.2.phase = .running && clusterOfCore e.2.core = ck &&
    tableHeld s e.2).length

/-- The Ladle begins the copy now: in the order of acceptance, at most eight at once (R266). -/
def copyMayBegin (s : State) (k : Nat) (o : EngineOp) : Bool :=
  copyReady s k o && copiesRunning s (clusterOfCore o.core) < 8 &&
    s.ops.all fun e => k ≤ e.1 || clusterOfCore e.2.core ≠ clusterOfCore o.core || !copyReady s e.1 e.2

/-- Slot `i` of `n` bytes of a source: its bytes, and its poisoned 64-bit words (R268). -/
def readSlot (s : State) (r : Range) (n i : Nat) : List Byte × List Nat :=
  ((rangeBytes s r (i * n) n).1,
    (List.range ((n + 7) / 8)).filter fun j => (rangeBytes s r (i * n + 8 * j) (min 8 n)).2)

/-- The slots that a `CPYCB` will write, read as it begins (R256, R262). -/
def readSlots (s : State) (gang b len : Nat) (rs : List Range) : List (List Byte × List Nat) :=
  let n := slotBytes (getBank s gang b).mode
  match rs with
  | r :: _ => (List.range (len / n)).map (readSlot s r n)
  | [] => []

/-- The copy runs with its checked ranges. A `CPYCB` reads its source, which reports uncorrectable data (R268), and
joins the bank's writers (R262): it then fills every slot that is free, and joins again behind the writers that wait,
so a thread's `CBWR` comes between two slots only while the bank is full (DESIGN CHOICE, log 57). -/
def runCopy (s : State) (k : Nat) (o : EngineOp) (kind : CopyKind) (cs : List Claim) : State :=
  let s := cs.foldl (claimAccess o.core) s
  let rs := cs.map fun c => { claimRange s o.core c with lost := o.lost }
  let s := modOp s k fun o => { o with ranges := rs, walkFails := [], phase := .running }
  match kind with
  | .fifo b _ len =>
    let slots := readSlots s o.gang b len rs
    let s := rs.foldl (drawFree o.core) (modOp s k fun o => { o with slots := slots })
    let s := if slots.any fun x => !x.2.isEmpty then report s (.poisonMet (dieOfCore o.core)) else s
    let s := modBank s o.gang b fun x => { x with writers := x.writers ++ [.copy k] }
    fifoServe s o.gang b (fifoFuel s o.gang b)
  | .flat _ _ _ | .rows _ _ _ | .gather _ _ _ | .scatter _ _ _ => s

/-- A copy begins, or ends in a fault before its first write (R256, R257). -/
def beginCopy (s : State) (k : Nat) (o : EngineOp) : State :=
  match o.kind with
  | .copy kind spd sps _ =>
    let t := opThread o
    let sides := copySides kind spd sps
    match copyFaultOf s t kind sides o.lost with
    | some e => failCopy (noteIndex s o kind sides) k o e
    | none => runCopy s k o kind (sideClaims s t sides)
  | .chain _ _ | .bzld _ _ _ _ _ _ _ _ | .sign _ _ _ => s

/-- LADLE_COPY_BEGIN (R256, R266). -/
def execLadleCopyBegin (op : Nat) (s : State) : Host.Outcome State Fault Refusal :=
  match mfind s.ops op with
  | none => .next s
  | some o => .next (if copyMayBegin s op o then beginCopy s op o else s)

/-! ## COPY_FINISH -/

/-- One run of bytes: offsets in the source and the destination, length, and whether its index word is
poisoned. -/
structure Move where
  src : Nat
  dst : Nat
  len : Nat
  bad : Bool := false
  deriving DecidableEq, Repr

/-- An element of a gather or scatter (R261). A poisoned index names its element as it reads; beyond the
span it names none (log 9), and so does one that the host has rewritten since the copy's check (DESIGN CHOICE,
log 67). -/
def idxMove (s : State) (rg : Range) (gather : Bool) (es span i : Nat) : List Move :=
  let (v, bad) := idxWord s rg i
  if span < (v + 1) * es then []
  else if gather then [{ src := v * es, dst := i * es, len := es, bad := bad }]
  else [{ src := i * es, dst := v * es, len := es, bad := bad }]

/-- What a copy moves (R258 to R261). -/
def copyMoves (s : State) (k : CopyKind) (ranges : List Range) : List Move :=
  match k, ranges with
  | .flat _ _ len, _ => [{ src := 0, dst := 0, len := len }]
  | .rows _ _ x, _ =>
    (List.range (cpRows x)).map fun r =>
      { src := r * cpSrcPitch x, dst := r * cpDstPitch x, len := cpRowBytes x }
  | .gather _ _ x, [_, _, i] =>
    (List.range (cpCount x)).flatMap (idxMove s i true (cpElem x) (cpSpan x))
  | .scatter _ _ x, [_, _, i] =>
    (List.range (cpCount x)).flatMap (idxMove s i false (cpElem x) (cpSpan x))
  | _, _ => []

/-- A run cut into pieces that lie within one 64-bit word of either side. -/
def cutMove (m : Move) : List Move :=
  (List.range ((m.len + 7) / 8)).map fun i =>
    { m with src := m.src + 8 * i, dst := m.dst + 8 * i, len := min 8 (m.len - 8 * i) }

/-- A piece as read: where it goes, its bytes, and whether they are poisoned. -/
def readMove (s : State) (rg : Range) (m : Move) : Nat × List Byte × Bool :=
  let (bs, bad) := rangeBytes s rg m.src m.len
  (m.dst, bs, bad || m.bad)

/-- A piece written (R268). -/
def writeMove (core : Nat) (rg : Range) (s : State) (x : Nat × List Byte × Bool) : State :=
  rangeWrite core s rg.scratch rg.pieces x.1 x.2.1 x.2.2

/-- A copy's index list holds a poisoned word, which names an element or none (R268). -/
def indexBad (s : State) (k : CopyKind) (ranges : List Range) : Bool :=
  match k, ranges with
  | .gather _ _ x, [_, _, i] | .scatter _ _ x, [_, _, i] => (List.range (cpCount x)).any fun n => (idxWord s i n).2
  | _, _ => false

/-- Every read of a copy is performed, before its first write (R256); uncorrectable data is reported (R268). -/
def readCopy (s : State) (o : EngineOp) (k : CopyKind) : List (Nat × List Byte × Bool) × State :=
  match o.moves, o.ranges with
  | some data, _ => (data, s)
  | none, src :: _ =>
    let data := ((copyMoves s k o.ranges).flatMap cutMove).map (readMove s src)
    let bad := (data.any fun x => x.2.2) || indexBad s k o.ranges
    let s := drawFree o.core s src
    (data, if bad then report s (.poisonMet (dieOfCore o.core)) else s)
  | none, [] => ([], s)

/-- Pieces of what is read are written; writes that fail are reported as they do (R256, R268). -/
def writeMoves (s : State) (o : EngineOp) (data : List (Nat × List Byte × Bool)) : State :=
  match o.ranges with
  | _ :: dst :: _ =>
    reportLost (data.foldl (writeMove o.core dst) s) o.core dst (data.map fun x => (x.1, x.2.1.length))
  | _ => s

/-- The pieces of the next `n` bytes, and those after them. -/
def splitMoves (n : Nat) : List (Nat × List Byte × Bool) → List (Nat × List Byte × Bool) × List (Nat × List Byte × Bool)
  | [] => ([], [])
  | x :: xs =>
    if n = 0 then ([], x :: xs)
    else
      let (now, rest) := splitMoves (n - x.2.1.length) xs
      (x :: now, rest)

/-- A running copy writes the bytes of its destination up to the next 4 KiB boundary, and records how far it has come:
there a pre-empted copy has stopped (R267; log 57). -/
def copyPart (s : State) (op : Nat) (o : EngineOp) (kind : CopyKind) : State :=
  let (data, s) := readCopy s o kind
  let (now, rest) := splitMoves (4096 - o.done % 4096) data
  let n := now.foldl (fun n x => n + x.2.1.length) 0
  modOp (writeMoves s o now) op fun o => { o with done := o.done + n, moves := some rest }

/-- A running copy may finish (R262, R267). -/
def copyDone (s : State) (o : EngineOp) : Bool :=
  o.phase = .running && opMayRun s o &&
    match o.kind with
    | .copy (.fifo _ _ _) _ _ _ => o.slots.length ≤ o.done
    | .copy (.flat _ _ _) _ _ _ | .copy (.rows _ _ _) _ _ _ | .copy (.gather _ _ _) _ _ _
    | .copy (.scatter _ _ _) _ _ _ => true
    | .chain _ _ | .bzld _ _ _ _ _ _ _ _ | .sign _ _ _ => false

/-- What a copy writes as it finishes; the slots of a `CPYCB` are written already. -/
def copyEffect (s : State) (o : EngineOp) : State :=
  match o.kind with
  | .copy (.fifo _ _ _) _ _ _ => s
  | .copy kind _ _ _ =>
    let (data, s) := readCopy s o kind
    writeMoves s o data
  | .chain _ _ | .bzld _ _ _ _ _ _ _ _ | .sign _ _ _ => s

/-- COPY_FINISH (R256). -/
def execCopyFinish (op : Nat) (s : State) : Host.Outcome State Fault Refusal :=
  match mfind s.ops op with
  | none => .next s
  | some o => .next (if copyDone s o then doneCopy (copyEffect s o) op o else s)

end Sys2Proof.Machine
end

