-- ==== Sys2Proof/Machine/Stream.lean ====
section
/-! DEFINITION. The stream unit: chain sweeps, `SPK24` and the shape instructions (R271 to R278). -/

namespace Sys2Proof.Machine

/-! ## Chain programs -/

/-- Fields of a chain program, Table 14-2; `i` is 0 for A, 1 for B, 2 for C, 3 for D. -/
def chOpc (x : Shape) (i : Nat) : Nat := bitsOf x (8 * i) 4
def chArg (x : Shape) (i : Nat) : Nat := bitsOf x (8 * i + 4) 4
def chOff (x : Shape) (i : Nat) : Nat := bitsOf x (64 + 32 * i) 32
def chStep (x : Shape) (i : Nat) : Int := toSigned 16 (bitsOf x (192 + 16 * i) 16)
def chFmt (x : Shape) (i : Nat) : Nat := bitsOf x (256 + 4 * i) 4
def chSat (x : Shape) : Bool := x.getLsbD 272
def chConst (x : Shape) (i : Nat) : Nat := bitsOf x (320 + 32 * i) 32

/-- The float formats by type code (Table 2-6). -/
def chTy (c : Nat) : Option Ty :=
  match c with
  | 9 => some .f32
  | 10 => some .f16
  | 11 => some .bf16
  | 12 => some .e4m3
  | 13 => some .e5m2
  | 14 => some .e2m1
  | _ => none

/-- A format that a stream may have. -/
def chStreamTy (c : Nat) : Option Ty := if c = 14 then none else chTy c

/-- Slots before the End. -/
def chLen (x : Shape) : Nat := (lowest (fun i => chOpc x i = 0) 8 0).getD 8

/-- A slot's ARG suits its operation, Table 14-3. -/
def chSlotOk (opc arg : Nat) : Bool :=
  match opc with
  | 1 | 2 | 4 | 5 | 6 => arg ≤ 1
  | 3 | 8 => arg = 0
  | 7 => arg ≠ 9 && (chTy arg).isSome
  | _ => false

/-- A slot names stream B (1) or C (2). -/
def chNames (opc arg i : Nat) : Bool :=
  opc = 3 || ([1, 2, 4, 5].contains opc && arg + 1 = i)

/-- Stream `i` is used (R275). -/
def chUses (x : Shape) (i : Nat) : Bool :=
  i = 0 || i = 3 || (List.range (chLen x)).any fun k => chNames (chOpc x k) (chArg x k) i

/-- Used streams. -/
def chStreams (x : Shape) : List Nat := (List.range 4).filter (chUses x)

/-- The program is legal (R275). -/
def chainOk (x : Shape) : Bool :=
  bitsOf x 384 128 = 0 && bitsOf x 273 47 = 0 &&
    (List.range (chLen x)).all (fun k => chSlotOk (chOpc x k) (chArg x k)) &&
    bitsOf x (8 * chLen x) (64 - 8 * chLen x) = 0 &&
    (chStreams x).all fun i => (chStreamTy (chFmt x i)).isSome

/-- Bytes of an element of stream `i`. -/
def chSize (x : Shape) (i : Nat) : Nat := tyBits ((chStreamTy (chFmt x i)).getD .f32) / 8

/-- Place of element `n` of stream `i`. -/
def chAt (x : Shape) (i n : Nat) : Int := chOff x i + n * chStep x i

/-- The smallest interval that holds the elements of a stream, as its first byte and its end (R276). -/
def chSpan (x : Shape) (cnt i : Nat) : Int × Int :=
  let last := chAt x i (cnt - 1)
  (min (chOff x i : Int) last, max (chOff x i : Int) last + chSize x i)

/-- Faults of one stream (R276). -/
def chFault (s : State) (gang : Nat) (x : Shape) (cnt i : Nat) : Option Code :=
  let sz := chSize x i
  let (lo, hi) := chSpan x cnt i
  if chOff x i % sz ≠ 0 || chStep x i % sz ≠ 0 then some .misalign
  else if cnt = 0 then none
  else if lo < 0 then some .scratchBound
  else scratchRange s gang lo.toNat (hi - lo).toNat

/-- The first fault among the streams used, each with its offset. -/
def chainFault (s : State) (gang : Nat) (x : Shape) (cnt : Nat) : Option Exc :=
  (chStreams x).findSome? fun i =>
    (chFault s gang x cnt i).map fun c => { code := c, addr := BitVec.ofNat 64 (chOff x i) }

/-- Ranges of a sweep (R276). -/
def chainClaims (gang : Nat) (x : Shape) (cnt : Nat) : List Claim :=
  (chStreams x).map fun i =>
    let (lo, hi) := chSpan x cnt i
    .scratch (i = 3) gang lo.toNat (hi - lo).toNat

/-- A sweep (R276). -/
def startChain (s : State) (t : Tid) (x : Shape) (cnt : Nat) : State :=
  let gang := (threadGroup s t).gang
  if 4095 < cnt || !chainOk x then takeTrap s t (operandFault 0)
  else match chainFault s gang x cnt with
    | some e => takeTrap s t e
    | none =>
      let cs := chainClaims gang x cnt
      if cnt = 0 then advance s t
      else if 255 ≤ (getThread s t).cntCp then parkRetry s t (.count 2)
      else if !claimsFree s (threadCore s t) cs then parkRetry s t (claimWait s cs)
      else
        let s := (startOp s t (.chain x cnt) cs).2
        advance (modThread s t fun th => { th with cntCp := th.cntCp + 1 }) t

/-- `CHAIN` (R276). -/
def execChain (o : Ops) (s : State) : Host.Outcome State Fault Refusal :=
  issue (.chain o) (fun cx s => startChain s cx.t (readShape s cx.t (opndNum cx.o.a)) (cx.b s)) s

/-! ## A sweep's arithmetic -/

/-- A value of a type as the FP32 of the same value (Table 14-3, convert). -/
def toF32 (ty : Ty) (v : Nat) : Nat := (roundFp (fpFmt .f32) 0 0 false (fval ty v)).1

/-- One slot applied to w (Table 14-3). -/
def chStepFn (x : Shape) (b c : Nat) (w i : Nat) : Nat :=
  let arg := chArg x i
  let y := if arg = 0 then b else c
  match chOpc x i with
  | 1 => (faddN .f32 0 0 false w y).1
  | 2 => (fmulN .f32 0 0 false w y).1
  | 3 => (ffmaN .f32 0 false w b c).1
  | 4 => (fminmax (fpFmt .f32) true false w y).1
  | 5 => (fminmax (fpFmt .f32) false false w y).1
  | 6 => (fmulN .f32 0 0 false w (chConst x arg)).1
  | 7 =>
    let ty := (chTy arg).getD .f32
    toF32 ty (roundFp (fpFmt ty) 0 0 false (fval .f32 w)).1
  | 8 =>
    (fminmax (fpFmt .f32) false false (fminmax (fpFmt .f32) true false w (chConst x 0)).1
      (chConst x 1)).1
  | _ => w

/-- D_n from the elements of the streams (R276). -/
def chValue (x : Shape) (a b c : Nat) : Nat :=
  let w := (List.range (chLen x)).foldl (chStepFn x b c) a
  (roundFp (fpFmt ((chStreamTy (chFmt x 3)).getD .f32)) 0 0 (chSat x) (fval .f32 w)).1

/-- Element `n` of a stream as FP32, and whether it is poisoned; an unused stream gives 0. -/
def chRead (s : State) (gang : Nat) (x : Shape) (n i : Nat) : Nat × Bool :=
  if chUses x i then
    let at_ := (chAt x i n).toNat
    (toF32 ((chStreamTy (chFmt x i)).getD .f32) (ofBytesLE (scratchRead s gang at_ (chSize x i))),
      scratchPoisoned s gang at_ (chSize x i))
  else (0, false)

/-- D_n: its place, its bytes, and whether it is poisoned. -/
def chElem (s : State) (gang : Nat) (x : Shape) (n : Nat) : Nat × List Byte × Bool :=
  let a := chRead s gang x n 0
  let b := chRead s gang x n 1
  let c := chRead s gang x n 2
  ((chAt x 3 n).toNat, bytesLE (chSize x 3) (chValue x a.1 b.1 c.1), a.2 || b.2 || c.2)

/-- D_n written (R276, R362). -/
def chWrite (gang : Nat) (s : State) (e : Nat × List Byte × Bool) : State :=
  let s := scratchStore s gang e.1 e.2.1
  if e.2.2 then scratchPoison s gang e.1 e.2.1.length else s

/-- Every read of a sweep is performed, before its first write; a poisoned element is reported (R276). -/
def readSweep (s : State) (o : EngineOp) (x : Shape) (cnt : Nat) : List (Nat × List Byte × Bool) × State :=
  match o.moves with
  | some ds => (ds, s)
  | none =>
    let ds := (List.range cnt).map (chElem s o.gang x)
    (ds, if ds.any fun e => e.2.2 then report s (.poisonMet (dieOfCore o.core)) else s)

/-- What is left of a sweep is written, segment by segment (R276). -/
def sweep (s : State) (o : EngineOp) (x : Shape) (cnt : Nat) : State :=
  let (ds, s) := readSweep s o x cnt
  ds.foldl (chWrite o.gang) s

/-- A running sweep writes its next segment, and records how far it has come: there a pre-empted sweep has stopped
(R276; log 57). -/
def sweepPart (s : State) (op : Nat) (o : EngineOp) (x : Shape) (cnt : Nat) : State :=
  let (ds, s) := readSweep s o x cnt
  modOp ((ds.take 1).foldl (chWrite o.gang) s) op fun o =>
    { o with done := o.done + 1, moves := some (ds.drop 1) }

/-- A running fill, copy or sweep goes on to where a pre-emption stops it (R247, R267, R276; log 57). -/
def engineStep (s : State) (op : Nat) : State :=
  match mfind s.ops op with
  | none => s
  | some o =>
    match o.kind with
    | .copy (.fifo _ _ _) _ _ _ | .sign _ _ _ => s
    | .bzld part e k0 n _ pitch tr _ =>
      if o.phase = .running && opMayRun s o then fillPart s op o part e k0 n pitch tr else s
    | .copy kind _ _ _ => if o.phase = .running && opMayRun s o then copyPart s op o kind else s
    | .chain x cnt => if o.phase = .running && opMayRun s o then sweepPart s op o x cnt else s

/-- CHAIN_SWEEP_FINISH (R276). -/
def execChainSweepFinish (op : Nat) (s : State) : Host.Outcome State Fault Refusal :=
  match mfind s.ops op with
  | none => .next s
  | some o =>
    match o.kind with
    | .chain x cnt =>
      .next (if o.phase = .running && opMayRun s o then
        finishOp (sweep s o x cnt) op false else s)
    | .copy _ _ _ _ | .bzld _ _ _ _ _ _ _ _ | .sign _ _ _ => .next s

/-! ## `SPK24` -/

/-- Rank of an element by magnitude, NaNs above all (R277). -/
def spkKey (ty : Ty) (v : Nat) : Nat :=
  if (fval ty v).isNan then 2 ^ tyBits ty else v % 2 ^ (tyBits ty - 1)

/-- The first index of the greatest key, leaving out index `skip`. -/
def spkBest (keys : List Nat) (skip : Nat) : Nat :=
  (List.range 4).foldl (fun b i =>
    if i = skip then b
    else if b = 4 || keys.getD b 0 < keys.getD i 0 then i else b) 4

/-- `SPK24` (R277): the pair of values and the metadata. -/
def spk24N (ty : Ty) (a : Nat) : Nat :=
  let w := tyBits ty
  let v (i : Nat) : Nat := a / 2 ^ (w * i) % 2 ^ w
  let keys := (List.range 4).map fun i => spkKey ty (v i)
  let p := spkBest keys 4
  let q := spkBest keys p
  let k0 := min p q
  let k1 := max p q
  v k0 + v k1 * 2 ^ w + 2 ^ 32 * (k0 + 4 * k1)

/-- `SPK24` (R277): its result is written later. -/
def execSpk24 (o : Ops) (s : State) : Host.Outcome State Fault Refusal :=
  issue (.spk24 o) (fun cx s =>
    let l : LateWrite :=
      { dst := cx.dst, value := BitVec.ofNat 64 (spk24N cx.o.ty (cx.a s)), flags := {}, spk := true }
    advance (modThread s cx.t fun th => { th with late := th.late ++ [l] }) cx.t) s

/-- SPK24_RESULT_WRITE (R277). -/
def execSpk24ResultWrite (grp gi : Nat) (s : State) : Host.Outcome State Fault Refusal :=
  .next (writeFirst s ⟨grp, gi⟩ true)

/-! ## Shape registers -/

/-- `SHLD` (R274). -/
def execShld (o : Ops) (s : State) : Host.Outcome State Fault Refusal :=
  issue (.shld o) (fun cx s => issueAccess s cx.t (.load .b128) (effAddr cx s) 64 cx.dst) s

/-- `SHST` (R274). -/
def execShst (o : Ops) (s : State) : Host.Outcome State Fault Refusal :=
  issue (.shst o) (fun cx s =>
    let x := readShape s cx.t (opndNum cx.o.b)
    issueAccess s cx.t (.store (bytesLE 64 x.toNat)) (effAddr cx s) 64 .none) s

/-- LO and WIDTH of a field (R273). -/
def fieldLo (o : Ops) : Nat := bitsOf o.imm 0 9
def fieldWidth (o : Ops) : Nat := bitsOf o.imm 9 6 + 1

/-- A field of a shape register replaced (R273). -/
def putField (x : Shape) (lo w v : Nat) : Shape :=
  BitVec.ofNat 512 (x.toNat % 2 ^ lo + v % 2 ^ w * 2 ^ lo + x.toNat / 2 ^ (lo + w) * 2 ^ (lo + w))

/-- `SHSET` (R273); a mark is kept (R274). -/
def execShset (o : Ops) (s : State) : Host.Outcome State Fault Refusal :=
  issue (.shset o) (fun cx s =>
    let n := opndNum cx.o.dst
    let x := putField (readShape s cx.t n) (fieldLo cx.o) (fieldWidth cx.o) (cx.a s)
    advance (setShape s cx.t n x (mfind (threadGroup s cx.t).shpoison n)) cx.t) s

/-- `SHGET` (R273). -/
def execShget (o : Ops) (s : State) : Host.Outcome State Fault Refusal :=
  issue (.shget o) (fun cx s =>
    finish cx s (bitsOf (readShape s cx.t (opndNum cx.o.a)) (fieldLo cx.o) (fieldWidth cx.o))) s

end Sys2Proof.Machine
end

