-- ==== Sys2Proof/Machine/Launch.lean ====
section
/-! DEFINITION. The Sprue: launch headers, grids, dealing and placement, completion, cancellation,
graphs and spanning launches (R279 to R302). -/

namespace Sys2Proof.Machine

/-! ## The launch header -/

/-- Fields of a launch header, Table 15-1. -/
def hdrDomain (h : Shape) : Bool := h.getLsbD 492
def hdrDeal (h : Shape) : Nat := bitsOf h 488 4
def hdrCancelMode (h : Shape) : Bool := h.getLsbD 487
def hdrPrio (h : Shape) : Nat := bitsOf h 485 2
def hdrDieMax (h : Shape) : Nat := bitsOf h 478 7
def hdrDieMin (h : Shape) : Nat := bitsOf h 471 7
def hdrSets (h : Shape) : Nat := bitsOf h 463 5
def hdrScratch (h : Shape) : Nat := bitsOf h 440 23
def hdrRegs (h : Shape) : Nat := bitsOf h 432 8
def hdrDone (h : Shape) : DWord := h.extractLsb' 128 64
def hdrArg (h : Shape) : DWord := h.extractLsb' 64 64
def hdrEntry (h : Shape) : DWord := h.extractLsb' 0 64

/-- Threads of the grid (R279). -/
def hdrThreads (h : Shape) : Nat := (List.range 6).foldl (fun n i => n * hdrExt h i) 1
/-- Turns of a group, and strips of a thread (R62). -/
def hdrTurns (h : Shape) : Nat := ceilDiv (hdrGroupSize h) 32
def hdrStrips (h : Shape) : Nat := ceilDiv (hdrRegs h) 8 + 1
/-- Gangs and ranges of the grid (R281). -/
def hdrGangs (h : Shape) : Nat := hdrThreads h / (hdrGroupSize h * hdrGang h)
def hdrRanges (h : Shape) : Nat := ceilDiv (hdrGangs h) (2 ^ hdrDeal h)
/-- Banks of a gang (R166). -/
def hdrBanks (h : Shape) : Nat := ceilDiv (hdrScratch h) bankBytes

/-- Dies of a member module's partition in a launch domain: from 1 to 8 (R299; log 22). -/
def memberDies (m : Nat) : Nat := max 1 (min 8 (Config.moduleDies m))

/-- Dies of other modules of a launch domain (R299; log 22). -/
def domainDies (modules : List Nat) : Nat := modules.foldl (fun n m => n + memberDies m) 0

/-- Dies available to a grid (R281): at most the 64 of a domain (R299). -/
def diesAvailable (s : State) (p : Nat) (domain : Bool) : Nat :=
  min 64 ((partDies s p).length + if domain then domainDies (getPart s p).domain else 0)

/-- Each field lies in its range (R281). -/
def hdrFieldsOk (h : Shape) : Bool :=
  bitsOf h 493 19 = 0 && pcForm (hdrEntry h) && 1 ≤ hdrDieMax h && hdrDieMax h ≤ 64 &&
    1 ≤ hdrDieMin h && hdrDieMin h ≤ hdrDieMax h && 1 ≤ hdrGang h && hdrGang h ≤ 4 &&
    hdrSets h ≤ 16 && hdrScratch h ≤ 4194304 && 1 ≤ hdrRegs h && hdrRegs h ≤ 240 &&
    1 ≤ hdrGroupSize h && hdrGroupSize h ≤ 2048 && (hdrDone h).toNat % 256 = 0 &&
    (List.range 6).all fun i =>
      hdrWidth h i ≤ 32 && 1 ≤ hdrExt h i &&
        if hdrWidth h i = 0 then hdrExt h i = 1 else hdrExt h i ≤ 2 ^ hdrWidth h i

/-- A header is legal for a partition (R281). -/
def hdrOk (s : State) (p : Nat) (h : Shape) : Bool :=
  hdrFieldsOk h && (List.range 6).foldl (fun n i => n + hdrWidth h i) 0 ≤ 64 &&
    hdrThreads h % (hdrGroupSize h * hdrGang h) = 0 && hdrTurns h * hdrStrips h ≤ 512 &&
    hdrDieMin h ≤ diesAvailable s p (hdrDomain h) &&
    !(hdrDomain h && (getPart s p).domain.isEmpty)

/-! ## The grid table -/

def getEntry (s : State) (p slot : Nat) : TableEntry := mget {} (getPart s p).table slot
def setEntry (s : State) (p slot : Nat) (e : TableEntry) : State :=
  modPart s p fun x => { x with table := mset {} x.table slot e }

/-- The lowest free entry of the grid table (R286; log 23). -/
def freeEntry (s : State) (p : Nat) : Option Nat :=
  lowest (fun k => (getEntry s p k).what.isNone) 4096 0

/-- What a handle of this module's grid table names for a PASID (R286). -/
def ownEntry (s : State) (p pasid : Nat) (h : Word) : Option Launched :=
  let e := getEntry s p (bitsOf h 0 12)
  if p < 8 && e.gen.toNat = bitsOf h 12 20 then
    match e.what with
    | some (.grid k) => if (mfind s.grids k).any fun g => g.pasid = pasid then some (.grid k) else none
    | some (.graph k) => if (mfind s.graphs k).any fun g => g.pasid = pasid then some (.graph k) else none
    | none => none
  else none

/-- The grid of another module's root whose handle it is (R299). -/
def farEntry (s : State) (p pasid : Nat) (h : Word) : Option Launched :=
  (s.grids.find? fun e => e.2.part = p && e.2.pasid = pasid && e.2.root.any fun r => r.2 = h).map fun e => .grid e.1

/-- What a live handle names for a PASID: a grid or graph of this module's table, or else this module's part of a
grid that another module's root has launched under it (R286, R299; log 22). -/
def liveHandle (s : State) (p pasid : Nat) (h : Word) : Option Launched :=
  (ownEntry s p pasid h).or (farEntry s p pasid h)

/-- The entry is freed, its generation one more; the completion event takes its place (R285, R286). -/
def freeHandle (s : State) (p slot : Nat) : State :=
  let e := getEntry s p slot
  (nextEvent (setEntry s p slot { gen := e.gen + 1, what := none })).2

/-! ## Launching -/

/-- Order of the launch queue and of a dispatcher's grids: by priority, then by launch event (R288,
R289). -/
def gridBefore (s : State) (a b : Nat) : Bool :=
  match mfind s.grids a, mfind s.grids b with
  | some x, some y =>
    hdrPrio y.hdr < hdrPrio x.hdr || (hdrPrio x.hdr = hdrPrio y.hdr && x.event < y.event)
  | _, _ => false

/-- A grid inserted in that order. -/
def insertGrid (s : State) (k : Nat) : List Nat → List Nat
  | [] => [k]
  | x :: xs => if gridBefore s k x then k :: x :: xs else x :: insertGrid s k xs

/-- The launch event: the grid enters its partition's queue (R285, R288). -/
def launchEvent (s : State) (k : Nat) : State :=
  match mfind s.grids k with
  | none => s
  | some g =>
    let (e, s) := nextEvent s
    let s := modGrid s k fun g => { g with event := e }
    modPart s g.part fun p => { p with queue := insertGrid s k p.queue }

/-- A grid takes a table entry, and its launch event its place, unless other modules must acknowledge
first (R286, R299). `none`: the table is full. -/
def openGrid (s : State) (p pasid : Nat) (hdr : Shape) (origin : Option (Nat × Nat × Word))
    (graph : Option (Nat × Nat)) : Option (Nat × State) :=
  match freeEntry s p with
  | none => none
  | some slot =>
    let (k, s) := freshId s
    let acks := if hdrDomain hdr then (getPart s p).domain else []
    let g : Grid :=
      { hdr := hdr, event := 0, part := p, pasid := pasid, slot := slot, origin := origin,
        graph := graph, acks := acks, modules := acks }
    let s := { s with grids := mput s.grids k g }
    let s := setEntry s p slot { getEntry s p slot with what := some (.grid k) }
    some (k, if acks.isEmpty then launchEvent s k else s)

/-- The handle of a grid. -/
def gridHandle (s : State) (k : Nat) : Word :=
  match mfind s.grids k with
  | some g => ownHandle s g
  | none => 0

/-- The header is accepted from a PASID: legal, and the PASID not DYING (R281, R332). -/
def launchOk (s : State) (p pasid : Nat) (hdr : Shape) : Bool :=
  hdrOk s p hdr && pasidState s p pasid ≠ .dying

/-- A thread waits at `LNCH`. -/
def atLaunch (s : State) (t : Tid) : Bool :=
  match (getThread s t).run with
  | .parked (.launch _ _) | .parked (.span _) => true
  | _ => false

/-- A lower lane still waits at the same `LNCH`, whose launch comes first (R284). -/
def launchBehind (s : State) (t : Tid) : Bool :=
  (groupTids s t.grp).any fun u =>
    laneOf u.gi < laneOf t.gi && (getThread s u).pc = (getThread s t).pc && atLaunch s u

/-- `LNCH` past its checks and its drain (R284): the launch, or a wait for a table entry. `go` takes the
thread to its next slot. -/
def launchFor (s : State) (t : Tid) (hdr : Shape) (dst : Dest) (go : State → State) : State :=
  if launchBehind s t then park s t (.launch hdr dst)
  else match openGrid s (threadPart s t) (threadPasid s t) hdr none none with
  | none => park s t (.launch hdr dst)
  | some (k, s) =>
    if (mfind s.grids k).any fun g => !g.acks.isEmpty then
      park (modGrid s k fun g => { g with launcher := some (t, dst) }) t (.span k)
    else go (writeDest s t dst (gridHandle s k).toNat none)

/-- The core's queue performs every access issued before (R195 step 3, R284; log 24). -/
def drainCore (s : State) (core : Nat) : State := drain s core fun _ => true

/-- `LNCH` (R284). -/
def execLnch (o : Ops) (s : State) : Host.Outcome State Fault Refusal :=
  issue (.lnch o) (fun cx s =>
    let t := cx.t
    let hdr := readShape s t (opndNum cx.o.a)
    if !launchOk s (threadPart s t) (threadPasid s t) hdr then takeTrap s t { code := .launchHeader }
    else launchFor (drainCore s (threadCore s t)) t hdr cx.dst fun s => advance s t) s

/-! ## Stores and loads of the Sprue -/

/-- Page check of a store of the Sprue (R164, R290). -/
def sprueStore (l : Leaf) : Option Code := if l.w && l.ty ≠ .d then none else some .pagePerm
def sprueLoad (l : Leaf) : Option Code := if l.r && l.ty ≠ .d then none else some .pagePerm

/-- Bytes stored by the Sprue, an agent outside the cores (log 25). -/
def sprueBytes (s : State) : List (Nat × Nat × Leaf) → List Byte → State
  | [], _ => s
  | (pa, n, l) :: ps, bs =>
    sprueBytes (writeEvent (holdLeaf s l) .host pa (bs.take n) l.forceS l.bias) ps (bs.drop n)

/-- The Sprue's walks for a range (R330; log 13). -/
def sprueWalk (s : State) (p pasid : Nat) (va : DWord) (n : Nat) : State := walkRange s p pasid va n

/-- The page that an access of the Sprue waits for: one of its range, or of the tables that translate it (R193,
R349). -/
def sprueBar (s : State) (p pasid : Nat) (need : Leaf → Option Code) (va : DWord) (n : Nat) : Option (Nat × Bool) :=
  match pagesBar s p pasid (n / 65536 + 2) va n with
  | some u => some (u, false)
  | none =>
    match piecesOf s rootKey p pasid need va n with
    | .ok ps => piecesBar s ps
    | .error _ => none

/-- A store of the Sprue to virtual memory; every check is made before the first byte (R290). `none`: a
check fails. -/
def sprueWrite (s : State) (p pasid : Nat) (va : DWord) (bs : List Byte) : Option State :=
  match piecesOf s rootKey p pasid sprueStore va bs.length with
  | .error _ => none
  | .ok ps =>
    if piecesOpen s rootKey true ps then some (sprueBytes s ps bs) else none

/-- A load of the Sprue from virtual memory, as one event. -/
def sprueRead (s : State) (p pasid : Nat) (va : DWord) (n : Nat) : Option (List Byte × State) :=
  match piecesOf s rootKey p pasid sprueLoad va n with
  | .error _ => none
  | .ok ps =>
    if piecesOpen s rootKey false ps then
      some (loadPieces s .host ps)
    else none

/-! ## Graphs -/

def modGraph (s : State) (k : Nat) (f : Graph → Graph) : State :=
  { s with graphs := mmod s.graphs k f }

/-- What an unlisted node reads as. -/
def noNode : Node := { hdrAddr := 0, pred := 0, succ := [], cont := false, state := .skipped }

/-- A node of a graph. -/
def getNode (s : State) (k n : Nat) : Node :=
  match mfind s.graphs k with
  | some g => g.nodes.getD n noNode
  | none => noNode

def modNode (s : State) (k n : Nat) (f : Node → Node) : State :=
  modGraph s k fun g => { g with nodes := lmod f g.nodes n }

def nstateNum : NodeState → Nat
  | .waiting => 0 | .launched => 1 | .done => 2 | .faulted => 3 | .cancelled => 4 | .skipped => 5

/-- The page of its table that a graph waits for, before a node changes its state (R193). -/
def tableBar (s : State) (k : Nat) : Option (Nat × Bool) :=
  (mfind s.graphs k).bind fun g => sprueBar s g.part g.pasid sprueStore g.table (64 * g.nodes.length)

/-- A store of the Sprue to a node of the table (R298); one that fails its checks is not made. -/
def nodeStore (s : State) (k n off : Nat) (bs : List Byte) : State :=
  match mfind s.graphs k with
  | none => s
  | some g =>
    let a := g.table + BitVec.ofNat 64 (64 * n + off)
    let s := sprueWalk s g.part g.pasid a bs.length
    match sprueWrite s g.part g.pasid a bs with
    | some s => s
    | none => report s (.reportAbandoned g.part)

/-- A node takes a state, in the Sprue's copy and in the table (R298). -/
def setNode (s : State) (k n : Nat) (st : NodeState) : State :=
  nodeStore (modNode s k n fun x => { x with state := st }) k n 12 (bytesLE 2 (nstateNum st))

/-- What a node's attempt to launch comes to: no table entry is free, or its header's page is away; it has launched;
or it has ended. -/
inductive Tried where
  | full
  | launched
  | ended
  deriving DecidableEq, Repr

/-- A node whose header cannot be launched is FAULTED (R298). -/
def faultNode (s : State) (k n part : Nat) : State := setNode (report s (.badHeader part n)) k n .faulted

/-- A node's launch event has taken its place (R298). -/
def nodeLaunched (s : State) (k n : Nat) (h : Word) : State :=
  nodeStore (modNode (setNode s k n .launched) k n fun x => { x with handle := h }) k n 0x28 (bytesLE 4 h.toNat)

/-- A node launches; that of a spanning grid is LAUNCHED in the table at its launch event (R298, R299). -/
def launchNode (s : State) (k n : Nat) : Tried × State :=
  match mfind s.graphs k with
  | none => (.full, s)
  | some g =>
    let x := getNode s k n
    if x.hdrAddr = 0 then (.ended, setNode s k n .done)
    else if x.hdrAddr.toNat % 64 ≠ 0 then (.ended, faultNode s k n g.part)
    else match sprueBar s g.part g.pasid sprueLoad x.hdrAddr 64 with
    | some w => (.full, wantPage s w)
    | none =>
      let s := sprueWalk s g.part g.pasid x.hdrAddr 64
      match sprueRead s g.part g.pasid x.hdrAddr 64 with
      | none =>
        let s := noteRead s ((partDies s g.part).headD 0) rootKey g.part g.pasid sprueLoad x.hdrAddr 64
        (.ended, faultNode s k n g.part)
      | some (bs, s) =>
        let hdr : Shape := BitVec.ofNat 512 (ofBytesLE bs)
        if !launchOk s g.part g.pasid hdr then (.ended, faultNode s k n g.part)
        else match openGrid s g.part g.pasid hdr none (some (k, n)) with
          | none => (.full, s)
          | some (grid, s) =>
            if (mfind s.grids grid).any fun x => !x.acks.isEmpty then
              (.launched, modNode s k n fun x => { x with state := .launched })
            else (.launched, nodeLaunched s k n (gridHandle s grid))

/-- A node whose predecessors have all ended: it launches, or is skipped (R298). Answers whether it has
ended. -/
def readyNode (s : State) (k n : Nat) : Bool × State :=
  if (getNode s k n).taint then (true, setNode s k n .skipped)
  else match launchNode s k n with
    | (.ended, s) => (true, s)
    | (_, s) => (false, s)

/-- One decrement (R298). Answers whether the successor has ended by it. One that reaches a node whose PRED is zero
already, because it waits for a table entry, is ignored, and sets no TAINT (DESIGN CHOICE, log 36). -/
def decrement (k : Nat) (spoil : Bool) (r : List Nat × State) (n : Nat) : List Nat × State :=
  let (ended, s) := r
  let x := getNode s k n
  if x.state = .waiting && x.pred ≠ 0 then
    let s := modNode s k n fun x => { x with pred := x.pred - 1, taint := x.taint || spoil }
    let s := nodeStore s k n 8 (bytesLE 4 (x.pred - 1))
    let s := if spoil && !x.taint then nodeStore s k n 0x2C (bytesLE 4 (x.cont.toNat + 256)) else s
    if x.pred = 1 then
      match readyNode s k n with
      | (true, s) => (ended ++ [n], s)
      | (false, s) => (ended, s)
    else (ended, s)
  else (ended, s)

/-- Nodes that have ended decrement their successors, in the order they ended (R298). -/
def cascade (k : Nat) : Nat → List Nat → State → State
  | 0, _, s => s
  | _, [], s => s
  | fuel + 1, n :: ns, s =>
    let x := getNode s k n
    let spoil := x.state ≠ .done && !x.cont
    let (ended, s) := x.succ.foldl (decrement k spoil) ([], s)
    cascade k fuel (ns ++ ended) s

/-- The nodes of a graph, by index. -/
def nodeCount (s : State) (k : Nat) : Nat :=
  match mfind s.graphs k with
  | some g => g.nodes.length
  | none => 0

/-- A node is LAUNCHED, or can still launch. -/
def nodeLive (x : Node) : Bool := x.state = .launched || (x.state = .waiting && x.pred = 0)

/-- A graph of which nothing can happen any more completes (R298). -/
def graphCheck (s : State) (k : Nat) : State :=
  match mfind s.graphs k with
  | none => s
  | some g =>
    if g.nodes.any nodeLive then s
    else { freeHandle s g.part g.slot with graphs := mdel s.graphs k }

/-- Nodes whose PRED is zero and that have not left WAITING launch, in ascending index (R298). -/
def launchReady (s : State) (k : Nat) : State :=
  let start (r : List Nat × State) (n : Nat) : List Nat × State :=
    if (getNode r.2 k n).state = .waiting && (getNode r.2 k n).pred = 0 then
      match readyNode r.2 k n with
      | (true, s) => (r.1 ++ [n], s)
      | (false, s) => (r.1, s)
    else r
  let (ended, s) := (List.range (nodeCount s k)).foldl start ([], s)
  graphCheck (cascade k (nodeCount s k + 1) ended s) k

/-- A node's grid has completed (R298). -/
def nodeDone (s : State) (k n outcome : Nat) : State :=
  let st : NodeState := if outcome = 0 then .done else if outcome = 2 then .cancelled else .faulted
  graphCheck (cascade k (nodeCount s k + 1) [n] (setNode s k n st)) k

/-! ## Completion -/

/-- Dword of a report. -/
def dwordBytes (v : Nat) : List Byte := bytesLE 8 v

/-- FIRST[k], Table 15-3. -/
def firstBytes (f : Option (Nat × DWord × DWord)) : List Byte :=
  match f with
  | some (code, workid, addr) =>
    bytesLE 4 code ++ bytesLE 4 0 ++ dwordBytes workid.toNat ++ dwordBytes addr.toNat ++ bytesLE 8 0
  | none => bytesLE 4 0xFFFFFFFF ++ List.replicate 28 0

/-- First faults of the grid's dies, ranked by module and then by die number (R291). -/
def gridFirsts (index : Nat) (g : Grid) : NMap (Option (Nat × DWord × DWord)) :=
  (mkeys g.dies).foldl (fun m d =>
    mput m (8 * index + d) ((mfind g.first d).map fun f => (codeNum f.code, f.workid, f.addr))) g.far

/-- Outcome of a grid (Table 15-3). -/
def gridOutcome (g : Grid) : Nat :=
  if g.failed then 3
  else if g.state = .cancelling then 2
  else if g.terminated ≠ 0 || g.count.any fun e => e.2 ≠ 0 then 1 else 0

/-- The grid report, Table 15-3 (R291), as the root of module `index` writes it. -/
def reportBytes (index : Nat) (g : Grid) : List Byte :=
  let firsts := gridFirsts index g
  bytesLE 4 (gridOutcome g) ++ bytesLE 4 g.terminated ++ dwordBytes g.gangsRun ++ List.replicate 240 0 ++
    (List.range 64).flatMap (fun c => bytesLE 4 (mget 0 g.count c)) ++
    (List.range 64).flatMap fun k => firstBytes (firsts[k]?.bind fun e => e.2)

/-- The report is written, or abandoned (R290). -/
def writeReport (s : State) (g : Grid) : State :=
  if hdrDone g.hdr = 0 then s
  else
    let bs := reportBytes s.link.index.toNat g
    let s := sprueWalk s g.part g.pasid (hdrDone g.hdr) bs.length
    match sprueWrite s g.part g.pasid (hdrDone g.hdr) bs with
    | some s => s
    | none => report s (.reportAbandoned g.part)

/-- A grid leaves the dispatchers and the launch queue. -/
def forgetGrid (s : State) (k p : Nat) : State :=
  let dies := s.dies.map fun e => (e.1, { e.2 with grids := e.2.grids.filter (· ≠ k) })
  let s := modPart s p fun x => { x with queue := x.queue.filter (· ≠ k) }
  { s with grids := mdel s.grids k, dies := dies }

/-- The grid completes: the report, the completion event, and the node it ran for (R290, R298). Of a grid of
another module's root this module reports its share (R299). -/
def gridComplete (s : State) (k : Nat) : State :=
  match mfind s.grids k with
  | none => s
  | some g =>
    match g.root with
    | some (m, h) =>
      report (forgetGrid s k g.part) (.memberDone m h g.gangsRun g.terminated g.count g.first)
    | none =>
      let s := freeHandle (forgetGrid (writeReport s g) k g.part) g.part g.slot
      match g.graph with
      | some (gr, n) => nodeDone s gr n (gridOutcome g)
      | none => s

/-- Every range is dealt or dropped, every gang has retired, and every die and module has reported
(R290). A member's report goes over the fabric (R299, R341). -/
def gridOver (s : State) (k : Nat) (g : Grid) : Bool :=
  g.state ≠ .queued && (g.root.isNone || ((g.closed || g.state = .cancelling) && !fabricDown s)) &&
    hdrRanges g.hdr ≤ g.nextRange && g.dies.all (fun e => e.2.reported) &&
    g.modules.isEmpty && s.gangs.all fun e => e.2.grid ≠ k

/-- The page that a grid's completion waits for: of its report, or of the table of its graph (R193). -/
def gridBar (s : State) (g : Grid) : Option (Nat × Bool) :=
  if g.root.isSome then none
  else
    let report := if hdrDone g.hdr = 0 then none
      else sprueBar s g.part g.pasid sprueStore (hdrDone g.hdr) (reportBytes s.link.index.toNat g).length
    report.or (g.graph.bind fun x => tableBar s x.1)

/-- A grid that is over completes, once the pages that the Sprue writes are there. -/
def tryComplete (s : State) (k : Nat) : State :=
  match mfind s.grids k with
  | none => s
  | some g =>
    if gridOver s k g then
      match gridBar s g with
      | some w => wantPage s w
      | none => gridComplete s k
    else s

/-! ## Cancellation -/

/-- CANCEL_PEND is set in every thread of a gang that is not DONE (R294). -/
def cancelGang (s : State) (k : Nat) : State :=
  (getGang s k).groups.foldl (fun s g => (groupTids s g).foldl (fun s t =>
    modThread s t fun th => if th.run = .done then th else { th with cancelPend := true }) s) s

/-- Placed gangs of a grid. -/
def gangsOf (s : State) (grid : Nat) : List Nat :=
  (s.gangs.filter fun e => e.2.grid = grid).map Prod.fst

/-- Every range not dealt, and every gang not placed, is dropped (R294). -/
def dropRanges (s : State) (k : Nat) : State :=
  modGrid s k fun g =>
    { g with nextRange := max g.nextRange (hdrRanges g.hdr), asked := false,
             dies := g.dies.map fun e => (e.1, { e.2 with next := e.2.stop }) }

/-- A grid that has not started leaves its queue, with nothing to wait for. -/
def unqueueGrid (s : State) (k p : Nat) : State :=
  let s := modPart s p fun x => { x with queue := x.queue.filter (· ≠ k) }
  modGrid s k fun g => { g with modules := [] }

/-- The cancel event of a grid (R294). -/
def cancelGrid (s : State) (k : Nat) : State :=
  match mfind s.grids k with
  | none => s
  | some g =>
    if g.state = .cancelling || !g.acks.isEmpty then s
    else
      let s := modGrid s k fun g => { g with state := .cancelling }
      if g.state = .queued then tryComplete (unqueueGrid (dropRanges s k) k g.part) k
      else
        let s := dropRanges s k
        let s := if hdrCancelMode g.hdr then (gangsOf s k).foldl cancelGang s else s
        tryComplete s k

/-- The cancel event of a node's grid. A spanning one whose launch event has not come is no LAUNCHED grid: its
node was still WAITING, and its launch is given up (R298, R299). -/
def cancelNode (s : State) (k : Nat) : State :=
  match mfind s.grids k with
  | none => s
  | some g =>
    match g.graph with
    | some (gr, n) =>
      if g.acks.isEmpty then cancelGrid s k
      else freeHandle (forgetGrid (setNode s gr n .cancelled) k g.part) g.part g.slot
    | none => cancelGrid s k

/-- The cancel event of a graph: no WAITING node launches, and every LAUNCHED grid is cancelled
(R298). -/
def cancelGraph (s : State) (k : Nat) : State :=
  match mfind s.graphs k with
  | none => s
  | some g =>
    if g.cancelled then s
    else
      let s := modGraph s k fun g => { g with cancelled := true }
      let ns := List.range g.nodes.length
      let s := ns.foldl (fun s n =>
        if (getNode s k n).state = .waiting then setNode s k n .cancelled else s) s
      let grids := s.grids.filter fun e => e.2.graph.any fun x => x.1 = k
      graphCheck ((mkeys grids).foldl cancelNode s) k

/-- The page that a cancel event by handle waits for: of a graph's table, whose nodes it marks (R193, R298). -/
def cancelBar (s : State) (p pasid : Nat) (h : Word) : Option (Nat × Bool) :=
  match liveHandle s p pasid h with
  | some (.graph k) => tableBar s k
  | some (.grid _) | none => none

/-- A cancel event by handle (R294). -/
def cancelHandle (s : State) (p pasid : Nat) (h : Word) : State :=
  match liveHandle s p pasid h with
  | some (.grid k) => cancelGrid s k
  | some (.graph k) => cancelGraph s k
  | none => s

/-! ## `GRAPH`, `GWAIT`, `GCAN`, `GSTAT`, `WID` -/

/-- A number in a node's bytes. -/
def nodeLE (bs : List Byte) (off n : Nat) : Nat := ofBytesLE ((bs.drop off).take n)

/-- A node's fields pass R297. -/
def nodeOk (count : Nat) (bs : List Byte) : Bool :=
  let nsucc := nodeLE bs 0x0E 2
  nsucc ≤ 12 && nodeLE bs 0x2C 4 % 256 ≤ 1 && nodeLE bs 0x2C 4 < 512 && nodeLE bs 0x30 16 = 0 &&
    (List.range 12).all fun i =>
      if i < nsucc then nodeLE bs (0x10 + 2 * i) 2 < count else nodeLE bs (0x10 + 2 * i) 2 = 0

/-- A node as the Sprue copies it (R298). -/
def nodeOf (bs : List Byte) : Node :=
  { hdrAddr := BitVec.ofNat 64 (nodeLE bs 0 8), pred := nodeLE bs 8 4,
    succ := (List.range (nodeLE bs 0x0E 2)).map fun i => nodeLE bs (0x10 + 2 * i) 2,
    cont := nodeLE bs 0x2C 4 % 2 = 1 }

/-- Page check of a node table: the Sprue reads it and writes it (R164, R297, R298). -/
def tableNeed (l : Leaf) : Option Code := if l.r && l.w && l.ty ≠ .d then none else some .pagePerm

/-- The nodes of a table of `count` in bytes. -/
def nodeBytes (bs : List Byte) (count : Nat) : List (List Byte) :=
  (List.range count).map fun i => (bs.drop (64 * i)).take 64

/-- Bytes of a node table that is legal in its place and length (R297). -/
def tableLen (a : DWord) (count : Nat) : Nat := if a.toNat % 64 ≠ 0 || 4096 < count then 0 else 64 * count

/-- What the reading of a node table lacks (R193, R297, R330). -/
def tableLack (s : State) (t : Tid) (a : DWord) (count : Nat) : Option Lack :=
  rangeLack s t tableNeed a (tableLen a count)

/-- The nodes of a table, if each is legal: otherwise LAUNCH_HEADER with the address of the lowest that is not (R297;
DESIGN CHOICE where several are not, log 36). -/
def nodesOf (a : DWord) (count : Nat) (bs : List Byte) : Except Exc (List Node) :=
  let nodes := nodeBytes bs count
  match lowest (fun i => !nodeOk count (nodes.getD i [])) count 0 with
  | some i => .error { code := .launchHeader, addr := a + BitVec.ofNat 64 (64 * i) }
  | none => .ok (nodes.map nodeOf)

/-- The table read as one event, with its faults: no held range is among them (R297, R302). Where several hold, the
model takes MISALIGN, then the count's, then the pages', then the nodes' (DESIGN CHOICE, log 36). What cannot be had
for a port that is down is POISON, and a read that times out is counted (R175, R350, R351; log 10). -/
def readTable (s : State) (core p pasid : Nat) (a : DWord) (count : Nat) : Except Exc (List Node) × State :=
  if a.toNat % 64 ≠ 0 then (.error { code := .misalign, addr := a }, s)
  else if count = 0 || 4096 < count then (.error { code := .launchHeader }, s)
  else match piecesOf s core p pasid tableNeed a (64 * count) with
    | .error e => (.error e, s)
    | .ok ps =>
      if !ps.all (pieceUp s) then
        (.error { code := .poison, addr := a },
          noteRead s (dieOfCore core) core p pasid tableNeed a (tableLen a count))
      else
        let r := loadPieces s (.core core) ps
        (nodesOf a count r.1, r.2)

/-- A graph takes a table entry and starts (R297, R298). -/
def openGraph (s : State) (p pasid slot : Nat) (a : DWord) (nodes : List Node) : State :=
  let (k, s) := freshId s
  let g : Graph := { part := p, pasid := pasid, slot := slot, table := a, nodes := nodes }
  let s := { s with graphs := mput s.graphs k g }
  let s := setEntry s p slot { getEntry s p slot with what := some (.graph k) }
  launchReady (nextEvent s).2 k

/-- `GRAPH` (R297). The table is read and checked before a free table entry is waited for, and is read again with the
operands as the thread goes on (DESIGN CHOICE, log 36). -/
def execGraph (o : Ops) (s : State) : Host.Outcome State Fault Refusal :=
  issue (.graph o) (fun cx s =>
    let t := cx.t
    let p := threadPart s t
    let pasid := threadPasid s t
    let core := threadCore s t
    let table := BitVec.ofNat 64 (cx.a s)
    let count := cx.b s
    if pasidState s p pasid = .dying then takeTrap s t { code := .launchHeader }
    else
      let s := drainCore s core
      match tableLack s t table count with
      | some l => parkRetry (askFor s t l) t l.wait
      | none =>
      match readTable s core p pasid table count with
      | (.error e, r) => takeTrap r t e
      | (.ok nodes, r) =>
        match freeEntry s p with
        | none => parkRetry r t .gridTable
        | some slot =>
          let h := handleOf s p slot
          let s := openGraph r p pasid slot table nodes
          advance (writeDest s t cx.dst h.toNat none) t) s

/-- The handle that SRC_A gives. -/
def handleA (cx : Ctx) (s : State) : Word := BitVec.ofNat 32 (cx.a s)

/-- A handle is live for a thread. -/
def handleFor (s : State) (t : Tid) (h : Word) : Option Launched :=
  liveHandle s (threadPart s t) (threadPasid s t) h

/-- `GWAIT` (R292). -/
def execGwait (o : Ops) (s : State) : Host.Outcome State Fault Refusal :=
  issue (.gwait o) (fun cx s =>
    let t := cx.t
    let h := handleA cx s
    let next := nextPc (getThread s t).pc
    transfer s t next fun s =>
      match handleFor s t h with
      | none => endBlock s t next
      | some (.graph _) => park s t (.grid h)
      | some (.grid k) =>
        if k = (getGang s (threadGroup s t).gang).grid then
          takeTrap s t { code := .gridSelf, addr := h.setWidth 64 }
        else park s t (.grid h)) s

/-- `GCAN` (R294). -/
def execGcan (o : Ops) (s : State) : Host.Outcome State Fault Refusal :=
  issue (.gcan o) (fun cx s =>
    let p := threadPart s cx.t
    let pasid := threadPasid s cx.t
    match cancelBar s p pasid (handleA cx s) with
    | some w => parkRetry (wantPage s w) cx.t (.page w.1 w.2)
    | none => advance (cancelHandle s p pasid (handleA cx s)) cx.t) s

/-- Dies on which a grid holds a position (R288). -/
def joined (s : State) (k : Nat) : List Nat :=
  (mkeys s.dies).filter fun d => (getDie s d).grids.contains k

/-- Dies that have joined a grid, those of other modules among them (R293, R299). -/
def diesJoined (s : State) (k : Nat) : Nat :=
  (joined s k).length + ((mfind s.grids k).map fun g => g.farDies.length).getD 0

/-- What `GSTAT` reads (R293). A live graph reads RUNNING from its `GRAPH` on, CANCELLING once it is cancelled, and
DIES 0: the rule speaks of grids (DESIGN CHOICE, log 36). -/
def gstatN (s : State) (t : Tid) (h : Word) : Nat :=
  match handleFor s t h with
  | none => 0
  | some (.graph k) => 8 + if (mfind s.graphs k).any fun g => g.cancelled then 3 else 2
  | some (.grid k) =>
    let st := match mfind s.grids k with
      | some g => match g.state with
        | .queued => 1
        | .running => 2
        | .cancelling => 3
      | none => 0
    st + if isPriv s t then diesJoined s k * 2 ^ 16 else 0

/-- `GSTAT` (R293). -/
def execGstat (o : Ops) (s : State) : Host.Outcome State Fault Refusal :=
  issue (.gstat o) (fun cx s => finish cx s (gstatN s cx.t (handleA cx s))) s

/-- What `WID` reads (R296); 0 for a service thread, which no launch made (log 15). -/
def widN (s : State) (t : Tid) (sel : Nat) (ext : Bool) : Nat :=
  match threadGrid s t with
  | none => 0
  | some g =>
    if sel = 7 then if ext then hdrGangs g.hdr * hdrGang g.hdr else (threadGroup s t).num
    else if sel = 6 then workidOf g.hdr (linearOf s t)
    else if ext then hdrExt g.hdr sel
    else workField g.hdr (linearOf s t) sel

/-- `WID` (R296). -/
def execWid (o : Ops) (s : State) : Host.Outcome State Fault Refusal :=
  issue (.wid o) (fun cx s => finish cx s (widN s cx.t (bitsOf cx.o.imm 0 3) (cx.o.mod.getLsbD 0))) s

/-! ## Joining and dealing -/

/-- A die has a free grid position (R288). A die that lost its scheduler core for good starts no grid
(R319 step 3). -/
def positionFree (s : State) (d : Nat) : Bool := (getDie s d).functioning && (getDie s d).grids.length < 4

/-- Dies of a partition with a free position. -/
def freeDies (s : State) (p : Nat) : List Nat := (partDies s p).filter (positionFree s)

/-- DIE_MAX as it is read (R281). -/
def dieLimit (s : State) (g : Grid) : Nat := min (hdrDieMax g.hdr) (diesAvailable s g.part (hdrDomain g.hdr))

/-- A die of another module has a free position, as far as its module has told and beside the running grids of this
root that hold one there (R288, R299; log 22). -/
def farOpen (s : State) (p c : Nat) : Bool :=
  !(getPart s p).farShut.contains c && (s.grids.filter fun e => e.2.part = p && e.2.farDies.contains c).length < 4

/-- Dies with a free position in the pool of a grid, as module × 8 + die: of the partition, and of the members of
its domain, while the fabric reaches them (R288, R299, R341; log 22). -/
def gridPool (s : State) (p : Nat) (g : Grid) : List Nat :=
  (List.range 8).flatMap fun m =>
    if m = s.link.index.toNat then (freeDies s p).map (8 * m + ·)
    else if hdrDomain g.hdr && (getPart s p).domain.contains m && !fabricDown s then
      ((List.range (memberDies m)).map (8 * m + ·)).filter (farOpen s p)
    else []

/-- The head of the queue may start (R288 step 2). -/
def headStarts (s : State) (p : Nat) (g : Grid) : Bool := hdrDieMin g.hdr ≤ (gridPool s p g).length

/-- A grid takes a position on a die (R288). -/
def joinDie (k : Nat) (s : State) (d : Nat) : State :=
  let s := modDie s d fun x => { x with grids := x.grids ++ [k] }
  modGrid s k fun g => { g with dies := mput g.dies d { next := 0, stop := 0 } }

/-- The queue's head starts (R288 step 2). -/
def startHead (s : State) (p k : Nat) (g : Grid) : State :=
  let dies := (gridPool s p g).take (dieLimit s g)
  let here := dies.filter fun c => c / 8 = s.link.index.toNat
  let s := modPart s p fun x => { x with queue := x.queue.filter (· ≠ k) }
  let far := dies.filter fun c => !here.contains c
  here.foldl (fun s c => joinDie k s (c % 8)) (modGrid s k fun g =>
    { g with state := .running, farDies := far, farRan := far })

/-- Ranges are still undealt. -/
def undealt (g : Grid) : Bool := g.nextRange < hdrRanges g.hdr

/-- A range may still come to a die of this module: one is undealt, or the root of another module has some left. -/
def moreRanges (g : Grid) : Bool := undealt g || (g.root.isSome && g.state = .running && !g.closed)

/-- A running grid of this module's root that may take a further die (R288 step 3). -/
def mayGrow (s : State) (p : Nat) (e : Nat × Grid) : Bool :=
  e.2.root.isNone && e.2.part = p && e.2.state = .running && undealt e.2 && diesJoined s e.1 < dieLimit s e.2

/-- Such a grid that a free die of this module may join. -/
def mayJoin (s : State) (p d : Nat) (e : Nat × Grid) : Bool := mayGrow s p e && !(joined s e.1).contains d

/-- Such a grid that a die of another module of its domain may join (R299). -/
def mayJoinFar (s : State) (p c : Nat) (e : Nat × Grid) : Bool :=
  mayGrow s p e && e.2.modules.contains (c / 8) && c % 8 < memberDies (c / 8) && farOpen s p c &&
    !e.2.farDies.contains c

/-- The first grid in the order of R288. -/
def firstGrid (s : State) : List Nat → Option Nat
  | [] => none
  | k :: ks => (ks.foldl (fun b j => if gridBefore s j b then j else b) k : Nat)

/-- A message of another module arrives for a partition: news for that module's fabric queue on the partition's first
die (R299, R304; log 46). -/
def notifyFabric (s : State) (p m : Nat) : State :=
  match partDies s p with
  | [] => s
  | d :: _ => notifyInternal s d (48 + m)

/-- The same for a message of a grid's foreign root. -/
def farNews (g : Grid) (s : State) : State :=
  match g.root with
  | some (m, _) => notifyFabric s g.part m
  | none => s

/-- A die of the module has joined the grid, which has not reported. -/
def farJoined (g : Grid) (m : Nat) : Bool := g.modules.contains m && g.farDies.any fun c => c / 8 = m

/-- A die of another module joins a grid. -/
def joinFarDie (k : Nat) (s : State) (c : Nat) : State :=
  modGrid s k fun g =>
    { g with farDies := g.farDies ++ [c], farRan := if g.farRan.contains c then g.farRan else g.farRan ++ [c] }

/-- GRID_JOIN (R288). Numbers from 8 on name dies of other modules of a launch domain: 8 + module × 8 + die (R299). -/
def execGridJoin (part die : Nat) (s : State) : Host.Outcome State Fault Refusal :=
  match (getPart s part).queue with
  | k :: _ =>
    match mfind s.grids k with
    | none => .next s
    | some g => .next (if headStarts s part g then startHead s part k g else s)
  | [] =>
    if 8 ≤ die then
      match firstGrid s (mkeys (s.grids.filter (mayJoinFar s part (die - 8)))) with
      | some k => .next (notifyFabric (joinFarDie k s (die - 8)) part ((die - 8) / 8))
      | none => .next s
    else if (partDies s part).contains die && positionFree s die then
      match firstGrid s (mkeys (s.grids.filter (mayJoin s part die))) with
      | some k => .next (joinDie k s die)
      | none => .next s
    else .next s

/-- The head of the partition's queue, of which `q` holds, cannot start (R288). -/
def headWaits (s : State) (p : Nat) (q : Grid → Bool) : Bool :=
  match (getPart s p).queue with
  | [] => false
  | k :: _ => (mfind s.grids k).any fun g => q g && !headStarts s p g

/-- A queue head wants a position on the die, which has none free: the partition's own that cannot start, or that of
another module's root (R288 step 4, R299). -/
def headWants (s : State) (p d : Nat) : Bool :=
  !positionFree s d && (headWaits s p (fun _ => true) || !(getPart s p).farWant.isEmpty)

/-- A spanning head wants a position on a die of another module, which has none free (R288 step 4, R299). -/
def farWanted (s : State) (p c : Nat) : Bool :=
  headWaits s p (fun g => hdrDomain g.hdr && (getPart s p).domain.contains (c / 8)) && !farOpen s p c

/-- A die of the module has joined the grid, which has not reported, and may take a further range (R288 step 4). -/
def farAsks (s : State) (g : Grid) (m : Nat) : Bool :=
  farJoined g m && g.farDies.any fun c => c / 8 = m && !farWanted s g.part c

/-- The next undealt range after the one that is dealt: at this module's root the one that follows; of another
module's grid none, until its root deals one (R287, R299). -/
def rangeAfter (g : Grid) : Nat := if g.root.isNone then g.nextRange + 1 else hdrRanges g.hdr

/-- The next undealt range goes to a die (R287). -/
def dealRange (s : State) (k d : Nat) (g : Grid) : State :=
  let n := 2 ^ hdrDeal g.hdr
  let w : DieWork := { next := g.nextRange * n, stop := min (hdrGangs g.hdr) ((g.nextRange + 1) * n) }
  modGrid s k fun g => { g with nextRange := rangeAfter g, dies := mput g.dies d w }

/-- A die leaves a grid (R288 step 4). -/
def leaveDie (s : State) (k d : Nat) : State :=
  modDie s d fun x => { x with grids := x.grids.filter (· ≠ k) }

/-- Every gang of the die's range has been placed. -/
def rangeDone (g : Grid) (d : Nat) : Bool := (mfind g.dies d).any fun w => w.stop ≤ w.next

/-- The next undealt range goes to another module (R287, R299). -/
def dealFar (s : State) (k m : Nat) (g : Grid) : State :=
  let n := 2 ^ hdrDeal g.hdr
  let gangs := min (hdrGangs g.hdr) ((g.nextRange + 1) * n) - g.nextRange * n
  modGrid s k fun g =>
    { g with nextRange := g.nextRange + 1, dealt := mput g.dealt m (mget 0 g.dealt m + gangs) }

/-- The module dispatcher asks the root of another module for a range: a die here has no gang left to place, and the
module holds no undealt range (R287). -/
def askRange (s : State) (k : Nat) : State := modGrid s k fun g => { g with asked := true }

/-- A die of another module leaves a grid (R288 step 4). -/
def leaveFar (s : State) (k c : Nat) : State := modGrid s k fun g => { g with farDies := g.farDies.filter (· ≠ c) }

/-- RANGE_REQUEST (R287, R288). Numbers from 8 to 15 name other modules of a launch domain, of which a die has joined:
8 + module; those from 16 on name one such die that asks for no range any more and leaves: 16 + module × 8 + die
(R299). -/
def execRangeRequest (grid die : Nat) (s : State) : Host.Outcome State Fault Refusal :=
  match mfind s.grids grid with
  | none => .next s
  | some g =>
    if 16 ≤ die then
      .next (if g.farDies.contains (die - 16) &&
          (g.state ≠ .running || farWanted s g.part (die - 16) || !undealt g) then
        notifyFabric (leaveFar s grid (die - 16)) g.part ((die - 16) / 8) else s)
    else if 8 ≤ die then
      .next (if g.state = .running && farAsks s g (die - 8) && undealt g then
        notifyFabric (dealFar s grid (die - 8) g) g.part (die - 8) else s)
    else if (joined s grid).contains die && rangeDone g die then
      .next (if g.state ≠ .running || headWants s g.part die || !moreRanges g then leaveDie s grid die
             else if undealt g then dealRange s grid die g
             else if fabricDown s then s
             else askRange s grid)
    else .next s

/-! ## Placement -/

/-- Free turns of a core (R63). -/
def freeTurns (s : State) (core : Nat) : List Nat :=
  (List.range 64).filter fun n => (residents s core).all fun g => !g.turns.contains n

/-- Strips of a thread of a placed group (R62). -/
def stripsOf (g : Group) : Nat := g.gcount / 8 + 1

/-- Strip `i` of a core is free. -/
def stripFree (rs : List Group) (i : Nat) : Bool :=
  rs.all fun g => i < g.strip || g.strip + g.turns.length * stripsOf g ≤ i

/-- Free strips of a core. -/
def freeStrips (s : State) (core : Nat) : List Nat :=
  let rs := residents s core
  (List.range 512).filter (stripFree rs)

/-- The lowest run of `q` free strips that starts at a multiple of `n` (R63; log 23). -/
def findRun (s : State) (core n q : Nat) : Option Nat :=
  let rs := residents s core
  lowest (fun b => b % n = 0 && b + q ≤ 512 && (List.range q).all fun i => stripFree rs (b + i)) 512 0

/-- A core on which user groups may be placed (R11, R319 steps 2 and 3). -/
def userCore (s : State) (die c : Nat) : Bool :=
  coreUsable s die c &&
    match (getDie s die).sched with
    | some x => x ≠ c
    | none => nextSched s die ≠ some c

/-- Banks of a cluster that no gang holds (R289). -/
def banksFree (s : State) (ck : Nat) : List Nat :=
  (List.range 16).filter fun b => (bankOwner s ck b).isNone

/-- A group of the grid fits a core (R63). -/
def groupFits (s : State) (die : Nat) (h : Shape) (c : Nat) : Bool :=
  userCore s die c && hdrTurns h ≤ (freeTurns s (coreKey die c)).length &&
    (findRun s (coreKey die c) (hdrStrips h) (hdrTurns h * hdrStrips h)).isSome

/-- A group lacks nothing but a run of strips. -/
def groupNearly (s : State) (die : Nat) (h : Shape) (c : Nat) : Bool :=
  userCore s die c && hdrTurns h ≤ (freeTurns s (coreKey die c)).length &&
    hdrTurns h * hdrStrips h ≤ (freeStrips s (coreKey die c)).length

/-- The first of the adjacent cores of a cluster on which `p` holds (R61). -/
def coreWindow (cl gang : Nat) (p : Nat → Bool) : Option Nat :=
  (lowest (fun i => i + gang ≤ 4 && (List.range gang).all fun k => p (cl * 4 + i + k)) 4 0).map
    fun i => cl * 4 + i

/-- The lowest cluster that offers what `p` asks of cores, and the banks (R289). -/
def findCluster (s : State) (die : Nat) (h : Shape) (p : Nat → Bool) : Option (Nat × Nat) :=
  (List.range 16).findSome? fun cl =>
    if hdrBanks h ≤ (banksFree s (die * 16 + cl)).length then
      (coreWindow cl (hdrGang h) p).map fun c => (cl, c)
    else none

/-- A slot number of a cluster that no gang has (R316; log 23). -/
def freeGangSlot (s : State) (ck : Nat) : Nat :=
  (lowest (fun n => s.gangs.all fun e => e.2.cluster ≠ ck || e.2.slot ≠ n ||
    match e.2.status with
    | .saved _ _ => true
    | .running | .stopping | .held => false) 256 0).getD 0

/-- Threads of a placed group (R64, R282). -/
def newThreads (h : Shape) : List Thread :=
  List.replicate (hdrGroupSize h) { pc := hdrEntry h, checkEntry := true }

/-- The group at position `p` of a gang on a core (R282). -/
def newGroup (s : State) (gang num p core : Nat) (h : Shape) : Group :=
  { gang := gang, pos := p, num := num * hdrGang h + p, gsize := hdrGroupSize h,
    gcount := 8 * ceilDiv (hdrRegs h) 8, nsets := hdrSets h, prio := hdrPrio h, core := core,
    turns := (freeTurns s core).take (hdrTurns h),
    strip := (findRun s core (hdrStrips h) (hdrTurns h * hdrStrips h)).getD 0,
    scal := mset 0 (mset 0 [] 0 (wordPart (hdrArg h).toNat 0)) 1 (wordPart (hdrArg h).toNat 1),
    shapes := mset 0 [] 0 h, threads := newThreads h }

/-- A group is placed and its threads post (R282). -/
def addGroup (gang num core0 : Nat) (h : Shape) (s : State) (p : Nat) : State :=
  let (k, s) := freshId s
  let s := { s with groups := mput s.groups k (newGroup s gang num p (core0 + p) h) }
  let s := modGang s gang fun g => { g with groups := g.groups ++ [k] }
  (groupTids s k).foldl (fun s t => post s t (hdrEntry h)) s

/-- A gang is placed on a cluster from core `c` on, and reported with its GID (R61, R166, R221, R289,
R316). It gets the lowest free banks of the cluster (DESIGN CHOICE, log 23). -/
def placeGang (s : State) (die cl c grid num : Nat) (h : Shape) : State :=
  let ck := die * 16 + cl
  let phys := (banksFree s ck).take (hdrBanks h)
  let (k, s) := freshId s
  let g : Gang :=
    { grid := grid, num := num, slot := freeGangSlot s ck, cluster := ck, core0 := c,
      nbanks := hdrBanks h, phys := phys }
  let s := { s with gangs := mput s.gangs k g }
  let s := modCluster s ck fun x => { x with banks := x.banks.filter fun e => !phys.contains e.1 }
  let s := notifyInternal (report s (.placement die (cl * 256 + g.slot))) die 56
  (List.range (hdrGang h)).foldl (addGroup k num (coreKey die c) h) s

/-- The die's partition has not been stopped (R314). -/
def partRuns (s : State) (d : Nat) : Bool := (partOfDie s d).all fun p => !(getPart s p).stopped

/-- A die's next grid with a gang to attempt (R289). After a thermal trip no user gang starts (R361). -/
def placeable (s : State) (d : Nat) : Option Nat :=
  if partRuns s d && !s.link.trip then
    firstGrid s ((getDie s d).grids.filter fun k =>
      (mfind s.grids k).any fun g => (mfind g.dies d).any fun w => w.next < w.stop && !w.tried)
  else none

/-- GANG_PLACE: one attempt (R63, R289). -/
def execGangPlace (die : Nat) (s : State) : Host.Outcome State Fault Refusal :=
  match placeable s die with
  | none => .next s
  | some k =>
    match mfind s.grids k with
    | none => .next s
    | some g =>
      let w := mget { next := 0, stop := 0 } g.dies die
      match findCluster s die g.hdr (groupFits s die g.hdr) with
      | some (cl, c) =>
        let s := placeGang s die cl c k w.next g.hdr
        .next (modGrid s k fun g =>
          { g with gangsRun := g.gangsRun + 1, dies := mput g.dies die { w with next := w.next + 1 } })
      | none =>
        let frag := (findCluster s die g.hdr (groupNearly s die g.hdr)).isSome
        let s := modDie s die fun d =>
          { d with launchFrag := if frag then d.launchFrag + 1 else d.launchFrag }
        .next (modGrid s k fun g => { g with dies := mput g.dies die { w with tried := true } })

/-! ## Reports and spanning launches -/

/-- A die has nothing left of a grid: no range, no gang to place, no gang placed (R290). -/
def dieOver (s : State) (k d : Nat) (g : Grid) : Bool :=
  rangeDone g d && (!moreRanges g || !(joined s k).contains d) &&
    s.gangs.all fun e => e.2.grid ≠ k || e.2.cluster / 16 ≠ d

/-- Gangs of those dealt to a module that it has run: all of them, but for a cancelled grid, which may have
dropped some (R294, R299; log 22). -/
def farRun (g : Grid) (m draw : Nat) : Nat :=
  let all := mget 0 g.dealt m
  if g.state = .cancelling then min all draw else all

/-- The codes of Table 16-6 that are assigned (R308). -/
def assigned (c : Nat) : Bool := 1 ≤ c && c ≤ 33

/-- The first fault on each of a module's dies that joined the grid, of an assigned code; none where the module has run
no gang (R291, R308; log 22). -/
def farFirsts (g : Grid) (m draw : Nat) : NMap (Option (Nat × DWord × DWord)) :=
  let ran : Bool := farRun g m (Config.moduleCount draw 0) ≠ 0
  (g.farRan.filter fun c => c / 8 = m).map fun c =>
    (c, (Config.moduleFirst draw (c % 8)).filter fun x => ran && assigned x.1)

/-- COUNT[c] that a module reports: its dies' first faults of that code, and any number of later ones where it has a
first one (R291; log 22). -/
def farCount (g : Grid) (m draw c : Nat) : Nat :=
  let firsts := (farFirsts g m draw).filterMap Prod.snd
  let later := if assigned c && !firsts.isEmpty then Config.moduleCount draw (2 + c) else 0
  (firsts.filter fun x => x.1 = c).length + later

/-- What another module reports (R299; log 22). A group that `HALT.term` ends without a fault counts in TERMINATED alone
(R315, R316), so no COUNT bounds it. -/
def moduleReport (s : State) (k m : Nat) : State :=
  let c := Config.moduleCount s.free
  let s' := modGrid s k fun g =>
    { g with modules := g.modules.filter (· ≠ m), farDies := g.farDies.filter fun c => c / 8 ≠ m, gangsRun := g.gangsRun + farRun g m (c 0),
             terminated := g.terminated + min (c 1) (farRun g m (c 0) * hdrGang g.hdr),
             count := (List.range 64).foldl (fun n i => mset 0 n i (mget 0 n i + farCount g m s.free i)) g.count,
             far := (farFirsts g m s.free).foldl (fun f e => mput f e.1 e.2) g.far }
  { s' with free := s.free + 1 }

/-- DIE_REPORT (R290, R299). Numbers from 8 on name other modules: 8 + module. -/
def execDieReport (grid die : Nat) (s : State) : Host.Outcome State Fault Refusal :=
  match mfind s.grids grid with
  | none => .next s
  | some g =>
    if 8 ≤ die then
      .next (if g.state ≠ .queued && g.modules.contains (die - 8) && !undealt g then
        notifyFabric (tryComplete (moduleReport s grid (die - 8)) grid) g.part (die - 8) else s)
    else if (mfind g.dies die).any (fun w => !w.reported) && dieOver s grid die g then
      let s := modGrid (leaveDie s grid die) grid fun g =>
        { g with dies := mmod g.dies die fun w => { w with reported := true } }
      .next (tryComplete s grid)
    else .next s

/-- The launcher of a spanning launch goes on with its handle (R284). -/
def releaseLauncher (s : State) (k : Nat) (g : Grid) (h : Word) : State :=
  match g.launcher with
  | none => s
  | some (t, dst) =>
    let s := modGrid s k fun g => { g with launcher := none }
    wake (writeDest s t dst h.toNat none) t (nextPc (getThread s t).pc)

/-- An earlier launch of a lower lane of the same pack has not had its launch event (R284). -/
def spanBehind (s : State) (k : Nat) (g : Grid) : Bool :=
  s.grids.any fun e => e.1 < k && !e.2.acks.isEmpty &&
    match g.launcher, e.2.launcher with
    | some (t, _), some (u, _) => t.grp = u.grp && (getThread s t).pc = (getThread s u).pc
    | _, _ => false

/-- Every member has acknowledged a spanning grid whose launch event has still to come. -/
def spanDue (s : State) (k : Nat) (g : Grid) : Bool :=
  g.state = .queued && g.acks.isEmpty && !(getPart s g.part).queue.contains k && !spanBehind s k g

/-- Its launch event: the launcher goes on, or the node is LAUNCHED, once the page of its table is there (R193, R284,
R298, R299). -/
def spanEvent (s : State) (k : Nat) : State :=
  match mfind s.grids k with
  | none => s
  | some g =>
    if spanDue s k g then
      match g.graph.bind fun x => tableBar s x.1 with
      | some w => wantPage s w
      | none =>
        let s := launchEvent s k
        let s := releaseLauncher s k g (gridHandle s k)
        match g.graph with
        | some (gr, n) => nodeLaunched s gr n (gridHandle s k)
        | none => s
    else s

/-- The launch events that are due, in the order the grids were launched. -/
def placeSpans (s : State) : State := (mkeys s.grids).foldl spanEvent s

/-- SPAN_ACK: a member acknowledges; the launch event follows the last (R299). -/
def execSpanAck (grid module : Nat) (s : State) : Host.Outcome State Fault Refusal :=
  match mfind s.grids grid with
  | none => .next s
  | some g =>
    if g.acks.contains module then
      .next (notifyFabric
        (placeSpans (modGrid s grid fun g => { g with acks := g.acks.filter (· ≠ module) })) g.part module)
    else .next s

/-- SPAN_ACK_TIMEOUT: the grid is cancelled everywhere and completes with OUTCOME 3 (R299). -/
def execSpanAckTimeout (grid : Nat) (s : State) : Host.Outcome State Fault Refusal :=
  match mfind s.grids grid with
  | none => .next s
  | some g =>
    if g.acks.isEmpty then .next s
    else
      let s := releaseLauncher s grid g (gridHandle s grid)
      let s := modGrid s grid fun g => { g with failed := true, state := .cancelling, acks := [], modules := [] }
      .next (placeSpans (tryComplete (dropRanges s grid) grid))

/-- SPAN_CANCEL: a broadcast cancel drops whatever the module still holds of the grid, and at a member cancels
its part of it (R294, R299). -/
def execSpanCancel (grid : Nat) (s : State) : Host.Outcome State Fault Refusal :=
  match mfind s.grids grid with
  | none => .next s
  | some g =>
    .next (if g.root.isSome then farNews g (if g.state = .cancelling then dropRanges s grid else cancelGrid s grid)
           else if g.state = .cancelling then dropRanges s grid else s)

/-! ## Grids of another module's root -/

/-- A header that the root of another module broadcasts: as a member of its domain this module keeps the grid
and acknowledges (R299; log 22). -/
def joinFar (s : State) (p m pasid : Nat) (hdr : Shape) (h : Word) : State :=
  if (getPart s p).domain.contains m && hdrFieldsOk hdr && hdrDomain hdr && pasidState s p pasid ≠ .dying then
    let (k, s) := freshId s
    let (e, s) := nextEvent s
    let g : Grid :=
      { hdr := hdr, event := e, part := p, pasid := pasid, slot := 0, state := .running,
        nextRange := hdrRanges hdr, root := some (m, h) }
    farNews g (report { s with grids := mput s.grids k g } (.memberAck m h))
  else s

/-- Another module of the domain tells which of its dies have no free position (R288, R299; log 22). -/
def farShut (s : State) (p m : Nat) (dies : List Nat) : State :=
  if (getPart s p).domain.contains m then
    notifyFabric (modPart s p fun x =>
      { x with farShut := (x.farShut.filter fun c => c / 8 ≠ m) ++ (dies.filter (· < 8)).map (8 * m + ·) }) p m
  else s

/-- Another module's root tells whether the head of its launch queue wants positions (R288, R299; log 22). -/
def farWant (s : State) (p m : Nat) (wants : Bool) : State :=
  if (getPart s p).domain.contains m then
    notifyFabric (modPart s p fun x =>
      { x with farWant := if wants then nadd x.farWant m else ndel x.farWant m }) p m
  else s

/-- That root joins a die of this module with a free position to the grid (R288, R299; log 22). -/
def farStart (s : State) (k d : Nat) : State :=
  match mfind s.grids k with
  | none => s
  | some g =>
    if g.root.isSome && g.state = .running && !g.closed && (freeDies s g.part).contains d && !(joined s k).contains d then
      farNews g (joinDie k s d)
    else s

/-- That root answers a request: it deals a range, in ascending order, or has none left (R287, R299; log 22). -/
def grantFar (s : State) (k : Nat) (r : Option Nat) : State :=
  match mfind s.grids k, r with
  | none, _ => s
  | some g, some r =>
    if g.root.isSome && g.state = .running && g.asked && g.granted ≤ r && r < hdrRanges g.hdr then
      farNews g (modGrid s k fun g => { g with nextRange := r, granted := r + 1, asked := false })
    else s
  | some g, none =>
    if g.root.isSome && g.state = .running then
      farNews g (tryComplete (modGrid s k fun g => { g with closed := true, asked := false }) k)
    else s

end Sys2Proof.Machine
end

