-- ==== Sys2Proof/Machine/Waits.lean ====
section
/-! DEFINITION. The conditions on which threads wait, and a thread that goes on when its own is met (R78, R81,
R284, R307, R316, R321, R322). -/

namespace Sys2Proof.Machine

/-- PEND of a queue's latch. -/
def latchPend (s : State) (die q : Nat) : Bool := (getDie s die).pend.contains q

/-- The latch of a service thread's queue is read and PEND cleared, in one step (R307). Service thread 63
takes every record of the fault ring up to TAIL (log 16). -/
def takeLatch (s : State) (t : Tid) (d : Dest) : State :=
  let die := threadDie s t
  let tail := mget 0 (getDie s die).tail t.gi
  let s := modDie s die fun x =>
    { x with pend := ndel x.pend t.gi,
             qhead := if t.gi = 63 then mset 0 x.qhead 63 tail.toNat else x.qhead }
  writeDest s t d tail.toNat none

/-- No gang of the list still runs or stops. -/
def allStopped (s : State) (ks : List Nat) : Bool :=
  ks.all fun k =>
    match mfind s.gangs k with
    | none => true
    | some g => g.status ≠ .running && g.status ≠ .stopping

/-- A walk in flight lies in the scope of a `TLBINV` (R321): `page` is a virtual page, by its number and log2 of its
size. -/
def walkIn (page : Option (Nat × Nat)) (pasid : Option Nat) (m : Miss) : Bool :=
  (page.all fun x => x.1 = m.vpn * 65536 / 2 ^ x.2) && (pasid.isNone || pasid = some m.pasid)

/-- Some walk of the scope is in flight on a die of the partition. -/
def walksIn (s : State) (p : Nat) (page : Option (Nat × Nat)) (pasid : Option Nat) : Bool :=
  (partDies s p).any fun d => (getDie s d).walks.any (walkIn page pasid)

/-- A strict access that has been issued and not performed holds a translation of the scope: a GLOBAL one is in
the scope of a page whatever its PASID (R321, R329; log 37). -/
def holdsIn (page : Option (Nat × Nat)) (pasid : Option Nat) (own : Nat) (x : Strict) : Bool :=
  x.leaf.any fun l =>
    (page.all fun y => y.1 = vpnOf x.acc.va y.2) &&
      (pasid.isNone || pasid = some own || (l.global && page.isSome))

/-- Some such access is outstanding on a die of the partition. -/
def accessesIn (s : State) (p : Nat) (page : Option (Nat × Nat)) (pasid : Option Nat) : Bool :=
  (allTids s).any fun t =>
    holdsDie s p (dieOfCore (threadCore s t)) &&
      (getThread s t).strict.any (holdsIn page pasid (threadPasid s t))

/-- What a `TLBINV` waits for (R321). -/
def scopeBusy (s : State) (p : Nat) (page : Option (Nat × Nat)) (pasid : Option Nat) : Bool :=
  walksIn s p page pasid || accessesIn s p page pasid

/-- A lock record names one of `n` granules from `lo` (R322). -/
def granulesLocked (s : State) (lo n : Nat) : Bool :=
  s.ops.any fun e => e.2.ranges.any fun r =>
    r.scratch.isNone && r.pieces.any fun q => q.2.2 && overlaps q.1 q.2.1 (lo * 4096) (n * 4096)

/-- The slot after the thread's. -/
def afterPc (s : State) (t : Tid) : DWord := nextPc (getThread s t).pc

/-- The signed operation holds an entry of the reservation table, or has ended (R231). -/
def signedAccepted (s : State) (k : Nat) : Bool :=
  match mfind s.ops k with
  | none => true
  | some o => o.phase ≠ .claiming && reserved s k

/-- A thread at `LNCH` with its header captured goes on: it is refused if its PASID is DYING by now (R332), and
launches when its turn in its pack has come and a table entry is free (R284). -/
def relaunch (s : State) (t : Tid) (hdr : Shape) (d : Dest) : State :=
  if pasidState s (threadPart s t) (threadPasid s t) = .dying then takeTrap s t { code := .launchHeader }
  else if (freeEntry s (threadPart s t)).isSome && !launchBehind s t then
    launchFor s t hdr d fun s => wake s t (afterPc s t)
  else s

/-- A thread at a page waits on: while it passes, and under device bias while it is away and can come back (R193, R349,
R351). -/
def pageStays (s : State) (u : Nat) (host : Bool) : Bool :=
  (getPage s u).departing || (!host && (getPage s u).holder.isSome && !unreached s (u * 65536))

/-- A trap is taken once its record lacks nothing; until then what lacks is asked for (R193, R309, R330). A failed
walk serves it alone (R329). -/
def settleTrap (s : State) (t : Tid) (e : Exc) (tepc : DWord) (flags : Nat) : State :=
  match recordLack s t with
  | some l => askFor s t l
  | none => modThread (takeTrapWith s t e tepc flags) t fun th => { th with walkFails := [] }

/-- A wait whose end is a block end. -/
def endsBlock (w : Wait) : Bool :=
  match w with
  | .token _ | .counts _ _ _ _ | .grid _ | .notify _ | .stop _ => true
  | .regs _ | .count _ | .drained | .signing _ | .leaving _ | .reservation _ | .ladle _ | .launch _ _ | .gridTable
  | .bank _ _ _ _ | .tile _ | .granules _ _ | .walks _ _ | .page _ _ | .trap _ _ _ _ | .walk _ | .dying | .strict
  | .arrived _ | .mrd _ | .ranges | .span _ | .fifo _ | .fifoTurn _ _ _ _ => false

/-- The end of a thread's wait may deliver a trap or an interrupt. -/
def mayDeliver (th : Thread) (w : Wait) : Bool :=
  match w with
  | .trap _ _ _ _ => true
  | _ => endsBlock w && interrupted th

/-- A thread parked on a condition goes on, if the condition is met (R78). -/
def settleWait (s : State) (t : Tid) (w : Wait) : State :=
  let th := getThread s t
  match w with
  | .regs codes => if codes.any (loadAwaited s t) then s else retry s t
  | .count which => if countOf th which < 255 then retry s t else s
  | .drained => if th.cntLd + th.cntSt = 0 then retry s t else s
  | .token n => if (getToken s t n).isPending then s else waitToken s t n (afterPc s t)
  | .counts ld st cp mx => if countsMet th ld st cp mx then endBlock s t (afterPc s t) else s
  | .grid h => if (handleFor s t h).isNone then endBlock s t (afterPc s t) else s
  | .notify d =>
    if latchPend s (threadDie s t) t.gi then endBlock (takeLatch s t d) t (afterPc s t) else s
  | .stop ks => if allStopped s ks then endBlock s t (afterPc s t) else s
  | .signing j | .leaving j => if hasSigned (getSet s t.grp j) t.gi then s else retry s t
  | .reservation k => if signedAccepted s k then wake s t (afterPc s t) else s
  | .ladle k => if copyHeld s k then wake s t (afterPc s t) else s
  | .launch hdr d => relaunch s t hdr d
  | .gridTable => if (freeEntry s (threadPart s t)).isSome then retry s t else s
  | .bank k b _ _ => if (getBank s k b).queue.contains t then s else retry s t
  | .tile e => if tileBusy s (threadGroup s t).gang e then s else retry s t
  | .granules lo n => if granulesLocked s lo n then s else retry s t
  | .walks page pasid => if scopeBusy s (threadPart s t) page pasid then s else retry s t
  | .page u host => if pageStays s u host then s else retry s t
  | .trap e tepc flags _ => settleTrap s t e tepc flags
  | .walk _ | .dying | .strict | .arrived _ | .mrd _ | .ranges | .span _ | .fifo _ | .fifoTurn _ _ _ _ => s

end Sys2Proof.Machine
end

