-- ==== Sys2Proof/Machine/System.lean ====
section
/-! DEFINITION. System instructions: traps, clocks and identity, special-register writes, user interrupts,
notify latches, pre-emption, translation and cache maintenance (R303 to R323, R331). -/

namespace Sys2Proof.Machine

/-! ## Traps -/

/-- `TRAP` (R312). -/
def execTrap (o : Ops) (s : State) : Host.Outcome State Fault Refusal :=
  issue (.trap o) (fun cx s =>
    takeTrapWith s cx.t { code := .softTrap, addr := BitVec.ofNat 64 (bitsOf cx.o.imm 0 16) }
      (nextPc (getThread s cx.t).pc) 0) s

/-- `TRET` (R80, R312). -/
def execTret (o : Ops) (s : State) : Host.Outcome State Fault Refusal :=
  issue (.tret o) (fun cx s =>
    let th := getThread s cx.t
    if !th.inTrap then takeTrap s cx.t { code := .illegalOp }
    else if !slotForm th.tepc then takeTrap s cx.t { code := .badTarget, addr := th.tepc }
    else returnFromTrap s cx.t) s

/-- `UIACK` (R312). -/
def execUiack (o : Ops) (s : State) : Host.Outcome State Fault Refusal :=
  issue (.uiack o) (fun cx s =>
    advance (modThread s cx.t fun th => { th with uiPend := false }) cx.t) s

/-! ## Clocks and identity -/

/-- `CLK` (R320, R67). -/
def execClk (o : Ops) (s : State) : Host.Outcome State Fault Refusal :=
  issue (.clk o) (fun cx s =>
    if isPriv s cx.t then finish cx s (clockNow s).toNat else finish cx (setSticky s cx.t 1) 0) s

/-- {PMODULE, PDIE, PCORE} as `IDPHYS` packs them (R320). -/
def idphysN (s : State) (t : Tid) : Nat :=
  bitsOf (identOf s t 0x43) 0 8 * 2 ^ 16 + bitsOf (identOf s t 0x42) 0 3 * 2 ^ 8 +
    bitsOf (identOf s t 0x41) 0 6

/-- `IDPHYS` (R320, R67). -/
def execIdphys (o : Ops) (s : State) : Host.Outcome State Fault Refusal :=
  issue (.idphys o) (fun cx s =>
    if isPriv s cx.t then finish cx s (idphysN s cx.t) else finish cx (setSticky s cx.t 2) 0) s

/-! ## `MSS` -/

/-- A special register of the thread written (R65, R66, R68, R80), by code less 0x180. -/
def writeThreadSp (th : Thread) (n : Nat) (v : DWord) : Thread :=
  match n with
  | 0x07 => { th with fstat := Flags.ofWord (v.setWidth 32) }
  | 0x0B => { th with link := v }
  | 0x0C => { th with rndctr := v }
  | 0x13 => { th with tepc := v }
  | 0x41 | 0x42 | 0x43 => { th with ident := mput th.ident (n - 0x40) (v.setWidth 32) }
  | 0x45 => { th with pasid := v.setWidth 20 }
  | _ => th

/-- A special register written (R65, R66): TVEC and TREC of the group, LAUNCH_FRAG of the die, and those
of the thread. -/
def writeSp (s : State) (t : Tid) (n : Nat) (v : DWord) : State :=
  match n with
  | 0x10 => modGroup s t.grp fun g => { g with tvec := v }
  | 0x11 => modGroup s t.grp fun g => { g with trec := v }
  | 0x44 => modDie s (threadDie s t) fun d => { d with launchFrag := v.setWidth 32 }
  | _ => modThread s t fun th => writeThreadSp th n v

/-- `MSS` (R65, R66, R320). -/
def execMss (o : Ops) (s : State) : Host.Outcome State Fault Refusal :=
  issue (.mss o) (fun cx s =>
    advance (writeSp s cx.t (spNum cx.o.dst) (BitVec.ofNat 64 (cx.a s))) cx.t) s

/-- `MSS` to TSTICKY: bits written as 1 are cleared (R66). -/
def execTstickyClear (o : Ops) (s : State) : Host.Outcome State Fault Refusal :=
  issue (.tstickyClear o) (fun cx s =>
    let v := BitVec.ofNat 2 (cx.a s)
    advance (modThread s cx.t fun th => { th with tsticky := th.tsticky &&& ~~~v }) cx.t) s

/-! ## User interrupts -/

/-- A user interrupt reaches a thread that is not DONE (R313). -/
def raiseThread (cause : Word) (th : Thread) : Thread :=
  if th.run = .done then th else { th with uiPend := true, uiCause := cause }

/-- A user interrupt reaches every placed and every HELD group of a grid (R313). -/
def raiseGrid (s : State) (k : Nat) (cause : Word) : State :=
  let groups := (gangsOf s k).flatMap fun g => (getGang s g).groups
  groups.foldl (fun s g =>
    modGroup s g fun x => { x with threads := x.threads.map (raiseThread cause) }) s

/-- A write of {cause, handle} to UIRAISE (R313). A handle that is GONE, or names a graph, reaches none. -/
def raiseHandle (s : State) (p pasid : Nat) (h cause : Word) : State :=
  match liveHandle s p pasid h with
  | some (.grid k) => raiseGrid s k cause
  | some (.graph _) | none => s

/-- The raise that another module's root broadcasts for its grid (R299, R313; log 22). -/
def farRaise (s : State) (k : Nat) (cause : Word) : State :=
  match mfind s.grids k with
  | none => s
  | some g => if g.root.isSome then farNews g (raiseGrid s k cause) else s

/-- `MSS` to UIRAISE (R313). -/
def execUiraise (o : Ops) (s : State) : Host.Outcome State Fault Refusal :=
  issue (.uiraise o) (fun cx s =>
    let v := cx.a s
    advance (raiseHandle s (threadPart s cx.t) (threadPasid s cx.t) (BitVec.ofNat 32 v)
      (BitVec.ofNat 32 (v / 2 ^ 32))) cx.t) s

/-! ## Notify latches -/

/-- `SVWAIT` (R307). -/
def execSvwait (o : Ops) (s : State) : Host.Outcome State Fault Refusal :=
  issue (.svwait o) (fun cx s =>
    let t := cx.t
    let next := nextPc (getThread s t).pc
    transfer s t next fun s =>
      if latchPend s (threadDie s t) t.gi then endBlock (takeLatch s t cx.dst) t next
      else park s t (.notify cx.dst)) s

/-- `SVWAKE` (R307). -/
def execSvwake (o : Ops) (s : State) : Host.Outcome State Fault Refusal :=
  issue (.svwake o) (fun cx s =>
    advance (latchNotify s (threadDie s cx.t) (cx.a s % 64) (BitVec.ofNat 32 (cx.b s))) cx.t) s

/-! ## Stopping gangs -/

/-- Placed user gangs of a die. -/
def userGangs (s : State) (die : Nat) : List Nat :=
  (s.gangs.filter fun e => e.2.cluster / 16 = die && !e.2.isSaved && isUserGang s e.1).map Prod.fst

/-- The gangs that a GID names on a die (R316). -/
def gangsNamed (s : State) (die : Nat) (gid : Word) : List Nat :=
  if gid = 0xFFFFFFFF then userGangs s die
  else if bitsOf gid 12 20 ≠ 0 then []
  else (userGangs s die).filter fun k =>
    (getGang s k).cluster % 16 = bitsOf gid 8 4 && (getGang s k).slot = bitsOf gid 0 8

/-- No failed walk is kept for the operations of a gang that stops (R329). -/
def forgetOpWalks (s : State) (k : Nat) : State :=
  { s with ops := s.ops.map fun e => (e.1, if e.2.gang = k then { e.2 with walkFails := [] } else e.2) }

/-- A gang begins to stop (R316): its threads stop, each at its instruction boundary, and a pack that is issuing
when it has issued whole (R75). -/
def stopGang (s : State) (k : Nat) : State :=
  if (getGang s k).status = .running then
    let s := forgetOpWalks ((getGang s k).groups.foldl holdSoon s) k
    modGang s k fun g => { g with status := .stopping }
  else s

/-- A matrix operation that a stop request leaves to finish (R247). -/
def finishesFirst (k : OpKind) : Bool :=
  match k with
  | .sign kind _ _ =>
    match kind with
    | .macz _ _ | .maczRel _ | .mrd _ _ _ | .mst _ _ _ _ _ _ _ _ _ => true
    | .mmaLb _ _ _ _ | .mmaBb _ _ _ _ _ _ _ => false
  | .copy _ _ _ _ | .chain _ _ | .bzld _ _ _ _ _ _ _ _ => false

/-- The gang's last access is performed and its engine operations stand at their boundaries (R316). -/
def gangStopped (s : State) (k : Nat) : Bool :=
  ((getGang s k).groups.all fun g =>
    !midPack s g && (groupTids s g).all fun t => (getThread s t).strict.isNone) &&
    s.ops.all fun e => e.2.gang ≠ k || e.2.phase ≠ .running || !finishesFirst e.2.kind

/-- GANG_STOP_COMPLETE (R316). -/
def execGangStopComplete (gang : Nat) (s : State) : Host.Outcome State Fault Refusal :=
  .next (if (getGang s gang).status = .stopping && gangStopped s gang then
    modGang s gang fun g => { g with status := .held } else s)

/-- The GID in SRC_A. -/
def gidOf (cx : Ctx) (s : State) : Word := BitVec.ofNat 32 (cx.a s)

/-- `HALT` (R316). -/
def execHalt (o : Ops) (s : State) : Host.Outcome State Fault Refusal :=
  issue (.halt o) (fun cx s =>
    let t := cx.t
    let next := nextPc (getThread s t).pc
    let ks := gangsNamed s (threadDie s t) (gidOf cx s)
    transfer s t next fun s =>
      let s := ks.foldl stopGang s
      if allStopped s ks then endBlock s t next else park s t (.stop ks)) s

/-- A held thread is reposted, or tests its saved condition and waits on it (Table 3-9, R81). What its wait may
deliver, a trap, CANCEL or a user interrupt, is taken as the step ends, in the order of the packs and lanes (R310). -/
def goThread (s : State) (t : Tid) : State :=
  match (getThread s t).run with
  | .held none => post s t (getThread s t).pc
  | .held (some w) =>
    let u := modThread s t fun th => { th with run := .parked w }
    if mayDeliver (getThread s t) w then u else settleWait u t w
  | .ready | .issuing | .parked _ | .done => s

/-- The groups of a HELD gang go on, in ascending core order, threads in ascending GINDEX (R81). A group
that escalation has stopped stays stopped (R314). -/
def goGang (s : State) (k : Nat) : State :=
  if (getGang s k).status = .held then
    let s := modGang s k fun g => { g with status := .running }
    (getGang s k).groups.foldl (fun s g =>
      if (getGroup s g).stopped then s else (groupTids s g).foldl goThread s) s
  else s

/-- `HALT.go` (R316, R81). After a thermal trip no gang resumes (R361). The gangs that 0xFFFF_FFFF names go on in
ascending order of their keys, the order of their placement (DESIGN CHOICE, log 59). -/
def execHaltGo (o : Ops) (s : State) : Host.Outcome State Fault Refusal :=
  issue (.haltGo o) (fun cx s =>
    let t := cx.t
    let next := nextPc (getThread s t).pc
    let ks := gangsNamed s (threadDie s t) (gidOf cx s)
    transfer s t next fun s => endBlock (if s.link.trip then s else ks.foldl goGang s) t next) s

/-- A group is stopped if it still runs, and terminated (R315, R316): one that is issuing a pack when the pack
has issued whole (R75). -/
def haltGroup (s : State) (grp : Nat) : State :=
  let g := getGroup s grp
  if g.terminated then s
  else if midPack s grp then modGroup s grp fun g => { g with stopped := true, doomed := true }
  else if g.stopped || (getGang s g.gang).status ≠ .running then terminateGroup s grp
  else terminateGroup (holdGroup s grp) grp

/-- Group `pos` of a gang. -/
def groupAt (s : State) (k pos : Nat) : List Nat :=
  (getGang s k).groups.filter fun g => (getGroup s g).pos = pos

/-- `HALT.term` (R315, R316). -/
def execHaltTerm (o : Ops) (s : State) : Host.Outcome State Fault Refusal :=
  issue (.haltTerm o) (fun cx s =>
    let t := cx.t
    let next := nextPc (getThread s t).pc
    let groups := (gangsNamed s (threadDie s t) (gidOf cx s)).flatMap fun k => groupAt s k (cx.b s)
    transfer s t next fun s => endBlock (groups.foldl haltGroup s) t next) s

/-! ## Saving and restoring -/

/-- Granules of a range's lock records. -/
def lockGranules (r : Range) : List Nat :=
  if r.scratch.isSome then []
  else (r.pieces.filter fun q => q.2.2).flatMap fun q => granulesOf q.1 q.2.1

/-- A granule of class P is Annealed to S (R317). -/
def unown (s : State) (g : Nat) : State :=
  match (getGranule s g).cls with
  | .p _ => annealNow s g .s
  | .u | .r | .s => s

/-- Every P granule in a held range of a gang is Annealed to S (R317). -/
def unownRanges (s : State) (k : Nat) : State :=
  let ops := s.ops.filter fun e => e.2.gang = k
  (ops.flatMap fun e => e.2.ranges.flatMap lockGranules).foldl unown s

/-- A HELD gang goes to shadow storage and releases what it held (R317). -/
def saveGang (die ctx : Nat) (s : State) (k : Nat) : State :=
  modGang (unownRanges s k) k fun g => { g with status := .saved die ctx, phys := [] }

/-- The result word of `CTXSV`. -/
def ctxWord (ctx status : Nat) : Nat := ctx * 65536 + status

/-- Bytes of a gang's context in shadow storage (R317; log 53): its banks, allocated Bezel units and
accumulators, and the strips of its groups. -/
def contextBytes (s : State) (k : Nat) : Nat :=
  let g := getGang s k
  g.nbanks * bankBytes + (g.tiles.foldl (fun n e => n + e.2.units) 0) * 4096 + accCount g * 8192 +
    g.groups.foldl (fun n i => n + (getGroup s i).turns.length * stripsOf (getGroup s i) * 1024) 0

/-- Shadow storage of a die, Table 1-1 (R10), and what its saved contexts use. -/
def shadowBytes : Nat := 384 * 2 ^ 20
def shadowUsed (s : State) (die : Nat) : Nat :=
  ((getDie s die).contexts.flatMap fun e => e.2).foldl (fun n k => n + contextBytes s k) 0

/-- The gangs' context fits what is left. -/
def shadowFits (s : State) (die : Nat) (ks : List Nat) : Bool :=
  shadowUsed s die + ks.foldl (fun n k => n + contextBytes s k) 0 ≤ shadowBytes

/-- Gangs are saved as one context (R317), if shadow storage has room for them and a context number is free. -/
def saveGangs (s : State) (die : Nat) (ks : List Nat) : Nat × State :=
  if !ks.all fun k => (getGang s k).status = .held then (ctxWord 0 1, s)
  else if !shadowFits s die ks then (ctxWord 0 2, s)
  else
    match lowest (fun c => (mfind (getDie s die).contexts c).isNone) 65536 0 with
    | none => (ctxWord 0 2, s)
    | some ctx =>
      let s := ks.foldl (saveGang die ctx) s
      let s := modDie s die fun d => { d with contexts := mput d.contexts ctx ks }
      (ctxWord ctx 0, wakeRanges s)

/-- `CTXSV` (R317). A GID that names no gang is ignored, and the result is a free value (log 26). -/
def execCtxsv (o : Ops) (s : State) : Host.Outcome State Fault Refusal :=
  issue (.ctxsv o) (fun cx s =>
    let die := threadDie s cx.t
    if cx.o.mod.getLsbD 0 then
      let r := saveGangs s die (userGangs s die)
      finish cx r.2 r.1
    else
      match gangsNamed s die (gidOf cx s) with
      | [] => finish cx { s with free := s.free + 1 } (Config.noGangResult s.free).toNat
      | ks =>
        let r := saveGangs s die ks
        finish cx r.2 r.1) s

/-- A saved group's core, turns and strips are free (R318). -/
def groupReturns (s : State) (g : Group) : Bool :=
  g.terminated ||
    (userCore s (dieOfCore g.core) (g.core % 64) &&
      g.turns.all (fun n => (freeTurns s g.core).contains n) &&
      (List.range (g.turns.length * stripsOf g)).all fun i => stripFree (residents s g.core) (g.strip + i))

/-- Range-lock entries that saved gangs bring back to a cluster. -/
def entriesNeeded (s : State) (ks : List Nat) (ck : Nat) : Nat :=
  s.ops.foldl (fun n e =>
    if ks.contains e.2.gang && clusterOfCore e.2.core = ck then n + e.2.ranges.length else n) 0

/-- A saved gang can come back (R318). -/
def gangReturns (s : State) (ks : List Nat) (k : Nat) : Bool :=
  let g := getGang s k
  let need := entriesNeeded s ks g.cluster
  let banks := ks.foldl (fun n j =>
    if (getGang s j).cluster = g.cluster then n + (getGang s j).nbanks else n) 0
  !(getCluster s g.cluster).withdrawn && g.groups.all (fun i => groupReturns s (getGroup s i)) &&
    banks ≤ (banksFree s g.cluster).length &&
    (need = 0 || entriesUsed s g.cluster = 0 || entriesUsed s g.cluster + need ≤ Config.rangeEntries)

/-- A saved gang is put back, HELD (R318), with the lowest free banks and slot (DESIGN CHOICE, log 23). -/
def restoreGang (s : State) (k : Nat) : State :=
  let g := getGang s k
  let phys := (banksFree s g.cluster).take g.nbanks
  let slot := freeGangSlot s g.cluster
  let s := modCluster s g.cluster fun x => { x with banks := x.banks.filter fun e => !phys.contains e.1 }
  modGang s k fun g => { g with status := .held, phys := phys, slot := slot }

/-- Groups of a restored gang whose saved control state was struck are terminated (R339). -/
def loseDamaged (s : State) (k : Nat) : State :=
  ((getGang s k).groups.filter fun g => (getGroup s g).damaged).foldl loseGroup s

/-- `CTXLD` (R318). -/
def execCtxld (o : Ops) (s : State) : Host.Outcome State Fault Refusal :=
  issue (.ctxld o) (fun cx s =>
    let die := threadDie s cx.t
    match mfind (getDie s die).contexts (cx.a s) with
    | none => finish cx s 3
    | some saved =>
      let ks := saved.filter fun k => (mfind s.gangs k).isSome
      if !ks.all (gangReturns s ks) then finish cx s 1
      else
        let s := ks.foldl restoreGang s
        let s := modDie s die fun d => { d with contexts := mdel d.contexts (cx.a s) }
        finish cx (ks.foldl loseDamaged s) 0) s

/-! ## Translation maintenance -/

/-- Cached translations that `kept` does not keep leave the cores of a partition. -/
def tlbDrop (s : State) (p : Nat) (kept : TlbEntry → Bool) : State :=
  (coresOfPart s p).foldl (fun s c => modCore s c fun x => { x with tlb := x.tlb.filter kept }) s

/-- A `TLBINV` waits for the walks of its scope and for the accesses that hold a translation of it, and then drops
its translations (R321). -/
def tlbinv (s : State) (t : Tid) (page : Option (Nat × Nat)) (pasid : Option Nat) (kept : TlbEntry → Bool) : State :=
  let p := threadPart s t
  if scopeBusy s p page pasid then parkRetry s t (.walks page pasid)
  else advance (tlbDrop s p kept) t

/-- A cached translation serves a page under a PASID (R329). -/
def tlbServes (pasid : Nat) (va : DWord) (e : TlbEntry) : Bool :=
  (e.pasid.isNone || e.pasid = some pasid) && e.vpn = vpnOf va e.leaf.bits

/-- log2 of the size of the page that holds an address under a PASID: the largest that a core of the partition has
cached for it or that the tables now give, and otherwise the smallest there is (R321, R325; log 37). -/
def scopeBits (s : State) (p pasid : Nat) (va : DWord) : Nat :=
  let cached := (coresOfPart s p).flatMap fun c => ((getCore s c).tlb.filter (tlbServes pasid va)).map fun e => e.leaf.bits
  let now := (walk s p pasid va).toList.map fun l => l.bits
  (cached ++ now).foldl max 16

/-- The page of a `TLBINV.page`, by its number and log2 of its size. -/
def scopePage (s : State) (p pasid : Nat) (va : DWord) : Nat × Nat :=
  (vpnOf va (scopeBits s p pasid va), scopeBits s p pasid va)

/-- `TLBINV.page` (R321, R329). -/
def execTlbinvPage (o : Ops) (s : State) : Host.Outcome State Fault Refusal :=
  issue (.tlbinvPage o) (fun cx s =>
    let va := BitVec.ofNat 64 (cx.a s)
    tlbinv s cx.t (some (scopePage s (threadPart s cx.t) (cx.b s) va)) (some (cx.b s)) fun e =>
      !tlbServes (cx.b s) va e) s

/-- `TLBINV.pasid` (R321): GLOBAL translations stay (R329). -/
def execTlbinvPasid (o : Ops) (s : State) : Host.Outcome State Fault Refusal :=
  issue (.tlbinvPasid o) (fun cx s =>
    tlbinv s cx.t none (some (cx.b s)) fun e => e.pasid ≠ some (cx.b s)) s

/-- `TLBINV.all` (R321). -/
def execTlbinvAll (o : Ops) (s : State) : Host.Outcome State Fault Refusal :=
  issue (.tlbinvAll o) (fun cx s => tlbinv s cx.t none none fun _ => false) s

/-- A PASID takes a state; one beyond the table stays FREE (Table 17-4). -/
def setPasid (s : State) (p pasid : Nat) (st : PasidState) : State :=
  if pasid < pasidCount s p then modPart s p fun x => { x with pasids := mset .free x.pasids pasid st } else s

/-- Misses of a PASID still queued are dropped (R332). -/
def dropMisses (s : State) (p pasid : Nat) : State :=
  (partDies s p).foldl (fun s d =>
    modDie s d fun x => { x with misses := x.misses.filter fun m => m.pasid ≠ pasid }) s

/-- `PASIDSET` on a partition: the result and what becomes of the state (R321, R331, R332). -/
def pasidSet (s : State) (p pasid st : Nat) : Nat × State :=
  if 2 < st then (0xFFFFFFFF, s)
  else
    match pasidState s p pasid, st with
    | .free, 1 => (pasidOutstanding s p pasid, setPasid s p pasid .active)
    | .active, 2 =>
      let s := dropMisses (setPasid s p pasid .dying) p pasid
      (pasidOutstanding s p pasid, s)
    | .dying, 0 =>
      let n := pasidOutstanding s p pasid
      (n, if n = 0 then setPasid s p pasid .free else s)
    | _, _ => (0xFFFFFFFE, s)

/-- `PASIDSET` (R321, R331). -/
def execPasidset (o : Ops) (s : State) : Host.Outcome State Fault Refusal :=
  issue (.pasidset o) (fun cx s =>
    let r := pasidSet s (threadPart s cx.t) (cx.a s) (cx.b s)
    finish cx r.2 r.1) s

/-! ## Granules and caches -/

/-- A physical byte is memory of a partition (R334). -/
def partMemory (s : State) (p pa : Nat) : Bool := regionOf pa ≠ .regs && partOwns s p pa

/-- A physical range lies in a partition's memory. What a partition owns is whole blocks of 512 MiB. -/
def rangeMemory (s : State) (p pa n : Nat) : Bool :=
  (List.range ((pa + n - 1) / 2 ^ 29 - pa / 2 ^ 29 + 1)).all fun i =>
    partMemory s p ((pa / 2 ^ 29 + i) * 2 ^ 29)

/-- What is outstanding on a granule is performed before it returns to U: an Anneal under way ends with what it
holds, then the requests at the homes of its lines and the accesses that stand ready in cores (R185, R191). -/
def drainGranule (s : State) (g : Nat) : State :=
  let s := match (getGranule s g).annealing with
    | some (_, c) => annealNow s g c
    | none => s
  performReady (fun _ => true) g (strictCount s) (flushRange s (g * 4096) 4096)

/-- Granules on which threads have strict accesses outstanding. -/
def strictGranules (s : State) : List Nat :=
  ((allTids s).filterMap fun t => (getThread s t).strict).filterMap fun x =>
    if !x.acc.host && classified x.acc.pa false then some (granuleOf x.acc.pa) else none

/-- A granule returns to class U, Anneal and write-back included; reservations on its lines are lost (R184,
R322, R214). -/
def clearGranule (s : State) (g : Nat) : State :=
  let gr := getGranule s g
  let s := if gr.cls = .u && gr.annealing.isNone then dropResvRange s (g * 4096) 4096 else annealNow s g .u
  emptyCaches s fun l => l / 32 = g

/-- Granules that are not listed leave class S where their page has passed, and the caches with them (R184, R193). -/
def clearPassed (s : State) (lo n : Nat) : State :=
  let inside (g : Nat) : Bool := inRanges [(lo, n)] g
  let clear (u : Nat) (p : PageHold) : PageHold :=
    if p.passed && overlaps (u * 16) (2 ^ (p.bits - 16) * 16) lo n then { p with cleared := p.cleared ++ [(lo, n)] }
    else p
  let s := emptyCaches s fun l => inside (l / 32)
  { s with dir := s.dir.map fun e => (e.1, if inside (e.1 / 32) then { e.2 with st := .inv } else e.2),
           pages := s.pages.map fun e => (e.1, clear e.1 e.2) }

/-- Every granule of a range returns to class U. -/
def clearGranules (s : State) (lo n : Nat) : State :=
  let inside := fun (g : Nat) => decide (lo ≤ g) && decide (g < lo + n)
  let s := ((mkeys s.assay ++ strictGranules s).filter inside).foldl drainGranule s
  let s := dropResvRange s (lo * 4096) (n * 4096)
  clearPassed (((mkeys s.assay).filter inside).foldl clearGranule s) lo n

/-- `ACLS.clear` (R322). -/
def execAclsClear (o : Ops) (s : State) : Host.Outcome State Fault Refusal :=
  issue (.aclsClear o) (fun cx s =>
    let t := cx.t
    let pa := cx.a s
    let n := cx.b s
    let addr := BitVec.ofNat 64 pa
    if pa % 4096 ≠ 0 || n = 0 || 2 ^ 20 < n then takeTrap s t { code := .misalign, addr := addr }
    else if !rangeMemory s (threadPart s t) pa (n * 4096) then takeTrap s t { code := .pageFault, addr := addr }
    else if granulesLocked s (granuleOf pa) n then parkRetry s t (.granules (granuleOf pa) n)
    else advance (clearGranules s (granuleOf pa) n) t) s

/-- What a cache operation does to the cached copies of a range (R322). -/
inductive CacheAct where
  | clean
  | flush
  | inv
  deriving DecidableEq, Repr

/-- Queued accesses to a range are performed: an overlapped access takes its place at its issue (R188). -/
def drainRange (s : State) (p pa n : Nat) : State :=
  (coresOfPart s p).foldl (fun s c => drain s c fun e => overlaps e.acc.pa e.acc.size pa n) s

/-- Copies in the ways of clusters are dropped. -/
def dropClusters (st : DirState) : DirState :=
  let out := fun (h : Holder) => match h with
    | .cluster _ => false
    | .host | .peer _ => true
  match st with
  | .inv => .inv
  | .sh hs => if (hs.filter out).isEmpty then .inv else .sh (hs.filter out)
  | .ow h => if out h then .ow h else .inv

/-- The copies of a range's lines are dropped. -/
def dropCopies (s : State) (pa n : Nat) : State :=
  let s := dropWays s fun l => overlaps (l * 128) 128 pa n
  { s with dir := s.dir.map fun e =>
      (e.1, if overlaps (e.1 * 128) 128 pa n then { e.2 with st := dropClusters e.2.st } else e.2) }

/-- A line dropped without writing back: memory's own bytes and marks stand again, unless the line was dirty and had
already been written back (log 8). -/
def revertLine (s : State) (l : Nat) : State :=
  match mfind s.backing l with
  | none => s
  | some b =>
    let back := b.dirty && Config.writtenBack s.free
    let s := { s with free := if b.dirty then s.free + 1 else s.free, backing := mdel s.backing l }
    if back then s else restoreMarks { s with mem := writeMem s.mem (l * 128) b.bytes } l b.marks

/-- A cache operation on a physical range (R322). -/
def cacheAct (s : State) (act : CacheAct) (p pa n : Nat) : State :=
  let s := drainRange s p pa n
  let lines := (mkeys s.backing).filter fun l => overlaps (l * 128) 128 pa n
  match act with
  | .clean => lines.foldl writeBack s
  | .flush => dropCopies (lines.foldl leaveCaches s) pa n
  | .inv => dropCopies (lines.foldl revertLine s) pa n

/-- `CACHEOP` past its operands (R322). -/
def cacheop (act : CacheAct) (cx : Ctx) (s : State) : State :=
  let t := cx.t
  let pa := cx.a s
  let n := cx.b s
  let addr := BitVec.ofNat 64 pa
  if pa % 128 ≠ 0 || n % 128 ≠ 0 || n = 0 then takeTrap s t { code := .misalign, addr := addr }
  else if !rangeMemory s (threadPart s t) pa n then takeTrap s t { code := .pageFault, addr := addr }
  else advance (cacheAct s act (threadPart s t) pa n) t

/-- `CACHEOP.clean` (R322). -/
def execCacheopClean (o : Ops) (s : State) : Host.Outcome State Fault Refusal :=
  issue (.cacheopClean o) (cacheop .clean) s

/-- `CACHEOP.inv` (R322). -/
def execCacheopInv (o : Ops) (s : State) : Host.Outcome State Fault Refusal :=
  issue (.cacheopInv o) (cacheop .inv) s

/-- `CACHEOP.flush` (R322). -/
def execCacheopFlush (o : Ops) (s : State) : Host.Outcome State Fault Refusal :=
  issue (.cacheopFlush o) (cacheop .flush) s

end Sys2Proof.Machine
end

