-- ==== Sys2Proof/Machine/Queues.lean ====
section
/-! DEFINITION. Page walkers, the fault ring, notifies, the ring commands of the firmware image, and MSI-X
(R305 to R307, R314, R319, R330 to R332, R346 to R348). -/

namespace Sys2Proof.Machine

/-! ## Walkers -/

/-- WALK_START: the oldest queued miss of a die gets one of its 64 walkers (R330). -/
def execWalkStart (die : Nat) (s : State) : Host.Outcome State Fault Refusal :=
  .next (modDie s die fun d =>
    match d.misses with
    | [] => d
    | m :: ms => if d.walks.length < 64 then { d with walks := d.walks ++ [m], misses := ms } else d)

/-- The address of a 64 KiB virtual page (R164, R330). -/
def vpnAddr (vpn : Nat) : DWord := (BitVec.ofNat 57 (vpn * 65536)).signExtend 64

/-- The thread is stopped, and goes on at HALT.go or never. -/
def heldThread (s : State) (t : Tid) : Bool :=
  match (getThread s t).run with
  | .held _ => true
  | .ready | .issuing | .parked _ | .done => false

/-- A walk ends for a thread: it issues its instruction again, after a failure with PAGE_FAULT (R330); one that waits
to take a trap goes on by itself. For a stopped thread no failed walk is kept: it walks again when it goes on (R329). -/
def walkThread (m : Miss) (failed : Bool) (s : State) (t : Tid) : State :=
  let s := if failed && !heldThread s t then modThread s t fun th => { th with walkFails := nadd th.walkFails m.vpn } else s
  if waitsWalk (getThread s t).run then retry s t else s

/-- A failed walk is noted where it was asked for (R256, R330), but for a stopped operation (R329). -/
def walkFailed (m : Miss) (s : State) (a : Asker) : State :=
  match a with
  | .op k => modOp s k fun o => if opMayRun s o then { o with walkFails := nadd o.walkFails m.vpn } else o
  | .ring die q => modDie s die fun d => { d with ringFails := mupd [] d.ringFails q (nadd · m.vpn) }

/-- A walk ends for all that wait for it (R330). -/
def walkRelease (s : State) (m : Miss) (failed : Bool) : State :=
  let s := m.waiters.foldl (walkThread m failed) s
  if failed then m.others.foldl (walkFailed m) s else s

/-- A translation that a core now caches is no failed walk for the threads on the core (R329). -/
def dropFails (s : State) (m : Miss) (va : DWord) (l : Leaf) : State :=
  let held := fun (v : Nat) => vpnOf (vpnAddr v) l.bits = vpnOf va l.bits
  let covers := fun (t : Tid) => m.cores.contains (threadCore s t) && (getThread s t).walkFails.any held
  ((allTids s).filter covers).foldl (fun s t =>
    modThread s t fun th => { th with walkFails := th.walkFails.filter fun v => !held v }) s

/-- A walk completes: its reads are made, and the translation is cached in the cores that missed (R329,
R330). -/
def walkFinish (s : State) (p die : Nat) (m : Miss) : State :=
  let va := vpnAddr m.vpn
  let s := walkTouch s die p m.pasid va
  match walk s p m.pasid va with
  | some l => walkRelease (dropFails (m.cores.foldl (fun s c => tlbFill s c m.pasid va l) s) m va l) m false
  | none => walkRelease s m true

/-- A walk goes on: a page of its entries is away (R193), or a core that waits for it is issuing a pack, whose threads
issue as one (R75; log 1). -/
def walkStays (s : State) (p : Nat) (m : Miss) : Bool :=
  (walkBar s p m.pasid (vpnAddr m.vpn)).isSome || m.cores.any fun c => (getCore s c).stream.any fun st => st.begun

/-- WALK_COMPLETE: while the PASID is DYING the result is discarded and the threads stay parked (R332). -/
def execWalkComplete (die walker : Nat) (s : State) : Host.Outcome State Fault Refusal :=
  match (getDie s die).walks[walker]? with
  | none => .next s
  | some m =>
    let p := (partOfDie s die).getD 8
    let dying : Bool := pasidState s p m.pasid = .dying
    if !dying && walkStays s p m then .next s
    else
      let s := modDie s die fun d => { d with walks := d.walks.eraseIdx walker }
      .next (if dying then s else walkFinish s p die m)

/-! ## The fault ring and notifies -/

/-- FAULT_RING_APPEND: the oldest escalation that waits goes to the ring once it is open (R314, R319). -/
def execFaultRingAppend (die : Nat) (s : State) : Host.Outcome State Fault Refusal :=
  match (getDie s die).escalated with
  | [] => .next s
  | e :: es =>
    .next (if faultRingOpen s die then ringAppend (modDie s die fun d => { d with escalated := es }) die e
           else s)

/-- QNOTIFY: a host write of TAIL arrives (R305, R346), while the PCIe port is not down (R351). -/
def execQnotify (die queue : Nat) (value : Word) (s : State) : Host.Outcome State Fault Refusal :=
  .next (if queue < 48 && !s.link.down.contains .pcie then arriveNotify s die queue value else s)

/-- Host writes that arrived before number `k` and are still held (R346). -/
def earlierWrites (s : State) (k : Nat) : Bool :=
  s.extHeld.any fun e => e.1 < k && e.2.1 = .host && e.2.2.store.isSome

/-- NOTIFY_RELEASE: the oldest notify of a queue is performed (R346). -/
def execNotifyRelease (die queue : Nat) (s : State) : Host.Outcome State Fault Refusal :=
  match (getDie s die).notifies.find? fun e => e.2.1 = queue with
  | none => .next s
  | some e =>
    .next (if earlierWrites s e.1 then s
      else latchNotify (modDie s die fun d =>
        { d with notifies := d.notifies.filter fun x => x.1 ≠ e.1 }) die queue e.2.2)

/-! ## Ring commands -/

/-- A ring entry, Table 16-5. -/
structure Cmd where
  opcode : Nat
  seq : Word
  arg0 : DWord
  arg1 : DWord
  compl : DWord
  /-- The last 32 bytes are zero. -/
  zero : Bool
  deriving DecidableEq, Repr

def cmdOf (bs : List Byte) : Cmd :=
  { opcode := nodeLE bs 0 4, seq := BitVec.ofNat 32 (nodeLE bs 4 4),
    arg0 := BitVec.ofNat 64 (nodeLE bs 8 8), arg1 := BitVec.ofNat 64 (nodeLE bs 16 8),
    compl := BitVec.ofNat 64 (nodeLE bs 24 8), zero := nodeLE bs 32 32 = 0 }

/-- Head index of a queue. -/
def qheadOf (s : State) (die q : Nat) : Nat := mget 0 (getDie s die).qhead q

/-- The entry at the head of a queue. -/
def headEntry (s : State) (die q : Nat) : Nat := qentryAddr s die q (qheadOf s die q)

/-- A host queue of a die has an entry to take, which can be read, and a scheduler core whose threads have not been
stopped with their partition takes it (R13, R306, R314). An entry that was interrupted is no longer there to take
(R319). -/
def ringPending (s : State) (die q : Nat) : Bool :=
  q < 48 && (getDie s die).sched.isSome && partRuns s die && ringUp s die (headEntry s die q) false &&
    !(getDie s die).lost.contains q && (mget 0 (getDie s die).tail q).toNat ≠ qheadOf s die q

/-- QPASID (Table 16-3). -/
def qpasidOf (s : State) (die q : Nat) : Nat := bitsOf (qcfgOf s die q) 8 20

/-- The entry at the head as it stands. -/
def headCmd (s : State) (die q : Nat) : Cmd := cmdOf (readBytes s (headEntry s die q) 64)

/-- The service thread reads the entry at the head (R306, R307), of host memory under host bias (DESIGN CHOICE,
log 10). -/
def ringRead (s : State) (die q : Nat) : Cmd × State :=
  let a := headEntry s die q
  let s := eventAccessRange s (.core (schedCore s die)) a 64 false false (ringHost a)
  (headCmd s die q, s)

/-- The partition of a die. -/
def diePart (s : State) (die : Nat) : Nat := (partOfDie s die).getD 8

/-- QPASID is DYING: its walks would be discarded, so the completion that refuses the command is translated by the
firmware's own reading of the tables (R332; log 13). -/
def serviceDying (s : State) (die q : Nat) : Bool := pasidState s (diePart s die) (qpasidOf s die q) = .dying

/-- A store of the service thread under QPASID (log 10). -/
def serviceWrite (s : State) (die q : Nat) (va : DWord) (bs : List Byte) : State :=
  let core := schedCore s die
  let dying := serviceDying s die q
  let s := if dying then walkRange s (diePart s die) (qpasidOf s die q) va bs.length else s
  match piecesOf s (if dying then rootKey else core) (diePart s die) (qpasidOf s die q) sprueStore va bs.length with
  | .ok ps =>
    if piecesOpen s core true ps then writePieces s core ps bs
    else report s (.reportAbandoned 8)
  | .error _ => report s (.reportAbandoned 8)

/-- A load of the service thread under QPASID. -/
def serviceRead (s : State) (die q : Nat) (va : DWord) (n : Nat) : Except Exc (List Byte × State) :=
  let core := schedCore s die
  match piecesOf s core (diePart s die) (qpasidOf s die q) sprueLoad va n with
  | .error e => .error e
  | .ok ps =>
    if !piecesFree s core false ps then .error { code := .rangeLock, addr := va }
    else if ps.all (pieceUp s) then .ok (loadPieces s (.core core) ps)
    else .error { code := .poison, addr := va }

/-- The 16 bytes of a completion (R306). -/
def completionBytes (seq : Word) (status : Nat) (handle : Word) : List Byte :=
  bytesLE 4 seq.toNat ++ bytesLE 4 status ++ bytesLE 4 handle.toNat ++ bytesLE 4 0

/-- The entry's completion is written, and the head moves on (R306, R319). PEND falls once no entry is
left. -/
def ringComplete (s : State) (die q : Nat) (c : Cmd) (status : Nat) (handle : Word) : State :=
  let s := if c.compl = 0 then s else serviceWrite s die q c.compl (completionBytes c.seq status handle)
  modDie s die fun d =>
    let head := (mget 0 d.qhead q + 1) % 65536
    { d with qhead := mset 0 d.qhead q head, inprog := mdel d.inprog q, ringFails := mdel d.ringFails q,
             pend := if (mget 0 d.tail q).toNat = head then ndel d.pend q else d.pend }

/-- What an access of the service thread lacks (R193, R330). -/
def serviceLack (s : State) (die q : Nat) (x : (Leaf → Option Code) × DWord × Nat) : Option Lack :=
  let core := schedCore s die
  let pasid := qpasidOf s die q
  match rangeMiss s core pasid (mget [] (getDie s die).ringFails q) x.2.1 x.2.2 with
  | some va => some (.walk va)
  | none =>
    match piecesOf s core (diePart s die) pasid x.1 x.2.1 x.2.2 with
    | .ok ps => (piecesBar s ps).map fun w => .page w.1 w.2
    | .error _ => none

/-- The ranges that a command's arguments name, if it is not malformed (R306). -/
def ringRanges (c : Cmd) : List ((Leaf → Option Code) × DWord × Nat) :=
  (if c.zero && c.opcode = 1 && c.arg0.toNat % 64 = 0 then [(sprueLoad, c.arg0, 64)] else []) ++
    (if c.zero && c.opcode = 2 then [(tableNeed, c.arg0, tableLen c.arg0 c.arg1.toNat)] else [])

/-- What the completion of a command lacks: of one whose PASID is DYING, the pages alone (R193, R330, R332; log 13). -/
def complLack (s : State) (die q : Nat) (c : Cmd) : Option Lack :=
  if c.compl = 0 then none
  else if serviceDying s die q then
    (sprueBar s (diePart s die) (qpasidOf s die q) sprueStore c.compl 16).map fun w => .page w.1 w.2
  else serviceLack s die q (sprueStore, c.compl, 16)

/-- The handle in ARG0. -/
def cmdHandle (c : Cmd) : Word := c.arg0.setWidth 32

/-- What a command lacks (R193, R330): of one whose PASID is DYING, what its completion lacks. -/
def ringLack (s : State) (die q : Nat) (c : Cmd) : Option Lack :=
  if serviceDying s die q then complLack s die q c
  else
    (((ringRanges c).findSome? (serviceLack s die q)).or (complLack s die q c)).or
      (if c.zero && c.opcode = 3 then
        (cancelBar s (diePart s die) (qpasidOf s die q) (cmdHandle c)).map fun w => .page w.1 w.2 else none)

/-- It is asked for; the command waits. -/
def askRing (s : State) (die q : Nat) (l : Lack) : State :=
  match l with
  | .walk va => joinWalk s (schedCore s die) (qpasidOf s die q) va (Miss.addOther (.ring die q))
  | .page u host => wantPage s (u, host)

/-- STATUS of a refusal with a fault code (R306). -/
def refusedWith (c : Code) : Nat := 2 + 256 * codeNum c

/-- What a command comes to: it waits, or completes with a status and a handle. -/
inductive Acted where
  | wait (s : State)
  | over (status : Nat) (handle : Word) (s : State)
  deriving DecidableEq, Repr

/-- One step on the entry at the head of a queue whose opcode `ops` takes: a malformed entry answers STATUS 1 whatever
the PASID's state, a DYING PASID refuses any other command, one in progress among them and then with handle 0, and
otherwise `act` decides (R306, R332: DESIGN CHOICE, log 10). A failed walk serves no later step (R329). -/
def ringStep (die q : Nat) (ops : Nat → Bool) (act : Cmd → State → Acted) (s : State) :
    Host.Outcome State Fault Refusal :=
  if !ringPending s die q then .next s
  else match ringBar s (headEntry s die q) with
  | some w => .next (wantPage s w)
  | none =>
    let (c, r) := ringRead s die q
    if !ops c.opcode then .next s
    else match ringLack r die q c with
    | some l => .next (askRing r die q l)
    | none =>
      if !c.zero then .next (ringComplete r die q c 1 0)
      else if serviceDying r die q then .next (ringComplete r die q c (refusedWith .launchHeader) 0)
      else match act c r with
        | .wait s => .next (modDie s die fun d => { d with ringFails := mdel d.ringFails q })
        | .over status h s => .next (ringComplete s die q c status h)

/-- The grid that a handle names has still to be acknowledged (R299). -/
def spanWaits (s : State) (p pasid : Nat) (h : Word) : Bool :=
  match liveHandle s p pasid h with
  | some (.grid k) => (mfind s.grids k).any fun g => !g.acks.isEmpty
  | some (.graph _) | none => false

/-- The entry is in progress, with the handle it has so far (R319). -/
def beginEntry (s : State) (die q : Nat) (c : Cmd) (h : Word) : State :=
  modDie s die fun d => { d with inprog := mput d.inprog q (c.seq, h) }

/-- LAUNCH: the header is read and launched under QPASID (R284, R306); a spanning launch completes after
its launch event. -/
def actLaunch (die q : Nat) (c : Cmd) (s : State) : Acted :=
  let p := (partOfDie s die).getD 8
  let pasid := qpasidOf s die q
  match mfind (getDie s die).inprog q with
  | some (_, h) => if spanWaits s p pasid h then .wait s else .over 0 h s
  | none =>
    if c.arg0.toNat % 64 ≠ 0 then .over (refusedWith .misalign) 0 s
    else
      match serviceRead s die q c.arg0 64 with
      | .error e =>
        .over (refusedWith e.code) 0 (noteRead s die (schedCore s die) p pasid sprueLoad c.arg0 64)
      | .ok (bs, s) =>
        let hdr : Shape := BitVec.ofNat 512 (ofBytesLE bs)
        if !launchOk s p pasid hdr then .over (refusedWith .launchHeader) 0 s
        else match openGrid s p pasid hdr (some (die, q, c.seq)) none with
          | none => .wait s
          | some (k, s) =>
            let h := gridHandle s k
            if spanWaits s p pasid h then .wait (beginEntry s die q c h) else .over 0 h s

/-- LAUNCH (R306). -/
def execLaunch (die queue : Nat) (s : State) : Host.Outcome State Fault Refusal :=
  ringStep die queue (· = 1) (actLaunch die queue) s

/-- GRAPH: the node table is read and the graph starts (R297, R306). -/
def actGraph (die q : Nat) (c : Cmd) (s : State) : Acted :=
  let p := (partOfDie s die).getD 8
  let pasid := qpasidOf s die q
  match readTable s (schedCore s die) p pasid c.arg0 c.arg1.toNat with
  | (.error e, r) => .over (refusedWith e.code) 0 r
  | (.ok nodes, r) =>
    match freeEntry s p with
    | none => .wait r
    | some slot => .over 0 (handleOf s p slot) (openGraph r p pasid slot c.arg0 nodes)

/-- RING_GRAPH (R306). -/
def execRingGraph (die queue : Nat) (s : State) : Host.Outcome State Fault Refusal :=
  ringStep die queue (· = 2) (actGraph die queue) s

/-- CANCEL (R294, R306). -/
def execCancel (die queue : Nat) (s : State) : Host.Outcome State Fault Refusal :=
  ringStep die queue (· = 3) (fun c s =>
    .over 0 0 (cancelHandle s ((partOfDie s die).getD 8) (qpasidOf s die queue) (cmdHandle c))) s

/-- WAIT: it completes once the handle is GONE (R292, R306). -/
def execWait (die queue : Nat) (s : State) : Host.Outcome State Fault Refusal :=
  ringStep die queue (· = 4) (fun c s =>
    match liveHandle s ((partOfDie s die).getD 8) (qpasidOf s die queue) (cmdHandle c) with
    | some _ => .wait (beginEntry s die queue c 0)
    | none => .over 0 0 s) s

/-- INTERRUPT (R306, R313). -/
def execInterrupt (die queue : Nat) (s : State) : Host.Outcome State Fault Refusal :=
  ringStep die queue (· = 5) (fun c s =>
    .over 0 0 (raiseHandle s ((partOfDie s die).getD 8) (qpasidOf s die queue) (cmdHandle c)
      (c.arg1.setWidth 32))) s

/-- RING_BAD_OPCODE: every other OPCODE completes with STATUS 1 (R306), under a DYING PASID too (DESIGN CHOICE,
log 10). -/
def execRingBadOpcode (die queue : Nat) (s : State) : Host.Outcome State Fault Refusal :=
  if !ringPending s die queue then .next s
  else match ringBar s (headEntry s die queue) with
  | some w => .next (wantPage s w)
  | none =>
    let (c, r) := ringRead s die queue
    if 1 ≤ c.opcode && c.opcode ≤ 5 then .next s
    else match ringLack r die queue c with
      | some l => .next (askRing r die queue l)
      | none => .next (ringComplete r die queue c 1 0)

/-! ## MSI-X -/

/-- MSIX_SEND: a scheduler core's write to the register (R348). -/
def execMsixSend (value : Word) (s : State) : Host.Outcome State Fault Refusal :=
  .next (sendMsix s (bitsOf value 0 6))

/-- MSIX_DELIVER: the oldest held message is sent, while the PCIe port is not down (R347, R351). Stores to
host-biased memory are performed as they issue, and lines under device bias are not written back. -/
def execMsixDeliver (vector : Nat) (s : State) : Host.Outcome State Fault Refusal :=
  match s.link.msixHeld with
  | [] => .next s
  | v :: vs =>
    .next (if v = vector && !s.link.down.contains .pcie then
      modLink s fun l => { l with msixHeld := vs, msixSent := l.msixSent ++ [msixMessage l v] } else s)

end Sys2Proof.Machine
end

