-- ==== Sys2Proof/Machine/Signature.lean ====
section
/-! DEFINITION. The two signature checks of boot ROM (R357 steps 3 and 4). RSASSA-PSS is as RFC 8017 has it, and
SLH-DSA-SHA2-192s as FIPS 205 has it: the standards themselves are outside the spec (log 7). -/

namespace Sys2Proof.Machine

/-- Bytes as a number, the first byte highest, and `n` bytes of a number in that order. -/
def ofBytesBE (bs : List Byte) : Nat := bs.foldl (fun a b => 256 * a + b.toNat) 0
def bytesBE (n v : Nat) : List Byte := (List.range n).map fun i => BitVec.ofNat 8 (v / 256 ^ (n - 1 - i))

/-- Bytes of zero. -/
def zeroBytes (n : Nat) : List Byte := List.replicate n 0

/-- The mask generation function MGF1 over a hash of `len` bytes. -/
def mgf1 (hash : List Byte → List Byte) (len : Nat) (seed : List Byte) (n : Nat) : List Byte :=
  ((List.range (n / len + 1)).flatMap fun i => hash (seed ++ bytesBE 4 i)).take n

/-! ## RSASSA-PSS with SHA-384 and a 48-byte salt -/

/-- `b ^ e` modulo `n`, over as many bits of `e`. -/
def powMod (n : Nat) : Nat → Nat → Nat → Nat
  | 0, _, _ => 1 % n
  | bits + 1, b, e =>
    let h := powMod n bits (b * b % n) (e / 2)
    if e % 2 = 1 then b * h % n else h

/-- An encoded message of 3,071 bits belongs to a message. -/
def pssOk (m em : List Byte) : Bool :=
  let hash (bs : List Byte) : List Byte := bytes384 (sha384 bs)
  let masked := em.take 335
  let h := (em.drop 335).take 48
  let db := List.zipWith (· ^^^ ·) masked (mgf1 hash 48 h 335)
  em.length = 384 && em.getD 383 0 = 0xBC && !(masked.headD 0).getLsbD 7 &&
    ((db.headD 0 &&& 0x7F) :: db.drop 1).take 286 = zeroBytes 286 && db.getD 286 0 = 1 &&
    hash (zeroBytes 8 ++ hash m ++ db.drop 287) = h

/-- The RSA-3072 signature verifies over the message (R357 step 3). -/
def rsaVerifies (m sig : List Byte) : Bool :=
  let n := Config.rsaModulus
  let e := Config.rsaExponent
  let x := ofBytesBE sig
  sig.length = 384 && x < n && pssOk m (bytesBE 384 (powMod n (Nat.log2 e + 1) x e))

/-! ## SLH-DSA-SHA2-192s: 24-byte values, seven trees of height 9, seventeen of height 14, chains of 16 -/

/-- An address of a hash, in its compressed form of 22 bytes: the layer, the tree, the type and three words. -/
structure HashAt where
  layer : Nat := 0
  tree : Nat := 0
  kind : Nat := 0
  pair : Nat := 0
  x : Nat := 0
  y : Nat := 0
  deriving DecidableEq, Repr

/-- Those 22 bytes. -/
def HashAt.bytes (a : HashAt) : List Byte :=
  bytesBE 1 a.layer ++ bytesBE 8 a.tree ++ bytesBE 1 a.kind ++ bytesBE 4 a.pair ++ bytesBE 4 a.x ++ bytesBE 4 a.y

/-- The hash of one value, and of several. -/
def slhF (seed : List Byte) (a : HashAt) (m : List Byte) : List Byte :=
  (sha256 (seed ++ zeroBytes 40 ++ a.bytes ++ m)).take 24
def slhH (seed : List Byte) (a : HashAt) (m : List Byte) : List Byte :=
  (sha512 (seed ++ zeroBytes 104 ++ a.bytes ++ m)).take 24

/-- The first `k` values of a part of a signature. -/
def slhValues (k : Nat) (bs : List Byte) : List (List Byte) :=
  (List.range k).map fun i => (bs.drop (24 * i)).take 24

/-- The first `k` digits of `b` bits in bytes, from the highest on. -/
def slhDigits (b k : Nat) (bs : List Byte) : List Nat :=
  (List.range k).map fun i => ofBytesBE bs / 2 ^ (8 * bs.length - b * (i + 1)) % 2 ^ b

/-- The root of a tree from a node, its place and its authentication path. -/
def slhRoot (seed : List Byte) (a : HashAt) : Nat → Nat → List Byte → List (List Byte) → List Byte
  | _, _, node, [] => node
  | height, place, node, other :: path =>
    let a := { a with x := height + 1, y := place / 2 }
    slhRoot seed a (height + 1) (place / 2) (slhH seed a (if place % 2 = 0 then node ++ other else other ++ node)) path

/-- `n` further values of a chain from its value at place `i`. -/
def slhChain (seed : List Byte) (a : HashAt) : Nat → Nat → List Byte → List Byte
  | 0, _, v => v
  | n + 1, i, v => slhChain seed a n (i + 1) (slhF seed { a with y := i } v)

/-- The one-time key that signed a value: 48 digits of it and three of their checksum. -/
def slhOneTime (seed : List Byte) (layer tree leaf : Nat) (sig m : List Byte) : List Byte :=
  let digits := slhDigits 4 48 m
  let sum := (digits.map fun d => 15 - d).foldl (· + ·) 0
  let chains := List.zip (digits ++ slhDigits 4 3 (bytesBE 2 (16 * sum))) (slhValues 51 sig)
  let ends := chains.zipIdx.flatMap fun c =>
    slhChain seed { layer := layer, tree := tree, kind := 0, pair := leaf, x := c.2 } (15 - c.1.1) c.1.1 c.1.2
  slhH seed { layer := layer, tree := tree, kind := 1, pair := leaf } ends

/-- The root of the topmost tree: each layer's tree signs the root of the one below. -/
def slhHyper (seed : List Byte) : Nat → Nat → Nat → Nat → List Byte → List Byte → List Byte
  | 0, _, _, _, _, node => node
  | more + 1, layer, tree, leaf, sig, node =>
    let key := slhOneTime seed layer tree leaf sig node
    let root := slhRoot seed { layer := layer, tree := tree, kind := 2 } 0 leaf key (slhValues 9 (sig.drop 1224))
    slhHyper seed more (layer + 1) (tree / 512) (tree % 512) (sig.drop 1440) root

/-- The few-time key that signed seventeen places. -/
def slhFewTime (seed : List Byte) (tree leaf : Nat) (places : List Nat) (sig : List Byte) : List Byte :=
  let here : HashAt := { tree := tree, kind := 3, pair := leaf }
  let roots := places.zipIdx.flatMap fun p =>
    let part := sig.drop (360 * p.2)
    let place := p.2 * 16384 + p.1
    slhRoot seed here 0 place (slhF seed { here with y := place } (part.take 24)) (slhValues 14 (part.drop 24))
  slhH seed { tree := tree, kind := 4, pair := leaf } roots

/-- The SLH-DSA signature verifies over the message in its pure form, with an empty context (R357 step 4). -/
def slhVerifies (m sig : List Byte) : Bool :=
  let key := bytes384 Config.slhKey
  let seed := key.take 24
  let r := sig.take 24
  let d := mgf1 sha512 64 (r ++ seed ++ sha512 (r ++ key ++ [0, 0] ++ m)) 39
  let tree := ofBytesBE ((d.drop 30).take 7) % 2 ^ 54
  let leaf := ofBytesBE ((d.drop 37).take 2) % 512
  let signed := slhFewTime seed tree leaf (slhDigits 14 17 (d.take 30)) (sig.drop 24)
  sig.length = 16224 && slhHyper seed 7 0 tree leaf (sig.drop 6144) signed = key.drop 24

end Sys2Proof.Machine
end

