-- ==== Sys2Proof/Machine/Firmware.lean ====
section
/-! DEFINITION. Registers written from outside, firmware and boot, attestation, power, errors, and the loss
of a scheduler core (R6, R304, R319, R334 to R339, R354 to R362). -/

namespace Sys2Proof.Machine

/-! ## Registers -/

/-- ERR_STATUS_CLEAR (R338). -/
def execErrStatusClear (die : Nat) (value : DWord) (s : State) : Host.Outcome State Fault Refusal :=
  .next (clearCorrected s die (value.setWidth 32))

/-- FW_APERTURE: a host write through the aperture (R355, R356). -/
def execFwAperture (off : Nat) (bytes : List Byte) (s : State) : Host.Outcome State Fault Refusal :=
  .next (if off + bytes.length ≤ 32768 then apertureWrite s off bytes else s)

/-- LOCK (R356). -/
def execLock (s : State) : Host.Outcome State Fault Refusal := .next (lockCarveOut s)

/-- PWR_LIMIT (Table 19-1, R360). -/
def execPwrLimit (value : Word) (s : State) : Host.Outcome State Fault Refusal := .next (setPwrLimit s value)

/-- REGISTER_WRITE: by the host, or, to the partition map, by firmware (R6, R305, R334, R354). -/
def execRegisterWrite (off : Nat) (value : DWord) (s : State) : Host.Outcome State Fault Refusal :=
  .next (regWrite s (0x200000 ≤ off) off value)

/-! ## Hallmark and the partition map -/

/-- HALLMARK_EXTEND: firmware extends HALLMARK[3] (R358). -/
def execHallmarkExtend (digest : BitVec 384) (s : State) : Host.Outcome State Fault Refusal :=
  .next (if s.link.fwState = .running || s.link.fwState = .ready then extendHallmark s 3 digest else s)

/-- PART_LOCK (R334, R358). -/
def execPartLock (s : State) : Host.Outcome State Fault Refusal := .next (lockMap s)

/-! ## Boot -/

/-- Start of the carve-out (R355). -/
def carveOut : Nat := 0x1FE0000000

/-- SIZE and ENTRY of the staged image (Table 19-5). -/
def imageSize (s : State) : Nat := readLE s (carveOut + 8) 8
def imageEntry (s : State) : Nat := readLE s (carveOut + 16) 8

/-- The header checks of boot ROM (R357 step 1). -/
def imageHeaderOk (s : State) : Bool :=
  readLE s carveOut 4 = 0x4E4B4657 && 1 ≤ imageSize s && imageSize s ≤ 0x1FFF0000 &&
    imageEntry s < imageSize s && readLE s (carveOut + 0x18) 232 = 0

/-- The signed message M (R357). -/
def imageMessage (s : State) : List Byte :=
  readBytes s carveOut 256 ++ readBytes s (carveOut + 0x10000) (imageSize s)

/-- Boot ROM's checks: the error code, 0 for a pass (R357 steps 1 to 4). -/
def imageCheck (s : State) : Nat :=
  if !imageHeaderOk s then 1
  else if !rsaVerifies (imageMessage s) (readBytes s (carveOut + 0x100) 384) then 2
  else if !slhVerifies (imageMessage s) (readBytes s (carveOut + 0x280) 16224) then 3
  else 0

/-- The firmware's entry code pointer (Table 19-5). -/
def firmwareEntry (s : State) : DWord :=
  BitVec.ofNat 64 (readLE s (carveOut + 0x10000 + imageEntry s) 8)

/-- The group of 64 service threads on a scheduler core (R304; its registers, sets and priority: log 28). -/
def serviceGroup (gang core : Nat) (entry : DWord) : Group :=
  { gang := gang, gsize := 64, gcount := 240, nsets := 16, core := core, turns := [0, 1],
    threads := List.replicate 64 { pc := entry, checkEntry := true } }

/-- Service threads are placed on a core, which is the die's scheduler core (R11, R304). They belong to no
grid, and no GID names their gang. -/
def placeService (s : State) (die core : Nat) : State :=
  let (noGrid, s) := freshId s
  let (k, s) := freshId s
  let (g, s) := freshId s
  let key := coreKey die core
  let gang : Gang :=
    { grid := noGrid, slot := 256, cluster := clusterOfCore key, core0 := core, groups := [g] }
  let entry := firmwareEntry s
  let s := { s with gangs := mput s.gangs k gang, groups := mput s.groups g (serviceGroup k key entry) }
  let s := modDie s die fun d => { d with sched := some core, heir := none }
  (groupTids s g).foldl (fun s t => post s t entry) s

/-- The lowest functioning core of a die (R11, R357). -/
def bootCore (s : State) (die : Nat) : Option Nat := lowest (coreWorks s die) 64 0

/-- Boot fails (R357). -/
def bootFail (s : State) (e : Nat) : State :=
  modLink s fun l => { l with fwState := .failed, fwError := BitVec.ofNat 4 e }

/-- The lowest-numbered die that failed a check, by its code (R357; log 29). -/
def bootError (s : State) : Option Nat :=
  (s.link.booted.find? fun e => 1 ≤ e.2 && e.2 ≤ 4).map Prod.snd

/-- Every functioning die reports the same digest. -/
def digestsAgree (s : State) : Bool :=
  match (workingDies s).map fun d => (getDie s d).digest with
  | [] => true
  | x :: xs => xs.all (· = x)

/-- Every die has reported: boot proceeds or fails (R357, R358, R304). -/
def bootDecide (s : State) : State :=
  match workingDies s with
  | [] => bootFail s 5
  | d :: _ =>
    match bootError s with
    | some e => bootFail s e
    | none =>
      if !digestsAgree s then bootFail s 4
      else
        let s := extendHallmark s 1 ((getDie s d).digest.getD 0)
        let s := modLink s fun l => { l with fwState := .running }
        readyCheck ((workingDies s).foldl (fun s d => placeService s d ((bootCore s d).getD 0)) s)

/-- Boot ROM of a die reports (R357). -/
def bootReport (s : State) (die : Nat) : State :=
  match bootCore s die with
  | none =>
    modLink (modDie s die fun d => { d with functioning := false }) fun l =>
      { l with booted := mput l.booted die 5 }
  | some _ =>
    let e := imageCheck s
    let s := if e = 0 then modDie s die fun d => { d with digest := some (sha384 (imageMessage s)) } else s
    modLink s fun l =>
      { l with booted := mput l.booted die e,
               diePass := if e = 0 then l.diePass ||| BitVec.ofNat 8 (2 ^ die) else l.diePass }

/-- BOOT_VERIFY_COMPLETE (R357). -/
def execBootVerifyComplete (die : Nat) (s : State) : Host.Outcome State Fault Refusal :=
  if s.link.fwState ≠ .verifying || 8 ≤ die || (mfind s.link.booted die).isSome then .next s
  else
    let s := bootReport s die
    .next (if s.link.booted.length = 8 then bootDecide s else s)

/-! ## Attestation -/

/-- The mailbox answers (R359). -/
def answer (s : State) (r : Spdm) : State := modLink s fun l => { l with doe := some r }

def execGetVersion (s : State) : Host.Outcome State Fault Refusal := .next (answer s .version)
def execGetCapabilities (s : State) : Host.Outcome State Fault Refusal := .next (answer s .capabilities)
def execNegotiateAlgorithms (s : State) : Host.Outcome State Fault Refusal := .next (answer s .algorithms)
def execGetDigests (s : State) : Host.Outcome State Fault Refusal := .next (answer s .digests)
def execGetCertificate (s : State) : Host.Outcome State Fault Refusal := .next (answer s .certificate)
def execChallenge (nonce : BitVec 256) (s : State) : Host.Outcome State Fault Refusal :=
  .next (answer s (.challenge nonce))

/-- GET_MEASUREMENTS: block i returns HALLMARK[i − 1] as it stands (R359). A block outside 1 to 4 is no
request that R359 names (log 30). -/
def execGetMeasurements (block : Nat) (s : State) : Host.Outcome State Fault Refusal :=
  .next (if 1 ≤ block && block ≤ 4 then answer s (.measurement block (mget 0 s.link.hallmark (block - 1)))
         else answer s (.unsupported 0xE0))

def execSpdmUnsupportedRequest (code : Byte) (s : State) : Host.Outcome State Fault Refusal :=
  .next (answer s (.unsupported code))

/-! ## Reset -/

/-- CONVENTIONAL_RESET (R342, R356, R358, R361): every register and engine is as after reset. Bytes of
memory and their poison marks stay (log 27), and so do the model's own counters. -/
def execConventionalReset (s : State) : Host.Outcome State Fault Refusal :=
  .next { State.reset with mem := s.mem, poison := s.poison, agenda := s.agenda, free := s.free,
                           ticks := s.ticks, nextId := s.nextId, events := s.events }

/-! ## Power -/

/-- An engine of a cluster is inside an operation's passes. -/
def enginePassing (s : State) (ck : Nat) : Bool := s.ops.any fun e => passReady s ck e.2

/-- Engines that stand at a pass boundary enter or leave Quench (R246, R360); the others do at their next
one. -/
def quenchIdle (s : State) (b : Bool) : State :=
  (List.range 128).foldl (fun s ck =>
    if enginePassing s ck then s else modCluster s ck fun c => { c with quenched := b }) s

/-- The dies' power queues hear of a change of the alarm (R304; log 46). -/
def notifyPower (s : State) : State := (List.range 8).foldl (fun s d => notifyInternal s d 57) s

/-- The power alarm is raised, if it is not (R360). -/
def raiseAlarm (s : State) : State :=
  if s.link.alarm then s
  else
    notifyPower (quenchIdle (modLink s fun l =>
      { l with alarm := true, quenchCount := l.quenchCount + 1 }) true)

/-- POWER_AVERAGE (R360): a limit written since the last average is in force from this one on. -/
def execPowerAverage (watts : Nat) (s : State) : Host.Outcome State Fault Refusal :=
  let w := min 8191 watts
  let s := modLink s fun l => { l with power := BitVec.ofNat 13 w, limit := l.pwrLimit }
  .next (if s.link.limit.toNat < w then raiseAlarm s else s)

/-- The conditions under which the alarm clears (R360), against the limit in force. -/
def alarmMayClear (s : State) : Bool :=
  s.link.power.toNat * 100 < s.link.limit.toNat * 95 && tempMax s < 100

/-- ALARM_CLEAR (R360). -/
def execAlarmClear (s : State) : Host.Outcome State Fault Refusal :=
  .next (if s.link.alarm && alarmMayClear s then
    notifyPower (quenchIdle (modLink s fun l => { l with alarm := false }) false) else s)

/-- User gangs of the module that are placed. -/
def allUserGangs (s : State) : List Nat := (List.range 8).flatMap (userGangs s)

/-- The module trips, once: every user gang stops, and the host hears of a fatal error (R361). -/
def tripModule (s : State) : State :=
  if s.link.trip then s
  else report (modLink ((allUserGangs s).foldl stopGang s) fun l => { l with trip := true }) .fatal

/-- A die's temperature is taken: above 105 °C it raises the alarm (R360), above 115 °C the module trips
(R361). -/
def takeTemperature (s : State) (die degrees : Nat) : State :=
  let s := modDie s die fun d => { d with temp := degrees }
  let s := if 105 < degrees then raiseAlarm s else s
  if 115 < degrees then tripModule s else s

/-- TEMPERATURE_ALARM (R360). -/
def execTemperatureAlarm (die degrees : Nat) (s : State) : Host.Outcome State Fault Refusal :=
  .next (takeTemperature s die degrees)

/-- THERMAL_TRIP (R361). -/
def execThermalTrip (die degrees : Nat) (s : State) : Host.Outcome State Fault Refusal :=
  .next (takeTemperature s die degrees)

/-! ## Errors -/

/-- CORRECTED_ERROR (R337). -/
def execCorrectedError (unit : ErrUnit) (s : State) : Host.Outcome State Fault Refusal :=
  .next (countCorrected s unit)

/-- CORRECTED_WINDOW_EXPIRY: an error leaves its unit's window (R337). -/
def execCorrectedWindowExpiry (unit : ErrUnit) (s : State) : Host.Outcome State Fault Refusal :=
  .next (setWindow s unit (windowCount s unit - 1))

/-- The page of a word of HBM or second-tier DRAM is retired (R337). -/
def retireWord (s : State) (pa : Nat) : State :=
  match regionOf pa with
  | .hbm _ | .tier => retirePage s pa
  | .cxl | .ext | .regs | .hole => s

/-- Die of a gang. -/
def gangDie (s : State) (k : Nat) : Nat := (getGang s k).cluster / 16

/-- The numbers that share an aligned block of `n` with number `k`. -/
def sharing (n k : Nat) : List Nat := (List.range n).map (k / n * n + ·)

/-- Elements of one column of a B tile that share a 64-bit word with element `key`, `n` of them: a slice holds one
column, its K rows one after the other (R222, R224). -/
def columnWord (n key : Nat) : List Nat := (sharing n (key / 64)).map fun k => 64 * k + key % 64

/-- Marks of a tile whose elements lie in one 64-bit word of the Bezel (R224, R336): consecutive K elements of one
column of a B tile or of one row of an A tile, eight block scales or four band scales of a column, or one column
scale. -/
def tileWord (t : Tile) (elem : Nat) : List Nat :=
  if elem < 2 ^ 24 then (if t.isA then sharing else columnWord) (64 / tileBits t.fmt) elem
  else if elem < 2 ^ 25 then [elem]
  else if elem < 2 ^ 26 then (columnWord 8 (elem - 2 ^ 25)).map poisonBscale
  else (columnWord 4 (elem - 2 ^ 26)).map poisonBand

/-- A line's value stands in a cluster's ways alone: the cluster owns it, or a core of it owns its granule and has
written it (R183, R190). -/
def soleCopy (s : State) (ck l : Nat) : Bool :=
  (match (getLine s l).st with
    | .ow (.cluster c) => c = ck
    | .ow _ | .sh _ | .inv => false) ||
  match (getGranule s (l / 32)).cls with
  | .p c => clusterOfCore c = ck && (mfind s.backing l).any Beneath.dirty
  | .u | .r | .s => false

/-- An error in memory itself: what a cache holds otherwise is not touched (R336, R362). -/
def markMemory (s : State) (pa : Nat) : State :=
  match mfind s.backing (lineNo pa) with
  | none => markPoison s pa 1
  | some b => { s with backing := mput s.backing (lineNo pa) { b with marks := nadd b.marks (pa / 8) } }

/-- An error in a slice's copy of a line: memory's own marks stay as they are (R336, R362). -/
def markSlice (s : State) (pa : Nat) : State := markPoison (keepBeneath false s (lineNo pa)) pa 1

/-- An error in a way of a cluster: it strikes the line's value where that stands there alone, otherwise the cluster's
own copy (R336, R362). -/
def markWay (s : State) (ck pa : Nat) : State :=
  if soleCopy s ck (lineNo pa) then markSlice s pa
  else if s.wayPoison.contains (ck, pa / 8) then s
  else { s with wayPoison := s.wayPoison ++ [(ck, pa / 8)] }

/-- UNCORRECTABLE_ERROR (R336 to R339, R362): the 64-bit word in which the error lies is poisoned. -/
def execUncorrectableError (place : ErrPlace) (s : State) : Host.Outcome State Fault Refusal :=
  match place with
  | .memory pa => .next (retireWord (countUncorrected (markMemory s pa) (homeDie s pa)) pa)
  | .slice pa => .next (countUncorrected (markSlice s pa) (homeDie s pa))
  | .way die cl pa => .next (countUncorrected (markWay s (die * 16 + cl) pa) die)
  | .scratch gang bank off =>
    let s := modBank s gang bank fun b => { b with poison := nadd b.poison (off % bankBytes / 8) }
    .next (countUncorrected s (gangDie s gang))
  | .logic die cl => .next (withdrawCluster (countUncorrected s die) die cl)
  | .tile gang entry elem =>
    let bad := fun (t : Tile) => { t with poison := (tileWord t elem).foldl nadd t.poison }
    let s := modGang s gang fun g => { g with tiles := mmod g.tiles entry bad }
    .next (countUncorrected s (gangDie s gang))
  | .accum gang acc elem =>
    let s := modAcc s gang acc fun a => { a with poison := (sharing 2 elem).foldl nadd a.poison }
    .next (countUncorrected s (gangDie s gang))
  | .shadowReg gang grp gi reg =>
    if (getGang s gang).isSaved then
      let bad := fun (th : Thread) =>
        { th with rpoison := (sharing 2 reg).foldl (fun m r => mput m r 0) th.rpoison }
      .next (countUncorrected (modThread s ⟨grp, gi⟩ bad) (gangDie s gang))
    else .next s
  | .shadowScalar gang grp n =>
    if (getGang s gang).isSaved then
      let s := modGroup s grp fun g =>
        { g with spoison := (sharing 2 n).foldl (fun m r => mput m r 0) g.spoison }
      .next (countUncorrected s (gangDie s gang))
    else .next s
  | .shadowShape gang grp n =>
    if (getGang s gang).isSaved then
      let s := modGroup s grp fun g => { g with shpoison := mput g.shpoison n 0 }
      .next (countUncorrected s (gangDie s gang))
    else .next s
  | .shadowControl gang grp =>
    if (getGang s gang).isSaved then
      let s := modGroup s grp fun g => { g with damaged := true }
      .next (countUncorrected s (gangDie s gang))
    else .next s

/-! ## Loss of a scheduler core -/

/-- An interrupted entry is completed with STATUS 3 and the handle of the grid it launched, if its launch event took
place (R319 step 4). -/
def endLost (s : State) (die q : Nat) : State :=
  let (c, s) := ringRead s die q
  let h := ((mfind (getDie s die).inprog q).map Prod.snd).getD 0
  let s := modDie s die fun d => { d with lost := ndel d.lost q }
  ringComplete s die q c 3 (if spanWaits s (diePart s die) (qpasidOf s die q) h then 0 else h)

/-- It is completed once the entry can be read and the completion lacks nothing; until then what lacks is asked for
(R193, R196, R330, R351). -/
def completeLost (die : Nat) (s : State) (q : Nat) : State :=
  if !(getDie s die).sched.isSome || !ringUp s die (headEntry s die q) false then s
  else match ringBar s (headEntry s die q) with
  | some w => wantPage s w
  | none =>
    match complLack s die q (headCmd s die q) with
    | some l => askRing s die q l
    | none => endLost s die q

/-- The interrupted entries of a die, and the page of the fault ring's next entry while a record waits for it (R193,
R319). -/
def settleRings (s : State) (die : Nat) : State :=
  let s := (getDie s die).lost.foldl (completeLost die) s
  if (getDie s die).escalated.isEmpty then s
  else match ringBar s (faultEntry s die) with
  | some w => wantPage s w
  | none => s

/-- Waiting escalations go to the ring while it is open (R319 step 5). -/
def appendWaiting (s : State) (die : Nat) : Nat → State
  | 0 => s
  | fuel + 1 =>
    match (getDie s die).escalated with
    | [] => s
    | e :: es =>
      if faultRingOpen s die then
        appendWaiting (ringAppend (modDie s die fun d => { d with escalated := es }) die e) die fuel
      else s

/-- Recovery on a core that no group occupies (R319 steps 3 to 5). -/
def recoverOn (s : State) (die core : Nat) : State :=
  if (getDie s die).digest ≠ some (sha384 (imageMessage s)) then
    report (modDie s die fun d => { d with functioning := false }) .fatal
  else
    let s := placeService s die core
    let s := modDie s die fun d => { d with lost := (mkeys d.inprog).filter (· < 48) }
    let s := (getDie s die).lost.foldl (completeLost die) s
    readyCheck (appendWaiting s die (getDie s die).escalated.length)

/-- SCHEDULER_CORE_RECOVERY (R319): it waits while groups occupy the chosen core. -/
def execSchedulerCoreRecovery (die : Nat) (s : State) : Host.Outcome State Fault Refusal :=
  if !firmwareRuns s || (getDie s die).sched.isSome || !(getDie s die).functioning then .next s
  else match nextSched s die with
    | none => .next s
    | some c => .next (if (residents s (coreKey die c)).isEmpty then recoverOn s die c else s)

end Sys2Proof.Machine
end

