-- ==== Sys2Proof/Machine/Links.lean ====
section
/-! DEFINITION. Links, the host and peer modules: completions, failing ports, page handovers and accesses
from outside (R192 to R197, R341 to R351). -/

namespace Sys2Proof.Machine

/-! ## The PCIe port -/

/-- X_COMPLETION (R205, R350), while the PCIe port is not down (R351). -/
def execXCompletion (grp gi : Nat) (reply : XReply) (s : State) : Host.Outcome State Fault Refusal :=
  .next (if s.link.down.contains .pcie then s else xReturn s ⟨grp, gi⟩ reply)

/-- A read or AtomicOp of the thread awaits its completion, and its pack's turn has come (R350). -/
def awaitsLink (s : State) (t : Tid) : Bool :=
  (getThread s t).strict.any fun x => x.place = .link && packTurn s t x

/-- COMPLETION_TIMEOUT: as a completion that reports an error, and an uncorrectable error of the port
(R350). -/
def execCompletionTimeout (grp gi : Nat) (s : State) : Host.Outcome State Fault Refusal :=
  let t : Tid := ⟨grp, gi⟩
  .next (if awaitsLink s t then report (xReturn s t .poisoned) (.linkError (threadDie s t)) else s)

/-- Sets or clears a bit. -/
def putBit {n : Nat} (v : BitVec n) (i : Nat) (b : Bool) : BitVec n :=
  if b then v ||| BitVec.ofNat n (2 ^ i) else v &&& ~~~(BitVec.ofNat n (2 ^ i))

/-- A port is in L0 (Table 18-5). -/
def portUp (l : Link) (p : Port) : Bool :=
  match p with
  | .pcie => l.pcieUp
  | .cxl n => l.cxlUp.getLsbD n
  | .fabric n => l.fabricUp.getLsbD n

/-- LINK_L0_CHANGE (R351, Table 18-5). -/
def execLinkL0Change (port : Port) (up : Bool) (s : State) : Host.Outcome State Fault Refusal :=
  let s := modLink s fun l => { l with down := if up then l.down.filter (· ≠ port) else l.down }
  match port with
  | .pcie => .next (modLink s fun l => { l with pcieUp := up })
  | .cxl n => .next (modLink s fun l => { l with cxlUp := putBit l.cxlUp n up })
  | .fabric n => .next (modLink s fun l => { l with fabricUp := putBit l.fabricUp n up })

/-- Pages of host memory that were passing to the host stay with the module, and what waited for them goes on
(R351). -/
def stayPages (s : State) : State :=
  let stay := fun (s : State) (u : Nat) =>
    if (getPage s u).departing && regionOf (u * 65536) = .cxl then releaseHostSide (takePage s u) u else s
  (mkeys s.pages).foldl stay s

/-- LINK_DOWN: a port that is out of L0 counts as down (R351). With both CXL data ports down the pages stay with the
module, and a fatal error is reported over PCIe, if that is up. -/
def execLinkDown (port : Port) (s : State) : Host.Outcome State Fault Refusal :=
  if portUp s.link port || s.link.down.contains port then .next s
  else
    let lost := cxlDown s
    let s := modLink s fun l => { l with down := l.down ++ [port] }
    if !lost && cxlDown s then .next (if s.link.pcieUp then report (stayPages s) .fatal else stayPages s)
    else .next s

/-! ## Pages between devices -/

/-- The ports that a page passes over are not all down: the CXL ports for host memory, the fabric for a lent
page (R341, R344, R351). -/
def passPort (s : State) (page : Nat) : Bool :=
  if regionOf (page * 65536) = .cxl then !cxlDown s else !fabricDown s

/-- HOST_SNOOP: the host asks for a device-biased page (R193), over a CXL port (R351). Where the page is departing
already, the snoop waits for the handover (R349). -/
def execHostSnoop (page : Nat) (s : State) : Host.Outcome State Fault Refusal :=
  let snoop := fun (s : State) => modPage s page fun p => { p with snooped := true }
  if regionOf (page * 65536) ≠ .cxl || cxlDown s then .next s
  else if (getPage s page).departing then .next (snoop s)
  else .next (if heldHere s page then snoop (departPage s page (some .host) (pageCores s page)) else s)

/-- The page is lent to a peer module (R192). -/
def lentPage (s : State) (page : Nat) : Bool :=
  match (getPage s page).holder with
  | some (.peer _) => true
  | some (.cluster _) | some .host | none => false

/-- PEER_RECLAIM: this module asks for a page it has lent (R193). -/
def execPeerReclaim (page : Nat) (s : State) : Host.Outcome State Fault Refusal :=
  .next (if lentPage s page && !(getPage s page).departing then departPage s page none [] else s)

/-- PAGE_HANDOVER_COMPLETE (R193): after the drains, and once no held range lies on the page (R197), over its
ports (R351). -/
def execPageHandoverComplete (page : Nat) (s : State) : Host.Outcome State Fault Refusal :=
  let p := getPage s page
  if !p.departing || !p.drains.isEmpty || pageLocked s page || !passPort s page then .next s
  else .next (passOn s page)

/-- PEER_PAGE_RETURN: a peer returns a page it borrowed (R192). -/
def execPeerPageReturn (page : Nat) (s : State) : Host.Outcome State Fault Refusal :=
  .next (if lentPage s page then takePage s page else s)

/-! ## Accesses from outside -/

/-- An access of 1 to 16 bytes within one line, with as many bytes as it says (R194). -/
def extOk (a : ExtAccess) : Bool :=
  1 ≤ a.size && a.size ≤ 16 && lineNo a.pa = lineNo (a.pa + a.size - 1) &&
    a.store.all (·.length = a.size) && a.cmp.all (·.length = a.size)

/-- Memory of this module. -/
def moduleMemory (pa : Nat) : Bool :=
  match regionOf pa with
  | .hbm _ | .tier => true
  | .cxl | .ext | .regs | .hole => false

/-- HOST_CXL_ACCESS: a host access to module memory at its home (R194, R197, R345, R356). -/
def execHostCxlAccess (acc : ExtAccess) (s : State) : Host.Outcome State Fault Refusal :=
  .next (if extOk acc && moduleMemory acc.pa && !cxlDown s && !pageAway s acc.pa then extArrive s .host acc else s)

/-- A peer borrows the page of its access whole (R192). -/
def lendPage (s : State) (page m : Nat) : State :=
  modPage (passPage s page) page fun p => { p with holder := some (.peer m), taker := none }

/-- PEER_ACCESS: a peer module's access to module memory (R192, R194, R197). -/
def execPeerAccess (module : Nat) (acc : ExtAccess) (s : State) : Host.Outcome State Fault Refusal :=
  let page := pageNo acc.pa
  if !(extOk acc && moduleMemory acc.pa) || (getPage s page).departing then .next s
  else match (getPage s page).holder with
    | some h => .next (if h = .peer module then extPerform s (.peer module) acc else s)
    | none =>
      if inCarveOut acc.pa || pageLocked s page then .next (extArrive s (.peer module) acc)
      else .next (extPerform (lendPage s page module) (.peer module) acc)

/-- A host access to its own memory, an atomic among them (R194, R349, R352): its bytes, and reservations on
the line. -/
def hostPerform (s : State) (acc : ExtAccess) : State :=
  let s := extAnswer s .host acc (readBytes s acc.pa acc.size)
  if extStores s acc then
    writeBack (storeBytes (loseResv s none acc.pa acc.size) acc.pa (extBytes acc)) (lineNo acc.pa)
  else s

/-- The host's access to a page it has taken is performed: a thread that waits may take the page back (R193
step 4). -/
def hostDone (s : State) (page : Nat) : State :=
  if (getPage s page).holder = some .host then modPage s page fun p => { p with taker := none, snooped := false } else s

/-- HOST_MEMORY_ACCESS: a host access to its own memory, unless this module holds the page (R192 to
R194). -/
def execHostMemoryAccess (acc : ExtAccess) (s : State) : Host.Outcome State Fault Refusal :=
  let page := pageNo acc.pa
  match regionOf acc.pa with
  | .cxl =>
    .next (if !extOk acc || (getPage s page).departing || heldHere s page then s
      else hostDone (hostPerform s acc) page)
  | .ext => .next (if extOk acc then hostPerform s acc else s)
  | .hbm _ | .tier | .regs | .hole => .next s

/-! ## Events that a link or the firmware brings -/

/-- The event can occur: what comes over a port needs that port, which no other stands in for (R341, R351),
and only firmware writes the partition map (R22, R334). -/
def mayOccur (s : State) (i : Instr) : Bool :=
  let pcie := !s.link.down.contains .pcie
  match i with
  | .qnotify _ _ _ | .errStatusClear _ _ | .fwAperture _ _ | .lock | .pwrLimit _ | .getVersion
  | .getCapabilities | .negotiateAlgorithms | .getDigests | .getCertificate | .challenge _
  | .getMeasurements _ | .spdmUnsupportedRequest _ | .msixDeliver _ | .xCompletion _ _ _ => pcie
  | .registerWrite off _ => if off < 0x200000 then pcie else firmwareRuns s
  | .partLock => firmwareRuns s
  | .hostCxlAccess _ | .hostSnoop _ => !cxlDown s
  | .peerAccess _ _ | .peerReclaim _ | .peerPageReturn _ | .spanAck _ _ | .spanCancel _ => !fabricDown s
  | .rangeRequest _ die | .dieReport _ die | .gridJoin _ die => die < 8 || !fabricDown s
  | _ => true

end Sys2Proof.Machine
end

