-- ==== Sys2Proof/Machine/Settle.lean ====
section
/-! DEFINITION. What follows of itself once a step has been made: parked threads whose condition is met go on,
CANCEL is taken at once where R295 says so, operations, grids, graphs and pages that waited take what has come
free, and engines without passes follow the power alarm (R78, R195, R284, R290, R295, R298, R360). -/

namespace Sys2Proof.Machine

/-- A wait that CANCEL ends at once (R295). -/
def cancelsWait (w : Wait) : Bool :=
  match w with
  | .token _ | .counts _ _ _ _ | .grid _ | .arrived _ | .fifo _ | .fifoTurn _ _ _ _ => true
  | .regs _ | .count _ | .walk _ | .dying | .strict | .drained | .notify _ | .stop _ | .signing _
  | .leaving _ | .reservation _ | .mrd _ | .ranges | .ladle _ | .launch _ _ | .gridTable | .span _
  | .bank _ _ _ _ | .tile _ | .granules _ _ | .walks _ _ | .page _ _ | .trap _ _ _ _ => false

/-- A thread's place in a FIFO bank's queues is given up. -/
def leaveBank (s : State) (t : Tid) (b : Nat) : State :=
  let mine := fun (w : Writer) => match w with
    | .thread u _ => u = t
    | .copy _ => false
  modBank s (threadGroup s t).gang b fun k =>
    { k with queue := k.queue.filter (· ≠ t), readers := k.readers.filter fun r => r.1 ≠ t, writers := k.writers.filter fun w => !mine w }

/-- What a thread that takes CANCEL at once leaves (R116, R295). -/
def leaveWait (s : State) (t : Tid) (w : Wait) : State :=
  match w with
  | .arrived j => withdrawArrival s t j
  | .fifo b | .fifoTurn b _ _ _ => leaveBank s t b
  | _ => s

/-- A thread parked at a block-ending wait or on a FIFO bank takes CANCEL at once, with TEPC naming its
instruction (R295). Every other park is mid-block, so this one is a block end (Tables 16-6, 16-7; log 35). -/
def cancelWait (s : State) (t : Tid) : State :=
  let th := getThread s t
  match th.run with
  | .parked w =>
    if th.cancelPend && !th.inTrap && cancelsWait w then
      let s := modThread (leaveWait s t w) t fun th => { th with cancelPend := false }
      takeTrapWith s t { code := .cancel } th.pc flagBlockEnd
    else s
  | .ready | .issuing | .held _ | .done => s

/-- The thread's gang runs and its group is not stopped: its conditions can end (R78). -/
def threadRuns (s : State) (t : Tid) : Bool :=
  !(threadGroup s t).stopped && (getGang s (threadGroup s t).gang).status = .running

/-- One thread. -/
def settleThread (s : State) (t : Tid) : State :=
  if threadRuns s t then
    match (getThread s t).run with
    | .parked w => cancelWait (settleWait s t w) t
    | .ready | .issuing | .held _ | .done => s
  else s

/-- A node of a graph waits for a table entry (R298). -/
def graphReady (g : Graph) : Bool := g.nodes.any fun x => x.state = .waiting && x.pred = 0

/-- A graph whose ready nodes found no table entry tries again (R298), once the page of its table is there
(R193). -/
def settleGraph (s : State) (k : Nat) : State :=
  match mfind s.graphs k with
  | none => s
  | some g =>
    if graphReady g && (freeEntry s g.part).isSome then
      match tableBar s k with
      | some w => wantPage s w
      | none => launchReady s k
    else s

/-- Every graph, and the grids and launch events that waited for a page (R193, R290, R299). -/
def settleLaunch (s : State) : State :=
  let s := (mkeys s.graphs).foldl settleGraph s
  placeSpans ((mkeys s.grids).foldl tryComplete s)

/-- Walks of a die ask for the pages of their entries (R193, R330). -/
def settleWalks (s : State) (die : Nat) : State :=
  (getDie s die).walks.foldl (fun s m =>
    match walkBar s ((partOfDie s die).getD 8) m.pasid (BitVec.ofNat 64 (65536 * m.vpn)) with
    | some u => wantPage s (u, false)
    | none => s) s

/-- An access or a launch waits for a page that is away. -/
def pageWanted (s : State) (u : Nat) : Bool := (getPage s u).wanted || pageAwaited s u

/-- An access of the module to the page at the host's home agent has still to be performed (R193 step 4, R349). -/
def hostSideBusy (s : State) (u : Nat) : Bool :=
  (allTids s).any fun t => (getThread s t).strict.any fun x => x.acc.host && x.place = .ready && onPage s u x.acc.pa

/-- Pages that the host has taken and used are taken back where something waits for them (R193 step 4), while a
CXL port works (R351). -/
def settlePages (s : State) : State :=
  let go := fun (s : State) (page : Nat) =>
    let p := getPage s page
    if p.holder = some .host && p.taker.isNone && !p.departing && pageWanted s page && !hostSideBusy s page &&
        !cxlDown s then
      takePage s page
    else s
  (mkeys s.pages).foldl go s

/-- An access that waits for a page of the host fails with both CXL ports down (R351). -/
def settleLost (s : State) (t : Tid) : State :=
  match (getThread s t).strict with
  | none => s
  | some x =>
    match x.place with
    | .departing _ => if !x.acc.host && unreached s x.acc.pa then strictDone (failAccess s t x.acc) t else s
    | .held _ | .home | .turn | .ready | .bank _ | .link => s

/-- Engines whose passes have all been made follow the alarm (R246, R360; log 38). -/
def settleQuench (s : State) : State :=
  if s.link.alarm || s.clusters.any (fun e => e.2.quenched) then quenchIdle s s.link.alarm else s

/-- Accesses that have lost the copy they need ask the home (R190). -/
def settleCopies (s : State) : State := (inLaneOrder ((allTids s).filter (strayed s))).foldl homeRequest s

/-- An access whose lower lanes have been performed: a range that has been taken since bars it, and otherwise it is
decided anew (R196, R206). -/
def settleTurn (s : State) (t : Tid) : State :=
  match (getThread s t).strict with
  | none => s
  | some x =>
    if x.place ≠ .turn || !packTurn s t x then s
    else if accessBarred s t x.acc then strictFault s t { code := .rangeLock, addr := x.acc.va }
    else takeTurn s t x

/-- Every such access. -/
def settleTurns (s : State) : State :=
  (inLaneOrder ((allTids s).filter fun t => (getThread s t).strict.any fun x => x.place = .turn)).foldl settleTurn s

/-- Operations take the entries and records that have come free, or ask for what they lack (R193, R195, R330). -/
def settleClaims (s : State) : State :=
  (mkeys s.ops).foldl (fun s k => askCopy (claimCopy (claimSigned s k) k) k) s

/-- Accesses from outside that nothing holds any more are performed (R191, R197). -/
def settleHeld (s : State) : State := if s.extHeld.isEmpty then s else releaseHeld s

/-- Threads that wait at `LNCH`, in ascending lane order (R284). -/
def launchTids (s : State) : List Tid :=
  inLaneOrder ((allTids s).filter fun t => match (getThread s t).run with
    | .parked (.launch _ _) => true
    | _ => false)

/-- Threads of a group that wait to take a trap, in the order of their packs and, in a pack, of their lanes. -/
def trapTids (g : Nat) (grp : Group) : List Tid :=
  let place := fun (m : NMap Nat) (gi : Nat) => match (grp.threads.getD gi { run := .done }).run with
    | .parked (.trap _ _ _ pack) => mput m ((pack * 32 + laneOf gi) * 65536 + gi) gi
    | _ => m
  ((List.range grp.threads.length).foldl place []).map fun e => ⟨g, e.2⟩

/-- Such threads take their traps in that order (R79, R310). -/
def settleTraps (s : State) : State := (s.groups.flatMap fun e => trapTids e.1 e.2).foldl settleThread s

/-- Everything that follows of itself. Threads go on in ascending lane order, so that those of a pack take CANCEL and
user interrupts in that order (R310 item 3). -/
def settle (s : State) : State :=
  let s := settleCopies (settleHeld (settleClaims (settleTurns s)))
  let s := (mkeys s.dies).foldl settleRings (settleQuench (settleLaunch s))
  let s := if s.pages.isEmpty then s else settlePages ((mkeys s.dies).foldl settleWalks s)
  let s := if cxlDown s then (inLaneOrder (allTids s)).foldl settleLost s else s
  let s := (launchTids s).foldl settleThread (settleTraps s)
  (inLaneOrder (allTids s)).foldl settleThread s

end Sys2Proof.Machine
end

