-- ==== Sys2Proof/Machine/Schedule.lean ====
section
/-! DEFINITION. Which event or core moves next when the agenda names none (the model's own order; log 1). -/

namespace Sys2Proof.Machine

/-- The first core with a queued access. -/
def nextQueued (s : State) : Option Instr :=
  (s.cores.find? fun e => !e.2.queue.isEmpty).map fun e => .accessQueuePerform e.1

/-- A strict access may be performed now. -/
def strictReady (s : State) (t : Tid) : Bool :=
  (getThread s t).strict.any fun x =>
    x.place = .ready && packTurn s t x && !unanswered s x.acc.pa

/-- The first strict access that may be performed. -/
def nextStrict (s : State) : Option Instr :=
  ((allTids s).find? (strictReady s)).map fun t => .strictAccessPerformed t.grp t.gi

/-- A bank of a gang has something to serve. -/
def bankReady (s : State) (k b : Nat) : Bool :=
  match (getBank s k b).queue with
  | t :: _ => match (getThread s t).strict with
    | some x => packTurn s t x
    | none => true
  | [] => (fifoNext s k b).isSome

/-- The first bank with something to serve, by its physical number. -/
def nextBank (s : State) : Option Instr :=
  s.gangs.findSome? fun e =>
    (List.range e.2.phys.length).findSome? fun i =>
      if bankReady s e.1 i then some (.bankServe e.2.cluster (e.2.phys.getD i 0)) else none

/-- The first acknowledgement that a home awaits. -/
def nextLine (s : State) : Option Instr :=
  s.dir.findSome? fun e =>
    match e.2.busy with
    | some (t, who :: _) => if (getThread s t).strict.isSome then some (.invalidationAck e.1 who) else none
    | some (_, []) | none => none

/-- The first drain or acknowledgement of an Anneal. -/
def nextAnneal (s : State) : Option Instr :=
  s.assay.findSome? fun e =>
    match e.2.annealing with
    | some (.core c :: _, _) =>
      some (if e.2.drained.contains c then .annealAck e.1 (.core c) else .annealDrain c e.1)
    | some (who :: _, _) => some (.annealAck e.1 who)
    | some ([], _) | none => none

/-- The first step of a page's handover. -/
def nextPage (s : State) : Option Instr :=
  s.pages.findSome? fun e =>
    if e.2.departing then
      match e.2.drains with
      | c :: _ => some (.annealDrain c (e.1 * 16))
      | [] => if pageLocked s e.1 || !passPort s e.1 then none else some (.pageHandoverComplete e.1)
    else if lentPage s e.1 && pageWanted s e.1 && !fabricDown s then some (.peerReclaim e.1)
    else none

/-- A walk of a die would complete (R332; `walkStays`). -/
def walkEnds (s : State) (die : Nat) (m : Miss) : Bool :=
  let p := (partOfDie s die).getD 8
  pasidState s p m.pasid = .dying || !walkStays s p m

/-- The first walk to begin or to complete. -/
def nextWalk (s : State) : Option Instr :=
  s.dies.findSome? fun e =>
    if !e.2.misses.isEmpty && e.2.walks.length < 64 then some (.walkStart e.1)
    else (e.2.walks.findIdx? (walkEnds s e.1)).map (.walkComplete e.1)

/-- The next event of an engine operation. -/
def opEvent (s : State) (e : Nat × EngineOp) : Option Instr :=
  let (k, o) := e
  if copyMayBegin s k o then some (.ladleCopyBegin k)
  else if !isCopy o.kind && mayBegin s k o then some (.engineOpBegin k)
  else if matrixDone s o then some (.matrixOpFinish k)
  else if copyDone s o then some (.copyFinish k)
  else match o.kind with
    | .chain _ _ => if o.phase = .running && opMayRun s o then some (.chainSweepFinish k) else none
    | .copy _ _ _ _ | .bzld _ _ _ _ _ _ _ _ | .sign _ _ _ => none

/-- The first event of the engines: an operation's own, or a pass of a cluster's array. -/
def nextOp (s : State) : Option Instr :=
  (s.ops.findSome? (opEvent s)).or
    (s.ops.findSome? fun e =>
      let ck := clusterOfCore e.2.core
      if (grantOf s ck s.ops).isSome then some (.matrixPass ck) else none)

/-- The first late register write. -/
def nextLate (s : State) : Option Instr :=
  (allTids s).findSome? fun t =>
    match (getThread s t).late with
    | l :: _ => some (if l.spk then .spk24ResultWrite t.grp t.gi else .sfuResultWrite t.grp t.gi)
    | [] => none

/-- A grid of a partition starts, or is joined by a free die (R288). -/
def joinEvent (s : State) (p : Nat) : Option Instr :=
  match (getPart s p).queue with
  | k :: _ =>
    match mfind s.grids k with
    | some g => if headStarts s p g then some (.gridJoin p 0) else none
    | none => none
  | [] =>
    ((freeDies s p).find? fun d => s.grids.any (mayJoin s p d)).map fun d => .gridJoin p d

/-- A die asks for a range, or leaves its grid; a member that has asked its root waits for the answer (R287). -/
def mayRequest (s : State) (g : Grid) (d : Nat) : Bool :=
  rangeDone g d && !(g.root.isSome && (g.asked || fabricDown s) && g.state = .running && !g.closed &&
    !undealt g && !headWants s g.part d)

/-- A grid's next request, report or acknowledgement (R287, R290, R299). -/
def gridEvent (s : State) (e : Nat × Grid) : Option Instr :=
  let (k, g) := e
  match g.acks with
  | m :: _ => if fabricDown s then none else some (.spanAck k m)
  | [] =>
    if g.state = .queued then none
    else
      ((joined s k).find? (mayRequest s g)).map (fun d => .rangeRequest k d) <|>
      ((mkeys g.dies).find? fun d =>
        (mfind g.dies d).any (fun w => !w.reported) && dieOver s k d g).map (fun d => .dieReport k d) <|>
      if fabricDown s then none
      else match (if g.state = .running then g.farDies.find? (farWanted s g.part) else none) with
      | some c => some (.rangeRequest k (16 + c))
      | none =>
      if undealt g then
        if g.state = .running then (g.modules.find? (farAsks s g)).map fun m => .rangeRequest k (8 + m) else none
      else g.modules.head?.map fun m => .dieReport k (8 + m)

/-- The first event of launching. -/
def nextLaunch (s : State) : Option Instr :=
  (List.range 8).findSome? (joinEvent s) <|> s.grids.findSome? (gridEvent s) <|>
    (s.dies.find? fun e => (placeable s e.1).isSome).map fun e => .gangPlace e.1

/-- A group in which ORPHAN_SET is due. -/
def nextOrphan (s : State) : Option Instr :=
  (s.groups.find? fun e => (orphanDue s e.1).isSome).map fun e => .orphanSet e.1

/-- A stopping gang that has come to rest. -/
def nextStop (s : State) : Option Instr :=
  (s.gangs.find? fun e => e.2.status = .stopping && gangStopped s e.1).map fun e => .gangStopComplete e.1

/-- The first event of a die's rings and notifies, of boot, or of recovery. -/
def dieEvent (s : State) (d : Nat) : Option Instr :=
  let die := getDie s d
  if !die.escalated.isEmpty && faultRingOpen s d then some (.faultRingAppend d)
  else match die.notifies.find? fun e => !earlierWrites s e.1 with
    | some e => some (.notifyRelease d e.2.1)
    | none =>
      if s.link.fwState = .verifying && (mfind s.link.booted d).isNone then some (.bootVerifyComplete d)
      else if firmwareRuns s && die.sched.isNone && die.functioning &&
          (nextSched s d).any fun c => (residents s (coreKey d c)).isEmpty then
        some (.schedulerCoreRecovery d)
      else none

/-- The first held message that may go. -/
def nextMsix (s : State) : Option Instr :=
  if s.link.down.contains .pcie then none else s.link.msixHeld.head?.map fun v => .msixDeliver v

/-- The next event that the machine itself is ready to make. Accesses of the host and of peers, completions
from outside, errors, register writes and the commands in rings come only from the agenda. -/
def pendingEvent (s : State) : Option Instr :=
  nextQueued s <|> nextStrict s <|> nextBank s <|> nextLine s <|> nextAnneal s <|> nextPage s <|> nextWalk s <|>
    nextOp s <|> nextLate s <|> nextLaunch s <|> nextStop s <|> (List.range 8).findSome? (dieEvent s) <|>
    nextMsix s <|> nextOrphan s

/-- A core has a stream or a candidate (R74). -/
def coreHasWork (c : Core) : Bool := c.stream.isSome || !(candidates c).isEmpty

/-- Of the cores with work, the one with the fewest selections; the lowest of those (log 1). -/
def nextCore : NMap Core → Option (Nat × Core)
  | [] => none
  | (k, c) :: m =>
    match nextCore m with
    | none => if coreHasWork c then some (k, c) else none
    | some (j, d) => if coreHasWork c && c.selections ≤ d.selections then some (k, c) else some (j, d)

/-- What moves next, if anything can. -/
def nextTurn (s : State) : Option Turn :=
  match s.agenda with
  | x :: _ => some x
  | [] =>
    match pendingEvent s with
    | some i => some (.event i)
    | none => (nextCore s.cores).map fun e => .core e.1

/-- A core's cache drops the translations it holds of a page (R329; log 34). -/
def evictPage (s : State) (core : Nat) (va : DWord) : State :=
  modCore s core fun c => { c with tlb := c.tlb.filter fun e => e.vpn ≠ vpnOf va e.leaf.bits }

/-- A soft error strikes a core's instruction cache (R26). -/
def upsetLine (s : State) (core line : Nat) (bits : BitVec 512) : State :=
  modCore s core fun c => { c with icache := mput c.icache line bits }

/-- Pages over `n` granules from `lo` on have been remapped: the granules return to class U, unless a lock record
names one of them (R184, R214; log 42). -/
def remapPages (s : State) (lo n : Nat) : State :=
  if granulesLocked s lo n then s else clearGranules s lo n

/-- Firmware joins a partition to a launch domain: of at most eight modules and 64 dies (R21, R299; log 43). -/
def joinDomain (s : State) (p : Nat) (modules : List Nat) : State :=
  let legal := modules.Nodup && modules.all fun m => m < 8 && m ≠ s.link.index.toNat
  if firmwareRuns s && legal && (partDies s p).length + domainDies modules ≤ 64 then
    modPart s p fun x => { x with domain := modules, farShut := [], farWant := [] }
  else s

/-- A core fails its self-test before its die has booted (R357; log 44). -/
def failCore (s : State) (core : Nat) : State :=
  let die := dieOfCore core
  let early := s.link.fwState = .staging || s.link.fwState = .verifying
  if early && (mfind s.link.booted die).isNone then
    modDie s die fun d => { d with failedCores := nadd d.failedCores (core % 64) }
  else s

/-- A range that an operation reads has lost bytes of an X page. -/
def loseBytes (pa n : Nat) (r : Range) : Range := if r.dst then r else { r with lost := r.lost ++ [(pa, n)] }

/-- An engine's read of bytes of an X page ends in an error, or in a timeout, which counts as an uncorrectable error of
the port (R268, R350; log 45). -/
def failRead (s : State) (op pa n : Nat) (timeout : Bool) : State :=
  match mfind s.ops op with
  | none => s
  | some o =>
    if regionOf pa = .ext then
      let s := modOp s op fun o => { o with ranges := o.ranges.map (loseBytes pa n) }
      if timeout then report s (.linkError (dieOfCore o.core)) else s
    else s

/-- The completion of a write to an X page fails: the scheduler core of the writer's die hears of it (R175, R268;
log 45). -/
def failWrite (s : State) (die : Nat) : State := report s (.poisonMet die)

end Sys2Proof.Machine
end

