-- ==== Sys2Proof/Machine/Dispatch.lean ====
section
/-! DEFINITION. One arm per constructor of Instr, each one direct call of its meaning. -/

namespace Sys2Proof.Machine

/-- What an instruction or an event does. An instruction acts for the thread that `State.cur` names. -/
def exec (i : Instr) (s : State) : Host.Outcome State Fault Refusal :=
  match i with
  | .nop o => Sys2Proof.Machine.execNop o s
  | .br o => Sys2Proof.Machine.execBr o s
  | .bany o => Sys2Proof.Machine.execBany o s
  | .ball o => Sys2Proof.Machine.execBall o s
  | .bnone o => Sys2Proof.Machine.execBnone o s
  | .jmpi o => Sys2Proof.Machine.execJmpi o s
  | .call o => Sys2Proof.Machine.execCall o s
  | .calli o => Sys2Proof.Machine.execCalli o s
  | .ret o => Sys2Proof.Machine.execRet o s
  | .exit o => Sys2Proof.Machine.execExit o s
  | .yield o => Sys2Proof.Machine.execYield o s
  | .iadd o => Sys2Proof.Machine.execIadd o s
  | .iadd3 o => Sys2Proof.Machine.execIadd3 o s
  | .iaddc o => Sys2Proof.Machine.execIaddc o s
  | .isub o => Sys2Proof.Machine.execIsub o s
  | .imul o => Sys2Proof.Machine.execImul o s
  | .imulh o => Sys2Proof.Machine.execImulh o s
  | .imad o => Sys2Proof.Machine.execImad o s
  | .imadw o => Sys2Proof.Machine.execImadw o s
  | .idiv o => Sys2Proof.Machine.execIdiv o s
  | .irem o => Sys2Proof.Machine.execIrem o s
  | .imin o => Sys2Proof.Machine.execImin o s
  | .imax o => Sys2Proof.Machine.execImax o s
  | .iabs o => Sys2Proof.Machine.execIabs o s
  | .ineg o => Sys2Proof.Machine.execIneg o s
  | .icmp cc o => Sys2Proof.Machine.execIcmp cc o s
  | .and o => Sys2Proof.Machine.execAnd o s
  | .or o => Sys2Proof.Machine.execOr o s
  | .xor o => Sys2Proof.Machine.execXor o s
  | .andn o => Sys2Proof.Machine.execAndn o s
  | .not o => Sys2Proof.Machine.execNot o s
  | .shl o => Sys2Proof.Machine.execShl o s
  | .shr o => Sys2Proof.Machine.execShr o s
  | .shra o => Sys2Proof.Machine.execShra o s
  | .rol o => Sys2Proof.Machine.execRol o s
  | .ror o => Sys2Proof.Machine.execRor o s
  | .bfe o => Sys2Proof.Machine.execBfe o s
  | .bfi o => Sys2Proof.Machine.execBfi o s
  | .popc o => Sys2Proof.Machine.execPopc o s
  | .clz o => Sys2Proof.Machine.execClz o s
  | .ctz o => Sys2Proof.Machine.execCtz o s
  | .brev o => Sys2Proof.Machine.execBrev o s
  | .perm o => Sys2Proof.Machine.execPerm o s
  | .lea o => Sys2Proof.Machine.execLea o s
  | .idot4 o => Sys2Proof.Machine.execIdot4 o s
  | .mov o => Sys2Proof.Machine.execMov o s
  | .isel o => Sys2Proof.Machine.execIsel o s
  | .pset o => Sys2Proof.Machine.execPset o s
  | .pmov o => Sys2Proof.Machine.execPmov o s
  | .movs o => Sys2Proof.Machine.execMovs o s
  | .xset o => Sys2Proof.Machine.execXset o s
  | .xsetAdd o => Sys2Proof.Machine.execXsetAdd o s
  | .xget o => Sys2Proof.Machine.execXget o s
  | .fadd o => Sys2Proof.Machine.execFadd o s
  | .fsub o => Sys2Proof.Machine.execFsub o s
  | .fmul o => Sys2Proof.Machine.execFmul o s
  | .ffma o => Sys2Proof.Machine.execFfma o s
  | .fscale o => Sys2Proof.Machine.execFscale o s
  | .fmin o => Sys2Proof.Machine.execFmin o s
  | .fmax o => Sys2Proof.Machine.execFmax o s
  | .fminn o => Sys2Proof.Machine.execFminn o s
  | .fmaxn o => Sys2Proof.Machine.execFmaxn o s
  | .fcmp cc o => Sys2Proof.Machine.execFcmp cc o s
  | .fclass o => Sys2Proof.Machine.execFclass o s
  | .frnd o => Sys2Proof.Machine.execFrnd o s
  | .padd2 o => Sys2Proof.Machine.execPadd2 o s
  | .pmul2 o => Sys2Proof.Machine.execPmul2 o s
  | .pfma2 o => Sys2Proof.Machine.execPfma2 o s
  | .pdot2 o => Sys2Proof.Machine.execPdot2 o s
  | .frcp o => Sys2Proof.Machine.execFrcp o s
  | .frsq o => Sys2Proof.Machine.execFrsq o s
  | .fsqrt o => Sys2Proof.Machine.execFsqrt o s
  | .fdiv o => Sys2Proof.Machine.execFdiv o s
  | .fexp2 o => Sys2Proof.Machine.execFexp2 o s
  | .flog2 o => Sys2Proof.Machine.execFlog2 o s
  | .fsin o => Sys2Proof.Machine.execFsin o s
  | .fcos o => Sys2Proof.Machine.execFcos o s
  | .ftanh o => Sys2Proof.Machine.execFtanh o s
  | .sfuResultWrite grp gi => Sys2Proof.Machine.execSfuResultWrite grp gi s
  | .cvt o => Sys2Proof.Machine.execCvt o s
  | .cvpk o => Sys2Proof.Machine.execCvpk o s
  | .cvq8 o => Sys2Proof.Machine.execCvq8 o s
  | .dq o => Sys2Proof.Machine.execDq o s
  | .rnd o => Sys2Proof.Machine.execRnd o s
  | .jnew o => Sys2Proof.Machine.execJnew o s
  | .jent o => Sys2Proof.Machine.execJent o s
  | .jquit o => Sys2Proof.Machine.execJquit o s
  | .jwait o => Sys2Proof.Machine.execJwait o s
  | .jinfo o => Sys2Proof.Machine.execJinfo o s
  | .vote op o => Sys2Proof.Machine.execVote op o s
  | .shfl op o => Sys2Proof.Machine.execShfl op o s
  | .matchLanes op o => Sys2Proof.Machine.execMatchLanes op o s
  | .rduc op o => Sys2Proof.Machine.execRduc op o s
  | .scan op o => Sys2Proof.Machine.execScan op o s
  | .ld o => Sys2Proof.Machine.execLd o s
  | .st o => Sys2Proof.Machine.execSt o s
  | .pref o => Sys2Proof.Machine.execPref o s
  | .ldsp o => Sys2Proof.Machine.execLdsp o s
  | .stsp o => Sys2Proof.Machine.execStsp o s
  | .cbrd o => Sys2Proof.Machine.execCbrd o s
  | .cbwr o => Sys2Proof.Machine.execCbwr o s
  | .bkcfg mode o => Sys2Proof.Machine.execBkcfg mode o s
  | .bkcfgPhys mode o => Sys2Proof.Machine.execBkcfgPhys mode o s
  | .waitc o => Sys2Proof.Machine.execWaitc o s
  | .accessQueuePerform core => Sys2Proof.Machine.execAccessQueuePerform core s
  | .strictAccessPerformed grp gi => Sys2Proof.Machine.execStrictAccessPerformed grp gi s
  | .invalidationAck line who => Sys2Proof.Machine.execInvalidationAck line who s
  | .annealDrain core granule => Sys2Proof.Machine.execAnnealDrain core granule s
  | .annealAck granule who => Sys2Proof.Machine.execAnnealAck granule who s
  | .bankServe cluster bank => Sys2Proof.Machine.execBankServe cluster bank s
  | .atom op o => Sys2Proof.Machine.execAtom op o s
  | .atomn op o => Sys2Proof.Machine.execAtomn op o s
  | .acas o => Sys2Proof.Machine.execAcas o s
  | .acas2 o => Sys2Proof.Machine.execAcas2 o s
  | .ldrsv o => Sys2Proof.Machine.execLdrsv o s
  | .stcnd o => Sys2Proof.Machine.execStcnd o s
  | .axadd o => Sys2Proof.Machine.execAxadd o s
  | .axrd o => Sys2Proof.Machine.execAxrd o s
  | .amaxi o => Sys2Proof.Machine.execAmaxi o s
  | .satom op o => Sys2Proof.Machine.execSatom op o s
  | .sacas o => Sys2Proof.Machine.execSacas o s
  | .bzaloc o => Sys2Proof.Machine.execBzaloc o s
  | .bzld part o => Sys2Proof.Machine.execBzld part o s
  | .bzfree o => Sys2Proof.Machine.execBzfree o s
  | .mmaLb o => Sys2Proof.Machine.execMmaLb o s
  | .mmaBb o => Sys2Proof.Machine.execMmaBb o s
  | .macz o => Sys2Proof.Machine.execMacz o s
  | .maczRel o => Sys2Proof.Machine.execMaczRel o s
  | .mrd o => Sys2Proof.Machine.execMrd o s
  | .mst o => Sys2Proof.Machine.execMst o s
  | .amxrd o => Sys2Proof.Machine.execAmxrd o s
  | .amxclr o => Sys2Proof.Machine.execAmxclr o s
  | .mstat o => Sys2Proof.Machine.execMstat o s
  | .engineOpBegin op => Sys2Proof.Machine.execEngineOpBegin op s
  | .matrixPass cluster => Sys2Proof.Machine.execMatrixPass cluster s
  | .matrixOpFinish op => Sys2Proof.Machine.execMatrixOpFinish op s
  | .cpy o => Sys2Proof.Machine.execCpy o s
  | .cpy2d o => Sys2Proof.Machine.execCpy2d o s
  | .cpyg o => Sys2Proof.Machine.execCpyg o s
  | .cpys o => Sys2Proof.Machine.execCpys o s
  | .cpycb o => Sys2Proof.Machine.execCpycb o s
  | .ladleCopyBegin op => Sys2Proof.Machine.execLadleCopyBegin op s
  | .copyFinish op => Sys2Proof.Machine.execCopyFinish op s
  | .tkwait o => Sys2Proof.Machine.execTkwait o s
  | .tktest o => Sys2Proof.Machine.execTktest o s
  | .tkdrop o => Sys2Proof.Machine.execTkdrop o s
  | .chain o => Sys2Proof.Machine.execChain o s
  | .chainSweepFinish op => Sys2Proof.Machine.execChainSweepFinish op s
  | .spk24 o => Sys2Proof.Machine.execSpk24 o s
  | .spk24ResultWrite grp gi => Sys2Proof.Machine.execSpk24ResultWrite grp gi s
  | .shld o => Sys2Proof.Machine.execShld o s
  | .shst o => Sys2Proof.Machine.execShst o s
  | .shset o => Sys2Proof.Machine.execShset o s
  | .shget o => Sys2Proof.Machine.execShget o s
  | .lnch o => Sys2Proof.Machine.execLnch o s
  | .graph o => Sys2Proof.Machine.execGraph o s
  | .gwait o => Sys2Proof.Machine.execGwait o s
  | .gcan o => Sys2Proof.Machine.execGcan o s
  | .gstat o => Sys2Proof.Machine.execGstat o s
  | .wid o => Sys2Proof.Machine.execWid o s
  | .gridJoin part die => Sys2Proof.Machine.execGridJoin part die s
  | .rangeRequest grid die => Sys2Proof.Machine.execRangeRequest grid die s
  | .gangPlace die => Sys2Proof.Machine.execGangPlace die s
  | .dieReport grid die => Sys2Proof.Machine.execDieReport grid die s
  | .spanAck grid module => Sys2Proof.Machine.execSpanAck grid module s
  | .spanAckTimeout grid => Sys2Proof.Machine.execSpanAckTimeout grid s
  | .spanCancel grid => Sys2Proof.Machine.execSpanCancel grid s
  | .trap o => Sys2Proof.Machine.execTrap o s
  | .tret o => Sys2Proof.Machine.execTret o s
  | .uiack o => Sys2Proof.Machine.execUiack o s
  | .clk o => Sys2Proof.Machine.execClk o s
  | .idphys o => Sys2Proof.Machine.execIdphys o s
  | .mss o => Sys2Proof.Machine.execMss o s
  | .tstickyClear o => Sys2Proof.Machine.execTstickyClear o s
  | .uiraise o => Sys2Proof.Machine.execUiraise o s
  | .svwait o => Sys2Proof.Machine.execSvwait o s
  | .svwake o => Sys2Proof.Machine.execSvwake o s
  | .ctxsv o => Sys2Proof.Machine.execCtxsv o s
  | .ctxld o => Sys2Proof.Machine.execCtxld o s
  | .tlbinvPage o => Sys2Proof.Machine.execTlbinvPage o s
  | .tlbinvPasid o => Sys2Proof.Machine.execTlbinvPasid o s
  | .tlbinvAll o => Sys2Proof.Machine.execTlbinvAll o s
  | .pasidset o => Sys2Proof.Machine.execPasidset o s
  | .aclsClear o => Sys2Proof.Machine.execAclsClear o s
  | .cacheopClean o => Sys2Proof.Machine.execCacheopClean o s
  | .cacheopInv o => Sys2Proof.Machine.execCacheopInv o s
  | .cacheopFlush o => Sys2Proof.Machine.execCacheopFlush o s
  | .halt o => Sys2Proof.Machine.execHalt o s
  | .haltGo o => Sys2Proof.Machine.execHaltGo o s
  | .haltTerm o => Sys2Proof.Machine.execHaltTerm o s
  | .gangStopComplete gang => Sys2Proof.Machine.execGangStopComplete gang s
  | .planisherSelect core => Sys2Proof.Machine.execPlanisherSelect core s
  | .lineRefetch core => Sys2Proof.Machine.execLineRefetch core s
  | .orphanSet grp => Sys2Proof.Machine.execOrphanSet grp s
  | .walkStart die => Sys2Proof.Machine.execWalkStart die s
  | .walkComplete die walker => Sys2Proof.Machine.execWalkComplete die walker s
  | .faultRingAppend die => Sys2Proof.Machine.execFaultRingAppend die s
  | .qnotify die queue value => Sys2Proof.Machine.execQnotify die queue value s
  | .notifyRelease die queue => Sys2Proof.Machine.execNotifyRelease die queue s
  | .launch die queue => Sys2Proof.Machine.execLaunch die queue s
  | .ringGraph die queue => Sys2Proof.Machine.execRingGraph die queue s
  | .cancel die queue => Sys2Proof.Machine.execCancel die queue s
  | .wait die queue => Sys2Proof.Machine.execWait die queue s
  | .interrupt die queue => Sys2Proof.Machine.execInterrupt die queue s
  | .ringBadOpcode die queue => Sys2Proof.Machine.execRingBadOpcode die queue s
  | .msixSend value => Sys2Proof.Machine.execMsixSend value s
  | .msixDeliver vector => Sys2Proof.Machine.execMsixDeliver vector s
  | .errStatusClear die value => Sys2Proof.Machine.execErrStatusClear die value s
  | .fwAperture off bytes => Sys2Proof.Machine.execFwAperture off bytes s
  | .lock => Sys2Proof.Machine.execLock s
  | .bootVerifyComplete die => Sys2Proof.Machine.execBootVerifyComplete die s
  | .partLock => Sys2Proof.Machine.execPartLock s
  | .pwrLimit value => Sys2Proof.Machine.execPwrLimit value s
  | .hallmarkExtend digest => Sys2Proof.Machine.execHallmarkExtend digest s
  | .registerWrite off value => Sys2Proof.Machine.execRegisterWrite off value s
  | .getVersion => Sys2Proof.Machine.execGetVersion s
  | .getCapabilities => Sys2Proof.Machine.execGetCapabilities s
  | .negotiateAlgorithms => Sys2Proof.Machine.execNegotiateAlgorithms s
  | .getDigests => Sys2Proof.Machine.execGetDigests s
  | .getCertificate => Sys2Proof.Machine.execGetCertificate s
  | .challenge nonce => Sys2Proof.Machine.execChallenge nonce s
  | .getMeasurements block => Sys2Proof.Machine.execGetMeasurements block s
  | .spdmUnsupportedRequest code => Sys2Proof.Machine.execSpdmUnsupportedRequest code s
  | .conventionalReset => Sys2Proof.Machine.execConventionalReset s
  | .powerAverage watts => Sys2Proof.Machine.execPowerAverage watts s
  | .temperatureAlarm die degrees => Sys2Proof.Machine.execTemperatureAlarm die degrees s
  | .alarmClear => Sys2Proof.Machine.execAlarmClear s
  | .thermalTrip die degrees => Sys2Proof.Machine.execThermalTrip die degrees s
  | .correctedError unit => Sys2Proof.Machine.execCorrectedError unit s
  | .correctedWindowExpiry unit => Sys2Proof.Machine.execCorrectedWindowExpiry unit s
  | .uncorrectableError place => Sys2Proof.Machine.execUncorrectableError place s
  | .schedulerCoreRecovery die => Sys2Proof.Machine.execSchedulerCoreRecovery die s
  | .xCompletion grp gi reply => Sys2Proof.Machine.execXCompletion grp gi reply s
  | .completionTimeout grp gi => Sys2Proof.Machine.execCompletionTimeout grp gi s
  | .linkDown port => Sys2Proof.Machine.execLinkDown port s
  | .linkL0Change port up => Sys2Proof.Machine.execLinkL0Change port up s
  | .hostSnoop page => Sys2Proof.Machine.execHostSnoop page s
  | .peerReclaim page => Sys2Proof.Machine.execPeerReclaim page s
  | .pageHandoverComplete page => Sys2Proof.Machine.execPageHandoverComplete page s
  | .hostCxlAccess acc => Sys2Proof.Machine.execHostCxlAccess acc s
  | .peerAccess module acc => Sys2Proof.Machine.execPeerAccess module acc s
  | .hostMemoryAccess acc => Sys2Proof.Machine.execHostMemoryAccess acc s
  | .peerPageReturn page => Sys2Proof.Machine.execPeerPageReturn page s

end Sys2Proof.Machine
end

