-- ==== Sys2Proof/Machine/Place.lean ====
section
/-! DEFINITION. A state whose next step issues a given instruction (log 2): one thread of a grid of its own,
or of a scheduler core where the instruction is privileged, in a running stream at a line that holds the
instruction in slot 0 and `NOP`s after it. -/

namespace Sys2Proof.Machine

/-- Where the line stands: physical and virtual address alike. -/
def placeAddr : Nat := 0x10000

/-- The line word of a line with `w` in slot 0 and `NOP`s in the others, every slot marked as an entry
(R24, R25). -/
def placeLineWord (w : Nat) : Nat :=
  let odd := popcN 96 w % 2
  31 + 32 * odd + 2 ^ 30 * odd + 2 ^ 31

/-- The 64 bytes of that line. -/
def placeLine (w : Nat) : List Byte := bytesLE 12 w ++ List.replicate 48 0 ++ bytesLE 4 (placeLineWord w)

/-- The page of the line. -/
def placeLeaf : Leaf :=
  { base := placeAddr, bits := 16, ty := .n, r := true, w := true, ex := true, global := true, bias := false,
    forceS := false, pin := true }

/-- The instruction is privileged. -/
def placePriv (w : Nat) : Bool :=
  match decode (BitVec.ofNat 96 w) with
  | .ok i => match form i with
    | some (_, f) => needsPriv i f
    | none => false
  | .error _ => false

/-- The header of a grid of one thread that starts at the line (Table 15-1). -/
def placeHeader : Shape :=
  BitVec.ofNat 512 (placeAddr + (List.range 6).foldl (fun n i => n + 2 ^ (192 + 32 * i)) 0 +
    2 ^ 420 + 240 * 2 ^ 432 + 16 * 2 ^ 463 + 2 ^ 468 + 2 ^ 471 + 2 ^ 478)

/-- The group, with its one thread about to issue. -/
def placeGroup (gang core : Nat) : Group :=
  { gang := gang, gcount := 240, nsets := 16, core := core, turns := [0],
    shapes := mset 0 [] 0 placeHeader,
    threads := [{ pc := BitVec.ofNat 64 placeAddr, run := .issuing }] }

/-- The stream of that thread. -/
def placeStream (grp : Nat) : Stream :=
  { grp := grp, pc := BitVec.ofNat 64 placeAddr, slot := none, todo := [[0]], cont := [], part := [],
    snap := [], rest := [], lines := [] }

/-- Die 0 in partition 0, if it is in none, and the scheduler core for a privileged instruction. -/
def placeDie (s : State) (priv : Bool) : State :=
  let s := if (partOfDie s 0).isNone then modPart s 0 fun p => { p with dies := p.dies ||| 1 } else s
  if priv && (getDie s 0).sched.isNone then modDie s 0 fun d => { d with sched := some 0 } else s

/-- The core that issues: the scheduler core, or one beside it. -/
def placeCore (s : State) (priv : Bool) : Nat :=
  match (getDie s 0).sched with
  | none => 1
  | some c => if priv then c else if c = 1 then 2 else 1

/-- The line is stored and can be fetched by the core. -/
def placeCode (s : State) (core w : Nat) : State :=
  let s := { s with mem := writeMem s.mem placeAddr (placeLine w) }
  let e : TlbEntry := { pasid := none, vpn := 1, leaf := placeLeaf }
  modCore s core fun c => { c with tlb := e :: c.tlb, icache := mdel c.icache (placeAddr / 64) }

/-- The state with that instruction about to issue. -/
def placeWord (s : State) (w : Nat) : State :=
  let priv := placePriv w
  let s := placeDie s priv
  let core := placeCore s priv
  let (grid, s) := freshId s
  let (k, s) := freshId s
  let (g, s) := freshId s
  let gang : Gang := { grid := grid, cluster := clusterOfCore core, core0 := core, groups := [g] }
  let part := (partOfDie s 0).getD 0
  let rec0 : Grid := { hdr := placeHeader, event := 0, part := part, pasid := 0, slot := 0, state := .running,
                       nextRange := 1, gangsRun := 1 }
  let s := if priv then s else { s with grids := mput s.grids grid rec0 }
  let s := { s with gangs := mput s.gangs k gang, groups := mput s.groups g (placeGroup k core) }
  let s := placeCode s core w
  let s := modCore s core fun c => { c with stream := some (placeStream g) }
  { s with agenda := .core core :: s.agenda }

end Sys2Proof.Machine
end

