-- ==== Sys2Proof/Machine/Step.lean ====
section
/-! DEFINITION. One step of the machine, and a state whose next step runs a given instruction. -/

namespace Sys2Proof.Machine

/-- A message of another module's root comes over the fabric (R341). -/
def overFabric (s : State) (f : State → State) : State := if fabricDown s then s else f s

/-- One turn. Only events stand on the agenda by name: an instruction is issued by its core, and an event whose
port is down does not come. -/
def runTurn (x : Turn) (s : State) : Host.Outcome State Fault Refusal :=
  match x with
  | .core c => coreTurn exec c s
  | .event i => if (form i).isNone && mayOccur s i then exec i s else .next s
  | .evict core va => .next (evictPage s core va)
  | .upset core line bits => .next (upsetLine s core line bits)
  | .remap lo n => .next (remapPages s lo n)
  | .join part modules => .next (joinDomain s part modules)
  | .farGrid part module pasid hdr h => .next (overFabric s fun s => joinFar s part module pasid hdr h)
  | .farStart grid die => .next (overFabric s fun s => farStart s grid die)
  | .farRange grid range => .next (overFabric s fun s => grantFar s grid range)
  | .farRaise grid cause => .next (overFabric s fun s => farRaise s grid cause)
  | .farShut part module dies => .next (overFabric s fun s => farShut s part module dies)
  | .farWant part module wants => .next (overFabric s fun s => farWant s part module wants)
  | .engineStep op => .next (engineStep s op)
  | .coreFail core => .next (failCore s core)
  | .readFail op pa n timeout => .next (failRead s op pa n timeout)
  | .writeFail die => .next (failWrite s die)

/-- One step: the head of the agenda, or what the machine is ready to do, and all that follows of itself. -/
def step (s : State) : Host.Outcome State Fault Refusal :=
  let r := match nextTurn s with
    | some x => runTurn x { s with agenda := s.agenda.drop 1, ticks := s.ticks + 1 }
    | none => .next { s with ticks := s.ticks + 1 }
  match r with
  | .next s => .next (settle s)
  | .fault f => .fault f
  | .refused x => .refused x

/-- `s` with an instruction stored where the next step fetches it (`placeWord`). -/
def State.withFetchWord (s : State) (nbits w : Nat) : State := placeWord s (w % 2 ^ nbits)

end Sys2Proof.Machine
end

