-- ==== Sys2Proof/Safety.lean ====
section
/-! DEFINITION. What counts as a safe run, and the hypotheses in which claims are stated. -/

namespace Sys2Proof.Machine

/-- The outcome is a next state. -/
def Answers (r : Host.Outcome State Fault Refusal) : Prop := ∃ s, r = .next s

/-- The machine goes on: its next step neither faults nor is refused. -/
def Safe (s : State) : Prop := Answers (step s)

/-- The memory is in its canonical form. -/
def MemInv (s : State) : Prop := Memory.wf s.mem = true

/-- The issuing thread, where an instruction reaches its own effect: a thread is issuing, the instruction is
legal for it, it may run it, its guard is true, its indexed operands are in bounds, and no register that it
names is awaited or, as a source, poisoned (R35, R37, R40, R41, R51, R159, R175). -/
def ctxAt (i : Instr) (s : State) : Option Ctx :=
  match s.cur, form i with
  | some c, some (o, f) =>
    if legalHere s c.tid i o f && !(needsPriv i f && !isPriv s c.tid) && guardTrue s c.tid o.guard then
      match resolveOps (getThread s c.tid) f o with
      | .ok o =>
        if (awaitedCodes s c.tid o f).isEmpty && (poisonSource s c.tid o f).isNone then
          some { t := c.tid, o := o, f := f, snap := c.snap }
        else none
      | .error _ => none
    else none
  | _, _ => none

/-- A well-formed instruction acts here: it reaches its own effect as `cx`, for a thread that exists. -/
structure Acts (i : Instr) (s : State) (cx : Ctx) : Prop where
  well : wellFormed i = true
  at_ctx : ctxAt i s = some cx
  thread : cx.t.gi < (threadGroup s cx.t).threads.length

/-- The same for an arrival at a rejoin set, which has passed its membership checks (R115). -/
structure Arrives (i : Instr) (s : State) (cx : Ctx) : Prop extends Acts i s cx where
  member : arriveCheck s cx.t cx.o = none

/-- The state at an instruction's effect: the issue has been counted for the reservation (R214). -/
def issued (i : Instr) (s : State) (t : Tid) : State := countIssue s t (isResv i)

/-- Instructions that arrive at a rejoin set and check it before their operands (R115). -/
def isArrival (i : Instr) : Bool :=
  match i with
  | .bany _ | .ball _ | .bnone _ | .jwait _ | .vote _ _ | .shfl _ _ | .matchLanes _ _ | .rduc _ _ | .scan _ _ => true
  | _ => false

/-- Instruction `i`, with fields `o` and format `f`, issues for thread `t` and passes the checks of encoding,
mode and guard, and those of an arrival (R51 items 1 to 3, R115). -/
structure Issues (i : Instr) (s : State) (t : Tid) (o : Ops) (f : Fmt) : Prop where
  cur : ∃ snap, s.cur = some { tid := t, snap := snap }
  form : form i = some (o, f)
  legal : legalHere s t i o f = true
  priv : needsPriv i f = true → isPriv s t = true
  guard : guardTrue s t o.guard = true
  arrival : isArrival i = true → arriveCheck s t o = none

/-! ## One turn of a core -/

/-- The state at the fetch of the first thread of a stream's pack, on the core's turn. -/
def atFetch (s : State) (core : Nat) (st : Stream) (t : Tid) : State :=
  modThread (takeFirst { s with agenda := s.agenda.drop 1, ticks := s.ticks + 1 } core) t fun th =>
    { th with checkTvec := false, pc := st.pc }

/-- The state at the execution of that thread's instruction, past its fetch. -/
def atIssue (s : State) (t : Tid) (snap : NMap Word) : State :=
  { modThread s t fun th => { th with checkEntry := false } with cur := some { tid := t, snap := snap } }

/-- The stream after the thread's issue: the thread stays with its pack, or has left it (R75). -/
def afterIssue (u : State) (core : Nat) (t : Tid) : State :=
  let u := forgetWalks { u with cur := none } t
  streamOn (if stays u t then
      modCore u core fun c =>
        { c with stream := c.stream.map fun x => { x with part := x.part ++ [t.gi] } }
    else u) core

/-! ## Integers as the spec reads them -/

/-- The width of an integer type: 32 or 64 bits (R92). -/
def bitsWide (ty : Ty) : Nat := 32 * tw ty

/-- A register value of a type, as a bit vector. -/
def asVec (ty : Ty) (v : Nat) : BitVec (bitsWide ty) := BitVec.ofNat (bitsWide ty) v

/-- A register value read signed for `.i` types and unsigned for `.n` types (R92). -/
def num (ty : Ty) (v : Nat) : Int := if isSigned ty then (asVec ty v).toInt else (asVec ty v).toNat

/-- An exact integer, wrapped to the width (R92). -/
def wrapped (ty : Ty) (x : Int) : Nat := (BitVec.ofInt (bitsWide ty) x).toNat

/-- The least and the greatest value of a type (R92). -/
def leastOf (ty : Ty) : Int := if isSigned ty then -2 ^ (bitsWide ty - 1) else 0
def greatestOf (ty : Ty) : Int := if isSigned ty then 2 ^ (bitsWide ty - 1) - 1 else 2 ^ bitsWide ty - 1

/-- An exact integer as R92 forms the result: clamped under `.sat` (MOD bit 3), wrapped otherwise. -/
def formed (o : Ops) (x : Int) : Nat :=
  wrapped o.ty (if o.mod.getLsbD 3 then max (leastOf o.ty) (min (greatestOf o.ty) x) else x)

/-- Byte `i` of a word as a number, signed or not (R98). -/
def byteNum (signed : Bool) (v i : Nat) : Int :=
  if signed then (BitVec.ofNat 8 (v / 2 ^ (8 * i))).toInt else (BitVec.ofNat 8 (v / 2 ^ (8 * i))).toNat

/-- POS and LEN of a bit-field control word, LEN cut to the width (R100). -/
def fieldPos (ctl : Nat) : Nat := ctl % 256
def fieldLen (ty : Ty) (ctl : Nat) : Nat := min (ctl / 256 % 256) (bitsWide ty)

/-- One byte of `PERM`: source byte `q % 8` of the eight, or eight copies of its top bit (R102). -/
def permutedByte (a b : Nat) (q : Nat) : BitVec 8 :=
  let x := (BitVec.ofNat 32 b ++ BitVec.ofNat 32 a).extractLsb' (8 * (q % 8)) 8
  if q < 8 then x else if x.msb then 0xFF else 0

/-! ## What an instruction leaves behind -/

/-- A register by code: the thread's own, or a scalar of its group. -/
def regOf (s : State) (t : Tid) (code : Nat) : Word :=
  if code < 256 then mget 0 (getThread s t).regs code else mget 0 (threadGroup s t).scal (code - 256)

/-- The value `v` stands in a destination, clean of poison marks (R37, R38, R175). One that discards holds
nothing. -/
def Holds (u : State) (t : Tid) (d : Dest) (v : Nat) : Prop :=
  match d with
  | .none => True
  | .reg code w =>
    ∀ k, k < w → regOf u t (code + k) = BitVec.ofNat 32 (v / 2 ^ (32 * k)) ∧ markOf u t (code + k) = none
  | .pred n => readPred u t n = (decide (7 ≤ n) || decide (v % 2 = 1))
  | .shape n => readShape u t n = BitVec.ofNat 512 v ∧ mfind (threadGroup u t).shpoison n = none

/-- The instruction answers a next state with `v` in its destination, and its thread at the next slot. -/
def Gives (i : Instr) (s : State) (cx : Ctx) (v : Nat) : Prop :=
  ∃ u, exec i s = .next u ∧ Holds u cx.t cx.dst v ∧ (getThread u cx.t).pc = nextPc (getThread s cx.t).pc

/-- Everything that is not the thread's destination, its predicates apart: the rest of the machine, the other groups,
the rest of the group, the other threads, and the other registers and shape registers. -/
structure Framed (s u : State) (t : Tid) (d : Dest) : Prop where
  machine : u = { s with groups := u.groups }
  groups : ∀ k, k ≠ t.grp → getGroup u k = getGroup s k
  group : threadGroup u t =
    { threadGroup s t with threads := (threadGroup u t).threads, scal := (threadGroup u t).scal,
                           spoison := (threadGroup u t).spoison, shapes := (threadGroup u t).shapes,
                           shpoison := (threadGroup u t).shpoison }
  others : ∀ v, v ≠ t → getThread u v = getThread s v
  regs : ∀ c, destHas d c = false → regOf u t c = regOf s t c ∧ markOf u t c = markOf s t c
  shapes : ∀ n, d ≠ .shape n →
    readShape u t n = readShape s t n ∧ mfind (threadGroup u t).shpoison n = mfind (threadGroup s t).shpoison n

/-- The same with the predicates: every one but a destination is as it was. -/
structure Untouched (s u : State) (t : Tid) (d : Dest) : Prop extends Framed s u t d where
  preds : ∀ n, d ≠ .pred n → readPred u t n = readPred s t n

/-- The thread's other state: only registers, marks, predicates, PC, the reservation's issue count and, where
`flags` says so, FSTAT differ. -/
def SameThread (flags : Bool) (a b : Thread) : Prop :=
  b = { a with regs := b.regs, rpoison := b.rpoison, preds := b.preds, pc := b.pc, sinceRsv := b.sinceRsv,
               counted := b.counted, fstat := if flags then b.fstat else a.fstat }

/-- Instructions whose whole effect is the value in their destination (R92 to R108, R119, R264, R273, R293,
R296). -/
def registerOnly (i : Instr) : Bool :=
  match i with
  | .iadd _ | .iadd3 _ | .isub _ | .imul _ | .imulh _ | .imad _ | .imadw _ | .idiv _ | .irem _ | .imin _ | .imax _
  | .iabs _ | .ineg _ | .icmp _ _ | .and _ | .or _ | .xor _ | .andn _ | .not _ | .shl _ | .shr _ | .shra _
  | .rol _ | .ror _ | .bfe _ | .bfi _ | .popc _ | .clz _ | .ctz _ | .brev _ | .perm _ | .lea _ | .idot4 _
  | .nop _ | .mov _ | .isel _ | .pset _ | .pmov _ | .xget _ | .fclass _ | .jinfo _ | .tktest _ | .shget _ | .gstat _
  | .wid _ => true
  | _ => false

/-- Floating-point instructions that write a destination and join flags to FSTAT (R137, R142 to R154). -/
def floatOnly (i : Instr) : Bool :=
  match i with
  | .fadd _ | .fsub _ | .fmul _ | .ffma _ | .fscale _ | .fmin _ | .fmax _ | .fminn _ | .fmaxn _ | .fcmp _ _
  | .frnd _ | .padd2 _ | .pmul2 _ | .pfma2 _ | .pdot2 _ | .cvt _ | .cvpk _ | .cvq8 _ | .dq _ => true
  | _ => false

/-! ## Floating-point results -/

/-- Canonical NaNs, Table 5-1 (R134). -/
def canonNaN (ty : Ty) : Nat :=
  match ty with
  | .f64 => 0x7FF8000000000000
  | .f16 => 0x7E00
  | .bf16 => 0x7FC0
  | .e4m3 => 0x7F
  | .e5m2 => 0x7E
  | .f32 | .n8 | .n16 | .n32 | .n64 | .i8 | .i16 | .i32 | .i64 | .e2m1 | .b128 => 0x7FC00000

/-- The exponent field of a floating-point value (Table 5-1, R145). -/
def expOf (ty : Ty) (v : Nat) : Nat :=
  match ty with
  | .f64 => v / 2 ^ 52 % 2 ^ 11
  | .f16 => v / 2 ^ 10 % 2 ^ 5
  | .bf16 => v / 2 ^ 7 % 2 ^ 8
  | .e4m3 => v / 2 ^ 3 % 2 ^ 4
  | .e5m2 => v / 2 ^ 2 % 2 ^ 5
  | .e2m1 => v / 2 % 2 ^ 2
  | .f32 | .n8 | .n16 | .n32 | .n64 | .i8 | .i16 | .i32 | .i64 | .b128 => v / 2 ^ 23 % 2 ^ 8

/-- The instruction answers a next state with a value in its destination and its flags joined to FSTAT. -/
def GivesF (i : Instr) (s : State) (cx : Ctx) (r : Nat × Flags) : Prop :=
  ∃ u, exec i s = .next u ∧ Holds u cx.t cx.dst r.1 ∧
    (getThread u cx.t).fstat = Flags.join (getThread s cx.t).fstat r.2 ∧
    (getThread u cx.t).pc = nextPc (getThread s cx.t).pc

/-- The instruction starts a unit that will write its destination later: the thread goes on, with nothing
written yet (R137, R148, R277). -/
def Starts (i : Instr) (s : State) (cx : Ctx) (r : Nat × Flags) (spk : Bool) : Prop :=
  ∃ u, exec i s = .next u ∧
    getThread u cx.t = { getThread (issued i s cx.t) cx.t with
      late := (getThread s cx.t).late ++
        [{ dst := cx.dst, value := BitVec.ofNat 64 r.1, flags := r.2, spk := spk }]
      pc := nextPc (getThread s cx.t).pc, counted := false }

/-! ## Control -/

/-- The destination that IMM names from a slot: the slot's line plus the signed line offset, and the slot
number (R46). -/
def branchTo (pc : DWord) (imm : Word) : DWord :=
  BitVec.ofInt 64 (((pc.toNat / 64 * 64 : Nat) : Int) + imm.toInt / 8 * 64 + ((imm.toNat % 8 : Nat) : Int))

/-- A transfer's fetch of its destination needs a walk first (R328, R330). -/
def misses (s : State) (t : Tid) (dest : DWord) : Bool := slotForm dest && fetchMiss s t (lineOf dest)

/-- A code pointer passes the checks of a transfer, which leave the state `u` (R28, R45). -/
def Passes (s : State) (t : Tid) (dest : DWord) (u : State) : Prop :=
  fetchStopped s t = false ∧ misses s t dest = false ∧ checkDest s t dest = (none, u)

/-- Neither a CANCEL nor a user interrupt is to be taken at the thread's next block end (R310). -/
def nonePending (s : State) (t : Tid) : Bool :=
  let th := getThread s t
  th.inTrap || (!th.cancelPend && !th.uiPend)

/-- The thread may go on: it is issuing or parked, not held or done. -/
def goesOn (s : State) (t : Tid) : Bool :=
  match (getThread s t).run with
  | .ready | .issuing | .parked _ => true
  | .held _ | .done => false

/-- The thread waits at a code pointer: READY, its bit set in its core's block table, or on the overflow list
(R72, R73). -/
def Posted (s : State) (t : Tid) (pc : DWord) : Prop :=
  (getThread s t).pc = pc ∧ (getThread s t).run = .ready ∧
    ((∃ k sl stamp, (k, sl) ∈ (getCore s (threadCore s t)).table ∧ sl.grp = t.grp ∧ sl.pc = pc ∧
        (t.gi, stamp) ∈ sl.waiting) ∨
      ∃ stamp, (t, pc, stamp) ∈ (getCore s (threadCore s t)).overflow)

/-- A thread leaves the sets of a list, one after the other (R89, R90, R113). -/
def leftSets (s : State) (t : Tid) (js : List Nat) : State := js.foldl (fun s j => leaveSet s t j) s

/-- Every member of a set has arrived at `i`: each is given its result in rank order, the set is cleared, and
the members post in ascending GINDEX to their successors (R115). -/
def afterArrival (s : State) (grp j : Nat) (i : Instr) : State :=
  let arrived := (getSet s grp j).arrived
  let caps := (ranked (mkeys arrived)).map fun gi => (gi, mget {} arrived gi)
  let given := (caps.zip (setResults i caps)).foldl (giveMember grp) s
  arrived.foldl (fun s m => endBlock s ⟨grp, m.1⟩ (if branchTaken i caps then m.2.taken else m.2.next))
    (modSet given grp j fun x => { x with arrived := [], pending := 0, what := none })

/-- Value order of two values that are no NaN, −0 below +0 (R143). -/
def belowZ (x y : FVal) : Bool := if x.isZero && y.isZero then x.neg? || !y.neg? else fle x y

/-- The lesser or the greater of two floating-point values, as `FMIN` and `FMAX` answer it (R143). -/
def lesserOf (ty : Ty) (greater : Bool) (a b : Nat) : Nat × Flags :=
  let x := fpVal (fpFmt ty) a
  let y := fpVal (fpFmt ty) b
  let v := if x.isNan && y.isNan then canonNaN ty
    else if x.isNan || !y.isNan && belowZ x y = greater then b % 2 ^ tyBits ty
    else a % 2 ^ tyBits ty
  (v, { iv := x.isSig || y.isSig })

/-- One step of a reduction or scan, and its flags (R124). -/
def combined (op : RedOp) (ty : Ty) (a b : Nat) : Nat × Flags :=
  if isFloat ty then
    match op with
    | .min => lesserOf ty false a b
    | .max => lesserOf ty true a b
    | .add | .and | .or | .xor => rounded ty 0 0 false (fsumX 0 [fpVal (fpFmt ty) a, fpVal (fpFmt ty) b])
  else
    let v := match op with
      | .add => (a + b) % 2 ^ bitsWide ty
      | .min => if num ty a ≤ num ty b then a else b
      | .max => if num ty a ≤ num ty b then b else a
      | .and => a &&& b
      | .or => a ||| b
      | .xor => a ^^^ b
    (v, {})

/-- Fraction bits, the exponent of the smallest normal and the code of the greatest finite value (Table 5-1). -/
def fracBits (ty : Ty) : Nat :=
  match ty with
  | .f64 => 52
  | .f16 => 10
  | .bf16 => 7
  | .e4m3 => 3
  | .e5m2 => 2
  | .e2m1 => 1
  | .f32 | .n8 | .n16 | .n32 | .n64 | .i8 | .i16 | .i32 | .i64 | .b128 => 23
def leastExp (ty : Ty) : Int :=
  match ty with
  | .f64 => -1022
  | .f16 | .e5m2 => -14
  | .e4m3 => -6
  | .e2m1 => 0
  | .f32 | .bf16 | .n8 | .n16 | .n32 | .n64 | .i8 | .i16 | .i32 | .i64 | .b128 => -126
def topCode (ty : Ty) : Nat :=
  match ty with
  | .f64 => 0x7FEFFFFFFFFFFFFF
  | .f16 => 0x7BFF
  | .bf16 => 0x7F7F
  | .e4m3 => 0x7E
  | .e5m2 => 0x7B
  | .e2m1 => 7
  | .f32 | .n8 | .n16 | .n32 | .n64 | .i8 | .i16 | .i32 | .i64 | .b128 => 0x7F7FFFFF

/-- +inf, and the identities of Table 4-5 (R126). -/
def infOf (ty : Ty) : Nat :=
  match ty with
  | .f64 => 0x7FF0000000000000
  | .f16 => 0x7C00
  | .bf16 => 0x7F80
  | .e5m2 => 0x7C
  | .f32 | .e4m3 | .e2m1 | .n8 | .n16 | .n32 | .n64 | .i8 | .i16 | .i32 | .i64 | .b128 => 0x7F800000
def identityOf (op : RedOp) (ty : Ty) : Nat :=
  match op with
  | .add | .or | .xor => 0
  | .and => 2 ^ bitsWide ty - 1
  | .min => if isFloat ty then infOf ty else wrapped ty (greatestOf ty)
  | .max => if isFloat ty then 2 ^ (tyBits ty - 1) + infOf ty else wrapped ty (leastOf ty)

/-- The operations and types of `RDUC` and `SCAN` (R124). -/
def reduces (op : RedOp) (ty : Ty) : Bool :=
  [Ty.i32, .n32, .i64, .n64].contains ty ||
    [Ty.f64, .f32, .f16, .bf16].contains ty && [RedOp.add, .min, .max].contains op

/-- What an arrival instruction captures, besides its successors (R109, R115). -/
def captured (i : Instr) (cx : Ctx) (s : State) : Capture :=
  match i with
  | .bany _ | .ball _ | .bnone _ => { p := readPred s cx.t (opndNum cx.o.b) }
  | .vote _ _ => { p := readPred s cx.t (opndNum cx.o.b), dst := cx.dst }
  | .shfl _ _ =>
    { a := BitVec.ofNat 64 (cx.b s), sel := BitVec.ofNat 32 (cx.c s + bitsOf cx.o.imm 0 8),
      fallback := BitVec.ofNat 64 (cx.d s), pmiss := bitsOf cx.o.imm 8 3, dst := cx.dst }
  | .matchLanes _ _ | .scan _ _ => { a := BitVec.ofNat 64 (cx.b s), dst := cx.dst }
  | .rduc _ _ => { a := BitVec.ofNat 64 (cx.b s), sel := BitVec.ofNat 32 (cx.c s), dst := cx.dst }
  | _ => {}

/-! ## Memory accesses -/

/-- The effective address: base pair plus the signed IMM, modulo 2^64 (R164). -/
def dataAddr (cx : Ctx) (s : State) : DWord := BitVec.ofInt 64 ((cx.a s : Int) + cx.o.imm.toInt)

/-- What a memory instruction asks for, its size in bytes and its destination, by the tables of chapters 6, 9
and 14. -/
def accessOf (i : Instr) (cx : Ctx) (s : State) : Option (MemOp × Nat × Dest) :=
  let n := tyBits cx.o.ty / 8
  let v : DWord := BitVec.ofNat 64 (cx.b s)
  match i with
  | .ld _ => some (.load cx.o.ty, n, cx.dst)
  | .st _ => some (.store (bytesLE n (cx.b s)), n, .none)
  | .atom op _ => some (.atom op cx.o.ty v true, n, cx.dst)
  | .atomn op _ => some (.atom op cx.o.ty v false, n, .none)
  | .acas _ | .acas2 _ => some (.cas (bytesLE n (cx.b s)) (bytesLE n (cx.c s)), n, cx.dst)
  | .ldrsv _ => some (.ldrsv, n, cx.dst)
  | .stcnd _ => some (.stcnd (bytesLE n (cx.b s)), n, cx.dst)
  | .axadd _ => some (.axadd cx.o.ty (BitVec.ofNat 32 (cx.b s)), 64, .none)
  | .axrd _ => some (.axrd (cx.o.mod.getLsbD 0), 64, cx.dst)
  | .amaxi _ =>
    some (.amaxi (BitVec.ofNat 64 (amxKey cx.o.ty (cx.b s) * 2 ^ 32 + (0xFFFFFFFF - cx.c s))), 8, cx.dst)
  | .shld _ => some (.load .b128, 64, cx.dst)
  | .shst _ => some (.store (bytesLE 64 (readShape s cx.t (opndNum cx.o.b)).toNat), 64, .none)
  | _ => none

/-- The same for a scratchpad instruction (R167, R207, R208). -/
def scratchOf (i : Instr) (cx : Ctx) (s : State) : Option (MemOp × Nat × Dest) :=
  let n := tyBits cx.o.ty / 8
  match i with
  | .ldsp _ => some (.load cx.o.ty, n, cx.dst)
  | .stsp _ => some (.store (bytesLE n (cx.b s)), n, .none)
  | .satom op _ => some (.atom op cx.o.ty (BitVec.ofNat 64 (cx.b s)) true, n, cx.dst)
  | .sacas _ => some (.cas (bytesLE n (cx.b s)) (bytesLE n (cx.c s)), n, cx.dst)
  | _ => none

/-- The scratchpad offset: base register plus IMM, modulo 2^32 (R167). -/
def scratchAddr (cx : Ctx) (s : State) : Nat := (cx.a s + cx.o.imm.toNat) % 2 ^ 32

/-- An access passes every check of its issue: aligned, canonical, translated by the core's cache to `l`,
permitted, accepted by the page, and clear of held ranges (R164, R196, R203 to R205, R212). -/
structure Reaches (s : State) (t : Tid) (op : MemOp) (va : DWord) (size : Nat) (l : Leaf) : Prop where
  aligned : va.toNat % size = 0
  canonical : canonical va = true
  hit : tlbLookup (getCore s (threadCore s t)).tlb (threadPasid s t) va = some l
  reads : op.needsR = true → l.r = true
  writes : op.needsW = true → l.w = true
  accepted : acceptedOn op l = true
  unlocked : lockHit s (some (threadCore s t)) (l.pa va) size op.storesLock = false

/-- Byte `b` of memory lies in the range. -/
def inRange (a n b : Nat) : Prop := a ≤ b ∧ b < a + n

/-- Every byte of memory outside a range reads as before. -/
def OutsideKept (s u : State) (a n : Nat) : Prop := ∀ b, ¬inRange a n b → readByte u b = readByte s b

/-! ## Signed instructions and copies -/

/-- What the thread signs, its row, and the fault of its operands, if any (R230, R239 to R242). -/
def signOf (i : Instr) (cx : Ctx) (s : State) : Option (SignKind × SignRow × Option Exc) :=
  let acc := cx.o.imm.toNat % 8
  let gi := cx.t.gi
  let (bt, b0) := (BitVec.ofNat 32 (cx.c s), cx.c s / 2 ^ 32)
  let (at_, a0) := (BitVec.ofNat 32 (cx.b s), cx.b s / 2 ^ 32)
  let n := cx.o.imm.toNat / 16 % 4096
  let a := mget {} (threadGang s cx.t).accs acc
  let me := (cx.t.grp, opndNum cx.o.a)
  let beyond := accCount (threadGang s cx.t) ≤ acc
  let busy : Exc := { code := .accBusy, addr := BitVec.ofNat 64 acc }
  match i with
  | .mmaLb _ => some (.mmaLb cx.o.ty bt b0 acc, { gi := gi, row := rowRegs cx s, scale := scaleOf cx s },
      mmaCheck cx s none bt b0 1)
  | .mmaBb _ => some (.mmaBb cx.o.ty at_ a0 bt b0 acc n, { gi := gi, scale := scaleOf cx s },
      mmaCheck cx s (some (at_, a0)) bt b0 n)
  | .macz _ => some (.macz (cx.o.ty = .f32) acc, { gi := gi },
      if beyond then some (operandFault acc) else if accOther a me then some busy else none)
  | .maczRel _ => some (.maczRel acc, { gi := gi },
      if beyond then some (operandFault acc) else if a.bound ≠ some me then some busy else none)
  | .mrd _ => some (.mrd (cx.o.ty = .f32) acc (cx.o.imm.toNat / 16 % 4), { gi := gi, dst := blockDest cx.o.dst },
      accCheck s cx acc (some (cx.o.ty = .f32)))
  | .mst _ => some (.mst a.fp cx.o.ty acc (BitVec.ofNat 64 (cx.b s)) (BitVec.ofNat 32 (cx.c s))
      (cx.o.mod.getLsbD 0) (cx.o.mod.getLsbD 3) (scaleOf cx s)
      (if cx.o.imm.getLsbD 15 then some (cx.o.imm.toNat / 256 % 64) else none),
      { gi := gi }, mstCheck cx s (BitVec.ofNat 64 (cx.b s)) (BitVec.ofNat 32 (cx.c s)))
  | _ => none

/-- The destination of the first signing of an `MST` has no page still to walk; other signed instructions name no memory
(R242, R330). -/
def walksDone (i : Instr) (cx : Ctx) (s : State) : Bool :=
  match i with
  | .mst _ => !mstAtRange cx s || (rangeWants s cx.t (BitVec.ofNat 64 (cx.b s))
      (mstLen cx.o.ty (BitVec.ofNat 32 (cx.c s)) (cx.o.mod.getLsbD 0))).isNone
  | _ => true

/-- The state in which a signed instruction signs: what failed walks an `MST` has met is forgotten (R330). -/
def signState (i : Instr) (cx : Ctx) (s : State) : State :=
  match i with
  | .mst _ => if mstAtRange cx s then modThread s cx.t fun th => { th with walkFails := [] } else s
  | _ => s

/-- What a copy instruction moves, whether its shape is legal, and the values that must be multiples of a
number (R258 to R262). -/
def copyOf (i : Instr) (cx : Ctx) (s : State) : Option (CopyKind × Bool × Nat × List Nat) :=
  let (d, r) := (BitVec.ofNat 64 (cx.a s), BitVec.ofNat 64 (cx.b s))
  let x := readShape s cx.t (opndNum cx.o.c)
  match i with
  | .cpy _ => some (.flat d r (cx.c s), true, 16, [cx.a s, cx.b s, cx.c s])
  | .cpy2d _ => some (.rows d r x, rowsShapeOk x, 16,
      [cx.a s, cx.b s, cpRowBytes x, cpSrcPitch x, cpDstPitch x])
  | .cpyg _ => some (.gather d r x, gatherShapeOk x, cpElem x, [cx.a s, cx.b s])
  | .cpys _ => some (.scatter d r x, gatherShapeOk x, cpElem x, [cx.a s, cx.b s])
  | .cpycb _ => some (.fifo (cx.o.imm.toNat % 16) r (cx.c s), true, 16, [cx.b s])
  | _ => none

end Sys2Proof.Machine
end

