-- ==== Sys2Proof/Certificates/Slice0/Obligations.lean ====
section
/-! DEFINITION. The statements for the provers. `Acts i s cx` says that instruction `i` reaches its own effect
in state `s`; `issued i s cx.t` is the state at that effect, and `Gives` and `Untouched` say what an instruction
answers and what it leaves alone (Safety.lean). -/

open Sys2Proof Sys2Proof.Machine

/-! ## Encoding, stepping, reset, memory -/

/-- Decoding the word of a well-formed instruction gives the instruction back, every operand at every value (R33 to
R44, Table 2-4, Table 2-9). Which classes a field admits where two texts differ is log 39, and FUNC of `BZLD` log 54.
-/
def Obligations.DecodeInvertsEncode : Prop :=
  ∀ i : Instr, wellFormed i = true → ∃ w, encode i = some w ∧ decode w = .ok i

/-- A word that decodes is the word of the instruction it decodes to, and that instruction is well formed: none of its
96 bits is dropped (R33 to R44). -/
def Obligations.EncodeInvertsDecode : Prop :=
  ∀ (w : IWord) (i : Instr), decode w = .ok i → wellFormed i = true ∧ encode i = some w

/-- Words of the spec's worked encodings decode to the instructions they stand for. -/
def Obligations.WorkedWordsDecode : Prop :=
  decodeTableWord 96 0x420003808060419000000000 =
      some (.ffma ⟨⟨1, false⟩, .g 7, .g 2, .g 3, .g 4, .f32, 0, 0⟩) ∧
    decodeTableWord 96 0x760204D4808F872200000201 =
      some (.shfl .fall ⟨⟨7, false⟩, .g 9, .j 2, .g 4, .gz, .n32, 2, 0x201⟩) ∧
    decodeTableWord 96 0x400002808060979400000000 =
      some (.fadd ⟨⟨7, false⟩, .g 5, .g 2, .g 3, .g 9, .f32, 4, 0⟩) ∧
    decodeTableWord 96 0x800003010000072000000040 =
      some (.ld ⟨⟨7, false⟩, .g 6, .g 4, .g 0, .g 0, .n32, 0, 0x40⟩) ∧
    decodeTableWord 96 0x9500A1810100073000000000 =
      some (.stcnd ⟨⟨7, false⟩, .p 3, .g 4, .g 8, .g 0, .n64, 0, 0⟩) ∧
    decodeTableWord 96 0xA60003D4808067C900008503 =
      some (.mst ⟨⟨7, false⟩, .g 7, .j 2, .g 4, .g 6, .e4m3, 9, 0x8503⟩) ∧
    decodeTableWord 96 0xB000B8040280D70000000000 =
      some (.cpy ⟨⟨7, false⟩, .tk 0, .g 16, .g 20, .g 13, .n8, 0, 0⟩) ∧
    decodeTableWord 96 0xB80000589FA0070000000064 =
      some (.chain ⟨⟨7, false⟩, .g 0, .sh 2, .imm, .g 0, .n8, 0, 0x64⟩) ∧
    decodeTableWord 96 0xC00003584000070000000000 =
      some (.lnch ⟨⟨7, false⟩, .g 6, .sh 1, .g 0, .g 0, .n8, 0, 0⟩)

/-- On a core's turn, when the line read for the first thread of the stream's pack holds at its PC a word that decodes
to `i`, the step is `exec i` for that thread, then what the stream and the machine do of themselves (R26, R27, R75). A
step that the agenda gives to a named event is that event's meaning, then what follows of itself; an event whose port
is down, or whose agent does not run, does not occur (R334, R341). -/
def Obligations.StepRunsDecodedInstruction : Prop :=
  (∀ (s : State) (core : Nat) (st : Stream) (gi : Nat) (pack : List Nat) (packs : List (List Nat))
      (bs : List Byte) (r : State) (i : Instr),
      let t : Tid := ⟨st.grp, gi⟩
      let s1 := atFetch s core st t
      nextTurn s = some (.core core) → (getCore s core).stream = some st → st.todo = (gi :: pack) :: packs →
      (getThread s t).run = .issuing → (getThread s t).checkTvec = false →
      (readsLine s1 st t = false ∨ fetchStopped s1 t = false ∧ fetchMiss s1 t (lineOf st.pc) = false) →
      lineFor s1 t st st.pc = (.ok bs, r) →
      ((getThread s t).checkEntry = true → isEntry bs (slotOf st.pc) = true) →
      decode (BitVec.ofNat 96 (slotBits bs (slotOf st.pc))) = .ok i →
      step s =
        match exec i (atIssue r t st.snap) with
        | .next u => .next (settle (afterIssue u core t))
        | .fault f => .fault f
        | .refused x => .refused x) ∧
  (∀ (s : State) (i : Instr) (rest : List Turn) (u : State),
      let z := { s with agenda := rest, ticks := s.ticks + 1 }
      s.agenda = .event i :: rest → form i = none →
      (mayOccur z i = true → exec i z = .next u → step s = .next (settle u)) ∧
      (mayOccur z i = false → step s = .next (settle z)))

/-- What the spec says stands at reset: the carve-out writable and boot staging, the partition map open, the power
limit 3,300 W, no scheduler core, no placed group, every granule U, every line uncached, every queue disabled with
LOG_ENTRIES 6 (Tables 16-3, 17-4, 19-1, 19-3; R183, R190). That every MSI-X vector is masked, in a table of the
model's own layout, is the model's choice (log 19). -/
def Obligations.ResetLeavesStatedValues : Prop :=
  State.reset.link.fwLock = false ∧ State.reset.link.fwState = .staging ∧
    State.reset.link.partLock = false ∧ State.reset.link.pwrLimit = 3300 ∧
    State.reset.link.trip = false ∧ State.reset.link.alarm = false ∧ State.reset.groups = [] ∧
    State.reset.gangs = [] ∧ State.reset.grids = [] ∧ State.reset.ops = [] ∧ State.reset.resv = [] ∧
    (∀ d, (getDie State.reset d).sched = none) ∧ (∀ p, (getPart State.reset p).dies = 0) ∧
    (∀ g, (getGranule State.reset g).cls = .u) ∧ (∀ l, (getLine State.reset l).st = .inv) ∧
    (∀ d q, (qcfgOf State.reset d q).getLsbD 31 = false ∧ qlogOf State.reset d q = 6) ∧
    (∀ v, (msixWord State.reset.link (4 * v + 3)).getLsbD 0 = true)

/-- The memory at reset has its canonical form; the form and the value of an unlisted byte are the model's choice
(logs 1 and 3). -/
def Obligations.ResetMemoryIsCanonical : Prop := MemInv State.reset

/-- Every step keeps the memory's canonical form: strictly rising addresses, and no byte listed that equals what an
unlisted byte reads as (the form of the list and the unlisted value are the model's choice: logs 1 and 3). -/
def Obligations.StepKeepsMemoryCanonical : Prop :=
  ∀ s u : State, MemInv s → step s = .next u → MemInv u

/-! ## What every issue checks -/

/-- What every issue checks, in the order of R51. An operand that the thread may not name is ILLEGAL_OP and a
privileged instruction in user mode PRIV_OP, whatever the guard (R37, R41, R49, R303). A false guard: the thread goes
to the next slot without any effect of the instruction, through the checks of a fall-through where the instruction
ends its block (R29, R35). An indexed operand beyond its limit, or misaligned, is INDEX_BOUND with the register number
reached (R40). A thread parks at an instruction that names a register still awaiting a load, which then issues again
(R159); a late result of the special-function unit or the stream unit is written before the instruction goes on, and
`MOVS` of FSTAT sees its flags (R137, R148, R277; that this takes no time of its own is log 61). A poisoned source is
POISON with the address recorded in the mark, before any effect (R175). That ILLEGAL_OP leaves TADDR 0 is the model's
choice (log 31), and so are ILLEGAL_OP of an `MSS` to TEPC outside a handler whatever its guard, INDEX_BOUND and
POISON of `PREF` (log 65), and FSTAT read without a wait for an `AXRD` (log 61). -/
def Obligations.EveryIssueIsChecked : Prop :=
  (∀ (i : Instr) (s : State) (c : Cursor) (o : Ops) (f : Fmt), s.cur = some c → form i = some (o, f) →
      legalHere s c.tid i o f = false →
      exec i s = .next (takeTrap (countIssue s c.tid (isResv i && guardTrue s c.tid o.guard)) c.tid
        { code := .illegalOp })) ∧
  (∀ (i : Instr) (s : State) (c : Cursor) (o : Ops) (f : Fmt), s.cur = some c → form i = some (o, f) →
      legalHere s c.tid i o f = true → needsPriv i f = true → isPriv s c.tid = false →
      exec i s = .next (takeTrap (countIssue s c.tid (isResv i && guardTrue s c.tid o.guard)) c.tid
        { code := .privOp })) ∧
  (∀ (i : Instr) (s : State) (c : Cursor) (o : Ops) (f : Fmt), s.cur = some c → form i = some (o, f) →
      legalHere s c.tid i o f = true → (needsPriv i f = true → isPriv s c.tid = true) →
      guardTrue s c.tid o.guard = false →
      exec i s = .next (if f.ends then fallThrough (countIssue s c.tid false) c.tid
        else advance (countIssue s c.tid false) c.tid)) ∧
  (∀ (i : Instr) (s : State) (t : Tid) (o : Ops) (f : Fmt) (n : Nat), Issues i s t o f →
      resolveOps (getThread s t) f o = .error n →
      exec i s = .next (takeTrap (issued i s t) t { code := .indexBound, addr := BitVec.ofNat 64 n })) ∧
  (∀ (i : Instr) (s : State) (t : Tid) (o o' : Ops) (f : Fmt), Issues i s t o f →
      resolveOps (getThread s t) f o = .ok o' → loadCodes s t o' f ≠ [] →
      exec i s = .next (parkRetry (issued i s t) t (.regs (loadCodes s t o' f)))) ∧
  (∀ (i : Instr) (s : State) (t : Tid) (o o' : Ops) (f : Fmt) (a : DWord), Issues i s t o f →
      resolveOps (getThread s t) f o = .ok o' → loadCodes s t o' f = [] →
      let u := finishLates (issued i s t) t (awaitedCodes s t o' f)
      poisonSource u t o' f = some a → exec i s = .next (takeTrap u t { code := .poison, addr := a })) ∧
  (∀ (o o' : Ops) (f : Fmt) (s : State) (t : Tid), Issues (.movs o) s t o f →
      resolveOps (getThread s t) f o = .ok o' → loadCodes s t o' f = [] → spNum o'.a = 7 →
      let u := finishLates (issued (.movs o) s t) t (awaitedCodes s t o' f)
      (∀ a, poisonSource u t o' f ≠ some a) →
      exec (.movs o) s = .next (advance (writeDest u t (destOf f.dst o'.dst) (spUser u t 7) none) t))

/-! ## Integer instructions -/

/-- Table 4-2: the exact integer of the operands, wrapped, or clamped under `.sat` (R92). Division truncates toward
zero and never faults: by zero it gives all ones and the dividend; the most negative value by −1 gives itself and 0
(R93). -/
def Obligations.IntegerArithmeticResults : Prop :=
  (∀ (o : Ops) (s : State) (cx : Ctx),
      let a := num cx.o.ty (cx.a s)
      let b := num cx.o.ty (cx.b s)
      let c := num cx.o.ty (cx.c s)
      (Acts (.iadd o) s cx → Gives (.iadd o) s cx (formed cx.o (a + b))) ∧
      (Acts (.iadd3 o) s cx → Gives (.iadd3 o) s cx (formed cx.o (a + b + c))) ∧
      (Acts (.isub o) s cx → Gives (.isub o) s cx (formed cx.o (a - b))) ∧
      (Acts (.imul o) s cx → Gives (.imul o) s cx (wrapped cx.o.ty (a * b))) ∧
      (Acts (.imulh o) s cx → Gives (.imulh o) s cx (wrapped cx.o.ty (a * b / 2 ^ bitsWide cx.o.ty))) ∧
      (Acts (.imad o) s cx → Gives (.imad o) s cx (wrapped cx.o.ty (a * b + c))) ∧
      (Acts (.imin o) s cx → Gives (.imin o) s cx (wrapped cx.o.ty (min a b))) ∧
      (Acts (.imax o) s cx → Gives (.imax o) s cx (wrapped cx.o.ty (max a b))) ∧
      (Acts (.iabs o) s cx → Gives (.iabs o) s cx (formed cx.o a.natAbs)) ∧
      (Acts (.ineg o) s cx → Gives (.ineg o) s cx (formed cx.o (-a)))) ∧
  (∀ (o : Ops) (s : State) (cx : Ctx),
      let ty := cx.o.ty
      let a := num ty (cx.a s)
      let b := num ty (cx.b s)
      let corner := isSigned ty = true ∧ a = leastOf ty ∧ b = -1
      (Acts (.idiv o) s cx → b = 0 → Gives (.idiv o) s cx (2 ^ bitsWide ty - 1)) ∧
      (Acts (.irem o) s cx → b = 0 → Gives (.irem o) s cx (wrapped ty a)) ∧
      (Acts (.idiv o) s cx → corner → Gives (.idiv o) s cx (wrapped ty (leastOf ty))) ∧
      (Acts (.irem o) s cx → corner → Gives (.irem o) s cx 0) ∧
      (Acts (.idiv o) s cx → b ≠ 0 → ¬corner → Gives (.idiv o) s cx (wrapped ty (a.tdiv b))) ∧
      (Acts (.irem o) s cx → b ≠ 0 → ¬corner → Gives (.irem o) s cx (wrapped ty (a - b * a.tdiv b))))

/-- Add with carry in and out, which changes its destination and its carry-out predicate alone (R94); the 64-bit
multiply-add (R95), the comparisons (R96), the address `base + idx × 2^N` (R97) and the byte dot product (R98). -/
def Obligations.CarryWideCompareAndDotResults : Prop :=
  ∀ (o : Ops) (s : State) (cx : Ctx),
    let ty := cx.o.ty
    let a := num ty (cx.a s)
    let b := num ty (cx.b s)
    (Acts (.iaddc o) s cx →
      let sum := cx.a s + cx.b s + (readPred s cx.t (opndNum cx.o.c)).toNat
      let pout := bitsOf cx.o.imm 0 3
      ∃ u, exec (.iaddc o) s = .next u ∧ Holds u cx.t cx.dst (sum % 2 ^ bitsWide ty) ∧
        readPred u cx.t pout = (decide (pout = 7) || decide (2 ^ bitsWide ty ≤ sum)) ∧
        (∀ n, n ≠ pout → readPred u cx.t n = readPred s cx.t n) ∧
        Framed s u cx.t cx.dst ∧ SameThread false (getThread s cx.t) (getThread u cx.t) ∧
        (getThread u cx.t).pc = nextPc (getThread s cx.t).pc) ∧
    (Acts (.imadw o) s cx →
      Gives (.imadw o) s cx (BitVec.ofInt 64 (a * b + (cx.c s : Int))).toNat) ∧
    (Acts (.icmp .eq o) s cx → Gives (.icmp .eq o) s cx (if a = b then 1 else 0)) ∧
    (Acts (.icmp .ne o) s cx → Gives (.icmp .ne o) s cx (if a = b then 0 else 1)) ∧
    (Acts (.icmp .lt o) s cx → Gives (.icmp .lt o) s cx (if a < b then 1 else 0)) ∧
    (Acts (.icmp .le o) s cx → Gives (.icmp .le o) s cx (if a ≤ b then 1 else 0)) ∧
    (Acts (.icmp .gt o) s cx → Gives (.icmp .gt o) s cx (if b < a then 1 else 0)) ∧
    (Acts (.icmp .ge o) s cx → Gives (.icmp .ge o) s cx (if b ≤ a then 1 else 0)) ∧
    (Acts (.lea o) s cx →
      Gives (.lea o) s cx (BitVec.ofInt 64 ((cx.a s : Int) + b * 2 ^ cx.o.mod.toNat)).toNat) ∧
    (Acts (.idot4 o) s cx →
      let p (i : Nat) : Int := byteNum (isSigned ty) (cx.a s) i * byteNum (isSigned ty) (cx.b s) i
      Gives (.idot4 o) s cx (BitVec.ofInt 32 ((cx.c s : Int) + p 0 + p 1 + p 2 + p 3)).toNat)

/-- Table 4-3: logic, and shifts and rotates by any amount (R99); bit fields (R100), counts and bit reversal (R101),
byte permutation (R102). -/
def Obligations.LogicShiftAndBitResults : Prop :=
  (∀ (o : Ops) (s : State) (cx : Ctx),
      let a := asVec cx.o.ty (cx.a s)
      let b := asVec cx.o.ty (cx.b s)
      let sh := cx.b s
      (Acts (.and o) s cx → Gives (.and o) s cx (a &&& b).toNat) ∧
      (Acts (.or o) s cx → Gives (.or o) s cx (a ||| b).toNat) ∧
      (Acts (.xor o) s cx → Gives (.xor o) s cx (a ^^^ b).toNat) ∧
      (Acts (.andn o) s cx → Gives (.andn o) s cx (a &&& ~~~b).toNat) ∧
      (Acts (.not o) s cx → Gives (.not o) s cx (~~~a).toNat) ∧
      (Acts (.shl o) s cx → Gives (.shl o) s cx (a <<< sh).toNat) ∧
      (Acts (.shr o) s cx → Gives (.shr o) s cx (a >>> sh).toNat) ∧
      (Acts (.shra o) s cx → Gives (.shra o) s cx (a.sshiftRight sh).toNat) ∧
      (Acts (.rol o) s cx → Gives (.rol o) s cx (a.rotateLeft sh).toNat) ∧
      (Acts (.ror o) s cx → Gives (.ror o) s cx (a.rotateRight sh).toNat)) ∧
  (∀ (o : Ops) (s : State) (cx : Ctx),
      let ty := cx.o.ty
      let w := bitsWide ty
      let a := asVec ty (cx.a s)
      let b := asVec ty (cx.b s)
      (Acts (.bfe o) s cx →
        let len := fieldLen ty (cx.b s)
        let pos := fieldPos (cx.b s)
        Gives (.bfe o) s cx
          (if isSigned ty then (((a.sshiftRight pos).setWidth len).signExtend w).toNat
           else ((a >>> pos).setWidth len).toNat)) ∧
      (Acts (.bfi o) s cx →
        let mask := BitVec.ofNat w (2 ^ fieldLen ty (cx.c s) - 1) <<< fieldPos (cx.c s)
        Gives (.bfi o) s cx ((b &&& ~~~mask) ||| ((a <<< fieldPos (cx.c s)) &&& mask)).toNat) ∧
      (Acts (.popc o) s cx → Gives (.popc o) s cx ((List.range w).filter fun i => a.getLsbD i).length) ∧
      (Acts (.clz o) s cx →
        Gives (.clz o) s cx ((List.range w).takeWhile fun i => !a.getLsbD (w - 1 - i)).length) ∧
      (Acts (.ctz o) s cx → Gives (.ctz o) s cx ((List.range w).takeWhile fun i => !a.getLsbD i).length) ∧
      (Acts (.brev o) s cx → Gives (.brev o) s cx a.reverse.toNat) ∧
      (Acts (.perm o) s cx →
        let q (i : Nat) : BitVec 8 := permutedByte (cx.a s) (cx.b s) (cx.c s / 2 ^ (4 * i) % 16)
        Gives (.perm o) s cx (q 3 ++ q 2 ++ q 1 ++ q 0).toNat))

/-! ## Moves, predicates, index and special registers -/

/-- `MOV`, `ISEL`, `PSET` and the six functions of `PMOV` (R103 to R105). -/
def Obligations.MoveSelectAndPredicateResults : Prop :=
  ∀ (o : Ops) (s : State) (cx : Ctx),
    let p := readPred s cx.t (opndNum cx.o.a)
    let q := readPred s cx.t (opndNum cx.o.b)
    (Acts (.mov o) s cx → Gives (.mov o) s cx (cx.a s)) ∧
    (Acts (.isel o) s cx →
      Gives (.isel o) s cx (if readPred s cx.t (opndNum cx.o.c) = true then cx.a s else cx.b s)) ∧
    (Acts (.pset o) s cx → Gives (.pset o) s cx (if cx.a s = 0 then 0 else 1)) ∧
    (Acts (.pmov o) s cx →
      (cx.o.mod = 0 → Gives (.pmov o) s cx p.toNat) ∧
      (cx.o.mod = 1 → Gives (.pmov o) s cx (!p).toNat) ∧
      (cx.o.mod = 2 → Gives (.pmov o) s cx (p && q).toNat) ∧
      (cx.o.mod = 3 → Gives (.pmov o) s cx (p || q).toNat) ∧
      (cx.o.mod = 4 → Gives (.pmov o) s cx (p != q).toNat) ∧
      (cx.o.mod = 5 → Gives (.pmov o) s cx (p && !q).toNat))

/-- `XSET`, `XSET.add` and `XGET`: the index register takes its base and limit, and a bound broken is INDEX_BOUND with
the value that failed, the index register unchanged (R107, R108). -/
def Obligations.IndexRegisterInstructions : Prop :=
  ∀ (o : Ops) (s : State) (cx : Ctx),
    let t := cx.t
    let x (u : State) (n : Nat) : Nat × Nat := mget (0, 0) (getThread u t).xr n
    let n := opndNum cx.o.dst
    let nb : Int := ((x s n).1 : Int) + (BitVec.ofNat 32 (cx.a s)).toInt
    (Acts (.xset o) s cx → cx.a s ≤ 240 → cx.b s ≤ (threadGroup s t).gcount →
      ∃ u, exec (.xset o) s = .next u ∧ x u n = (cx.a s, cx.b s) ∧ (∀ m, m ≠ n → x u m = x s m) ∧
        (getThread u t).pc = nextPc (getThread s t).pc) ∧
    (Acts (.xset o) s cx → 240 < cx.a s →
      exec (.xset o) s = .next (takeTrap (issued (.xset o) s t) t
        { code := .indexBound, addr := BitVec.ofNat 64 (cx.a s) })) ∧
    (Acts (.xset o) s cx → cx.a s ≤ 240 → (threadGroup s t).gcount < cx.b s →
      exec (.xset o) s = .next (takeTrap (issued (.xset o) s t) t
        { code := .indexBound, addr := BitVec.ofNat 64 (cx.b s) })) ∧
    (Acts (.xsetAdd o) s cx → 0 ≤ nb → nb ≤ 240 →
      ∃ u, exec (.xsetAdd o) s = .next u ∧ x u n = (nb.toNat, (x s n).2) ∧
        (∀ m, m ≠ n → x u m = x s m) ∧ (getThread u t).pc = nextPc (getThread s t).pc) ∧
    (Acts (.xsetAdd o) s cx → nb < 0 ∨ 240 < nb →
      exec (.xsetAdd o) s = .next (takeTrap (issued (.xsetAdd o) s t) t
        { code := .indexBound, addr := BitVec.ofInt 64 nb })) ∧
    (Acts (.xget o) s cx →
      let e := x s (opndNum cx.o.a)
      Gives (.xget o) s cx (e.2 % 2 ^ 16 * 2 ^ 16 + e.1 % 2 ^ 16))

/-- What `MOVS` reads by code (Table 3-2), what `CLK` and `IDPHYS` read, and what user code gets of a clock or an
identifier: zero, with TSTICKY set; the clock's value is a free value (log 5). What `MSS` writes, by code: FSTAT's
five flags, LINK, RNDCTR, TVEC and TREC of the group, TEPC, and in privileged mode the identifiers, LAUNCH_FRAG and
PASID; a write to TSTICKY clears the bits written as 1 (R65 to R68, R106, R320). -/
def Obligations.SpecialRegisters : Prop :=
  (∀ (o : Ops) (s : State) (cx : Ctx),
      let t := cx.t
      let th := getThread s t
      let g := threadGroup s t
      let n := spNum cx.o.a
      let hidden (i : Instr) (bits : BitVec 2) : Prop :=
        ∃ u, exec i s = .next u ∧ Holds u t cx.dst 0 ∧ (getThread u t).tsticky = th.tsticky ||| bits ∧
          (getThread u t).pc = nextPc th.pc
      (Acts (.movs o) s cx →
        (n = 0x00 → Gives (.movs o) s cx 32) ∧ (n = 0x01 → Gives (.movs o) s cx 64) ∧
        (n = 0x02 → Gives (.movs o) s cx (t.gi % 32)) ∧ (n = 0x03 → Gives (.movs o) s cx (t.gi / 32)) ∧
        (n = 0x04 → Gives (.movs o) s cx g.gsize) ∧ (n = 0x05 → Gives (.movs o) s cx t.gi) ∧
        (n = 0x06 → Gives (.movs o) s cx
          (g.prio * 16 + th.cancelPend.toNat * 8 + th.uiPend.toNat * 4 + (isPriv s t).toNat * 2 +
            th.inTrap.toNat)) ∧
        (n = 0x07 → Gives (.movs o) s cx
          (th.fstat.iv.toNat * 16 + th.fstat.dz.toNat * 8 + th.fstat.ovf.toNat * 4 + th.fstat.uf.toNat * 2 +
            th.fstat.nx.toNat)) ∧
        (n = 0x08 → Gives (.movs o) s cx th.tsticky.toNat) ∧
        (n = 0x09 → Gives (.movs o) s cx
          (th.cntMx * 2 ^ 24 + th.cntCp * 2 ^ 16 + th.cntSt * 2 ^ 8 + th.cntLd)) ∧
        (n = 0x0A → Gives (.movs o) s cx th.callDepth) ∧ (n = 0x0B → Gives (.movs o) s cx th.link.toNat) ∧
        (n = 0x0C → Gives (.movs o) s cx th.rndctr.toNat) ∧ (n = 0x10 → Gives (.movs o) s cx g.tvec.toNat) ∧
        (n = 0x11 → Gives (.movs o) s cx g.trec.toNat) ∧ (n = 0x12 → Gives (.movs o) s cx th.tcause.toNat) ∧
        (n = 0x13 → Gives (.movs o) s cx th.tepc.toNat) ∧ (n = 0x14 → Gives (.movs o) s cx th.taddr.toNat) ∧
        (isPriv s t = true → n = 0x40 → Gives (.movs o) s cx (Config.clockAt s.ticks).toNat) ∧
        (isPriv s t = true → 0x41 ≤ n → n ≤ 0x43 → Gives (.movs o) s cx (identOf s t n).toNat) ∧
        (isPriv s t = true → n = 0x44 →
          Gives (.movs o) s cx (getDie s (threadDie s t)).launchFrag.toNat) ∧
        (isPriv s t = true → n = 0x45 → Gives (.movs o) s cx th.pasid.toNat) ∧
        (isPriv s t = false → n = 0x40 → hidden (.movs o) 1) ∧
        (isPriv s t = false → 0x41 ≤ n → n ≤ 0x43 → hidden (.movs o) 2)) ∧
      (Acts (.clk o) s cx → isPriv s t = true → Gives (.clk o) s cx (Config.clockAt s.ticks).toNat) ∧
      (Acts (.clk o) s cx → isPriv s t = false → hidden (.clk o) 1) ∧
      (Acts (.idphys o) s cx → isPriv s t = true →
        Gives (.idphys o) s cx ((identOf s t 0x43).toNat % 2 ^ 8 * 2 ^ 16 +
          (identOf s t 0x42).toNat % 2 ^ 3 * 2 ^ 8 + (identOf s t 0x41).toNat % 2 ^ 6)) ∧
      (Acts (.idphys o) s cx → isPriv s t = false → hidden (.idphys o) 2)) ∧
  (∀ (o : Ops) (s : State) (cx : Ctx),
      let t := cx.t
      let n := spNum cx.o.dst
      let v : DWord := BitVec.ofNat 64 (cx.a s)
      let wrote (P : State → Prop) : Prop :=
        ∃ u, exec (.mss o) s = .next u ∧ P u ∧ u.mem = s.mem ∧ (getThread u t).regs = (getThread s t).regs ∧
          (getThread u t).pc = nextPc (getThread s t).pc
      (Acts (.mss o) s cx →
        (n = 0x07 → wrote fun u => (getThread u t).fstat =
          { iv := v.getLsbD 4, dz := v.getLsbD 3, ovf := v.getLsbD 2, uf := v.getLsbD 1, nx := v.getLsbD 0 }) ∧
        (n = 0x0B → wrote fun u => (getThread u t).link = v) ∧
        (n = 0x0C → wrote fun u => (getThread u t).rndctr = v) ∧
        (n = 0x10 → wrote fun u => (threadGroup u t).tvec = v ∧ (threadGroup u t).trec = (threadGroup s t).trec) ∧
        (n = 0x11 → wrote fun u => (threadGroup u t).trec = v ∧ (threadGroup u t).tvec = (threadGroup s t).tvec) ∧
        (n = 0x13 → wrote fun u => (getThread u t).tepc = v) ∧
        (0x41 ≤ n → n ≤ 0x43 → wrote fun u => identOf u t n = v.setWidth 32) ∧
        (n = 0x44 → wrote fun u => (getDie u (threadDie u t)).launchFrag = v.setWidth 32) ∧
        (n = 0x45 → wrote fun u => (getThread u t).pasid = v.setWidth 20)) ∧
      (Acts (.tstickyClear o) s cx →
        ∃ u, exec (.tstickyClear o) s = .next u ∧
          (getThread u t).tsticky = (getThread s t).tsticky &&& ~~~BitVec.ofNat 2 (cx.a s) ∧
          (getThread u t).pc = nextPc (getThread s t).pc))

/-! ## Frames of register-only instructions -/

/-- An instruction whose whole effect is its destination answers a next state that differs from the state before in
that destination, the PC and the issue count alone: memory, every other thread and group, every other register,
predicate, flag and special register are as they were. A floating-point instruction also joins its flags to FSTAT: no
flag that stood falls (R68, R137). -/
def Obligations.RegisterInstructionsFrame : Prop :=
  (∀ (i : Instr) (s : State) (cx : Ctx), registerOnly i = true → Acts i s cx →
      ∃ u, exec i s = .next u ∧ Untouched s u cx.t cx.dst ∧
        SameThread false (getThread s cx.t) (getThread u cx.t) ∧
        (getThread u cx.t).pc = nextPc (getThread s cx.t).pc) ∧
  (∀ (i : Instr) (s : State) (cx : Ctx), floatOnly i = true → Acts i s cx →
      ∃ u fl, exec i s = .next u ∧ Untouched s u cx.t cx.dst ∧
        SameThread true (getThread s cx.t) (getThread u cx.t) ∧
        (getThread u cx.t).fstat = Flags.join (getThread s cx.t).fstat fl ∧
        (getThread u cx.t).pc = nextPc (getThread s cx.t).pc)


/-! ## Floating-point, conversion and random instructions -/

/-- Each basic operation is the exact result rounded once, in the mode and with the saturation of MOD; packed forms
work on two 16-bit elements, and `PDOT2` rounds `c + a0 × b0 + a1 × b1` once, to binary32 (R142 to R147); that a quiet
NaN c beside infinities of both signs sets no IV is log 66. `FRND` gives the integral value that its mode chooses from
a: toward zero, down, up, or the nearest with a tie to the even one; without a flag, a zero with the sign of a and an
infinity as it is (R146). -/
def Obligations.FloatArithmeticResults : Prop :=
  ∀ (o : Ops) (s : State) (cx : Ctx),
    let ty := cx.o.ty
    let mode := cx.o.mod.toNat % 8
    let sat := cx.o.mod.getLsbD 3
    let v (x : Nat) : FVal := fpVal (fpFmt ty) x
    let (a, b, c) := (cx.a s, cx.b s, cx.c s)
    let two (f g : Nat × Flags) : Nat × Flags := (f.1 + 2 ^ 16 * g.1, f.2.join g.2)
    let r1 := cx.c s
    let r2 := (BitVec.ofNat 32 (cx.c s)).rotateLeft 16
    let (a0, a1) := (a % 2 ^ 16, a / 2 ^ 16 % 2 ^ 16)
    let (b0, b1) := (b % 2 ^ 16, b / 2 ^ 16 % 2 ^ 16)
    let (c0, c1) := (c % 2 ^ 16, c / 2 ^ 16 % 2 ^ 16)
    (Acts (.fadd o) s cx → GivesF (.fadd o) s cx (rounded ty mode c sat (fsumX mode [v a, v b]))) ∧
    (Acts (.fsub o) s cx → GivesF (.fsub o) s cx (rounded ty mode c sat (fsumX mode [v a, (v b).negate]))) ∧
    (Acts (.fmul o) s cx → GivesF (.fmul o) s cx (rounded ty mode c sat (fmulX (v a) (v b)))) ∧
    (Acts (.ffma o) s cx → GivesF (.ffma o) s cx (rounded ty mode 0 sat (ffmaX mode (v a) (v b) (v c)))) ∧
    (Acts (.fscale o) s cx →
      GivesF (.fscale o) s cx (rounded ty mode c sat (fscaleX (v a) (BitVec.ofNat 32 b).toInt))) ∧
    (Acts (.padd2 o) s cx → GivesF (.padd2 o) s cx
      (two (rounded ty mode r1 sat (fsumX mode [v a0, v b0]))
        (rounded ty mode r2.toNat sat (fsumX mode [v a1, v b1])))) ∧
    (Acts (.pmul2 o) s cx → GivesF (.pmul2 o) s cx
      (two (rounded ty mode r1 sat (fmulX (v a0) (v b0))) (rounded ty mode r2.toNat sat (fmulX (v a1) (v b1))))) ∧
    (Acts (.pfma2 o) s cx → GivesF (.pfma2 o) s cx
      (two (rounded ty mode 0 sat (ffmaX mode (v a0) (v b0) (v c0)))
        (rounded ty mode 0 sat (ffmaX mode (v a1) (v b1) (v c1))))) ∧
    (Acts (.pdot2 o) s cx →
      let p := fmulX (v a0) (v b0)
      let q := fmulX (v a1) (v b1)
      let x := fsumX mode [fpVal (fpFmt .f32) c, p.1, q.1]
      GivesF (.pdot2 o) s cx (rounded .f32 mode 0 sat (x.1, (p.2.join q.2).join x.2))) ∧
    (Acts (.frnd o) s cx → ∀ n, v a = .inf n → GivesF (.frnd o) s cx (a % 2 ^ tyBits ty, {})) ∧
    (Acts (.frnd o) s cx → mode ≤ 3 → ∀ n m, v a = .fin n m →
      let num := m.num * 2 ^ m.ex.toNat
      let den := 2 ^ (-m.ex).toNat
      let (down, up) := (num / den, (num + den - 1) / den)
      ∃ k : Nat,
        GivesF (.frnd o) s cx ((roundFp (fpFmt ty) 0 0 false (.fin n { num := k })).1, {}) ∧
        (mode = 0 → 2 * k * den ≤ 2 * num + den ∧ 2 * num ≤ 2 * k * den + den ∧
          (2 * k * den = 2 * num + den ∨ 2 * num = 2 * k * den + den → k % 2 = 0)) ∧
        (mode = 1 → k = down) ∧
        (mode = 2 → k = if n then up else down) ∧
        (mode = 3 → k = if n then down else up) ∧
        (k = 0 → GivesF (.frnd o) s cx (if n then 2 ^ (tyBits ty - 1) else 0, {})))

/-- NaN operands and invalid operations: the canonical NaN with IV for a signalling operand or an invalid operation
(zero times an infinity in either order, and infinities of opposite signs, in `FFMA` too); the one operand that is no
NaN from `FMIN` and `FMAX`, the canonical NaN of two; the relations that an unordered pair satisfies. Minimum, maximum
and comparison of operands that are no NaN: −0 counts below +0 for `FMIN` and `FMAX` and equal to it for `FCMP`;
`FCLASS` sets the one bit of its class, a finite value that is not zero being subnormal exactly when its exponent
field is zero (R134, R142 to R146). That `FCMP` holds −0 equal to +0, as R144 says and R135's last item does not, is
log 55. -/
def Obligations.FloatSpecialCases : Prop :=
  (∀ (o : Ops) (s : State) (cx : Ctx) (i : Instr),
      let ty := cx.o.ty
      let x := fpVal (fpFmt ty) (cx.a s)
      let y := fpVal (fpFmt ty) (cx.b s)
      let low (v : Nat) : Nat := v % 2 ^ (tyBits ty)
      let iv (b : Bool) : Flags := { iv := b }
      (i ∈ [Instr.fadd o, .fsub o, .fmul o] → Acts i s cx → x.isNan || y.isNan →
        GivesF i s cx (canonNaN ty, iv (x.isSig || y.isSig))) ∧
      (i ∈ [Instr.fscale o, .frnd o] → Acts i s cx → x.isNan → GivesF i s cx (canonNaN ty, iv x.isSig)) ∧
      (∀ n, Acts (.fadd o) s cx → x = .inf n → y = .inf (!n) → GivesF (.fadd o) s cx (canonNaN ty, iv true)) ∧
      (∀ n, Acts (.fsub o) s cx → x = .inf n → y = .inf n → GivesF (.fsub o) s cx (canonNaN ty, iv true)) ∧
      (∀ n, Acts (.fmul o) s cx → x = .inf n → y.isZero → GivesF (.fmul o) s cx (canonNaN ty, iv true)) ∧
      (∀ n, Acts (.fmul o) s cx → x.isZero → y = .inf n → GivesF (.fmul o) s cx (canonNaN ty, iv true)) ∧
      (∀ n, Acts (.ffma o) s cx → (x = .inf n ∧ y.isZero) ∨ (x.isZero ∧ y = .inf n) →
        GivesF (.ffma o) s cx (canonNaN ty, iv true)) ∧
      (Acts (.ffma o) s cx →
        let z := fpVal (fpFmt ty) (cx.c s)
        let infinite (v : FVal) : Bool := v = .inf false || v = .inf true
        let invalid := (infinite x && y.isZero) || (x.isZero && infinite y)
        (x.isNan || y.isNan || z.isNan →
          GivesF (.ffma o) s cx (canonNaN ty, iv (x.isSig || y.isSig || z.isSig || invalid))) ∧
        (x.isNan = false → y.isNan = false → x.isZero = false → y.isZero = false → infinite x || infinite y →
          z = .inf (x.neg? == y.neg?) → GivesF (.ffma o) s cx (canonNaN ty, iv true))) ∧
      (i ∈ [Instr.fmin o, .fmax o] → Acts i s cx → x.isNan → y.isNan →
        GivesF i s cx (canonNaN ty, iv (x.isSig || y.isSig))) ∧
      (i ∈ [Instr.fmin o, .fmax o] → Acts i s cx → x.isNan → y.isNan = false →
        GivesF i s cx (low (cx.b s), iv x.isSig)) ∧
      (i ∈ [Instr.fmin o, .fmax o] → Acts i s cx → x.isNan = false → y.isNan →
        GivesF i s cx (low (cx.a s), iv y.isSig)) ∧
      (i ∈ [Instr.fminn o, .fmaxn o] → Acts i s cx → x.isNan || y.isNan →
        GivesF i s cx (canonNaN ty, iv (x.isSig || y.isSig))) ∧
      (i ∈ [Instr.fcmp .eq o, .fcmp .ord o] → Acts i s cx → x.isNan || y.isNan →
        GivesF i s cx (0, iv (x.isSig || y.isSig))) ∧
      (i ∈ [Instr.fcmp .ne o, .fcmp .un o] → Acts i s cx → x.isNan || y.isNan →
        GivesF i s cx (1, iv (x.isSig || y.isSig))) ∧
      (i ∈ [Instr.fcmp .lt o, .fcmp .le o, .fcmp .gt o, .fcmp .ge o] → Acts i s cx → x.isNan || y.isNan →
        GivesF i s cx (0, iv true))) ∧
  (∀ (o : Ops) (s : State) (cx : Ctx) (i : Instr),
      let ty := cx.o.ty
      let x := fpVal (fpFmt ty) (cx.a s)
      let y := fpVal (fpFmt ty) (cx.b s)
      let low (v : Nat) : Nat := v % 2 ^ (tyBits ty)
      let least (b : Bool) : Nat := low (if b then cx.a s else cx.b s)
      let below := if x.isZero && y.isZero then x.neg? || !y.neg? else fle x y
      let bit (b : Bool) : Nat × Flags := (b.toNat, {})
      (x.isNan = false → y.isNan = false →
        (i ∈ [Instr.fmin o, .fminn o] → Acts i s cx → GivesF i s cx (least below, {})) ∧
        (i ∈ [Instr.fmax o, .fmaxn o] → Acts i s cx → GivesF i s cx (least (!below), {})) ∧
        (Acts (.fcmp .eq o) s cx → GivesF (.fcmp .eq o) s cx (bit (fle x y && fle y x))) ∧
        (Acts (.fcmp .ne o) s cx → GivesF (.fcmp .ne o) s cx (bit !(fle x y && fle y x))) ∧
        (Acts (.fcmp .lt o) s cx → GivesF (.fcmp .lt o) s cx (bit (!fle y x))) ∧
        (Acts (.fcmp .le o) s cx → GivesF (.fcmp .le o) s cx (bit (fle x y))) ∧
        (Acts (.fcmp .gt o) s cx → GivesF (.fcmp .gt o) s cx (bit (!fle x y))) ∧
        (Acts (.fcmp .ge o) s cx → GivesF (.fcmp .ge o) s cx (bit (fle y x))) ∧
        (Acts (.fcmp .un o) s cx → GivesF (.fcmp .un o) s cx (0, {})) ∧
        (Acts (.fcmp .ord o) s cx → GivesF (.fcmp .ord o) s cx (1, {}))) ∧
      (Acts (.fclass o) s cx → ∃ k, k < 10 ∧ Gives (.fclass o) s cx (2 ^ k) ∧
        (k = 9 ↔ x = .nan false) ∧ (k = 8 ↔ x = .nan true) ∧ (k = 7 ↔ x = .inf false) ∧ (k = 0 ↔ x = .inf true) ∧
        (k = 3 ∨ k = 4 ↔ x.isZero) ∧ (k ≤ 3 ↔ x.isNan = false ∧ x.neg?) ∧
        (∀ n m, x = .fin n m → x.isZero = false → (k = 2 ∨ k = 5 ↔ expOf ty (cx.a s) = 0))))

/-- Rounding, against the exact value. A finite value of a format rounds to itself in every mode, without a flag. A
NaN, an infinity and a zero have the results of R132 and R134. A magnitude num / den × 2^ex between 2^e and 2^(e + 1)
stands between k and k + 1 spacings, of 2^(e - fraction bits) and no less than a subnormal's: it rounds to one of the
two by its mode, a tie to the even k, `.rsr` by the truncated fraction against r; the result has that value, or is
that of Table 5-4 where it lies beyond the greatest finite one; and OF, UF and NX stand as R137 says. All is compared
in units of 2^-z, for any z that makes the exponents no less than 0. -/
def Obligations.RoundedResults : Prop :=
  (∀ (ty : Ty) (mode r bits : Nat) (sat : Bool), isFloat ty → bits < 2 ^ tyBits ty →
    (∃ n m, fpVal (fpFmt ty) bits = .fin n m) →
    roundFp (fpFmt ty) mode r sat (fpVal (fpFmt ty) bits) = (bits, {})) ∧
  (∀ (ty : Ty) (mode r : Nat) (sat neg : Bool), isFloat ty → mode ≤ 4 →
      let out := roundFp (fpFmt ty) mode r sat
      let signed (c : Nat) : Nat := if neg then 2 ^ (tyBits ty - 1) + c else c
      (∀ g, out (.nan g) = if ty = .e2m1 then (0, { iv := true }) else (canonNaN ty, { iv := g })) ∧
      out (.inf neg) =
        (if ty = .e2m1 ∨ ty = .e4m3 ∧ sat then (signed (topCode ty), { iv := true, nx := true })
        else if ty = .e4m3 then (canonNaN ty, { iv := true })
        else if sat then (signed (topCode ty), { nx := true }) else (signed (infOf ty), {})) ∧
      (∀ m : Mag, m.num = 0 → m.sticky = false → out (.fin neg m) = (signed 0, {})) ∧
      ∀ (m : Mag) (z k y top : Nat) (e : Int), m.num ≠ 0 → m.den ≠ 0 → m.sticky = false →
        0 ≤ m.ex + z → 0 ≤ e + z → 0 ≤ leastExp ty - fracBits ty + z →
        let pow (e : Int) : Nat := 2 ^ (e + z).toNat
        let x := m.num * pow m.ex
        let q := pow (max e (leastExp ty) - fracBits ty)
        let rest := x - k * q * m.den
        let gap := q * m.den
        let up : Prop := rest ≠ 0 ∧
          (mode = 0 ∧ (gap < 2 * rest ∨ 2 * rest = gap ∧ k % 2 = 1) ∨ mode = 2 ∧ neg = true ∨ mode = 3 ∧ neg = false ∨
            mode = 4 ∧ r < rest * 2 ^ 32 / gap)
        let value (w : Nat) (neg : Bool) (v : Nat) : Prop :=
          ∃ n, fpVal (fpFmt ty) w = .fin neg n ∧ n.den = 1 ∧ n.sticky = false ∧ n.num * pow n.ex = v
        m.den * pow e ≤ x → x < m.den * pow (e + 1) → k * gap ≤ x → x < (k + 1) * gap →
        (up ∧ y = (k + 1) * q ∨ ¬up ∧ y = k * q) → value (topCode ty) false top →
        (y ≤ top → ∃ w, w < 2 ^ tyBits ty ∧ value w neg y ∧
          out (.fin neg m) = (w, { uf := rest ≠ 0 && decide (e < leastExp ty), nx := rest ≠ 0 })) ∧
        (top < y →
          let toInf : Prop := mode = 0 ∨ mode = 4 ∨ mode = 2 ∧ neg = true ∨ mode = 3 ∧ neg = false
          ∀ w, (w = infOf ty ∧ toInf ∧ sat = false ∧ ty ∉ [.e4m3, .e2m1] ∨
              w = topCode ty ∧ ¬(toInf ∧ sat = false ∧ ty ∉ [.e4m3, .e2m1])) →
            out (.fin neg m) = (signed w, { ovf := true, nx := true })))

/-- `CVT` (R150, R151), with the fates of NaN, infinity and out-of-range values in a conversion to an integer. `CVPK`
puts Round(a) and Round(b) side by side at its position and keeps the other bits of d (R152). `CVQ8` takes the least
E3M5 scale that is at least a sixth of the greatest magnitude, 31.5 where none is, and rounds the eight ratios to
E2M1, element i at nibble i; with no magnitude above zero the scale is 0 and the elements are signed zeros (R153).
`DQ` rounds each product of weight, block scale and band scale once, element i at bits 16i (R154). `RND` draws from
the pair of the work identifier and RNDCTR, and steps RNDCTR (R155, R156). -/
def Obligations.ConversionAndRandomResults : Prop :=
  (∀ (o : Ops) (s : State) (cx : Ctx),
      let ty := cx.o.ty
      let mode := cx.o.mod.toNat % 8
      let sat := cx.o.mod.getLsbD 3
      let st := srcTy o
      let iv : Flags := { iv := true }
      (Acts (.cvt o) s cx → isFloat ty → isFloat st →
        GivesF (.cvt o) s cx (roundFp (fpFmt ty) mode (cx.b s) sat (fpVal (fpFmt st) (cx.a s)))) ∧
      (Acts (.cvt o) s cx → isFloat ty → isFloat st = false →
        GivesF (.cvt o) s cx (roundFp (fpFmt ty) mode (cx.b s) sat (intVal (intSrc st (cx.a s))))) ∧
      (Acts (.cvt o) s cx → isFloat ty = false → isFloat st = false →
        GivesF (.cvt o) s cx
          (intDst ty (if sat then max (intLo ty) (min (intHi ty) (intSrc st (cx.a s))) else intSrc st (cx.a s)),
            {})) ∧
      (∀ g, Acts (.cvt o) s cx → isFloat ty = false → isFloat st → fpVal (fpFmt st) (cx.a s) = .nan g →
        GivesF (.cvt o) s cx (0, iv)) ∧
      (∀ n, Acts (.cvt o) s cx → isFloat ty = false → isFloat st → fpVal (fpFmt st) (cx.a s) = .inf n →
        GivesF (.cvt o) s cx (intDst ty (if n then intLo ty else intHi ty), iv)) ∧
      (∀ n m, Acts (.cvt o) s cx → isFloat ty = false → isFloat st → fpVal (fpFmt st) (cx.a s) = .fin n m →
        let k := (roundInt mode (cx.b s) n m).1
        (k < intLo ty → GivesF (.cvt o) s cx (intDst ty (intLo ty), iv)) ∧
        (intHi ty < k → GivesF (.cvt o) s cx (intDst ty (intHi ty), iv)) ∧
        (intLo ty ≤ k → k ≤ intHi ty →
          GivesF (.cvt o) s cx (intDst ty k, { nx := (roundInt mode (cx.b s) n m).2 }))) ∧
      (Acts (.cvpk o) s cx →
        let r2 := (BitVec.ofNat 32 (cx.c s)).rotateLeft 16
        let ca := roundFp (fpFmt ty) mode (cx.c s) sat (fpVal (fpFmt st) (cx.a s))
        let cb := roundFp (fpFmt ty) mode r2.toNat sat (fpVal (fpFmt st) (cx.b s))
        let e := tyBits ty
        let lo := 2 * e * (cx.o.imm.toNat / 16 % 4)
        ∃ w, GivesF (.cvpk o) s cx (w, ca.2.join cb.2) ∧ w < 2 ^ 32 ∧
          ∀ k, k < 32 → w.testBit k =
            if lo ≤ k ∧ k < lo + e then ca.1.testBit (k - lo)
            else if lo + e ≤ k ∧ k < lo + 2 * e then cb.1.testBit (k - lo - e)
            else (cx.d s).testBit k)) ∧
  (∀ (o : Ops) (s : State) (cx : Ctx),
      let mode := cx.o.mod.toNat % 8
      let sat := cx.o.mod.getLsbD 3
      let st := srcTy o
      let scale (c : Nat) : Mag :=
        if c / 32 = 0 then { num := c % 32, ex := -7 } else { num := 32 + c % 32, ex := (c / 32 : Nat) - 8 }
      let joined (r : Nat → Nat × Flags) : Flags := (List.range 8).foldl (fun f i => f.join (r i).2) {}
      (Acts (.cvq8 o) s cx →
        let x (k : Nat) : FVal := fpVal (fpFmt st) (cx.a s / 2 ^ (16 * k) % 2 ^ 16)
        ((∀ k, k < 8 → (x k).isNan ∨ (x k).isZero) →
          let q (k : Nat) : Nat × Flags := if (x k).isNan then (0, { iv := true }) else (if (x k).neg? then 8 else 0, {})
          ∃ w, GivesF (.cvq8 o) s cx (w, joined q) ∧ w < 2 ^ 32 ∧ ∀ k, k < 8 → w / 16 ^ k % 16 = (q k).1) ∧
        (∀ c, c < 256 → (∃ k, k < 8 ∧ (x k).isNan = false ∧ (x k).isZero = false) →
          let infinite : Prop := ∃ k n, k < 8 ∧ x k = .inf n
          let covers (e : Nat) : Prop := ∀ k n m, k < 8 → x k = .fin n m →
            fle (.fin false m) (.fin false { scale e with num := 6 * (scale e).num })
          (infinite ∧ c = 255) ∨ (¬ infinite ∧ c = 255 ∧ ∀ e, e < 256 → ¬ covers e) ∨
            (¬ infinite ∧ covers c ∧ ∀ e, e < c → ¬ covers e) →
          let ratio (v : FVal) : FVal := match v with
            | .fin n m => .fin n { num := m.num, den := (scale c).num, ex := m.ex - (scale c).ex }
            | .inf n => .inf n
            | .nan g => .nan g
          let q (k : Nat) : Nat × Flags :=
            roundFp (fpFmt .e2m1) mode ((BitVec.ofNat 32 (cx.b s)).rotateLeft (4 * k)).toNat false (ratio (x k))
          ∃ w, GivesF (.cvq8 o) s cx (w, joined q) ∧ w / 2 ^ 32 = c ∧ ∀ k, k < 8 → w / 16 ^ k % 16 = (q k).1)) ∧
      (Acts (.dq o) s cx →
        let weight (nib : Nat) : FVal :=
          if st = .i8 then intVal (BitVec.ofNat 4 nib).toInt else fpVal (fpFmt .e2m1) nib
        let elem (k : Nat) : Nat × Flags :=
          let p := fmulX (weight (cx.a s / 16 ^ k % 16)) (.fin false (scale (cx.b s % 256)))
          let q := fmulX p.1 (fpVal (fpFmt .bf16) (cx.c s % 2 ^ 16))
          let r := roundFp (fpFmt .bf16) 0 0 sat q.1
          (r.1, (p.2.join q.2).join r.2)
        ∃ w, GivesF (.dq o) s cx (w, joined elem) ∧ w < 2 ^ 128 ∧
          ∀ k, k < 8 → w / 2 ^ (16 * k) % 2 ^ 16 = (elem k).1)) ∧
  (∀ (o : Ops) (s : State) (cx : Ctx), Acts (.rnd o) s cx →
      let th := getThread s cx.t
      let mix (z : DWord) : DWord :=
        let z := (z ^^^ (z >>> 30)) * 0xBF58476D1CE4E5B9
        let z := (z ^^^ (z >>> 27)) * 0x94D049BB133111EB
        z ^^^ (z >>> 31)
      let key := threadWorkid s cx.t
      let bits := mix (mix (th.rndctr ^^^ mix (key + 0x9E3779B97F4A7C15)) + key)
      ∃ u v, exec (.rnd o) s = .next u ∧ Holds u cx.t cx.dst v ∧ (getThread u cx.t).rndctr = th.rndctr + 1 ∧
        (getThread u cx.t).fstat = th.fstat ∧ (getThread u cx.t).pc = nextPc th.pc ∧ u.mem = s.mem ∧
        (cx.o.ty = .n64 → v = bits.toNat) ∧ (cx.o.ty = .n32 → v = bits.toNat % 2 ^ 32) ∧
        (cx.o.ty = .f32 →
          v = (roundFp (fpFmt .f32) 0 0 false (.fin false { num := bits.toNat / 2 ^ 40, ex := -24 })).1))

/-- The special-function unit: the instruction starts it and the thread goes on. The special cases of Table 5-10 with
their flags: a NaN operand, zeros, infinities, negative operands, whole powers of two. Late writes, SFU_RESULT_WRITE
and SPK24_RESULT_WRITE: a unit's next result goes to its destination with its flags, and the thread's other late
writes wait on; those of the lower lanes to the same group scalar have been written before it (R37); without one,
nothing happens (R137, R148, R149, R277). -/
def Obligations.SpecialFunctionResults : Prop :=
  (∀ (o : Ops) (s : State) (cx : Ctx),
      let ty := cx.o.ty
      let sat := cx.o.mod.getLsbD 3
      let mode := cx.o.mod.toNat % 8
      let x := fpVal (fpFmt ty) (cx.a s)
      let y := fpVal (fpFmt ty) (cx.b s)
      (Acts (.frcp o) s cx →
        Starts (.frcp o) s cx (rounded ty 0 0 sat (fdivX (.fin false { num := 1 }) x)) false) ∧
      (Acts (.frsq o) s cx → Starts (.frsq o) s cx (rounded ty 0 0 sat (frsqX x)) false) ∧
      (Acts (.fsqrt o) s cx → Starts (.fsqrt o) s cx (rounded ty mode 0 sat (fsqrtX x)) false) ∧
      (Acts (.fdiv o) s cx → Starts (.fdiv o) s cx (rounded ty mode (cx.c s) sat (fdivX x y)) false) ∧
      (Acts (.fexp2 o) s cx → Starts (.fexp2 o) s cx (sfuN .exp2 (fpFmt ty) sat (cx.a s)) false) ∧
      (Acts (.flog2 o) s cx → Starts (.flog2 o) s cx (sfuN .log2 (fpFmt ty) sat (cx.a s)) false) ∧
      (Acts (.fsin o) s cx → Starts (.fsin o) s cx (sfuN .sin (fpFmt ty) sat (cx.a s)) false) ∧
      (Acts (.fcos o) s cx → Starts (.fcos o) s cx (sfuN .cos (fpFmt ty) sat (cx.a s)) false) ∧
      (Acts (.ftanh o) s cx → Starts (.ftanh o) s cx (sfuN .tanh (fpFmt ty) sat (cx.a s)) false)) ∧
  (∀ (o : Ops) (s : State) (cx : Ctx) (i : Instr),
      let ty := cx.o.ty
      let sat := cx.o.mod.getLsbD 3
      let mode := cx.o.mod.toNat % 8
      let x := fpVal (fpFmt ty) (cx.a s)
      let y := fpVal (fpFmt ty) (cx.b s)
      let same := cx.a s % 2 ^ tyBits ty
      let iv (b : Bool) : Nat × Flags := (canonNaN ty, { iv := b })
      let R (v : FVal) (fl : Flags := {}) : Nat × Flags := rounded ty 0 0 sat (v, fl)
      let zero : FVal := .fin false { num := 0 }
      let one : FVal := .fin false { num := 1 }
      (i ∈ [Instr.frcp o, .frsq o, .fsqrt o, .fexp2 o, .flog2 o, .fsin o, .fcos o, .ftanh o] → Acts i s cx →
        x.isNan → Starts i s cx (iv x.isSig) false) ∧
      (Acts (.fdiv o) s cx →
        (x.isNan || y.isNan → Starts (.fdiv o) s cx (iv (x.isSig || y.isSig)) false) ∧
        (x.isZero → y.isZero → Starts (.fdiv o) s cx (iv true) false) ∧
        (∀ n k, x = .inf n → y = .inf k → Starts (.fdiv o) s cx (iv true) false) ∧
        (∀ n m, x = .fin n m → x.isZero = false → y.isZero →
          Starts (.fdiv o) s cx (rounded ty mode (cx.c s) sat (.inf (n != y.neg?), { dz := true })) false)) ∧
      (i ∈ [Instr.frsq o, .fsqrt o, .flog2 o] → Acts i s cx → x.isNan = false → x.isZero = false → x.neg? →
        Starts i s cx (iv true) false) ∧
      (i ∈ [Instr.frcp o, .frsq o] → Acts i s cx → x.isZero →
        Starts i s cx (R (.inf x.neg?) { dz := true }) false) ∧
      (∀ n, Acts (.frcp o) s cx → x = .inf n → Starts (.frcp o) s cx (R (.fin n { num := 0 })) false) ∧
      (Acts (.frsq o) s cx → x = .inf false → Starts (.frsq o) s cx (R zero) false) ∧
      (i ∈ [Instr.fsqrt o, .fsin o, .ftanh o] → Acts i s cx → x.isZero → Starts i s cx (same, {}) false) ∧
      (Acts (.fsqrt o) s cx → x = .inf false →
        Starts (.fsqrt o) s cx (rounded ty mode 0 sat (.inf false, {})) false) ∧
      (Acts (.fexp2 o) s cx → x = .inf true → Starts (.fexp2 o) s cx (R zero) false) ∧
      (i ∈ [Instr.fexp2 o, .flog2 o] → Acts i s cx → x = .inf false → Starts i s cx (R (.inf false)) false) ∧
      (∀ n m (k : Nat), Acts (.fexp2 o) s cx → x = .fin n m →
        m.num * 2 ^ m.ex.toNat = k * 2 ^ (-m.ex).toNat →
        (k ≤ 4000 →
          Starts (.fexp2 o) s cx (R (.fin false { num := 1, ex := if n then -(k : Int) else k })) false) ∧
        (4000 < k → n = true → Starts (.fexp2 o) s cx (0, { uf := true, nx := true }) false) ∧
        (4000 < k → n = false →
          Starts (.fexp2 o) s cx ((R (.inf false)).1, { ovf := true, nx := true }) false)) ∧
      (Acts (.flog2 o) s cx → x.isZero →
        Starts (.flog2 o) s cx ((R (.inf true)).1, (R (.inf true)).2.join { dz := true }) false) ∧
      (∀ m (j : Nat), Acts (.flog2 o) s cx → x = .fin false m → m.num = 2 ^ j →
        Starts (.flog2 o) s cx (R (intVal (m.ex + j))) false) ∧
      (Acts (.fcos o) s cx → x.isZero → Starts (.fcos o) s cx (R one) false) ∧
      (∀ n, i ∈ [Instr.fsin o, .fcos o] → Acts i s cx → x = .inf n → Starts i s cx (iv true) false) ∧
      (∀ n, Acts (.ftanh o) s cx → x = .inf n → Starts (.ftanh o) s cx (R (.fin n { num := 1 })) false)) ∧
  (∀ (s : State) (grp gi : Nat) (spk : Bool),
      let t : Tid := ⟨grp, gi⟩
      let i : Instr := if spk then .spk24ResultWrite grp gi else .sfuResultWrite grp gi
      (∀ l, (getThread s t).late.find? (fun x => x.spk = spk) = some l →
        let q := if l.dst.shared then (lowerLanes s t).foldl (makeSame l.dst) s else s
        ∃ u, exec i s = .next u ∧ Untouched q u t l.dst ∧
          (gi < (threadGroup s t).threads.length → Holds u t l.dst l.value.toNat) ∧
          (l.dst.shared = true → ∀ v ∈ lowerLanes s t, ∀ m ∈ (getThread u v).late, m.dst ≠ l.dst) ∧
          getThread u t = { getThread s t with
            regs := (getThread u t).regs, rpoison := (getThread u t).rpoison, preds := (getThread u t).preds,
            late := (getThread s t).late.erase l, fstat := (getThread s t).fstat.join l.flags }) ∧
      ((getThread s t).late.find? (fun x => x.spk = spk) = none → exec i s = .next s))

/-! ## Control -/

/-- A thread that ends its block with nothing pending waits at its successor in its core's block table or overflow
list, and nothing else of the machine changes but that core (R72, R73). Outside a handler a pending CANCEL is taken
there first, and clears its bit; a pending user interrupt is taken when no CANCEL is, with its cause in TADDR; TEPC is
the block's successor and the record's flag of a block end is set (R310). -/
def Obligations.BlockEndsPostOrTakeInterrupts : Prop :=
  (∀ (s : State) (t : Tid) (pc : DWord), t.gi < (threadGroup s t).threads.length → goesOn s t = true →
      nonePending s t = true →
      Posted (endBlock s t pc) t pc ∧
        getThread (endBlock s t pc) t = { getThread s t with pc := pc, run := .ready, counted := false } ∧
        (∀ v, v ≠ t → getThread (endBlock s t pc) v = getThread s v) ∧
        (∀ c, c ≠ threadCore s t → getCore (endBlock s t pc) c = getCore s c) ∧
        (∀ g, getGroup (endBlock s t pc) g =
          { getGroup s g with threads := (getGroup (endBlock s t pc) g).threads }) ∧
        endBlock s t pc =
          { s with groups := (endBlock s t pc).groups, cores := (endBlock s t pc).cores }) ∧
  (∀ (s : State) (t : Tid) (succ : DWord), (getThread s t).inTrap = false →
      ((getThread s t).cancelPend = true →
        endBlock s t succ =
          takeTrapWith (modThread s t fun th => { th with cancelPend := false }) t { code := .cancel } succ 1) ∧
      ((getThread s t).cancelPend = false → (getThread s t).uiPend = true →
        endBlock s t succ =
          takeTrapWith s t { code := .userInt, addr := (getThread s t).uiCause.setWidth 64 } succ 1))

/-- `BR`, `JMPI` and `YIELD` go to their destination, and `CALL` and `CALLI` with the return point in LINK and
CALLDEPTH one deeper, once the destination has passed its checks. `RET` returns to LINK, or to the pair it names, one
call less deep, and leaves every set that it entered deeper, one after the other; `EXIT` leaves every set and puts the
thread in DONE. Either parks while the thread's signature stands in a set that it would leave. A destination that
fails its checks is taken at the instruction's own slot; a call at depth 65,535 is CALL_OVERFLOW, a return at depth 0
RET_UNDERFLOW; while the PASID is DYING, or the fetch awaits a walk, the thread parks (R28, R45, R46, R86 to R91,
R114, R231, R330, R332). -/
def Obligations.ControlTransfers : Prop :=
  (∀ (o : Ops) (s : State) (cx : Ctx) (u : State),
      let t := cx.t
      let pc := (getThread s t).pc
      let label := branchTo pc cx.o.imm
      let pair := BitVec.ofNat 64 (cx.a s)
      let goes (i : Instr) (dest : DWord) : Prop :=
        Acts i s cx → Passes (issued i s t) t dest u → exec i s = .next (endBlock u t dest)
      let calls (i : Instr) (dest : DWord) : Prop :=
        Acts i s cx → Passes (issued i s t) t dest u → (getThread u t).callDepth < 65535 →
        exec i s = .next (endBlock (modThread u t fun th =>
          { th with link := nextPc th.pc, callDepth := th.callDepth + 1 }) t dest)
      goes (.br o) label ∧ goes (.jmpi o) pair ∧ goes (.yield o) (nextPc pc) ∧
        calls (.call o) label ∧ calls (.calli o) pair) ∧
  (∀ (o : Ops) (s : State) (cx : Ctx) (u : State),
      let t := cx.t
      let dest := if cx.o.a = .gz then (getThread s t).link else BitVec.ofNat 64 (cx.a s)
      let d := (getThread s t).callDepth
      (Acts (.ret o) s cx → 0 < d → Passes (issued (.ret o) s t) t dest u →
        (∀ e ∈ (getGroup u t.grp).sets, enteredDeeper t.gi (d - 1) e.2 = false) →
        exec (.ret o) s = .next (endBlock (modThread u t fun th => { th with callDepth := d - 1 }) t dest)) ∧
      (Acts (.ret o) s cx → 0 < d → Passes (issued (.ret o) s t) t dest u →
        let deeper := fun (_ : Nat) (x : JSet) => enteredDeeper t.gi (d - 1) x
        let w := modThread u t fun th => { th with callDepth := d - 1 }
        (signedBar u t deeper = none →
          exec (.ret o) s = .next (endBlock (leftSets w t (setsOf w t deeper)) t dest)) ∧
        (∀ j, signedBar u t deeper = some j → exec (.ret o) s = .next (parkRetry u t (.leaving j)))) ∧
      (Acts (.exit o) s cx → (∀ e ∈ (getGroup s t.grp).sets, e.2.has t.gi = false) →
        exec (.exit o) s = .next (retireGang (modThread (issued (.exit o) s t) t fun th =>
          { th with tokens := [], run := .done, counted := false }) (threadGroup s t).gang)) ∧
      (Acts (.exit o) s cx →
        let z := issued (.exit o) s t
        let all := fun (_ : Nat) (_ : JSet) => true
        let w := modThread (leftSets z t (setsOf z t all)) t fun th =>
          { th with tokens := [], run := .done, counted := false }
        (signedBar z t all = none → exec (.exit o) s = .next (retireGang w (threadGroup w t).gang)) ∧
        (∀ j, signedBar z t all = some j → exec (.exit o) s = .next (parkRetry z t (.leaving j))))) ∧
  (∀ (o : Ops) (s : State) (cx : Ctx) (u : State) (e : Exc),
      let t := cx.t
      let label := branchTo (getThread s t).pc cx.o.imm
      let bad (i : Instr) (dest : DWord) : Prop :=
        (Acts i s cx → fetchStopped (issued i s t) t = false → misses (issued i s t) t dest = false →
          checkDest (issued i s t) t dest = (some e, u) → exec i s = .next (takeTrap u t e)) ∧
        (Acts i s cx → fetchStopped (issued i s t) t = false → misses (issued i s t) t dest = true →
          exec i s = .next (missPark (issued i s t) t (lineOf dest))) ∧
        (Acts i s cx → fetchStopped (issued i s t) t = true →
          exec i s = .next (parkRetry (issued i s t) t .dying))
      let deep (i : Instr) (dest : DWord) : Prop :=
        Acts i s cx → Passes (issued i s t) t dest u → 65535 ≤ (getThread u t).callDepth →
          exec i s = .next (takeTrap u t { code := .callOverflow, addr := dest })
      bad (.br o) label ∧ bad (.jmpi o) (BitVec.ofNat 64 (cx.a s)) ∧ bad (.call o) label ∧
        bad (.calli o) (BitVec.ofNat 64 (cx.a s)) ∧ bad (.yield o) (nextPc (getThread s t).pc) ∧
        (0 < (getThread s t).callDepth →
          bad (.ret o) (if cx.o.a = .gz then (getThread s t).link else BitVec.ofNat 64 (cx.a s))) ∧
        deep (.call o) label ∧ deep (.calli o) (BitVec.ofNat 64 (cx.a s)) ∧
        (Acts (.ret o) s cx → (getThread s t).callDepth = 0 →
          exec (.ret o) s = .next (takeTrap (issued (.ret o) s t) t { code := .retUnderflow })) ∧
        (∀ dest : DWord, (dest.toNat / 8 % 8 ≠ 0 ∨ 4 < dest.toNat % 8) →
          checkDest s t dest = (some { code := .badTarget, addr := dest }, s)))

/-! ## Rejoin sets and cross-lane instructions -/

/-- `JNEW`, `JENT` and `JQUIT` (R111 to R113): what they do to the set, and SET_BUSY and SET_LANE_CLASH with the set's
number. `JINFO`: the values of Table 4-4 (R119). Leaving a set, at `JQUIT`, `RET` or `EXIT`: the thread is no member
and no arrival of it; an empty set keeps its class alone; while some member left has not arrived, no thread is
touched; when all that are left have arrived, the departure completes their arrival (R113, R114); when all that are
left have signed, it completes the pending signing, which becomes an operation, and those who waited for that go on
(R231). -/
def Obligations.SetMembership : Prop :=
  (∀ (s : State) (t : Tid) (j : Nat),
    let x := getSet s t.grp j
    let left : JSet := { x with members := mdel x.members t.gi, arrived := mdel x.arrived t.gi }
    let signs := match x.signing with
      | some g => left.members.all fun m => g.rows.any fun e => e.2.gi = m.1
      | none => false
    let r := leaveSet s t j
    let keeps : Prop := (∀ v, getThread r v = getThread s v) ∧ r.mem = s.mem ∧
      ∀ m, m ≠ j → getSet r t.grp m = getSet s t.grp m
    (x.has t.gi = false → r = s) ∧
    (x.has t.gi = true → left.members = [] → getSet r t.grp j = { lx := x.lx } ∧ keeps) ∧
    (x.has t.gi = true → left.members ≠ [] → signs = false → mkeys left.members ≠ mkeys left.arrived →
      getSet r t.grp j = left ∧ keeps) ∧
    (∀ i, x.has t.gi = true → left.members ≠ [] → signs = false → mkeys left.members = mkeys left.arrived →
      x.what = some i →
      let w := afterArrival (modSet s t.grp j fun _ => left) t.grp j i
      r = modSet w t.grp j fun y => if y.members.isEmpty then { lx := y.lx } else y) ∧
    (∀ sg, x.has t.gi = true → left.members ≠ [] → signs = true → x.signing = some sg →
      let z := (checkSigning (modSet s t.grp j fun _ => left) t.grp j).2
      (mkeys left.members ≠ mkeys left.arrived → r = modSet z t.grp j id ∧
        getSet r t.grp j = { left with signing := none } ∧ (∀ m, m ≠ j → getSet r t.grp m = getSet s t.grp m) ∧
        (∃ o, mfind r.ops s.nextId = some o ∧ o.kind = .sign sg.kind sg.rows j ∧ o.grp = t.grp ∧
          o.dest = sg.dest ∧ o.threads = ranked (sg.rows.map fun e => e.2.gi)) ∧
        ∀ v, v.grp = t.grp → v.gi < (threadGroup s v).threads.length → (getThread s v).strict = none →
          (getThread s v).run = .parked (.signing j) ∨ (getThread s v).run = .parked (.leaving j) →
          (getThread r v).run = .ready ∧ (getThread r v).pc = (getThread s v).pc) ∧
      (∀ i, mkeys left.members = mkeys left.arrived → x.what = some i →
        r = modSet (afterArrival z t.grp j i) t.grp j fun y => if y.members.isEmpty then { lx := y.lx } else y))) ∧
  ∀ (o : Ops) (s : State) (cx : Ctx),
    let t := cx.t
    let gi := t.gi
    let d := opndNum cx.o.dst
    let j := opndNum cx.o.a
    let x := getSet s t.grp j
    let next := nextPc (getThread s t).pc
    let does (i : Instr) (n : Nat) (y : JSet) : Prop :=
      ∃ u, exec i s = .next u ∧ getSet u t.grp n = y ∧
        (∀ m, m ≠ n → getSet u t.grp m = getSet s t.grp m) ∧ u.mem = s.mem ∧
        getThread u t = { getThread (issued i s t) t with pc := next, counted := false }
    let traps (i : Instr) (c : Code) (n : Nat) : Prop :=
      exec i s = .next (takeTrap (issued i s t) t { code := c, addr := BitVec.ofNat 64 n })
    let clash : Bool := x.lx && x.members.any fun m => m.1 % 32 = gi % 32
    (Acts (.jnew o) s cx → (getSet s t.grp d).members = [] →
      does (.jnew o) d { lx := cx.o.mod.getLsbD 0 }) ∧
    (Acts (.jnew o) s cx → (getSet s t.grp d).members ≠ [] → traps (.jnew o) .setBusy d) ∧
    (Acts (.jent o) s cx → x.has gi = true → does (.jent o) j x) ∧
    (Acts (.jent o) s cx → x.has gi = false → clash = true → traps (.jent o) .setLaneClash j) ∧
    (Acts (.jent o) s cx → x.has gi = false → clash = false →
      does (.jent o) j { x with members := mput x.members gi (getThread s t).callDepth }) ∧
    (Acts (.jquit o) s cx → x.has gi = false → x.signing = none → does (.jquit o) j x) ∧
    (Acts (.jquit o) s cx → mkeys x.members = [gi] → x.arrived = [] → x.signing = none →
      does (.jquit o) j { lx := x.lx }) ∧
    (Acts (.jquit o) s cx → hasSigned x gi = false →
      exec (.jquit o) s = .next (advance (leaveSet (issued (.jquit o) s t) t j) t)) ∧
    (Acts (.jquit o) s cx → hasSigned x gi = true →
      exec (.jquit o) s = .next (parkRetry (issued (.jquit o) s t) t (.leaving j))) ∧
    (Acts (.jinfo o) s cx →
      let gives (n : Nat) : Prop := Gives (.jinfo o) s cx n
      (cx.o.mod = 0 → gives x.members.length) ∧ (cx.o.mod = 1 → gives x.arrived.length) ∧
      (cx.o.mod = 2 → gives x.lx.toNat) ∧
      (∀ k, cx.o.mod = 3 → (ranked (mkeys x.members))[k]? = some gi → (mkeys x.members).Nodup → gives k) ∧
      (cx.o.mod = 3 → x.has gi = false → gives 0xFFFFFFFF) ∧
      (∀ n, cx.o.mod = 4 → (∀ k, n.testBit k = (decide (k < 32) && x.members.any fun m => m.1 % 32 = k)) →
        gives n) ∧
      (∀ n, cx.o.mod = 5 → (∀ k, n.testBit k = (decide (k < 32) && x.arrived.any fun m => m.1 % 32 = k)) →
        gives n) ∧
      (∀ n, cx.o.mod = 6 → mfind x.members gi = some n → gives n) ∧
      (cx.o.mod = 6 → x.has gi = false → gives 0xFFFFFFFF) ∧
      (cx.o.mod = 7 → gives (x.has gi).toNat))

/-- An arrival at a set of which the thread is no member is SET_NOT_MEMBER, and one at another slot than the arrivals
pending there SET_MISMATCH, with the set's number in TADDR. Otherwise it records its capture and its successors and
parks the thread, which goes on when every member has arrived; the others than a set-uniform branch have checked the
next slot, and `SHFL` on a set without lane exclusion is SET_MODE past that check (R28, R51, R115, R120 to R126). That
a set-uniform branch has checked both of its successors by then is the model's reading (logs 32 and 39); so is
SET_MODE of `SHFL` behind the check of the next slot, and membership before INDEX_BOUND and POISON (log 21). -/
def Obligations.ArrivalsJoinTheirSet : Prop :=
  ∀ (o : Ops) (s : State) (cx : Ctx) (i : Instr) (u v : State) (vo : VoteOp) (sh : ShflOp) (mo : MatchOp)
    (ro : RducOp) (so : RedOp),
    let t := cx.t
    let j := opndNum cx.o.a
    let dest := branchTo (getThread s t).pc cx.o.imm
    let next := nextPc (getThread s t).pc
    let cap (w : State) (taken : DWord) : Capture := { captured i cx w with taken := taken, next := next }
    (i ∈ [Instr.bany o, .ball o, .bnone o] → Arrives i s cx → Passes (issued i s t) t dest u →
      Passes u t next v → exec i s = .next (arriveAt i j t (cap (issued i s t) dest) v)) ∧
    (i ∈ [Instr.jwait o, .vote vo o, .matchLanes mo o, .rduc ro o, .scan so o] → Arrives i s cx →
      Passes (issued i s t) t next v → exec i s = .next (arriveAt i j t (cap (issued i s t) next) v)) ∧
    (∀ (c : Cursor) (r : Ops) (f : Fmt), isArrival i = true → s.cur = some c → form i = some (r, f) →
      legalHere s c.tid i r f = true → guardTrue s c.tid r.guard = true →
      let k := opndNum r.a
      let x := getSet s c.tid.grp k
      let traps (e : Code) : Prop :=
        exec i s = .next (takeTrap (issued i s c.tid) c.tid { code := e, addr := BitVec.ofNat 64 k })
      (x.has c.tid.gi = false → traps .setNotMember) ∧
      (x.has c.tid.gi = true → x.arrived ≠ [] → x.pending ≠ (getThread s c.tid).pc → traps .setMismatch)) ∧
    (i = .shfl sh o → Arrives i s cx → (getSet s t.grp j).lx = true → Passes (issued i s t) t next v →
      exec i s = .next (arriveAt i j t (cap (issued i s t) next) v)) ∧
    (i = .shfl sh o → Arrives i s cx → (getSet s t.grp j).lx = false → Passes (issued i s t) t next v →
      exec i s = .next (takeTrap v t { code := .setMode, addr := BitVec.ofNat 64 j }))

/-- While some member has not arrived, an arrived thread is parked with its capture in the set and no member has its
result; when the last arrives, every one is given its result in rank order and ends its block at its own successor: in
ascending GINDEX those that post, and then in rank order those that take CANCEL or a user interrupt there (R110, R115,
R310). What a member is given stands in its destination and in FSTAT, and for `SHFL` in its miss
predicate. -/
def Obligations.ArrivalsWaitForEveryMember : Prop :=
  (∀ (s : State) (t : Tid) (i : Instr) (j : Nat) (c : Capture),
      let x := getSet s t.grp j
      t.gi < (threadGroup s t).threads.length →
      let arrived := mput x.arrived t.gi c
      let r := arriveAt i j t c s
      (mkeys x.members ≠ mkeys arrived →
        (getThread r t).run = .parked (.arrived j) ∧
        getSet r t.grp j = { x with pending := (getThread s t).pc, what := some i, arrived := arrived } ∧
        (∀ v, v ≠ t → getThread r v = getThread s v) ∧ r.mem = s.mem) ∧
      (mkeys x.members = mkeys arrived → x.members ≠ [] →
        let caps := (ranked (mkeys arrived)).map fun gi => (gi, mget {} arrived gi)
        let p := park (modSet s t.grp j fun x =>
          { x with pending := (getThread s t).pc, what := some i, arrived := arrived }) t (.arrived j)
        let given := (caps.zip (setResults i caps)).foldl (giveMember t.grp) p
        let clear := modSet given t.grp j fun x => { x with arrived := [], pending := 0, what := none }
        r = (endOrder clear t.grp (mkeys arrived)).foldl (fun s gi =>
          let m := mget {} arrived gi
          endBlock s ⟨t.grp, gi⟩ (if branchTaken i caps then m.taken else m.next)) clear)) ∧
  (∀ (s : State) (grp : Nat) (e : (Nat × Capture) × Given),
      let t : Tid := ⟨grp, e.1.1⟩
      let v := giveMember grp s e
      t.gi < (threadGroup s t).threads.length → (e.2.miss = none ∨ ∀ n, e.1.2.dst ≠ .pred n) →
      Holds v t e.1.2.dst e.2.v ∧ (getThread v t).fstat = (getThread s t).fstat.join e.2.flags ∧
        (∀ b, e.2.miss = some b → readPred v t e.1.2.pmiss = (decide (7 ≤ e.1.2.pmiss) || b)) ∧
        (getThread v t).pc = (getThread s t).pc ∧ (getThread v t).run = (getThread s t).run ∧
        (∀ x, x ≠ t → getThread v x = getThread s x) ∧ v = { s with groups := v.groups })

/-- Ranks: a set's members in ascending LANE and, within one lane, ascending TURN (R110). What the members of a
complete set are given, one each: votes, matches, the reduction of every operation in the tree of R124 and the running
values of every scan with the flags of their steps, and under `RDUC.maxi` the greatest key, then the lowest index,
then the lowest rank. `SHFL`: each member reads the lane its selector names within its segment of 2^MOD lanes, or
keeps its fallback with the miss predicate set where that lane is outside the segment or holds no member (R121 to
R126). A captured NaN is taken as the canonical NaN, with IV for a signalling one (R134), also where no step follows
(log 66). -/
def Obligations.CrossLaneResults : Prop :=
  (∀ gis : List Nat, (∀ g ∈ gis, g < 2048) → gis.Nodup →
      (ranked gis).Perm gis ∧
        (ranked gis).Pairwise fun a b => a % 32 < b % 32 ∨ a % 32 = b % 32 ∧ a / 32 < b / 32) ∧
  (∀ (i : Instr) (caps : List (Nat × Capture)), (setResults i caps).length = caps.length) ∧
  (∀ (o : Ops) (op : RedOp) (caps : List (Nat × Capture)), reduces op o.ty = true → caps ≠ [] →
      (isFloat o.ty = false → ∀ c ∈ caps, c.2.a.toNat < 2 ^ bitsWide o.ty) →
      let taken (c : Nat × Capture) : Given :=
        let v := c.2.a.toNat
        let x := fpVal (fpFmt o.ty) v
        if isFloat o.ty then
          if x.isNan then { v := canonNaN o.ty, flags := { iv := x.isSig } } else { v := v % 2 ^ tyBits o.ty }
        else { v := v }
      let joined (x y : Given) : Given :=
        { v := (combined op o.ty x.v y.v).1, flags := (x.flags.join y.flags).join (combined op o.ty x.v y.v).2 }
      let tree (l : List (Nat × Capture)) : Given := (setResults (.rduc (.tree op) o) l).headD {}
      let scan (m : BitVec 4) (k : Nat) : Given := (setResults (.scan op { o with mod := m }) caps).getD k {}
      let p := 2 ^ Nat.log2 (caps.length - 1)
      setResults (.rduc (.tree op) o) caps = caps.map (fun _ => tree caps) ∧
        (∀ c, caps = [c] → tree caps = taken c) ∧
        (2 ≤ caps.length → tree caps = joined (tree (caps.take p)) (tree (caps.drop p))) ∧
        (∀ c, caps[0]? = some c → scan 0 0 = taken c) ∧
        (∀ (k : Nat) (c : Nat × Capture), caps[k + 1]? = some c →
          scan 0 (k + 1) = joined (scan 0 k) (taken c)) ∧
        scan 1 0 = { v := identityOf op o.ty } ∧
        (∀ k, k + 1 < caps.length → scan 1 (k + 1) = scan 0 k)) ∧
  (∀ (o : Ops) (caps : List (Nat × Capture)), caps ≠ [] →
      let key (c : Nat × Capture) : Nat := amxKey o.ty c.2.a.toNat
      let ix (c : Nat × Capture) : Nat := c.2.sel.toNat
      ∃ (k : Nat) (c : Nat × Capture), caps[k]? = some c ∧
        (∀ (m : Nat) (d : Nat × Capture), caps[m]? = some d →
          key d < key c ∨ key d = key c ∧ (ix c < ix d ∨ ix c = ix d ∧ k ≤ m)) ∧
        setResults (.rduc .maxi o) caps =
          caps.map fun _ => { v := c.2.a.toNat % 2 ^ tyBits o.ty + 2 ^ 32 * ix c }) ∧
  (∀ (ty : Ty) (a b : Nat),
      let x := fpVal (fpFmt ty) a
      let y := fpVal (fpFmt ty) b
      (ty = .n32 ∨ ty = .i32 → (amxKey ty a ≤ amxKey ty b ↔ num ty a ≤ num ty b)) ∧
        (ty ∈ [Ty.f32, .f16, .bf16] →
          (x.isNan → y.isNan → amxKey ty a = amxKey ty b) ∧
          (x.isNan → y.isNan = false → amxKey ty b < amxKey ty a) ∧
          (x.isNan = false → y.isNan = false → (amxKey ty a ≤ amxKey ty b ↔ belowZ x y = true)))) ∧
  (∀ (o : Ops) (caps : List (Nat × Capture)), caps ≠ [] →
      let values (i : Instr) : List Nat := (setResults i caps).map Given.v
      let all (v : Nat) : List Nat := caps.map fun _ => v
      let ps := caps.map fun c => c.2.p
      let w := iw o.ty
      let xs := caps.map fun c => c.2.a.toNat
      values (.vote .every o) = all (if ∀ p ∈ ps, p = true then 1 else 0) ∧
        values (.vote .some o) = all (if ∃ p ∈ ps, p = true then 1 else 0) ∧
        values (.vote .nobody o) = all (if ∃ p ∈ ps, p = true then 0 else 1) ∧
        values (.vote .same o) = all (if (∀ p ∈ ps, p = true) ∨ ∀ p ∈ ps, p = false then 1 else 0) ∧
        values (.vote .count o) = all (ps.count true) ∧
        (∀ k < 32, ∀ v ∈ values (.vote .mask o), v.testBit k = caps.any fun c => c.1 % 32 = k && c.2.p) ∧
        (∀ k < 32, ∀ e ∈ caps.zip (values (.matchLanes .peers o)),
          e.2.testBit k = caps.any fun c => c.1 % 32 = k && c.2.a = e.1.2.a) ∧
        (∀ k < 32, ∀ v ∈ values (.matchLanes .agree o), v.testBit k =
          (decide (∀ c ∈ caps, ∀ d ∈ caps, c.2.a = d.2.a) && caps.any fun c => c.1 % 32 = k)) ∧
        (∀ i ∈ [Instr.vote .mask o, .matchLanes .peers o, .matchLanes .agree o], ∀ v ∈ values i, v < 2 ^ 32) ∧
        (isFloat o.ty = false → (∀ x ∈ xs, x < 2 ^ w) →
          values (.rduc (.tree .add) o) = all (xs.sum % 2 ^ w) ∧
          (o.mod.getLsbD 0 = false → ∀ k < xs.length,
            (values (.scan .add o)).getD k 0 = (xs.take (k + 1)).sum % 2 ^ w) ∧
          (o.mod.getLsbD 0 = true → ∀ k < xs.length,
            (values (.scan .add o)).getD k 0 = (xs.take k).sum % 2 ^ w))) ∧
  (∀ (o : Ops) (caps : List (Nat × Capture)) (e : (Nat × Capture) × Given) (op : ShflOp),
      o.mod.toNat ≤ 5 → e ∈ caps.zip (setResults (.shfl op o) caps) →
      let w := 2 ^ o.mod.toNat
      let lane := e.1.1 % 32
      let sel := e.1.2.sel.toNat
      let base := lane / w * w
      let pos := lane % w
      let from_ (l : Nat) : Prop :=
        (∀ c, caps.find? (fun x => x.1 % 32 = l) = some c → e.2 = { v := c.2.a.toNat, miss := some false }) ∧
        (caps.find? (fun x => x.1 % 32 = l) = none → e.2 = { v := e.1.2.fallback.toNat, miss := some true })
      let misses : Prop := e.2 = { v := e.1.2.fallback.toNat, miss := some true }
      (op = .abs → from_ (base + sel % w)) ∧
        (op = .rise → (sel ≤ pos → from_ (lane - sel)) ∧ (pos < sel → misses)) ∧
        (op = .fall → (pos + sel < w → from_ (lane + sel)) ∧ (w ≤ pos + sel → misses)) ∧
        (op = .flip → from_ (base + (pos ^^^ sel % w))) ∧
        (op = .rot → from_ (base + (pos + sel) % w)))

/-! ## Memory -/

/-- A load, store, atomic or reservation instruction that passes its checks issues its access as its page and granule
say: into the core's queue, counted and the thread going on; or strict, the thread parked with it, at the home, in its
cluster's copy, behind an Anneal or a page's handover, at the host, on a device, or on the PCIe port (Table 6-1, Table
8-2, R158 to R160, R184, R204, R205, R274). What its granule's class becomes, and which way it goes: from U to R by a
load, to P by a store, to S on a page that forces it; P stays with its owner, R with loads, S stays; any other access
starts an Anneal of the cores and agents that R185 names and waits in its line; the host or a peer makes U, P and, by
a store, R granules S. An overlapped access whose count stands at 255 parks before it issues (R70), and a D access
parks while an overlapped one of the thread is outstanding (R160). That a load by the host leaves an R granule R is log
58, and that an access behind a lower lane's is strict log 63. -/
def Obligations.MemoryInstructionsIssueTheirAccess : Prop :=
  (∀ (i : Instr) (s : State) (cx : Ctx) (op : MemOp) (size : Nat) (d : Dest) (l : Leaf),
      let t := cx.t
      let z := issued i s t
      let va := dataAddr cx s
      let a : Access := { op := op, va := va, pa := l.pa va, size := size, dst := d, host := l.bias }
      let r := (assayRoute z t a l.forceS (strictAlways a)).2
      let way := (assayRoute z t a l.forceS (strictAlways a)).1
      let strict (u : State) (p : Place) : State := beginStrict u t a (some l) p
      Acts i s cx → accessOf i cx s = some (op, size, d) → Reaches s t op va size l →
      (l.ty = .n → way = .queue → op.returns = true → (getThread s t).cntLd < 255 →
        exec i s = .next (enqueue r t a)) ∧
      (l.ty = .n → way = .queue → op.returns = false → (getThread s t).cntSt < 255 →
        exec i s = .next (enqueue r t a)) ∧
      (l.ty = .n → way = .queue → op.returns = true → 255 ≤ (getThread s t).cntLd →
        exec i s = .next (parkRetry z t (.count 0))) ∧
      (l.ty = .n → way = .queue → op.returns = false → 255 ≤ (getThread s t).cntSt →
        exec i s = .next (parkRetry z t (.count 1))) ∧
      (l.ty = .n → way = .home → exec i s = .next (homeRequest (strict r .home) t)) ∧
      (l.ty = .n → way = .core → exec i s = .next (strict r (if laneBehind r t a then .turn else .ready))) ∧
      (l.ty = .n → way = .host → exec i s = .next (strict r .ready)) ∧
      (l.ty = .n → way = .held → exec i s = .next (strict r (.held (l.pa va / 4096)))) ∧
      (l.ty = .n → way = .away → exec i s = .next (strict r (.departing (l.pa va / 65536)))) ∧
      (l.ty = .d → (getThread s t).cntLd = 0 → (getThread s t).cntSt = 0 →
        exec i s = .next (strict z .ready)) ∧
      (l.ty = .d → (getThread s t).cntLd ≠ 0 ∨ (getThread s t).cntSt ≠ 0 →
        exec i s = .next (parkRetry z t .drained)) ∧
      (l.ty = .x → (∃ bs, op = .store bs) → exec i s = .next (strict z .ready)) ∧
      (l.ty = .x → (∀ bs, op ≠ .store bs) → exec i s = .next (strict z .link))) ∧
  (∀ (s : State) (t : Tid) (a : Access) (force scalar : Bool),
      let n := noteLeaf s t a
      let g := a.pa / 4096
      let gr := getGranule n g
      let core := threadCore s t
      let st := a.op.storesClass
      let way := (assayRoute s t a force scalar).1
      let after := getGranule (assayRoute s t a force scalar).2 g
      let ours := a.host = false ∧ classified a.pa false = true ∧ unreached n a.pa = false ∧ pageAway n a.pa = false
      let calm := ours ∧ gr.annealing = none ∧ gr.held = []
      let pair := a.op = .ldrsv ∨ ∃ bs, a.op = .stcnd bs
      let goes (w : Route) (c : Machine.Class) : Prop := way = w ∧ after.cls = c
      let inCore : Route := if scalar || laneBehind n t a then .core else .queue
      let anneals : Prop := way = .held ∧ after.annealing = some (ackers n g, .s) ∧ after.held = [t]
      (calm → gr.cls = .u → force = true → goes .home .s) ∧
      (calm → gr.cls = .u → force = false → st = false → ¬pair → goes inCore .r) ∧
      (calm → gr.cls = .u → force = false → st = true → ¬pair → goes inCore (.p core)) ∧
      (calm → gr.cls = .u → force = false → st = true → pair → goes .home (.p core)) ∧
      (calm → gr.cls = .p core → ¬pair → goes inCore (.p core)) ∧
      (calm → gr.cls = .p core → pair → goes .home (.p core)) ∧
      (∀ o, calm → gr.cls = .p o → o ≠ core → anneals ∧ ackers n g = [.core o]) ∧
      (calm → gr.cls = .r → st = false → ¬pair → goes inCore .r) ∧
      (calm → gr.cls = .r → st = true → ackers n g ≠ [] → anneals) ∧
      (calm → gr.cls = .r → st = true → ackers n g = [] → goes .home .s) ∧
      (calm → gr.cls = .s → goes .home .s) ∧
      (∀ x, ours → gr.annealing = some x → way = .held ∧ after.cls = gr.cls ∧ after.held = gr.held ++ [t]) ∧
      (ours → ackers n g = match gr.cls with
        | .p o => [.core o]
        | .r => (coresOfPart n (ownerPart n (g * 4096))).map Agent.core ++ gr.loaders
        | .u | .s => [])) ∧
  (∀ (who : Agent) (store force : Bool), (∀ c, who ≠ .core c) →
      assayNext .u who store force = (.s, false) ∧ (∀ o, assayNext (.p o) who store force = (.s, true)) ∧
        assayNext .r who store force = (if store then (.s, true) else (.r, false)) ∧
        assayNext .s who store force = (.s, false))

/-- An overlapped access stands last in its core's queue and is counted, and the thread goes on; a strict one is the
thread's outstanding access and parks it. Neither writes memory (R158 to R160, R204). -/
def Obligations.IssuedAccessIsOutstanding : Prop :=
  ∀ (s : State) (t : Tid) (a : Access) (l : Option Leaf) (p : Place), t.gi < (threadGroup s t).threads.length →
    let th := getThread s t
    let u := enqueue s t a
    let v := beginStrict s t a l p
    (getCore u (threadCore s t)).queue = (getCore s (threadCore s t)).queue ++ [{ tid := t, acc := a }] ∧
      (getThread u t).cntLd + (getThread u t).cntSt = th.cntLd + th.cntSt + 1 ∧
      ((getThread u t).cntLd = th.cntLd + 1 ↔ a.op.returns = true) ∧
      (getThread u t).pc = nextPc th.pc ∧ (getThread u t).regs = th.regs ∧ u.mem = s.mem ∧
      (∀ x, x ≠ t → getThread u x = getThread s x) ∧
      getThread v t = { th with
        strict := some { acc := a, place := p, pack := (getCore s (threadCore s t)).packs, leaf := l }
        run := .parked .strict, counted := false } ∧
      (∀ x, x ≠ t → getThread v x = getThread s x) ∧ v = { s with groups := v.groups }

/-- The faults of a data access, in their order, each at the instruction's own slot with the address in TADDR:
MISALIGN, PAGE_FAULT for an address that is not canonical or whose walk failed, PAGE_PERM, ATOMIC_UNSUPPORTED,
RANGE_LOCK; a translation miss parks the thread behind a walk (R164, R196, R203, R330). -/
def Obligations.MemoryAccessFaults : Prop :=
  ∀ (i : Instr) (s : State) (cx : Ctx) (op : MemOp) (size : Nat) (d : Dest),
    let t := cx.t
    let z := issued i s t
    let va := dataAddr cx s
    let tlb := (getCore s (threadCore s t)).tlb
    let hit (l : Leaf) : Prop := tlbLookup tlb (threadPasid s t) va = some l
    let allowed (l : Leaf) : Prop := (op.needsR = true → l.r = true) ∧ (op.needsW = true → l.w = true)
    let traps (c : Code) : Prop := exec i s = .next (takeTrap z t { code := c, addr := va })
    Acts i s cx → accessOf i cx s = some (op, size, d) →
    (va.toNat % size ≠ 0 → traps .misalign) ∧
    (va.toNat % size = 0 → canonical va = false → traps .pageFault) ∧
    (va.toNat % size = 0 → canonical va = true → tlbLookup tlb (threadPasid s t) va = none →
      va.toNat % 2 ^ 57 / 2 ^ 16 ∈ (getThread s t).walkFails →
      exec i s = .next (takeTrap (modThread z t fun th => { th with walkFails := [] }) t
        { code := .pageFault, addr := va })) ∧
    (va.toNat % size = 0 → canonical va = true → tlbLookup tlb (threadPasid s t) va = none →
      va.toNat % 2 ^ 57 / 2 ^ 16 ∉ (getThread s t).walkFails → fetchStopped s t = false →
      exec i s = .next (missPark z t va)) ∧
    (∀ l, va.toNat % size = 0 → canonical va = true → hit l → ¬allowed l → traps .pagePerm) ∧
    (∀ l, va.toNat % size = 0 → canonical va = true → hit l → allowed l → acceptedOn op l = false →
      traps .atomicUnsupported) ∧
    (∀ l, va.toNat % size = 0 → canonical va = true → hit l → allowed l → acceptedOn op l = true →
      lockHit s (some (threadCore s t)) (l.pa va) size op.storesLock = true → traps .rangeLock)

/-- An access to clean memory as it is performed: a load gives the bytes of its type, sign-extended where the type is
signed; a store puts its bytes, the lowest first; an atomic gives the old value and stores what Table 9-2 makes of it
and the operand: the sum modulo 2^w, the signed, unsigned or floating-point lesser or greater, the bitwise result, the
operand; a compare-and-swap stores its new bytes where the old ones match; `AXADD` adds the operand, times 2^200, to
bits [503:0] modulo 2^504, or sets the one bit of a NaN or of an infinity; `AXRD` gives the cell's value rounded once
to binary32, with its flags, and `AXRD.clr` clears the cell; `AMAXI` stores the greater key (R3, R139, R163, R202,
R207 to R211). -/
def Obligations.PerformedAccessResults : Prop :=
  ∀ (s : State) (t : Tid) (a : Access), accessBad s t a = false →
    t.gi < (threadGroup s t).threads.length →
    let old := ofBytesLE (readBytes s a.pa a.size)
    let u := performMem s t a
    let now (n : Nat) : List Byte := readBytes u a.pa n
    (∀ ty ∈ [Ty.n8, .n16, .n32, .n64, .b128], a.op = .load ty → Holds u t a.dst old) ∧
    (∀ ty ∈ [Ty.i8, .i16], a.op = .load ty →
      Holds u t a.dst ((BitVec.ofNat (tyBits ty) old).signExtend 32).toNat) ∧
    (∀ bs, a.op = .store bs → now bs.length = bs) ∧
    (∀ op ty v, a.op = .atom op ty v true → Holds u t a.dst old ∧
      ofBytesLE (now a.size) = atomNew op ty old v.toNat % 2 ^ (8 * a.size)) ∧
    (∀ op ty v, a.op = .atom op ty v false →
      ofBytesLE (now a.size) = atomNew op ty old v.toNat % 2 ^ (8 * a.size)) ∧
    (∀ op ty (v : DWord) ret, a.op = .atom op ty v ret → 8 * a.size = tyBits ty →
      let w := tyBits ty
      let new := ofBytesLE (now a.size)
      let operand := v.toNat % 2 ^ w
      let int (n : Nat) : Int := (BitVec.ofNat w n).toInt
      let x := fpVal (fpFmt ty) old
      let y := fpVal (fpFmt ty) operand
      let below := if x.isZero && y.isZero then x.neg? || !y.neg? else fle x y
      let float (least : Bool) : Nat :=
        if x.isNan && y.isNan then canonNaN ty
        else if x.isNan then operand
        else if y.isNan then old
        else if below = least then old else operand
      (op = .add → new = (old + operand) % 2 ^ w) ∧
      (op = .min → ty ∈ [Ty.n32, .n64] → new = min old operand) ∧
      (op = .max → ty ∈ [Ty.n32, .n64] → new = max old operand) ∧
      (op = .min → ty ∈ [Ty.i32, .i64] → int new = min (int old) (int operand)) ∧
      (op = .max → ty ∈ [Ty.i32, .i64] → int new = max (int old) (int operand)) ∧
      (op = .min → ty ∈ [Ty.f64, .f32, .f16, .bf16] → new = float true) ∧
      (op = .max → ty ∈ [Ty.f64, .f32, .f16, .bf16] → new = float false) ∧
      (op = .and → new = old &&& operand) ∧ (op = .or → new = old ||| operand) ∧
      (op = .xor → new = old ^^^ operand) ∧ (op = .swap → new = operand)) ∧
    (∀ cmp new, a.op = .cas cmp new → Holds u t a.dst old ∧
      (readBytes s a.pa a.size = cmp → now new.length = new) ∧
      (readBytes s a.pa a.size ≠ cmp → u.mem = s.mem)) ∧
    (∀ ty v, a.op = .axadd ty v → a.size = 64 → ty ∈ [Ty.f32, .f16, .bf16] →
      let cell := ofBytesLE (now 64)
      (∀ g, fpVal (fpFmt ty) v.toNat = .nan g → cell = old ||| 2 ^ 504) ∧
      (∀ n, fpVal (fpFmt ty) v.toNat = .inf n → cell = old ||| 2 ^ (if n then 506 else 505)) ∧
      (∀ n m, fpVal (fpFmt ty) v.toNat = .fin n m →
        let units : Int := (if n then -1 else 1) * (m.num * 2 ^ (m.ex + 200).toNat : Nat)
        0 ≤ m.ex + 200 ∧ cell / 2 ^ 504 = old / 2 ^ 504 ∧
          ((cell % 2 ^ 504 : Nat) : Int) = ((old % 2 ^ 504 : Nat) + units) % 2 ^ 504)) ∧
    (∀ clr, a.op = .axrd clr →
      let value : Int := (BitVec.ofNat 504 old).toInt
      let (nan, pinf, ninf) := (old.testBit 504, old.testBit 505, old.testBit 506)
      let r : Nat × Flags :=
        if nan || (pinf && ninf) then (canonNaN .f32, { iv := pinf && ninf })
        else if pinf then (0x7F800000, {})
        else if ninf then (0xFF800000, {})
        else roundFp (fpFmt .f32) 0 0 false (.fin (value < 0) { num := value.natAbs, ex := -200 })
      Holds u t a.dst r.1 ∧ (getThread u t).fstat = (getThread s t).fstat.join r.2 ∧
      (if clr = true then now 64 = List.replicate 64 0 else u.mem = s.mem)) ∧
    (∀ p, a.op = .amaxi p → Holds u t a.dst old ∧
      (if old < p.toNat then now 8 = bytesLE 8 p.toNat else u.mem = s.mem))

/-- An access writes only its own bytes, and only for its own thread: every other byte of memory, every other thread
of the group, every other group, and the thread's PC are as they were; a load, `LDRSV` and a plain `AXRD` leave all of
memory (R182, R202 to R213). -/
def Obligations.AccessWritesOnlyItsBytes : Prop :=
  ∀ (s : State) (t : Tid) (a : Access),
    (∀ bs, a.op = .store bs ∨ a.op = .stcnd bs → bs.length ≤ a.size) →
    (∀ cmp new, a.op = .cas cmp new → new.length ≤ a.size) →
    (∀ ty v, a.op = .axadd ty v → a.size = 64) → (∀ c, a.op = .axrd c → a.size = 64) →
    (∀ p, a.op = .amaxi p → a.size = 8) →
    let u := performMem s t a
    OutsideKept s u a.pa a.size ∧
      (∀ ty, a.op = .load ty → u.mem = s.mem) ∧ (a.op = .ldrsv → u.mem = s.mem) ∧
      (a.op = .axrd false → u.mem = s.mem) ∧
      (∀ k, k ≠ t.grp → getGroup u k = getGroup s k) ∧ (∀ v, v ≠ t → getThread u v = getThread s v) ∧
      (getThread u t).pc = (getThread s t).pc ∧ u.ops = s.ops ∧ u.dir = s.dir ∧ u.assay = s.assay ∧
      u.parts = s.parts

/-- Poisoned data: an access that returns a value marks its registers with the access's address and writes no memory;
a no-return atomic is reported and writes nothing; a load meets the marks of the line's value and of its own cluster's
copy; a store clears the marks of the words it covers, makes the other marks of that copy the line's, and leaves no
mark of any other copy (R175, R190, R216, R362; that an engine or a load meets the marks of a way is log 8). -/
def Obligations.PoisonedMemoryIsMetAsStated : Prop :=
  ∀ (s : State) (t : Tid) (a : Access),
    let u := performMem s t a
    let ck := threadCore s t / 4
    let lineOf (w : Nat) : Prop := a.pa / 128 ≤ w / 16 ∧ w / 16 ≤ (a.pa + a.size - 1) / 128
    (poisoned s a.pa a.size = true → accessBad s t a = true) ∧
    (∀ ty, a.op = .load ty → wayMarked s ck a.pa a.size = true → accessBad s t a = true) ∧
    (accessBad s t a = true → a.op.returns = true → a.op ≠ .ldrsv → (∃ c w, a.dst = .reg c w) →
      t.gi < (threadGroup s t).threads.length → u.mem = s.mem ∧ u.poison = s.poison ∧
      ∀ c w, a.dst = .reg c w → ∀ k, k < w → markOf u t (c + k) = some a.va) ∧
    (accessBad s t a = true → (∃ op ty v, a.op = .atom op ty v false) ∨ (∃ ty v, a.op = .axadd ty v) →
      u = report s (.poisonMet (dieOfCore (threadCore s t)))) ∧
    (∀ bs, a.op = .store bs → bs ≠ [] → bs.length = a.size → (∀ w, w ∈ u.poison ↔
      (w ∈ s.poison ∨ (lineOf w ∧ (ck, w) ∈ s.wayPoison)) ∧ ¬(a.pa ≤ 8 * w ∧ 8 * w + 8 ≤ a.pa + bs.length)) ∧
      ∀ c w, (c, w) ∈ u.wayPoison ↔ (c, w) ∈ s.wayPoison ∧ ¬lineOf w)

/-- The reservation pair: `LDRSV` leaves its thread with one reservation, on its line, and starts its count; `STCND`
stores, and answers 1, exactly when the thread's reservation stands on the line and at most 64 instructions have been
issued since; it consumes the reservation either way; another thread's store to the line takes it (R212 to R214). -/
def Obligations.ReservationPair : Prop :=
  ∀ (s : State) (t v : Tid) (a : Access) (bs : List Byte), t.gi < (threadGroup s t).threads.length →
    let u := performMem s t a
    let mine := s.resv.any fun r => r.tid = t && r.line = a.pa / 128
    let good := mine = true ∧ (getThread s t).sinceRsv ≤ 64
    (a.op = .ldrsv → (∃ r ∈ u.resv, r.tid = t ∧ r.line = a.pa / 128) ∧
      (∀ r ∈ u.resv, r.tid = t → r.line = a.pa / 128) ∧ (getThread u t).sinceRsv = 0) ∧
    (a.op = .stcnd bs → good → Holds u t a.dst 1 ∧ readBytes u a.pa bs.length = bs) ∧
    (a.op = .stcnd bs → ¬good → Holds u t a.dst 0 ∧ u.mem = s.mem) ∧
    (a.op = .stcnd bs → ∀ r ∈ u.resv, r.tid ≠ t) ∧
    (a.op = .store bs → 0 < a.size → v ≠ t →
      ∀ r ∈ u.resv, r.tid = v → r.line < a.pa / 128 ∨ (a.pa + a.size - 1) / 128 < r.line)

/-- A drain for an Anneal performs every queue entry up to the last that touches the granule, in order; the entries
behind it keep their place. -/
def Obligations.DrainPerformsUpToTheLastTouch : Prop :=
  ∀ (s : State) (core g : Nat),
    let q := (getCore s core).queue
    ∃ n, drain s core (touches g) = performHeads s core n ∧ n ≤ q.length ∧
      (getCore (drain s core (touches g)) core).queue = q.drop n ∧
      (∀ e ∈ q.drop n, e.acc.pa / 4096 ≠ g) ∧
      (n = 0 ∨ ∃ e, q[n - 1]? = some e ∧ e.acc.pa / 4096 = g)

/-- The events of the access queue, the homes and the Anneals: each does its part when it is due and nothing otherwise.
A strict access whose cluster no longer holds the copy it needs asks the home (R159, R160, R185, R187, R188, R190). -/
def Obligations.MemoryEvents : Prop :=
  ∀ (s : State) (core gran line : Nat) (t : Tid) (who : Holder) (ag : Agent),
    let gr := getGranule s gran
    let ln := getLine s line
    (∀ e q, (getCore s core).queue = e :: q →
      exec (.accessQueuePerform core) s = .next (startOps
        (uncount (performMem (modCore s core fun c => { c with queue := q }) e.tid e.acc) e.tid e.acc.op) core
        (mkeys s.ops))) ∧
    ((getCore s core).queue = [] → exec (.accessQueuePerform core) s = .next s) ∧
    (∀ x, (getThread s t).strict = some x → x.place = .ready → packTurn s t x = true →
      lockHit s (some (threadCore s t)) x.acc.pa x.acc.size x.acc.op.storesLock = false → x.acc.host = false →
      x.acc.pa < 0x10000000000 → needsHome s t x.acc = false →
      let z := drain s (threadCore s t) (touches (x.acc.pa / 4096))
      let l := x.acc.pa / 128
      exec (.strictAccessPerformed t.grp t.gi) s = .next (strictDone (releaseLine (performLocal s t x.acc) t l
        (dirAfter x.acc.op.ask (threadCore s t / 4) (getLine s l).st)) t) ∧
      (needsHome z t x.acc = false → performLocal s t x.acc = performMem z t x.acc)) ∧
    (∀ x, (getThread s t).strict = some x → x.place = .ready → needsHome s t x.acc = true →
      exec (.strictAccessPerformed t.grp t.gi) s = .next (homeRequest s t)) ∧
    (∀ x, (getThread s t).strict = some x → x.place = .ready → packTurn s t x = true →
      0xF000000000000 ≤ x.acc.pa → x.acc.pa < 0x10000000000000 →
      exec (.strictAccessPerformed t.grp t.gi) s = .next (strictDone (performDevice s t x.acc) t)) ∧
    ((getThread s t).strict = none → exec (.strictAccessPerformed t.grp t.gi) s = .next s) ∧
    (∀ u x h rest, ln.busy = some (u, [who, h] ++ rest) → ¬([h] ++ rest).contains who →
      (getThread s u).strict = some x →
      exec (.invalidationAck line who) s = .next (setLine s line
        { ln with st := ackState x.acc.op.ask who ln.st, busy := some (u, [h] ++ rest) })) ∧
    (∀ u x, ln.busy = some (u, [who]) → (getThread s u).strict = some x →
      exec (.invalidationAck line who) s = .next (performStrict (setPlace (setLine s line
        { ln with st := ackState x.acc.op.ask who ln.st, busy := some (u, []) }) u .ready) u)) ∧
    (ln.busy = none → exec (.invalidationAck line who) s = .next s) ∧
    (∀ acks c, gr.annealing = some (acks, c) → acks.contains (.core core) = true →
      gr.drained.contains core = false →
      let z := drainAgent gran s (.core core)
      exec (.annealDrain core gran) s =
        .next (setGranule z gran { getGranule z gran with drained := nadd gr.drained core })) ∧
    (gr.annealing = none → (getPage s (gran / 16)).departing = true →
      (getPage s (gran / 16)).drains.contains core = true →
      exec (.annealDrain core gran) s = .next (modPage (drain s core fun e => onPage s (gran / 16) e.acc.pa)
        (gran / 16) fun p => { p with drains := ndel p.drains core })) ∧
    (∀ acks c, gr.annealing = some (acks, c) → acks.contains ag = true →
      (∀ n, ag = .core n → gr.drained.contains n = true) → (∀ x ∈ acks, x = ag) →
      exec (.annealAck gran ag) s = .next (annealPoint s gran c)) ∧
    (∀ acks c, gr.annealing = some (acks, c) → acks.contains ag = true →
      (∀ n, ag = .core n → gr.drained.contains n = true) → (∃ x ∈ acks, x ≠ ag) →
      exec (.annealAck gran ag) s =
        .next (setGranule s gran { gr with annealing := some (acks.filter (· ≠ ag), c) })) ∧
    (gr.annealing = none → exec (.annealAck gran ag) s = .next s)

/-- `PREF` has no effect of its own; `WAITC` goes on at once when the counters are at or below its limits, and waits
otherwise (R165, R174). -/
def Obligations.PrefetchAndWaitForCounters : Prop :=
  ∀ (o : Ops) (s : State) (cx : Ctx) (u : State),
    let t := cx.t
    let limit (k : Nat) : Nat := cx.o.imm.toNat / 16 ^ k % 16
    let th := getThread u t
    let met := th.cntLd ≤ limit 0 ∧ th.cntSt ≤ limit 1 ∧ th.cntCp ≤ limit 2 ∧ th.cntMx ≤ limit 3
    let next := nextPc (getThread s t).pc
    (Acts (.pref o) s cx → ∃ v, exec (.pref o) s = .next v ∧ v = { s with groups := v.groups } ∧
      (∀ x, x ≠ t → getThread v x = getThread s x) ∧
      getThread v t = { getThread (issued (.pref o) s t) t with pc := next, counted := false }) ∧
    (Acts (.waitc o) s cx → Passes (issued (.waitc o) s t) t next u → met →
      exec (.waitc o) s = .next (endBlock u t next)) ∧
    (Acts (.waitc o) s cx → Passes (issued (.waitc o) s t) t next u → ¬met →
      exec (.waitc o) s = .next (park u t (.counts (limit 0) (limit 1) (limit 2) (limit 3))))

/-- Scratchpad accesses: MISALIGN, SCRATCH_BOUND, BANK_MODE and RANGE_LOCK in that order with the offset in TADDR;
otherwise the access stands last in its bank's queue and the thread is parked with it. BANK_SERVE performs the access
at the head of a scratchpad bank's queue, which is clear of held ranges, and its thread goes on; an unowned bank has
nothing to serve (R167, R168, R207, R208). -/
def Obligations.ScratchpadAccesses : Prop :=
  (∀ (i : Instr) (s : State) (cx : Ctx) (op : MemOp) (size : Nat) (d : Dest),
      let t := cx.t
      let z := issued i s t
      let off := scratchAddr cx s
      let gang := (threadGroup s t).gang
      let bank := off / 262144
      let bound := (getGang s gang).nbanks * 262144
      let a : Access := { op := op, va := BitVec.ofNat 64 off, pa := off, size := size, dst := d }
      let traps (c : Code) : Prop := exec i s = .next (takeTrap z t { code := c, addr := BitVec.ofNat 64 off })
      let mode := (getBank s gang bank).mode
      let hit := scratchHit s gang off size op.storesLock
      Acts i s cx → scratchOf i cx s = some (op, size, d) →
      (off % size ≠ 0 → traps .misalign) ∧
      (off % size = 0 → bound < off + size → traps .scratchBound) ∧
      (off % size = 0 → off + size ≤ bound → mode ≠ .scratch → traps .bankMode) ∧
      (off % size = 0 → off + size ≤ bound → mode = .scratch → hit = true → traps .rangeLock) ∧
      (off % size = 0 → off + size ≤ bound → mode = .scratch → hit = false →
        exec i s = .next (modBank (beginStrict z t a none (.bank bank)) gang bank fun k =>
          { k with queue := k.queue ++ [t] }))) ∧
  (∀ (s : State) (cluster bank gang b : Nat) (t : Tid) (q : List Tid) (x : Strict),
      (bankOwner s cluster bank = some (gang, b) → (getBank s gang b).queue = t :: q →
        (getThread s t).strict = some x → packTurn s t x = true → (getBank s gang b).mode = .scratch →
        scratchHit s gang x.acc.pa x.acc.size x.acc.op.storesLock = false →
        exec (.bankServe cluster bank) s =
          .next (strictDone (performScratch (modBank s gang b fun k => { k with queue := q }) t x.acc) t)) ∧
      (bankOwner s cluster bank = none → exec (.bankServe cluster bank) s = .next s))

/-- A FIFO bank: `CBRD` takes the head slot and `CBWR` fills the tail slot, behind the requests that the bank's queue
holds, each at once where it can and otherwise waiting in its order; a bank beyond the gang's is SCRATCH_BOUND, a
wrong mode, or a size that is not the slot's, BANK_MODE. `BKCFG` joins its bank's queue, `BKCFG.phys` that of the
gang's bank which is the physical one, and is performed in its turn: the bank takes the new mode, cleared, and the
thread goes on; an unowned bank takes the mode at once. A held bank is RANGE_LOCK with the bank that the instruction
names. A slot filled is the next read, after those filled before it (R160, R168 to R173). -/
def Obligations.FifoBanksAndModes : Prop :=
  (∀ (o : Ops) (s : State) (cx : Ctx) (sel : BankSel) (i : Instr),
      let t := cx.t
      let gang := (threadGroup s t).gang
      let b := cx.o.imm.toNat % 16
      let k := getBank s gang b
      let n := tyBits cx.o.ty / 8
      let inGang := b < (getGang s gang).nbanks
      let slot : Option Nat := match k.mode with
        | .fifo 0 => some 4
        | .fifo 1 => some 8
        | .fifo _ => some 16
        | .cache | .scratch => none
      let fits := slot = some n
      let z := issued i s t
      let traps (c : Code) : Prop := exec i s = .next (takeTrap z t { code := c, addr := BitVec.ofNat 64 b })
      let mode : BankMode := match sel with
        | .cache => .cache
        | .scratch => .scratch
        | .fifo => .fifo (cx.o.imm.toNat / 16 % 4)
      let held := bankHeld s gang b
      Acts i s cx →
      (i ∈ [Instr.cbrd o, .cbwr o, .bkcfg sel o] → ¬inGang → traps .scratchBound) ∧
      (i ∈ [Instr.cbrd o, .cbwr o] → inGang → ¬fits → traps .bankMode) ∧
      (i = .cbrd o → inGang → fits → k.queue ≠ [] →
        exec i s = .next (modBank (parkRetry z t (.fifoTurn b n cx.dst none)) gang b fun k =>
          { k with queue := k.queue ++ [t] })) ∧
      (i = .cbwr o → inGang → fits → k.queue ≠ [] →
        exec i s = .next (modBank (parkRetry z t (.fifoTurn b n .none (some (bytesLE n (cx.b s))))) gang b fun k =>
          { k with queue := k.queue ++ [t] })) ∧
      (i = .cbrd o → inGang → fits → k.queue = [] → 0 < k.filled → k.readers = [] →
        exec i s = .next (fifoAfter (advance (writeDest (modBank z gang b fifoDrop) t cx.dst (fifoHead k).1
          (if (fifoHead k).2 then some (BitVec.ofNat 64 b) else none)) t) gang b)) ∧
      (i = .cbrd o → inGang → fits → k.queue = [] → k.filled = 0 →
        exec i s = .next (modBank (parkRetry z t (.fifo b)) gang b fun k =>
          { k with readers := k.readers ++ [(t, cx.dst)] })) ∧
      (i = .cbwr o → inGang → fits → k.queue = [] → k.filled < 262144 / n → k.writers = [] →
        exec i s = .next (fifoAfter (advance (modBank z gang b fun k => fifoPut k (bytesLE n (cx.b s)) false) t)
          gang b)) ∧
      (i = .cbwr o → inGang → fits → k.queue = [] → 262144 / n ≤ k.filled →
        exec i s = .next (modBank (parkRetry z t (.fifo b)) gang b fun k =>
          { k with writers := k.writers ++ [.thread t (bytesLE n (cx.b s))] })) ∧
      (i = .bkcfg sel o → inGang → held = true → traps .rangeLock) ∧
      (i = .bkcfg sel o → inGang → held = false →
        exec i s = .next (modBank (parkRetry z t (.bank gang b mode b)) gang b fun k =>
          { k with queue := k.queue ++ [t] })) ∧
      (i = .bkcfgPhys sel o →
        let ck := dieOfCore (threadCore s t) * 16 + cx.o.imm.toNat / 256 % 16
        (bankOwner s ck b = none →
          exec i s = .next (wake (modCluster z ck fun c =>
            { c with banks := mset { mode := .cache } c.banks b { mode := mode } }) t (nextPc (getThread s t).pc))) ∧
        (∀ g m, bankOwner s ck b = some (g, m) → bankHeld s g m = true → traps .rangeLock) ∧
        (∀ g m, bankOwner s ck b = some (g, m) → bankHeld s g m = false →
          exec i s = .next (modBank (parkRetry z t (.bank g m mode b)) g m fun k =>
            { k with queue := k.queue ++ [t] })))) ∧
  (∀ (s : State) (cluster bank gang b named : Nat) (t : Tid) (q : List Tid) (mode : BankMode),
      let z := modBank s gang b fun k => { k with queue := q }
      bankOwner s cluster bank = some (gang, b) → (getBank s gang b).queue = t :: q →
      configOf (getThread s t) = some (mode, named) →
      (bankHeld z gang b = false →
        exec (.bankServe cluster bank) s = .next (wake (modBank (releaseWaiters z gang b) gang b fun x =>
          { mode := mode, queue := x.queue }) t (nextPc (getThread s t).pc))) ∧
      (bankHeld z gang b = true →
        exec (.bankServe cluster bank) s =
          .next (takeTrap z t { code := .rangeLock, addr := BitVec.ofNat 64 named }))) ∧
  (∀ (s : State) (cluster bank gang b n : Nat) (t : Tid) (q : List Tid) (d : Dest) (data : Option (List Byte)),
      let z := modBank s gang b fun k => { k with queue := q }
      bankOwner s cluster bank = some (gang, b) → (getBank s gang b).queue = t :: q →
      (getThread s t).strict = none → (getThread s t).run = .parked (.fifoTurn b n d data) →
      (∀ c, fifoCheck z t b n = some c →
        exec (.bankServe cluster bank) s = .next (takeTrap z t { code := c, addr := BitVec.ofNat 64 b })) ∧
      (fifoCheck z t b n = none → exec (.bankServe cluster bank) s =
        .next (fifoAccess z t b d data fun s => wake s t (nextPc (getThread s t).pc)))) ∧
  (∀ (m : Nat) (data more : List Byte),
      let n := slotBytes (.fifo m)
      let e : Bank := { mode := .fifo m }
      data.length = n → more.length = n →
      let one := fifoPut e data false
      let two := fifoPut one more false
      fifoHead one = (ofBytesLE data, false) ∧ fifoHead two = (ofBytesLE data, false) ∧
        fifoHead (fifoDrop two) = (ofBytesLE more, false) ∧ (fifoDrop two).filled = 1 ∧
        fifoHead (fifoPut e data true) = (ofBytesLE data, true))

/-! ## Tiles, accumulators and the matrix engine -/

/-- `BZALOC` takes the lowest free entry and the lowest run of units that no tile holds, and gives the handle; `BZLD`
starts a fill, or parks: for the first walk that its source needs, at 255 operations (R70), and while its source is
held; `BZFREE` frees the entry and steps its generation; a handle that is not live is TILE_FREE, a bad size or part
ENGINE_OPERAND; `AMXRD`, `AMXCLR` and `MSTAT` (R221 to R225, R232, R235 to R238, R243 to R245, R330). -/
def Obligations.TileInstructions : Prop :=
  ∀ (o : Ops) (s : State) (cx : Ctx) (part : BzPart) (tile : Tile) (e b : Nat) (c : Claim),
    let t := cx.t
    let gk := (threadGroup s t).gang
    let g := getGang s gk
    let next := nextPc (getThread s t).pc
    let f := fmtOf cx.o
    let isA := cx.o.mod.getLsbD 1
    let k := cx.a s
    let units := tileUnits isA f k
    let h := BitVec.ofNat 32 (cx.a s)
    let k0 := cx.a s / 2 ^ 32
    let n := cx.o.imm.toNat % 4096
    let pitch := BitVec.ofNat 32 (cx.c s)
    let z := issued (.bzld part o) s t
    let traps (i : Instr) (x : Code) (v : Nat) : Prop :=
      exec i s = .next (takeTrap (issued i s t) t { code := x, addr := BitVec.ofNat 64 v })
    let badDepth := k = 0 ∨ 65536 < k ∨ k % depthMultiple f ≠ 0
    let len := fillLen part tile n pitch (cx.o.mod.getLsbD 0)
    let y := if cx.o.mod.getLsbD 1 then z else modThread z t fun th => { th with walkFails := [] }
    let claim := fillClaim y t (cx.o.mod.getLsbD 1) h.toNat (cx.b s) pitch len
    let walks := if cx.o.mod.getLsbD 1 then none else rangeWants z t (BitVec.ofNat 64 (cx.b s)) len
    let free (u y : Nat) : Prop := y + u ≤ g.nbanks * 256 ∧
      ∀ x ∈ g.tiles, ¬(y < x.2.base + x.2.units ∧ x.2.base < y + u)
    let cell := cx.o.imm.toNat % 64
    let p := threadPart s t
    let used := (g.tiles.map fun x => x.2.units).sum
    (∀ u, placeTile g u = some (e, b) → e < 64 ∧ mfind g.tiles e = none ∧ (∀ x < e, mfind g.tiles x ≠ none) ∧
      free u b ∧ ∀ y < b, ¬free u y) ∧
    (∀ u, placeTile g u = none → (∀ x < 64, mfind g.tiles x ≠ none) ∨ ∀ y, ¬free u y) ∧
    (Acts (.bzaloc o) s cx → gk ∈ mkeys s.gangs → ¬badDepth → placeTile g units = some (e, b) →
      ∃ u, exec (.bzaloc o) s = .next u ∧ Holds u t cx.dst (mget 0 g.gens e % 256 * 256 + e) ∧
        mfind (getGang u gk).tiles e =
          some { isA := isA, fmt := f, depth := k, base := b, units := units } ∧
        (∀ x, x ≠ e → mfind (getGang u gk).tiles x = mfind g.tiles x) ∧ (getThread u t).pc = next) ∧
    (Acts (.bzaloc o) s cx → badDepth ∨ placeTile g units = none → traps (.bzaloc o) .engineOperand 0) ∧
    (Acts (.bzld part o) s cx → liveTile g h = none → traps (.bzld part o) .tileFree h.toNat) ∧
    (Acts (.bzld part o) s cx → liveTile g h = some (e, tile) → fillOk part tile k0 n = false →
      traps (.bzld part o) .engineOperand h.toNat) ∧
    (Acts (.bzld part o) s cx → liveTile g h = some (e, tile) → fillOk part tile k0 n = true →
      walks = none → claim = .ok c → (getThread s t).cntMx < 255 → claimsFree y (threadCore s t) [c] = true →
      exec (.bzld part o) s = .next (advance (countMx (startOp y t
        (.bzld part e k0 n (BitVec.ofNat 64 (cx.b s)) pitch (cx.o.mod.getLsbD 0) (cx.o.mod.getLsbD 1))
        [c]).2 t) t)) ∧
    (Acts (.bzld part o) s cx → liveTile g h = some (e, tile) → fillOk part tile k0 n = true → walks = none →
      claim = .ok c → 255 ≤ (getThread s t).cntMx → exec (.bzld part o) s = .next (parkRetry y t (.count 3))) ∧
    (Acts (.bzld part o) s cx → liveTile g h = some (e, tile) → fillOk part tile k0 n = true → walks = none →
      claim = .ok c → (getThread s t).cntMx < 255 → claimsFree y (threadCore s t) [c] = false →
      exec (.bzld part o) s = .next (parkRetry (claimAsk y [c]) t (claimWait y [c]))) ∧
    (∀ x, Acts (.bzld part o) s cx → liveTile g h = some (e, tile) → fillOk part tile k0 n = true → walks = none →
      claim = .error x → exec (.bzld part o) s = .next (takeTrap y t x)) ∧
    (∀ va, Acts (.bzld part o) s cx → liveTile g h = some (e, tile) → fillOk part tile k0 n = true →
      walks = some va → exec (.bzld part o) s = .next (missPark z t va)) ∧
    (Acts (.bzfree o) s cx → liveTile g h = none → traps (.bzfree o) .tileFree h.toNat) ∧
    (Acts (.bzfree o) s cx → liveTile g h = some (e, tile) → tileBusy s gk e = true →
      exec (.bzfree o) s = .next (parkRetry (issued (.bzfree o) s t) t (.tile e))) ∧
    (Acts (.bzfree o) s cx → liveTile g h = some (e, tile) → tileBusy s gk e = false →
      ∃ u, exec (.bzfree o) s = .next u ∧ mfind (getGang u gk).tiles e = none ∧
        mget 0 (getGang u gk).gens e = (mget 0 g.gens e + 1) % 256 ∧ liveTile (getGang u gk) h = none ∧
        (getThread u t).pc = next ∧ u.mem = s.mem) ∧
    (Acts (.amxrd o) s cx →
      ∃ u, exec (.amxrd o) s = .next u ∧ Holds u t cx.dst (mget 0 (getPart s p).amax cell).toNat ∧
        (mget 0 (getPart u p).amax cell =
          if cx.o.mod.getLsbD 0 then 0 else mget 0 (getPart s p).amax cell) ∧
        (∀ x, x ≠ cell → mget 0 (getPart u p).amax x = mget 0 (getPart s p).amax x) ∧
        (getThread u t).pc = next) ∧
    (Acts (.amxclr o) s cx →
      ∃ u, exec (.amxclr o) s = .next u ∧ mget 0 (getPart u p).amax cell = 0 ∧
        (∀ x, x ≠ cell → mget 0 (getPart u p).amax x = mget 0 (getPart s p).amax x) ∧
        (getThread u t).pc = next) ∧
    (Acts (.mstat o) s cx →
      let q := isPriv s t && (getCluster s (threadCore s t / 4)).quenched
      let bound := (g.accs.map fun x => if x.2.bound.isSome then 2 ^ x.1 else 0).sum
      ∃ u, exec (.mstat o) s = .next u ∧
        Holds u t cx.dst (q.toNat * 2 ^ 31 + (g.nbanks * 256 - used) * 2 ^ 16 + bound * 2 ^ 8 +
          g.nbanks / 2 * 2 ^ 4) ∧
        ((getThread u t).tsticky =
          if isPriv s t then (getThread s t).tsticky else (getThread s t).tsticky ||| 1) ∧
        (getThread u t).pc = next)

/-- A signed instruction of the matrix engine: the checks of its set, then of its operands, then of agreement with the
signing that stands; a thread with 255 operations parks (R70); otherwise its row is recorded and counted, and the
thread goes on, or waits for `MRD`, and as the last signer until its operation holds one of the 32 entries of its
cluster's reservation table; the first `MST` of a signing parks for the walks that its destination needs (R230, R231,
R239 to R242, R330). -/
def Obligations.SignedInstructions : Prop :=
  (∀ (i : Instr) (s : State) (cx : Ctx) (kind : SignKind) (row : SignRow) (check : Option Exc),
      let t := cx.t
      let j := opndNum cx.o.a
      let x := getSet s t.grp j
      let z := issued i s t
      let y := signState i cx z
      let traps (e : Exc) : Prop := exec i s = .next (takeTrap y t e)
      let num := BitVec.ofNat 64 j
      let agrees (P : Signing → Prop) : Prop := ∀ sg, x.signing = some sg → P sg
      let after := checkSigning (recordSign y t j kind row) t.grp j
      let open_ : Prop := x.has t.gi = true ∧ x.lx = true ∧ hasSigned x t.gi = false
      Acts i s cx → signOf i cx z = some (kind, row, check) →
      (∀ va, (∃ o, i = .mst o) → mstAtRange cx z = true →
        rangeWants z t (BitVec.ofNat 64 (cx.b s)) (mstLen cx.o.ty (BitVec.ofNat 32 (cx.c s)) (cx.o.mod.getLsbD 0)) =
          some va → exec i s = .next (missPark z t va)) ∧
      (walksDone i cx z = true →
      (x.has t.gi = false → traps { code := .setNotMember, addr := num }) ∧
      (x.has t.gi = true → x.lx = false → traps { code := .setMode, addr := num }) ∧
      (x.has t.gi = true → x.lx = true → hasSigned x t.gi = true →
        exec i s = .next (parkRetry y t (.signing j))) ∧
      (open_ → ¬agrees (fun sg => sg.pc = (getThread s t).pc) → traps { code := .setMismatch, addr := num }) ∧
      (∀ e, open_ → agrees (fun sg => sg.pc = (getThread s t).pc) → check = some e → traps e) ∧
      (open_ → agrees (fun sg => sg.pc = (getThread s t).pc) → check = none →
        ¬agrees (fun sg => sg.kind = kind) → traps { code := .engineOperand, addr := 0 }) ∧
      (open_ → agrees (fun sg => sg.pc = (getThread s t).pc ∧ sg.kind = kind) → check = none →
        (getThread s t).cntMx < 255 → exec i s = .next (afterSign after.2 t j kind after.1)) ∧
      (open_ → agrees (fun sg => sg.pc = (getThread s t).pc ∧ sg.kind = kind) → check = none →
        255 ≤ (getThread s t).cntMx → exec i s = .next (parkRetry y t (.count 3))))) ∧
  (∀ (s : State) (t : Tid) (j k : Nat) (kind : SignKind) (op : Option Nat),
      let mrd : Prop := ∃ fp acc slice, kind = .mrd fp acc slice
      let holds (o : EngineOp) : Prop := o.phase ≠ .claiming ∧
        (s.ops.filter fun e => decide (e.1 < k) && isSigned? e.2.kind &&
          decide (clusterOfCore e.2.core = clusterOfCore o.core) && tableHeld s e.2).length < 32
      (mrd → afterSign s t j kind op = park s t (.mrd j)) ∧
      (¬mrd → op = none → afterSign s t j kind op = advance s t) ∧
      (∀ o, ¬mrd → op = some k → mfind s.ops k = some o → holds o → afterSign s t j kind op = advance s t) ∧
      (∀ o, ¬mrd → op = some k → mfind s.ops k = some o → ¬holds o →
        afterSign s t j kind op = park s t (.reservation k)))

/-- A signing that some member has not signed stays in its set with the rows signed; when the last signs, it becomes
an operation of the gang with every row, and the set is free for the next (R230, R231). -/
def Obligations.SigningCompletesWithItsLastMember : Prop :=
  ∀ (s : State) (t : Tid) (j : Nat) (kind : SignKind) (row : SignRow),
    t.gi < (threadGroup s t).threads.length → row.gi = t.gi →
    let x := getSet s t.grp j
    let rows : NMap SignRow := match x.signing with
      | some sg => mput sg.rows (t.gi % 32) row
      | none => [(t.gi % 32, row)]
    (∀ sg, x.signing = some sg → sg.kind = kind) →
    let u := recordSign s t j kind row
    let r := checkSigning u t.grp j
    ((∃ m ∈ x.members, ∀ e ∈ rows, e.2.gi ≠ m.1) →
      r = (none, u) ∧ (getThread u t).cntMx = (getThread s t).cntMx + 1 ∧
      ∃ sg, (getSet u t.grp j).signing = some sg ∧ sg.rows = rows ∧ sg.kind = kind) ∧
    (x.members ≠ [] → (∀ m ∈ x.members, ∃ e ∈ rows, e.2.gi = m.1) →
      ∃ k p, r.1 = some k ∧ mfind r.2.ops k = some p ∧ p.kind = .sign kind rows j ∧ p.grp = t.grp ∧
        (getSet r.2 t.grp j).signing = none)

/-- One pass over INT8 tiles adds the exact integer dot product of the K-group to every element of the accumulator,
modulo 2^32. A floating-point pass takes the accumulator's element and the products of the K-group as one exact sum
and rounds it once to binary32: with FP8 operands each product carries the row's and the column's scale; an E2M1 or
INT4 element of B enters as the product of element, block scale and band scale rounded to BF16. A NaN, or infinities
of both signs, among them gives the canonical NaN (R226 to R229). -/
def Obligations.IntegerPassAddsTheExactProduct : Prop :=
  (∀ (rows : NMap SignRow) (src : ASource) (bt : Tile) (g b i j : Nat) (a : Accum), bt.fmt = .i8 → i < 32 → j < 64 →
    let x (m : Nat) : Int := (BitVec.ofNat 8 (aBits src 8 64 g i m)).toInt
    let y (m : Nat) : Int := ((mget 0 bt.data (64 * (b * 64 + m) + j)).setWidth 8 : BitVec 8).toInt
    mget 0 (passTile .i8 rows src bt g b a).data (64 * i + j) =
      BitVec.ofInt 32 ((mget 0 a.data (64 * i + j)).toInt + ((List.range 64).map fun m => x m * y m).sum)) ∧
  (∀ (ty : Ty) (rows : NMap SignRow) (src : ASource) (bt : Tile) (g b i j : Nat) (a : Accum),
    combines ty bt.fmt = true → ty ≠ .i8 → i < 32 → j < 64 →
    let fp8 : Bool := bt.fmt = .e4m3 || bt.fmt = .e5m2
    let narrow : Bool := bt.fmt = .e2m1 || bt.fmt = .i4
    let size := if fp8 then 64 else 32
    let times (p q : FVal) : FVal := (fmulX p q).1
    let word (w : Word) : FVal := fpVal (fpFmt .f32) w.toNat
    let scale (c : Nat) : FVal :=
      .fin false (if c / 32 = 0 then { num := c % 32, ex := -7 } else { num := 32 + c % 32, ex := (c / 32 : Nat) - 8 })
    let bits (k : Nat) : Nat := (mget 0 bt.data (64 * k + j)).toNat
    let weight (k : Nat) : FVal :=
      if bt.fmt = .i4 then intVal (BitVec.ofNat 4 (bits k)).toInt else fpVal (fpFmt .e2m1) (bits k)
    let block (k : Nat) : FVal := scale (mget 0x60 bt.bscale (64 * (k / 8) + j)).toNat
    let band (k : Nat) : FVal := fpVal (fpFmt .bf16) (mget 0x3F80 bt.band (64 * (k / 64) + j)).toNat
    let y (k : Nat) : FVal :=
      if narrow then
        fpVal (fpFmt .bf16) (roundFp (fpFmt .bf16) 0 0 false (times (times (weight k) (block k)) (band k))).1
      else fpVal (fpFmt (tileTy bt.fmt)) (bits k)
    let x (m : Nat) : FVal := fpVal (fpFmt ty) (aBits src (tyBits ty) size g i m)
    let term (m : Nat) : FVal :=
      let p := times (x m) (y (b * size + m))
      if fp8 then times (times p (word (mget { gi := 0 } rows i).scale)) (word (mget 0x3F800000 bt.cscale j)) else p
    let old := word (mget 0 a.data (64 * i + j))
    let all := old :: (List.range size).map term
    let new := mget 0 (passTile ty rows src bt g b a).data (64 * i + j)
    new = BitVec.ofNat 32 (roundFp (fpFmt .f32) 0 0 false (fsumX 0 all).1).1 ∧
      (all.any FVal.isNan = true ∨ (.inf false ∈ all ∧ .inf true ∈ all) → new = 0x7FC00000))

/-- The engines' events: an operation begins when it may, a copy once its ranges are translated and their pages there;
a pass is granted to one ready operation; an operation whose passes are made, a running copy or a running sweep
performs its writes, falls out of the counts and releases its ranges; an operation that no longer stands changes
nothing (R195, R198, R232 to R234, R247, R256, R266, R267, R276). A finished operation is gone with its ranges, its
threads' counts fall by one, and its gang retires when nothing of it is left (R61, R198, R256). A copy's destination
holds the bytes that its source held, by rows and indices as R258 to R261 say; `MACZ` zeroes the accumulator, `MRD`
writes sixteen registers of each signer, which goes on, `MST` writes each element rounded and takes its magnitude into
the amax cell (R241 to R243), and a sweep writes each D_n (R276), each shown on ranges of one piece. That the last of
several elements which a short pitch lays over one byte stands is log 56, which these clauses leave aside; that an
index beyond SPAN at its read moves nothing is logs 9 and 67. -/
def Obligations.EngineEvents : Prop :=
  (∀ (s : State) (k ck : Nat) (o : EngineOp),
      (mfind s.ops k = some o → isCopy o.kind = false → mayBegin s k o = true →
        exec (.engineOpBegin k) s = .next (modOp s k fun o => { o with phase := .running })) ∧
      (mfind s.ops k = some o → mayBegin s k o = false → exec (.engineOpBegin k) s = .next s) ∧
      (∀ kind spd sps tk, mfind s.ops k = some o → copyMayBegin s k o = true → o.kind = .copy kind spd sps tk →
        let t := opThread o
        let sides := copySides kind spd sps
        (∀ e, copyFaultOf s t kind sides o.lost = some e →
          exec (.ladleCopyBegin k) s = .next (failCopy (noteIndex s o kind sides) k o e)) ∧
        (copyFaultOf s t kind sides o.lost = none →
          exec (.ladleCopyBegin k) s = .next (runCopy s k o kind (sideClaims s t sides)))) ∧
      (mfind s.ops k = some o → copyMayBegin s k o = false → exec (.ladleCopyBegin k) s = .next s) ∧
      (grantOf s ck s.ops = some (k, o) →
        passReady s ck o = true ∧
        (∀ e ∈ s.ops, passReady s ck e.2 = true →
          (64 ≤ e.2.waited → 64 ≤ o.waited) ∧
          ((64 ≤ e.2.waited ↔ 64 ≤ o.waited) →
            (getGroup s e.2.grp).prio ≤ (getGroup s o.grp).prio ∧
            ((getGroup s e.2.grp).prio = (getGroup s o.grp).prio → o.start.getD 0 ≤ e.2.start.getD 0))) ∧
        ∃ u, exec (.matrixPass ck) s = .next u ∧ u.mem = s.mem ∧ u.gangs = (passOf s o).gangs ∧
          (getCluster u ck).quenched = s.link.alarm) ∧
      (grantOf s ck s.ops = none → exec (.matrixPass ck) s = .next s) ∧
      (mfind s.ops k = some o → matrixDone s o = true →
        exec (.matrixOpFinish k) s = .next (finishOp (matrixEffect s o) k true)) ∧
      (mfind s.ops k = some o → matrixDone s o = false → exec (.matrixOpFinish k) s = .next s) ∧
      (mfind s.ops k = some o → copyDone s o = true →
        exec (.copyFinish k) s = .next (doneCopy (copyEffect s o) k o)) ∧
      (mfind s.ops k = some o → copyDone s o = false → exec (.copyFinish k) s = .next s) ∧
      (∀ x n, mfind s.ops k = some o → o.kind = .chain x n → o.phase = .running → o.stopped = false →
        (getGang s o.gang).status = .running →
        exec (.chainSweepFinish k) s = .next (finishOp (sweep s o x n) k false)) ∧
      (mfind s.ops k = none → exec (.engineOpBegin k) s = .next s ∧ exec (.ladleCopyBegin k) s = .next s ∧
        exec (.matrixOpFinish k) s = .next s ∧ exec (.copyFinish k) s = .next s ∧
        exec (.chainSweepFinish k) s = .next s)) ∧
  (∀ (s : State) (k : Nat) (o : EngineOp) (mx : Bool) (t : Tid), mfind s.ops k = some o →
      let v := finishOp s k mx
      let stays := (mfind v.gangs o.gang).isSome
      let counts (n : Nat) : Nat := if t.grp = o.grp ∧ t.gi ∈ o.threads then n - 1 else n
      mfind v.ops k = none ∧
      (stays → o.threads.Nodup → t.gi < (threadGroup s t).threads.length →
        (getThread v t).cntMx = (if mx then counts (getThread s t).cntMx else (getThread s t).cntMx) ∧
        (getThread v t).cntCp = if mx then (getThread s t).cntCp else counts (getThread s t).cntCp) ∧
      ((mfind s.grids (getGang s o.gang).grid).isSome → (∀ e ∈ s.ops, e.1 ≠ k → e.2.gang ≠ o.gang) →
        (∀ i ∈ (getGang s o.gang).groups, (getGroup s i).over = true) → stays = false) ∧
      ((∃ e ∈ s.ops, e.1 ≠ k ∧ e.2.gang = o.gang) → (mfind s.gangs o.gang).isSome → stays) ∧
      ((opThread o).gi < (threadGroup s (opThread o)).threads.length → ∀ n, tokenOf s (opThread o) k = some n →
        (mfind (doneCopy s k o).gangs o.gang).isSome → getToken (doneCopy s k o) (opThread o) n = .done)) ∧
  (∀ (s : State) (o : EngineOp) (kind : CopyKind) (spd sps : Bool) (tk : Nat) (src dst : Range)
      (rest : List Range) (a n b m : Nat) (ha hb : Bool), o.kind = .copy kind spd sps tk →
      (∀ x y z, kind ≠ .fifo x y z) → o.moves = none → o.ranges = src :: dst :: rest → src.pieces = [(a, n, ha)] →
      dst.pieces = [(b, m, hb)] → src.lost = [] → linkLost s src.scratch (a, n, ha) = false →
      linkLost s dst.scratch (b, m, hb) = false → (∀ g, dst.scratch = some g → (mfind s.gangs g).isSome) →
      let ms := copyMoves s kind o.ranges
      let v := copyEffect s o
      let byte (u : State) (r : Range) (i : Nat) : Byte := match r.scratch with
        | some g => scratchByte u g i
        | none => readByte u i
      (∀ q ∈ ms, q.src + q.len ≤ n ∧ q.dst + q.len ≤ m) →
      (∀ q ∈ ms, ∀ i, i < q.len → (∀ r ∈ ms, ∀ j, j < r.len → r.dst + j = q.dst + i → r.src + j = q.src + i) →
        byte v dst (b + q.dst + i) = byte s src (a + q.src + i)) ∧
      (∀ x, (∀ q ∈ ms, ∀ i, i < q.len → x ≠ b + q.dst + i) → byte v dst x = byte s dst x)) ∧
  (∀ (s : State) (d e : DWord) (len : Nat) (x : Shape) (r w i : Range) (q : Move),
      (q ∈ copyMoves s (.flat d e len) [r, w] ↔ q = { src := 0, dst := 0, len := len }) ∧
      (q ∈ copyMoves s (.rows d e x) [r, w] ↔ ∃ k, k < cpRows x ∧
        q = { src := k * cpSrcPitch x, dst := k * cpDstPitch x, len := cpRowBytes x }) ∧
      (q ∈ copyMoves s (.gather d e x) [r, w, i] ↔ ∃ k, k < cpCount x ∧
        ((idxWord s i k).1 + 1) * cpElem x ≤ cpSpan x ∧
        q = { src := (idxWord s i k).1 * cpElem x, dst := k * cpElem x, len := cpElem x, bad := (idxWord s i k).2 }) ∧
      (q ∈ copyMoves s (.scatter d e x) [r, w, i] ↔ ∃ k, k < cpCount x ∧
        ((idxWord s i k).1 + 1) * cpElem x ≤ cpSpan x ∧
        q = { src := k * cpElem x, dst := (idxWord s i k).1 * cpElem x, len := cpElem x, bad := (idxWord s i k).2 })) ∧
  (∀ (s : State) (o : EngineOp) (rows : NMap SignRow) (sg : Nat) (fp fpOut : Bool) (acc : Nat),
      let v := matrixEffect s o
      let a := getAcc s o.gang acc
      (o.kind = .sign (.macz fpOut acc) rows sg → (mfind s.gangs o.gang).isSome →
        (getAcc v o.gang acc).poison = [] ∧ ∀ k, mget 0 (getAcc v o.gang acc).data k = 0) ∧
      (∀ slice row code w, o.kind = .sign (.mrd fp acc slice) rows sg → row ∈ rows → rows.Nodup →
        (∀ q ∈ rows, q ≠ row → q.2.gi ≠ row.2.gi) → row.2.dst = .reg code w → code + 16 ≤ 240 →
        row.2.gi < (getGroup s o.grp).threads.length →
        let t : Tid := ⟨o.grp, row.2.gi⟩
        (∀ c, c < 16 → regOf v t (code + c) = mget 0 a.data (64 * row.1 + 16 * slice + c) ∧
          markOf v t (code + c) = if 64 * row.1 + 16 * slice + c ∈ a.poison then some 0 else none) ∧
        ∀ wt, (getThread s t).run = .parked wt →
          (getThread v t).run = .ready ∧ (getThread v t).pc = nextPc (getThread s t).pc) ∧
      (∀ fmt dest pitch tr sat scale cell rg rest b n h,
        o.kind = .sign (.mst fp fmt acc dest pitch tr sat scale cell) rows sg → o.ranges = rg :: rest →
        rg.scratch = none → rg.pieces = [(b, n, h)] → linkLost s none (b, n, h) = false →
        let size := outBytes fmt
        let off (k : Nat) : Nat :=
          if tr then k % 64 * pitch.toNat + k / 64 * size else k / 64 * pitch.toNat + k % 64 * size
        let el (k : Nat) : Word := mget 0 a.data k
        let out (k : Nat) : Nat := if fmt = .i32 then (el k).toNat else
          (roundFp (fpFmt fmt) 0 0 sat
            (fmulX (if fp then f32Val (el k) else intVal (toSigned 32 (el k).toNat)) (f32Val scale)).1).1
        (∀ k, k < 2048 → off k + size ≤ n) →
        (∀ k, k < 2048 → (∀ j, j < 2048 → j ≠ k → off j + size ≤ off k ∨ off k + size ≤ off j) →
          readBytes v (b + off k) size = bytesLE size (out k)) ∧
        (∀ x, (∀ k, k < 2048 → x < b + off k ∨ b + off k + size ≤ x) → readByte v x = readByte s x) ∧
        ∀ c, cell = some c → fp = true →
          let p := (partOfDie s (dieOfCore o.core)).getD 8
          let old := (mget 0 (getPart s p).amax c).toNat
          let new := (mget 0 (getPart v p).amax c).toNat
          let mag (k : Nat) : Nat := if (f32Val (el k)).isNan then 0 else (el k).toNat % 2 ^ 31
          (2 ^ 31 ≤ new ↔ 2 ^ 31 ≤ old ∨ ∃ k, k < 2048 ∧ (f32Val (el k)).isNan = true) ∧
          (∀ k, k < 2048 → mag k ≤ new % 2 ^ 31) ∧ old % 2 ^ 31 ≤ new % 2 ^ 31 ∧
          (new % 2 ^ 31 = old % 2 ^ 31 ∨ ∃ k, k < 2048 ∧ new % 2 ^ 31 = mag k))) ∧
  (∀ (s : State) (o : EngineOp) (x : Shape) (cnt n a b c : Nat), o.moves = none → (mfind s.gangs o.gang).isSome →
      let v := sweep s o x cnt
      let size := chSize x 3
      let el (i : Nat) : Nat := if chUses x i then
        toF32 ((chStreamTy (chFmt x i)).getD .f32) (ofBytesLE (scratchRead s o.gang (chAt x i n).toNat (chSize x i)))
        else 0
      (n < cnt → (∀ m, m < cnt → 0 ≤ chAt x 3 m) →
        (∀ m, n < m → m < cnt → chAt x 3 m + size ≤ chAt x 3 n ∨ chAt x 3 n + size ≤ chAt x 3 m) →
        scratchRead v o.gang (chAt x 3 n).toNat size = bytesLE size (chValue x (el 0) (el 1) (el 2))) ∧
      chValue x a b c = (roundFp (fpFmt ((chStreamTy (chFmt x 3)).getD .f32)) 0 0 (chSat x)
        (fval .f32 ((List.range (chLen x)).foldl (chStepFn x b c) a))).1 ∧
      (∀ w i, let y := if chArg x i = 0 then b else c
        let lo := (fminmax (fpFmt .f32) true false w (chConst x 0)).1
        let ty := (chTy (chArg x i)).getD .f32
        chStepFn x b c w i = match chOpc x i with
          | 1 => (faddN .f32 0 0 false w y).1
          | 2 => (fmulN .f32 0 0 false w y).1
          | 3 => (ffmaN .f32 0 false w b c).1
          | 4 => (fminmax (fpFmt .f32) true false w y).1
          | 5 => (fminmax (fpFmt .f32) false false w y).1
          | 6 => (fmulN .f32 0 0 false w (chConst x (chArg x i))).1
          | 7 => toF32 ty (roundFp (fpFmt ty) 0 0 false (fval .f32 w)).1
          | 8 => (fminmax (fpFmt .f32) false false lo (chConst x 1)).1
          | _ => w))

/-! ## Copies, tokens and the stream unit -/

/-- A copy instruction: TOKEN_BUSY, an illegal shape, MISALIGN, then the faults of its scratchpad places and FIFO
bank; a copy of no bytes makes its token DONE; otherwise its operands are captured, its token is PENDING and it is
counted, and the thread goes on once the Ladle holds it. `TKWAIT` takes what the token holds; `TKDROP` empties it
(R255 to R266). Which of several misaligned values MISALIGN names, and the order of the scratchpad places, is log 32;
what suits an ESIZE of 0 is log 67. -/
def Obligations.CopiesAndTokens : Prop :=
  ∀ (i : Instr) (o : Ops) (s : State) (cx : Ctx) (kind : CopyKind) (ok : Bool) (m : Nat) (vs : List Nat) (u : State),
    let t := cx.t
    let z := issued i s t
    let tk := opndNum cx.o.dst
    let held := mget .empty (getThread s t).tokens tk
    let spd := cx.o.mod.getLsbD 0
    let sps := cx.o.mod.getLsbD 1
    let sides := copySides kind spd sps
    let place := (copyPlaces z (threadGroup s t).gang sides).or (copyFifo z t kind)
    let fit : Prop := m = 0 ∨ ∀ v ∈ vs, v % m = 0
    let traps (e : Exc) : Prop := exec i s = .next (takeTrap z t e)
    let n := opndNum cx.o.a
    let next := nextPc (getThread s t).pc
    let passes := Acts (.tkwait o) s cx ∧ Passes (issued (.tkwait o) s t) t next u
    let now := mget .empty (getThread u t).tokens n
    let emptied (s : State) : State := modThread s t fun th => { th with tokens := mset .empty th.tokens n .empty }
    (Acts i s cx → copyOf i cx z = some (kind, ok, m, vs) →
      (held ≠ .empty → traps { code := .tokenBusy, addr := BitVec.ofNat 64 tk }) ∧
      (held = .empty → ok = false → traps { code := .engineOperand, addr := 0 }) ∧
      (∀ v, held = .empty → ok = true → m ≠ 0 → vs.find? (fun x => x % m ≠ 0) = some v →
        traps { code := .misalign, addr := BitVec.ofNat 64 v }) ∧
      (∀ e, held = .empty → ok = true → fit → place = some e → traps e) ∧
      (held = .empty → ok = true → fit → place = none → copyBytes kind = 0 →
        exec i s = .next (advance (setToken z t tk .done) t)) ∧
      (held = .empty → ok = true → fit → place = none → 0 < copyBytes kind → (getThread s t).cntCp < 255 →
        let r := startCopy z t tk kind spd sps
        exec i s = .next r ∧ ∃ k p, mfind r.ops k = some p ∧ p.kind = .copy kind spd sps tk ∧ p.grp = t.grp ∧
          p.threads = [t.gi] ∧ mget .empty (getThread r t).tokens tk = .pending k ∧
          (getThread r t).cntCp = (getThread s t).cntCp + 1) ∧
      (held = .empty → ok = true → fit → place = none → 0 < copyBytes kind → 255 ≤ (getThread s t).cntCp →
        exec i s = .next (parkRetry z t (.count 2)))) ∧
    (passes → now = .empty → exec (.tkwait o) s = .next (endBlock u t next)) ∧
    (passes → now = .done → exec (.tkwait o) s = .next (endBlock (emptied u) t next)) ∧
    (∀ k, passes → now = .pending k → exec (.tkwait o) s = .next (park u t (.token n))) ∧
    (∀ e, passes → now = .faulted e →
      exec (.tkwait o) s = .next (takeTrapWith (emptied u) t e (getThread u t).pc 2)) ∧
    (Acts (.tkdrop o) s cx → exec (.tkdrop o) s = .next (advance (emptied (issued (.tkdrop o) s t)) t))

/-- `TKTEST pd, tk`: 0 when the token is PENDING and 1 otherwise, no token changed, the thread neither parked nor at
the end of its block. -/
def Obligations.TokenTestReadsPending : Prop :=
  ∀ (o : Ops) (s : State) (cx : Ctx), Acts (.tktest o) s cx →
    let n := opndNum cx.o.a
    let pending : Prop := ∃ k, mget .empty (getThread s cx.t).tokens n = .pending k
    ∃ u p, exec (.tktest o) s = .next u ∧ cx.dst = .pred p ∧
      (p < 7 → (readPred u cx.t p = true ↔ ¬pending)) ∧
      (7 ≤ p → (getThread u cx.t).preds = (getThread s cx.t).preds) ∧
      (∀ q, q ≠ p → readPred u cx.t q = readPred s cx.t q) ∧
      (getThread u cx.t).tokens = (getThread s cx.t).tokens ∧ (getThread u cx.t).run = (getThread s cx.t).run ∧
      (getThread u cx.t).pc = nextPc (getThread s cx.t).pc

/-- `CHAIN` checks its program and its streams and starts a sweep, or parks at 255 copies and sweeps (R70) and while its
banks are held; `SPK24` keeps the two of four elements that rank
highest by magnitude, a NaN above an infinity and an equal rank to the lower index, in ascending order of index, with
the two indices beside them; `SHSET` and `SHGET` write and read the bits [LO + WIDTH − 1 : LO] of a shape register and
no other (R272, R273, R275 to R277). -/
def Obligations.StreamUnitInstructions : Prop :=
  ∀ (o : Ops) (s : State) (cx : Ctx),
    let t := cx.t
    let z := issued (.chain o) s t
    let x := readShape s t (opndNum cx.o.a)
    let n := cx.b s
    let gang := (threadGroup s t).gang
    let claims := chainClaims gang x n
    let lo := cx.o.imm.toNat % 512
    let w := cx.o.imm.toNat / 512 % 64 + 1
    let d := opndNum cx.o.dst
    let next := nextPc (getThread s t).pc
    (Acts (.chain o) s cx → 4095 < n ∨ chainOk x = false →
      exec (.chain o) s = .next (takeTrap z t { code := .engineOperand, addr := 0 })) ∧
    (∀ e, Acts (.chain o) s cx → n ≤ 4095 → chainOk x = true → chainFault z gang x n = some e →
      exec (.chain o) s = .next (takeTrap z t e)) ∧
    (Acts (.chain o) s cx → n = 0 → chainOk x = true → chainFault z gang x n = none →
      exec (.chain o) s = .next (advance z t)) ∧
    (Acts (.chain o) s cx → 0 < n → n ≤ 4095 → chainOk x = true → chainFault z gang x n = none →
      (getThread s t).cntCp < 255 → claimsFree z (threadCore s t) claims = true →
      exec (.chain o) s = .next (advance (modThread (startOp z t (.chain x n) claims).2 t fun th =>
        { th with cntCp := th.cntCp + 1 }) t)) ∧
    (Acts (.chain o) s cx → 0 < n → n ≤ 4095 → chainOk x = true → chainFault z gang x n = none →
      255 ≤ (getThread s t).cntCp → exec (.chain o) s = .next (parkRetry z t (.count 2))) ∧
    (Acts (.chain o) s cx → 0 < n → n ≤ 4095 → chainOk x = true → chainFault z gang x n = none →
      (getThread s t).cntCp < 255 → claimsFree z (threadCore s t) claims = false →
      exec (.chain o) s = .next (parkRetry z t (claimWait z claims))) ∧
    (Acts (.spk24 o) s cx →
      let bits := tyBits cx.o.ty
      let v (i : Nat) : Nat := cx.a s / 2 ^ (bits * i) % 2 ^ bits
      let nan (i : Nat) : Bool := (fpVal (fpFmt cx.o.ty) (v i)).isNan
      let above (i j : Nat) : Prop :=
        if nan i || nan j then nan i = true ∧ (nan j = true → i < j)
        else v j % 2 ^ (bits - 1) < v i % 2 ^ (bits - 1) ∨ (v i % 2 ^ (bits - 1) = v j % 2 ^ (bits - 1) ∧ i < j)
      ∃ k0 k1, k0 < k1 ∧ k1 < 4 ∧ (∀ j, j < 4 → j ≠ k0 → j ≠ k1 → above k0 j ∧ above k1 j) ∧
        Starts (.spk24 o) s cx (v k0 + v k1 * 2 ^ bits + 2 ^ 32 * (k0 + 4 * k1), {}) true) ∧
    (Acts (.shset o) s cx → lo + w ≤ 512 →
      ∃ u, exec (.shset o) s = .next u ∧
        (∀ b, (readShape u t d).getLsbD b =
          if lo ≤ b ∧ b < lo + w then (cx.a s).testBit (b - lo) else (readShape s t d).getLsbD b) ∧
        (∀ m, m ≠ d → readShape u t m = readShape s t m) ∧ (getThread u t).pc = next ∧ u.mem = s.mem) ∧
    (Acts (.shget o) s cx → Gives (.shget o) s cx (x.toNat / 2 ^ lo % 2 ^ w))

/-! ## Launching -/

/-- `LNCH` and `GRAPH` take the lowest free entry of the grid table and give the handle {generation, entry}, or wait
for one; `LNCH` waits too while a lower lane of its pack does, and until the members of a domain have acknowledged,
and `GRAPH` for the walk or the page that its table lacks; an illegal header, or a DYING PASID, is LAUNCH_HEADER.
`GWAIT` goes on once the handle is GONE, and on its own grid is GRID_SELF; `GCAN` cancels, once no table that it marks
is away; `GSTAT` reads the state, and in privileged mode the dies that have joined, and `WID` the work identifier
(R193, R279, R281, R284 to R286, R292 to R299, R330, R332). A header is legal as R281 says, by the bits of Table 15-1;
what other modules bring to the dies available is log 22. A cancel event ends a queued grid, drops every range and
gang not placed, and under CANCEL_MODE 1 sets CANCEL_PEND in every placed thread that is not DONE; on a handle that is
GONE, or a grid already cancelled, it does nothing (R294). That `LNCH` and `GRAPH` drain the core's queue within their
own step is the model's choice (log 24), as are the lowest free entry (log 23) and what DIES of `GSTAT` counts: the
positions held as it executes, those of other modules' dies among them (log 36). -/
def Obligations.LaunchInstructions : Prop :=
  (∀ (o : Ops) (s : State) (cx : Ctx) (u w : State) (k slot : Nat) (nodes : List Node) (e : Exc),
      let t := cx.t
      let p := threadPart s t
      let pasid := threadPasid s t
      let hdr := readShape s t (opndNum cx.o.a)
      let zl := issued (.lnch o) s t
      let dl := drainCore zl (threadCore s t)
      let zg := issued (.graph o) s t
      let table := BitVec.ofNat 64 (cx.a s)
      let dg := drainCore zg (threadCore s t)
      let reads := tableLack dg t table (cx.b s) = none
      let h := BitVec.ofNat 32 (cx.a s)
      let next := nextPc (getThread s t).pc
      let waits := Acts (.gwait o) s cx ∧ Passes (issued (.gwait o) s t) t next u
      let live := liveHandle s p pasid h
      let sel := cx.o.imm.toNat % 8
      let ext := cx.o.mod.getLsbD 0
      let wide (hd : Shape) (n : Nat) : Nat := ((List.range n).map (hdrExt hd)).prod
      (∀ q pd hd or gr, openGrid s q pd hd or gr = some (k, w) → ∃ slot, slot < 4096 ∧
        (getEntry s q slot).what = none ∧ (∀ x, x < slot → (getEntry s q x).what ≠ none) ∧
        (getEntry w q slot).what = some (.grid k) ∧ (getEntry w q slot).gen = (getEntry s q slot).gen ∧
        ∃ g, mfind w.grids k = some g ∧ g.hdr = hd ∧ g.pasid = pd ∧ g.part = q ∧ g.slot = slot ∧
          g.state = .queued ∧ gridHandle w k =
            BitVec.ofNat 32 ((getEntry s q slot).gen.toNat * 4096 + slot)) ∧
      (Acts (.lnch o) s cx → hdrOk s p hdr = false ∨ pasidState s p pasid = .dying →
        exec (.lnch o) s = .next (takeTrap zl t { code := .launchHeader })) ∧
      (Acts (.lnch o) s cx → hdrOk s p hdr = true → pasidState s p pasid ≠ .dying → launchBehind dl t = true →
        exec (.lnch o) s = .next (park dl t (.launch hdr cx.dst))) ∧
      (∀ g, Acts (.lnch o) s cx → hdrOk s p hdr = true → pasidState s p pasid ≠ .dying → launchBehind dl t = false →
        openGrid dl (threadPart dl t) (threadPasid dl t) hdr none none = some (k, w) →
        mfind w.grids k = some g → g.acks ≠ [] →
        exec (.lnch o) s = .next (park (modGrid w k fun g => { g with launcher := some (t, cx.dst) }) t (.span k))) ∧
      (Acts (.lnch o) s cx → hdrOk s p hdr = true → pasidState s p pasid ≠ .dying → launchBehind dl t = false →
        openGrid dl (threadPart dl t) (threadPasid dl t) hdr none none = some (k, w) →
        (∀ g, mfind w.grids k = some g → g.acks = []) →
        exec (.lnch o) s = .next (advance (writeDest w t cx.dst (gridHandle w k).toNat none) t)) ∧
      (Acts (.lnch o) s cx → hdrOk s p hdr = true → pasidState s p pasid ≠ .dying → launchBehind dl t = false →
        openGrid dl (threadPart dl t) (threadPasid dl t) hdr none none = none →
        exec (.lnch o) s = .next (park dl t (.launch hdr cx.dst))) ∧
      (Acts (.graph o) s cx → pasidState s p pasid = .dying →
        exec (.graph o) s = .next (takeTrap zg t { code := .launchHeader })) ∧
      (∀ l, Acts (.graph o) s cx → pasidState s p pasid ≠ .dying → tableLack dg t table (cx.b s) = some l →
        exec (.graph o) s = .next (parkRetry (askFor dg t l) t l.wait)) ∧
      (Acts (.graph o) s cx → pasidState s p pasid ≠ .dying → reads →
        readTable dg (threadCore s t) p pasid table (cx.b s) = (.error e, w) →
        exec (.graph o) s = .next (takeTrap w t e)) ∧
      (Acts (.graph o) s cx → pasidState s p pasid ≠ .dying → reads →
        readTable dg (threadCore s t) p pasid table (cx.b s) = (.ok nodes, w) → freeEntry dg p = some slot →
        exec (.graph o) s = .next (advance (writeDest (openGraph w p pasid slot table nodes) t cx.dst
          (handleOf dg p slot).toNat none) t)) ∧
      (Acts (.graph o) s cx → pasidState s p pasid ≠ .dying → reads →
        readTable dg (threadCore s t) p pasid table (cx.b s) = (.ok nodes, w) → freeEntry dg p = none →
        exec (.graph o) s = .next (parkRetry w t .gridTable)) ∧
      (waits → liveHandle u (threadPart u t) (threadPasid u t) h = none →
        exec (.gwait o) s = .next (endBlock u t next)) ∧
      (waits → liveHandle u (threadPart u t) (threadPasid u t) h = some (.grid k) →
        exec (.gwait o) s = .next (if k = (getGang u (threadGroup u t).gang).grid then
          takeTrap u t { code := .gridSelf, addr := h.setWidth 64 } else park u t (.grid h))) ∧
      (waits → liveHandle u (threadPart u t) (threadPasid u t) h = some (.graph k) →
        exec (.gwait o) s = .next (park u t (.grid h))) ∧
      (Acts (.gcan o) s cx → cancelBar s p pasid h = none →
        exec (.gcan o) s = .next (advance (cancelHandle (issued (.gcan o) s t) p pasid h) t)) ∧
      (∀ x, Acts (.gcan o) s cx → cancelBar s p pasid h = some x →
        exec (.gcan o) s = .next (parkRetry (wantPage (issued (.gcan o) s t) x) t (.page x.1 x.2))) ∧
      (Acts (.gstat o) s cx → live = none → Gives (.gstat o) s cx 0) ∧
      (∀ g, Acts (.gstat o) s cx → live = some (.graph k) → mfind s.graphs k = some g →
        Gives (.gstat o) s cx (if g.cancelled then 11 else 10)) ∧
      (∀ g, Acts (.gstat o) s cx → live = some (.grid k) → mfind s.grids k = some g →
        let st := match g.state with
          | .queued => 1
          | .running => 2
          | .cancelling => 3
        (isPriv s t = false → Gives (.gstat o) s cx st) ∧
          (isPriv s t = true → Gives (.gstat o) s cx (st + ((joined s k).length + g.farDies.length) * 2 ^ 16))) ∧
      (∀ g, Acts (.wid o) s cx → threadGrid s t = some g →
        let l := (threadGroup s t).num * (threadGroup s t).gsize + t.gi
        (sel < 6 → ext = false → Gives (.wid o) s cx (l / wide g.hdr sel % hdrExt g.hdr sel)) ∧
        (sel < 6 → ext = true → Gives (.wid o) s cx (hdrExt g.hdr sel)) ∧
        (sel = 6 → Gives (.wid o) s cx (threadWorkid s t).toNat) ∧
        (sel = 7 → ext = false → Gives (.wid o) s cx (threadGroup s t).num) ∧
        (sel = 7 → ext = true → Gives (.wid o) s cx (hdrGangs g.hdr * hdrGang g.hdr)))) ∧
  (∀ (s : State) (p : Nat) (h : Shape),
      let f (lo w : Nat) : Nat := h.toNat / 2 ^ lo % 2 ^ w
      let ext (i : Nat) : Nat := f (192 + 32 * i) 32
      let width (i : Nat) : Nat := f (384 + 6 * i) 6
      let threads := ((List.range 6).map ext).prod
      let domain := (getPart s p).domain
      let dies := (partDies s p).length + if f 492 1 = 1 then (domain.map memberDies).sum else 0
      hdrOk s p h = true ↔
        f 493 19 = 0 ∧ pcForm (h.extractLsb' 0 64) = true ∧ f 128 64 % 256 = 0 ∧
          1 ≤ f 471 7 ∧ f 471 7 ≤ f 478 7 ∧ f 478 7 ≤ 64 ∧ 1 ≤ f 468 3 ∧ f 468 3 ≤ 4 ∧ f 463 5 ≤ 16 ∧
          f 440 23 ≤ 4194304 ∧ 1 ≤ f 432 8 ∧ f 432 8 ≤ 240 ∧ 1 ≤ f 420 12 ∧ f 420 12 ≤ 2048 ∧
          (∀ i < 6, width i ≤ 32 ∧ 1 ≤ ext i ∧ ext i ≤ 2 ^ width i) ∧ ((List.range 6).map width).sum ≤ 64 ∧
          threads % (f 420 12 * f 468 3) = 0 ∧ (f 420 12 + 31) / 32 * ((f 432 8 + 7) / 8 + 1) ≤ 512 ∧
          f 471 7 ≤ min 64 dies ∧ (f 492 1 = 1 → domain ≠ [])) ∧
  (∀ (s : State) (p pasid k : Nat) (h : Word) (g : Grid) (t : Tid), mfind s.grids k = some g →
      let c := cancelGrid s k
      let placed := ∃ x ∈ gangsOf s k, t.grp ∈ (getGang s x).groups
      let stopped (x : Grid) : Prop := x.state = .cancelling ∧ hdrRanges g.hdr ≤ x.nextRange ∧
        ∀ d w, mfind x.dies d = some w → w.next = w.stop
      (liveHandle s p pasid h = some (.grid k) → cancelHandle s p pasid h = c) ∧
      (liveHandle s p pasid h = some (.graph k) → cancelHandle s p pasid h = cancelGraph s k) ∧
      (liveHandle s p pasid h = none → cancelHandle s p pasid h = s) ∧
      (g.state = .cancelling ∨ g.acks ≠ [] → c = s) ∧
      (g.state = .queued → g.acks = [] → ∃ u x, c = tryComplete u k ∧ mfind u.grids k = some x ∧ stopped x ∧
        x.modules = [] ∧ x.gangsRun = g.gangsRun ∧ k ∉ (getPart u g.part).queue ∧ u.groups = s.groups) ∧
      (g.state = .running → g.acks = [] → ∃ u x, c = tryComplete u k ∧ mfind u.grids k = some x ∧ stopped x ∧
        u.gangs = s.gangs ∧ u.mem = s.mem ∧ u.ops = s.ops ∧
        (hdrCancelMode g.hdr = false → u.groups = s.groups) ∧
        (hdrCancelMode g.hdr = true → ¬placed → getThread u t = getThread s t) ∧
        (hdrCancelMode g.hdr = true → placed → t.gi < (threadGroup s t).threads.length → getThread u t =
          { getThread s t with cancelPend := (getThread s t).cancelPend || (getThread s t).run ≠ .done })))

/-- The Sprue's events: a die or the queue's head joins, ranges are dealt in ascending order to dies and modules that
ask, a member asks its root, a die leaves where the head wants its position or no range can come, gangs are placed or
the attempt is counted, dies and modules report, and spanning launches are acknowledged, time out or are cancelled
(R287 to R290, R294, R299). A grid of which every range is dealt, every gang has retired and every die has reported
completes: its report stands as Table 15-3 lays it out, or is abandoned, and its entry is free under the next
generation (R290, R291). A node that ends decrements its successors in order; one whose last predecessor ends
launches, or is SKIPPED if it is tainted, and a graph of which nothing is launched or can launch completes (R298).
What another module reports, how its root's answers come to a member, and the queue that a message of it notifies, are
the model's (logs 22 and 46); so are the launcher that resumes with the handle at a time-out, and the events that wait
for a graph's table to be there (log 36). -/
def Obligations.LaunchEvents : Prop :=
  (∀ (s : State) (p d k m : Nat) (g : Grid) (rest : List Nat),
      let n := 2 ^ hdrDeal g.hdr
      let w := mget { next := 0, stop := 0 } g.dies d
      let fit := findCluster s d g.hdr (groupFits s d g.hdr)
      let more (x : DieWork) (s : State) : State := modGrid s k fun g => { g with dies := mput g.dies d x }
      ((getPart s p).queue = k :: rest → mfind s.grids k = some g →
        exec (.gridJoin p d) s = .next (if headStarts s p g then startHead s p k g else s)) ∧
      ((getPart s p).queue = [] → d ∈ partDies s p → positionFree s d = true →
        firstGrid s (mkeys (s.grids.filter (mayJoin s p d))) = some k →
        exec (.gridJoin p d) s = .next (joinDie k s d)) ∧
      ((getPart s p).queue = [] → 8 ≤ d → firstGrid s (mkeys (s.grids.filter (mayJoinFar s p (d - 8)))) = some k →
        exec (.gridJoin p d) s = .next (notifyFabric (modGrid s k fun g => { g with
          farDies := g.farDies ++ [d - 8]
          farRan := if g.farRan.contains (d - 8) then g.farRan else g.farRan ++ [d - 8] }) p ((d - 8) / 8))) ∧
      (mfind s.grids k = some g → d < 8 → d ∈ joined s k → rangeDone g d = true → g.state = .running →
        g.nextRange < hdrRanges g.hdr → headWants s g.part d = false →
        ∃ u, exec (.rangeRequest k d) s = .next u ∧ ∃ x, mfind u.grids k = some x ∧
          x.nextRange = (if g.root = none then g.nextRange + 1 else hdrRanges g.hdr) ∧
          mfind x.dies d = some { next := g.nextRange * n, stop := min (hdrGangs g.hdr) ((g.nextRange + 1) * n) }) ∧
      (mfind s.grids k = some g → d < 8 → d ∈ joined s k → rangeDone g d = true →
        (g.state ≠ .running ∨ headWants s g.part d = true ∨
          (hdrRanges g.hdr ≤ g.nextRange ∧ (g.root = none ∨ g.closed = true))) →
        ∃ u, exec (.rangeRequest k d) s = .next u ∧ d ∉ joined u k ∧ u.grids = s.grids) ∧
      (mfind s.grids k = some g → d < 8 → d ∈ joined s k → rangeDone g d = true → g.state = .running →
        headWants s g.part d = false → hdrRanges g.hdr ≤ g.nextRange → g.root ≠ none → g.closed = false →
        exec (.rangeRequest k d) s =
          .next (if fabricDown s then s else modGrid s k fun g => { g with asked := true })) ∧
      (mfind s.grids k = some g → 16 ≤ d → d - 16 ∈ g.farDies →
        (g.state ≠ .running ∨ farWanted s g.part (d - 16) = true ∨ hdrRanges g.hdr ≤ g.nextRange) →
        exec (.rangeRequest k d) s = .next (notifyFabric (modGrid s k fun g =>
          { g with farDies := g.farDies.filter (· ≠ d - 16) }) g.part ((d - 16) / 8))) ∧
      (headWants s p d = true ↔ ((getDie s d).functioning = false ∨ 4 ≤ (getDie s d).grids.length) ∧
        ((getPart s p).farWant ≠ [] ∨ ∃ j r x, (getPart s p).queue = j :: r ∧ mfind s.grids j = some x ∧
          (gridPool s p x).length < hdrDieMin x.hdr)) ∧
      (mfind s.grids k = some g → 8 ≤ d → d < 16 → g.state = .running → farAsks s g (d - 8) = true →
        g.nextRange < hdrRanges g.hdr →
        let gangs := min (hdrGangs g.hdr) ((g.nextRange + 1) * n) - g.nextRange * n
        exec (.rangeRequest k d) s = .next (notifyFabric (modGrid s k fun x =>
          { x with nextRange := x.nextRange + 1, dealt := mput x.dealt (d - 8) (mget 0 x.dealt (d - 8) + gangs) })
          g.part (d - 8))) ∧
      (∀ cl c, placeable s d = some k → mfind s.grids k = some g → fit = some (cl, c) →
        exec (.gangPlace d) s = .next (modGrid (placeGang s d cl c k w.next g.hdr) k fun g =>
          { g with gangsRun := g.gangsRun + 1, dies := mput g.dies d { w with next := w.next + 1 } })) ∧
      (placeable s d = some k → mfind s.grids k = some g → fit = none →
        exec (.gangPlace d) s = .next (more { w with tried := true } (modDie s d fun x =>
          { x with launchFrag := if (findCluster s d g.hdr (groupNearly s d g.hdr)).isSome then x.launchFrag + 1
                                 else x.launchFrag }))) ∧
      (placeable s d = none → exec (.gangPlace d) s = .next s) ∧
      (mfind s.grids k = some g → d < 8 → mfind g.dies d = some w → w.reported = false → dieOver s k d g = true →
        exec (.dieReport k d) s = .next (tryComplete (modGrid (leaveDie s k d) k fun g =>
          { g with dies := mmod g.dies d fun w => { w with reported := true } }) k)) ∧
      (mfind s.grids k = some g → 8 ≤ d → g.state ≠ .queued → d - 8 ∈ g.modules → hdrRanges g.hdr ≤ g.nextRange →
        exec (.dieReport k d) s = .next (notifyFabric (tryComplete (moduleReport s k (d - 8)) k) g.part (d - 8))) ∧
      (mfind s.grids k = some g → m ∈ g.acks →
        exec (.spanAck k m) s = .next (notifyFabric (placeSpans (modGrid s k fun g =>
          { g with acks := g.acks.filter (· ≠ m) })) g.part m)) ∧
      (mfind s.grids k = some g → g.state = .queued → g.acks = [] → k ∉ (getPart s g.part).queue →
        spanBehind s k g = false →
        let u := launchEvent s k
        let r := releaseLauncher u k g (gridHandle u k)
        (g.graph = none → spanEvent s k = r) ∧
          (∀ gr n, g.graph = some (gr, n) → tableBar s gr = none →
            spanEvent s k = nodeLaunched r gr n (gridHandle r k)) ∧
          (∀ gr n x, g.graph = some (gr, n) → tableBar s gr = some x → spanEvent s k = wantPage s x)) ∧
      (mfind s.grids k = some g → g.acks ≠ [] → spanEvent s k = s) ∧
      (mfind s.grids k = some g → g.acks ≠ [] →
        exec (.spanAckTimeout k) s = .next (placeSpans (tryComplete (dropRanges (modGrid
          (releaseLauncher s k g (gridHandle s k)) k fun g =>
            { g with failed := true, state := .cancelling, acks := [], modules := [] }) k) k))) ∧
      (mfind s.grids k = some g → g.state = .cancelling → g.root = none →
        exec (.spanCancel k) s = .next (dropRanges s k)) ∧
      (∀ h, mfind s.grids k = some g → g.root = some (m, h) →
        exec (.spanCancel k) s = .next (notifyFabric (if g.state = .cancelling then dropRanges s k else cancelGrid s k)
          g.part m)) ∧
      (mfind s.grids k = some g → g.state ≠ .cancelling → g.root = none → exec (.spanCancel k) s = .next s) ∧
      (mfind s.grids k = none → exec (.rangeRequest k d) s = .next s ∧ exec (.dieReport k d) s = .next s ∧
        exec (.spanAck k m) s = .next s ∧ exec (.spanAckTimeout k) s = .next s ∧ exec (.spanCancel k) s = .next s)) ∧
  (∀ (s : State) (k : Nat) (g : Grid), mfind s.grids k = some g →
      let u := tryComplete s k
      let ended := g.state ≠ .queued ∧ (g.root = none ∨ ((g.closed = true ∨ g.state = .cancelling) ∧ fabricDown s = false)) ∧
        hdrRanges g.hdr ≤ g.nextRange ∧ (∀ e ∈ g.dies, e.2.reported = true) ∧ g.modules = [] ∧
        ∀ e ∈ s.gangs, e.2.grid ≠ k
      let addr := hdrDone g.hdr
      let bs := reportBytes s.link.index.toNat g
      let y := sprueWalk s g.part g.pasid addr bs.length
      let put := sprueWrite y g.part g.pasid addr bs
      (¬ended → u = s) ∧
      (∀ x, ended → gridBar s g = some x → u = wantPage s x) ∧
      (ended → gridBar s g = none → g.root = none → g.graph = none →
        mfind u.grids k = none ∧ (getEntry u g.part g.slot).what = none ∧
          (getEntry u g.part g.slot).gen = (getEntry s g.part g.slot).gen + 1 ∧
          (addr = 0 → u.mem = s.mem ∧ u.events = s.events + 1) ∧ (∀ v, addr ≠ 0 → put = some v → u.mem = v.mem) ∧
          (addr ≠ 0 → put = none → u.mem = y.mem ∧ Report.reportAbandoned g.part ∈ u.link.reports)) ∧
      (∀ gr n, ended → gridBar s g = none → g.root = none → g.graph = some (gr, n) → ∃ v, u = nodeDone v gr n (gridOutcome g) ∧
        mfind v.grids k = none ∧ (getEntry v g.part g.slot).what = none) ∧
      (∀ m h, ended → g.root = some (m, h) → mfind u.grids k = none ∧ u.mem = s.mem ∧
        u.link.reports = s.link.reports ++ [.memberDone m h g.gangsRun g.terminated g.count g.first])) ∧
  (∀ (index c j : Nat) (g : Grid),
      let bs := reportBytes index g
      let num (off n : Nat) : Nat := ofBytesLE ((bs.drop off).take n)
      let firsts := gridFirsts index g
      let at_ := 512 + 32 * j
      bs.length = 2560 ∧
        num 0 4 = (if g.failed then 3 else if g.state = .cancelling then 2
          else if g.terminated ≠ 0 ∨ ∃ e ∈ g.count, e.2 ≠ 0 then 1 else 0) ∧
        num 4 4 = g.terminated % 2 ^ 32 ∧ num 8 8 = g.gangsRun % 2 ^ 64 ∧ num 16 240 = 0 ∧
        (c < 64 → num (256 + 4 * c) 4 = mget 0 g.count c % 2 ^ 32) ∧
        (∀ code wid addr, j < 64 → (firsts[j]?.bind fun e => e.2) = some (code, wid, addr) →
          num at_ 4 = code % 2 ^ 32 ∧ num (at_ + 4) 4 = 0 ∧ num (at_ + 8) 8 = wid.toNat ∧
            num (at_ + 16) 8 = addr.toNat ∧ num (at_ + 24) 8 = 0) ∧
        (j < 64 → (firsts[j]?.bind fun e => e.2) = none → num at_ 4 = 0xFFFFFFFF ∧ num (at_ + 4) 28 = 0) ∧
        (∀ d f, d ∈ mkeys g.dies → mfind g.first d = some f →
          mfind firsts (8 * index + d) = some (some (codeNum f.code, f.workid, f.addr)))) ∧
  (∀ (s : State) (k n outcome fuel : Nat) (gr : Graph) (x : Node) (spoil : Bool) (ended ns : List Nat),
      mfind s.graphs k = some gr → gr.nodes[n]? = some x →
      let r := decrement k spoil (ended, s) n
      let y := getNode r.2 k n
      let ready := x.state = .waiting ∧ x.pred = 1
      let marked := x.state ≠ .done ∧ x.cont = false
      let next := x.succ.foldl (decrement k (decide marked)) ([], s)
      let st : NodeState := if outcome = 0 then .done else if outcome = 2 then .cancelled else .faulted
      (x.state ≠ .waiting ∨ x.pred = 0 → r = (ended, s)) ∧
      (∀ q, x.state = .waiting → x.pred = q + 2 → r.1 = ended ∧ y.pred = q + 1 ∧ y.state = .waiting ∧
        y.taint = (x.taint || spoil)) ∧
      (ready → x.taint = true ∨ spoil = true → r.1 = ended ++ [n] ∧ y.state = .skipped) ∧
      (ready → x.taint = false → spoil = false → x.hdrAddr = 0 → r.1 = ended ++ [n] ∧ y.state = .done) ∧
      (ready → x.taint = false → spoil = false → x.hdrAddr.toNat % 64 ≠ 0 → r.1 = ended ++ [n] ∧ y.state = .faulted) ∧
      cascade k (fuel + 1) (n :: ns) s = cascade k fuel (ns ++ next.1) next.2 ∧
      nodeDone s k n outcome = graphCheck (cascade k (nodeCount s k + 1) [n] (setNode s k n st)) k ∧
      (getNode (setNode s k n st) k n).state = st ∧
      ((∃ z ∈ gr.nodes, z.state = .launched ∨ (z.state = .waiting ∧ z.pred = 0)) → graphCheck s k = s) ∧
      ((∀ z ∈ gr.nodes, z.state ≠ .launched ∧ (z.state = .waiting → z.pred ≠ 0)) →
        mfind (graphCheck s k).graphs k = none ∧ (getEntry (graphCheck s k) gr.part gr.slot).what = none))

/-! ## Traps -/

/-- Taking an exception: outstanding register writes complete and the reservation is lost; then the thread enters its
group's handler with TCAUSE, TEPC and TADDR saved and IN_TRAP set; a fault in a handler, one with TVEC zero, and a
record that cannot be appended escalate, the thread standing at TEPC; where the record's area lacks a translation or a
page, the thread waits for it and then takes the trap. A record's fields stand where Table 16-7 puts them and the
codes number 1 to 33 (R79, R193, R308, R309, R314, R330). The order IN_TRAP before TVEC = 0 is the model's reading
(log 32); so is that the escalation of any thread of a scheduler core stops its partition, and that a group which has
stopped makes no further record (log 41). -/
def Obligations.TakingAnException : Prop :=
  ∀ (s : State) (t : Tid) (e : Exc) (tepc : DWord) (flags orig reason : Nat) (w : State) (r : Record) (l : Lack),
    let u := dropResv (completeRegs s t) t
    let th := getThread u t
    let tvec := (threadGroup u t).tvec
    let v := takeTrapWith s t e tepc flags
    let out := modThread u t fun th => { th with pc := tepc }
    let x := escalate out t e.code orig reason tepc e.addr flags
    let field (at_ n : Nat) : Nat := ofBytesLE (((recordBytes r).drop at_).take n)
    (th.run = .done → v = u) ∧
    (th.run ≠ .done → th.inTrap = true →
      v = escalate out t .nestedFault th.tcause.toNat 1 tepc e.addr flags) ∧
    (th.run ≠ .done → th.inTrap = false → tvec = 0 → v = escalate out t e.code 0 0 tepc e.addr flags) ∧
    (th.run ≠ .done → th.inTrap = false → tvec ≠ 0 → recordLack u t = some l → v = parkTrap u t e tepc flags l) ∧
    (goesOn (askFor u t l) t = true → t.gi < (threadGroup (askFor u t l) t).threads.length →
      getThread (parkTrap u t e tepc flags l) t =
        { getThread (askFor u t l) t with
          run := .parked (.trap e tepc flags (getCore (askFor u t l) (threadCore (askFor u t l) t)).packs) }) ∧
    (∀ n, recordLack s t = some l → settleWait s t (.trap e tepc flags n) = askFor s t l) ∧
    (∀ n, recordLack s t = none →
      settleWait s t (.trap e tepc flags n) = modThread v t fun th => { th with walkFails := [] }) ∧
    (th.run ≠ .done → th.inTrap = false → tvec ≠ 0 → recordLack u t = none → appendRecord u t e tepc flags = none →
      v = escalate out t .nestedFault (codeNum e.code) 1 tepc e.addr flags) ∧
    (th.run ≠ .done → th.inTrap = false → tvec ≠ 0 → recordLack u t = none → appendRecord u t e tepc flags = some w →
      goesOn w t = true →
      let entry := (threadGroup w t).tvec
      Posted v t entry ∧ getThread v t = { getThread w t with
        tcause := BitVec.ofNat 32 (codeNum e.code), tepc := tepc, taddr := e.addr, inTrap := true,
        checkTvec := true, pc := entry, run := .ready, counted := false } ∧
      (∀ y, y ≠ t → getThread v y = getThread w y) ∧ v.mem = w.mem) ∧
    ((threadGroup u t).trec = 0 → recordLack u t = none ∧ appendRecord u t e tepc flags = some u) ∧
    ((threadGroup u t).stopped = true → x = leaveStream out t) ∧
    (isPriv u t = false → mfind u.groups t.grp ≠ none → (threadGroup u t).stopped = false →
      (getGroup x t.grp).stopped = true ∧
      (getGroup x t.grp).fault = some { code := e.code, workid := threadWorkid u t, addr := e.addr }) ∧
    (isPriv u t = true → (threadGroup u t).stopped = false →
      (getPart x (threadPart u t)).stopped = true ∧ Report.fatal ∈ x.link.reports) ∧
    ((recordBytes r).length = 64 ∧ field 0 2 = r.code % 2 ^ 16 ∧ field 2 2 = r.flags % 2 ^ 16 ∧
      field 4 4 = r.gi % 2 ^ 32 ∧ field 8 8 = r.tepc.toNat ∧ field 16 8 = r.taddr.toNat ∧
      field 24 8 = r.workid.toNat ∧ field 32 4 = r.seq % 2 ^ 32 ∧ field 36 4 = r.depth % 2 ^ 32 ∧
      field 40 8 = 0 ∧ field 48 4 = r.reason % 2 ^ 32 ∧ field 52 4 = r.orig % 2 ^ 32 ∧
      field 56 4 = r.grid.toNat ∧ field 60 4 = r.phys.toNat) ∧
    [Code.illegalOp, .privOp, .illegalLine, .lineParity, .badTarget, .indexBound, .callOverflow, .retUnderflow,
      .setNotMember, .setMismatch, .setMode, .setBusy, .setLaneClash, .orphanSet, .misalign, .pageFault,
      .pagePerm, .scratchBound, .bankMode, .rangeLock, .poison, .atomicUnsupported, .tileFree, .accBusy,
      .engineOperand, .tokenBusy, .launchHeader, .gridSelf, .cancel, .userInt, .softTrap, .nestedFault,
      .unitLost].map codeNum = (List.range 33).map (· + 1)

/-- `TRAP` raises SOFT_TRAP with its 16-bit value in TADDR and the next slot in TEPC; `TRET` clears IN_TRAP and goes
to TEPC, and is ILLEGAL_OP outside a handler; `UIACK` clears UI_PEND; `MSS` to UIRAISE sets UI_PEND and the cause in
every thread of the grid that is not DONE (R80, R312, R313). That `TRAP` saves the next slot unchecked and what TADDR
holds at BAD_TARGET of `TRET` is log 35, TADDR 0 of its ILLEGAL_OP log 31. -/
def Obligations.TrapInstructions : Prop :=
  ∀ (o : Ops) (s : State) (cx : Ctx) (k : Nat),
    let t := cx.t
    let th := getThread s t
    let z (i : Instr) : State := issued i s t
    let cause := BitVec.ofNat 32 (cx.a s / 2 ^ 32)
    let h := BitVec.ofNat 32 (cx.a s)
    let formed := th.tepc.toNat / 8 % 8 = 0 ∧ th.tepc.toNat % 8 ≤ 4
    (Acts (.trap o) s cx → exec (.trap o) s = .next (takeTrapWith (z (.trap o)) t
      { code := .softTrap, addr := BitVec.ofNat 64 (cx.o.imm.toNat % 2 ^ 16) } (nextPc th.pc) 0)) ∧
    (Acts (.tret o) s cx → th.inTrap = false →
      exec (.tret o) s = .next (takeTrap (z (.tret o)) t { code := .illegalOp })) ∧
    (Acts (.tret o) s cx → th.inTrap = true → ¬formed →
      exec (.tret o) s = .next (takeTrap (z (.tret o)) t { code := .badTarget, addr := th.tepc })) ∧
    (Acts (.tret o) s cx → th.inTrap = true → formed →
      exec (.tret o) s =
        .next (endBlock (modThread (z (.tret o)) t fun th => { th with inTrap := false }) t th.tepc)) ∧
    (Acts (.uiack o) s cx → ∃ u, exec (.uiack o) s = .next u ∧
      getThread u t = { getThread (z (.uiack o)) t with uiPend := false, pc := nextPc th.pc, counted := false } ∧
      (∀ x, x ≠ t → getThread u x = getThread s x) ∧ u = { s with groups := u.groups }) ∧
    (Acts (.uiraise o) s cx → liveHandle s (threadPart s t) (threadPasid s t) h = none →
      exec (.uiraise o) s = .next (advance (z (.uiraise o)) t)) ∧
    (Acts (.uiraise o) s cx → liveHandle s (threadPart s t) (threadPasid s t) h = some (.grid k) →
      exec (.uiraise o) s = .next (advance (raiseGrid (z (.uiraise o)) k cause) t)) ∧
    (∀ x gk, gk ∈ gangsOf s k → x.grp ∈ (getGang s gk).groups → x.gi < (threadGroup s x).threads.length →
      getThread (raiseGrid s k cause) x =
        if (getThread s x).run = .done then getThread s x
        else { getThread s x with uiPend := true, uiCause := cause })

/-! ## The scheduler core's instructions -/

/-- Notify latches, stopping and resuming gangs, saving and restoring contexts (R81, R307, R315 to R318). That HALT.go
does nothing after a thermal trip is log 36, the order in which it takes several gangs log 59, the further cases of
STATUS 1 of CTXLD and the result for a GID that names no gang are log 26, the size of a context in shadow storage is
log 53, and that a restored gang gets the lowest free banks and slot is log 23. A stopped thread keeps its PC, has no
access outstanding, no reservation and no place in the Planisher or at a FIFO bank; a gang that goes on posts its
threads group by group in GINDEX order; a terminated group leaves no thread, set, reservation, waiting copy or
reserved accumulator. -/
def Obligations.SchedulerInstructions : Prop :=
  (∀ (o : Ops) (s : State) (cx : Ctx) (u : State) (k : Nat) (ks : List Nat),
      let t := cx.t
      let die := dieOfCore (threadCore s t)
      let next := nextPc (getThread s t).pc
      let ok (i : Instr) : Prop := Acts i s cx ∧ Passes (issued i s t) t next u
      let gid := BitVec.ofNat 32 (cx.a s)
      let named := gangsNamed s die gid
      let all := cx.o.mod.getLsbD 0 = true
      let ctx := cx.a s
      (ok (.svwait o) → latchPend u (threadDie u t) t.gi = true →
        exec (.svwait o) s = .next (endBlock (takeLatch u t cx.dst) t next)) ∧
      (ok (.svwait o) → latchPend u (threadDie u t) t.gi = false →
        exec (.svwait o) s = .next (park u t (.notify cx.dst))) ∧
      (t.gi < (threadGroup u t).threads.length → let r := takeLatch u t cx.dst
        latchPend r (threadDie u t) t.gi = false ∧
        Holds r t cx.dst (mget 0 (getDie u (threadDie u t)).tail t.gi).toNat) ∧
      (Acts (.svwake o) s cx → ∃ v, exec (.svwake o) s = .next v ∧ latchPend v die (cx.a s % 64) = true ∧
        mget 0 (getDie v die).tail (cx.a s % 64) = BitVec.ofNat 16 (cx.b s) ∧
        (∀ q, q ≠ cx.a s % 64 → mget 0 (getDie v die).tail q = mget 0 (getDie s die).tail q) ∧
        (getThread v t).pc = next) ∧
      (ok (.halt o) → let r := named.foldl stopGang u
        exec (.halt o) s = .next (if allStopped r named then endBlock r t next else park r t (.stop named))) ∧
      (ok (.haltGo o) → u.link.trip = false →
        exec (.haltGo o) s = .next (endBlock (named.foldl goGang u) t next)) ∧
      (ok (.haltGo o) → u.link.trip = true → exec (.haltGo o) s = .next (endBlock u t next)) ∧
      (ok (.haltTerm o) → exec (.haltTerm o) s =
        .next (endBlock ((named.flatMap fun k => groupAt s k (cx.b s)).foldl haltGroup u) t next)) ∧
      ((getGang s k).status = .stopping → gangStopped s k = true →
        exec (.gangStopComplete k) s = .next (modGang s k fun g => { g with status := .held })) ∧
      ((getGang s k).status ≠ .stopping ∨ gangStopped s k = false → exec (.gangStopComplete k) s = .next s) ∧
      (Acts (.ctxsv o) s cx → ¬all → named = [] →
        exec (.ctxsv o) s = .next (finish cx { issued (.ctxsv o) s t with free := s.free + 1 }
          (Config.noGangResult s.free).toNat)) ∧
      (Acts (.ctxsv o) s cx → (¬all ∧ named = ks ∧ ks ≠ []) ∨ (all ∧ userGangs s die = ks) →
        (∃ j ∈ ks, (getGang s j).status ≠ .held) → Gives (.ctxsv o) s cx 1) ∧
      (Acts (.ctxsv o) s cx → (¬all ∧ named = ks ∧ ks ≠ []) ∨ (all ∧ userGangs s die = ks) →
        (∀ j ∈ ks, (getGang s j).status = .held) →
        shadowFits s die ks = false ∨ (∀ c, c < 65536 → mfind (getDie s die).contexts c ≠ none) →
        Gives (.ctxsv o) s cx 2) ∧
      (Acts (.ctxsv o) s cx → (¬all ∧ named = ks ∧ ks ≠ []) ∨ (all ∧ userGangs s die = ks) →
        (∀ j ∈ ks, (getGang s j).status = .held) → shadowFits s die ks = true →
        (∃ c, c < 65536 ∧ mfind (getDie s die).contexts c = none) →
        ∃ v c, exec (.ctxsv o) s = .next v ∧ Holds v t cx.dst (c * 65536) ∧
          mfind (getDie s die).contexts c = none ∧ mfind (getDie v die).contexts c = some ks ∧
          ∀ j ∈ ks, (getGang v j).status = .saved die c ∧ (getGang v j).phys = []) ∧
      (Acts (.ctxld o) s cx → mfind (getDie s die).contexts ctx = none → Gives (.ctxld o) s cx 3) ∧
      (∀ saved, Acts (.ctxld o) s cx → mfind (getDie s die).contexts ctx = some saved →
        ks = saved.filter (fun k => (mfind s.gangs k).isSome) → (∃ j ∈ ks, gangReturns s ks j = false) →
        Gives (.ctxld o) s cx 1) ∧
      (∀ saved, Acts (.ctxld o) s cx → mfind (getDie s die).contexts ctx = some saved →
        ks = saved.filter (fun k => (mfind s.gangs k).isSome) → (∀ j ∈ ks, gangReturns s ks j = true) →
        exec (.ctxld o) s = .next (finish cx (ks.foldl loseDamaged (modDie
          (ks.foldl restoreGang (issued (.ctxld o) s t)) die fun d =>
            { d with contexts := mdel d.contexts ctx })) 0))) ∧
  (∀ (s : State) (k : Nat) (r : Run) (w : Wait) (t : Tid),
      heldRun .ready = .held none ∧ heldRun .issuing = .held none ∧ heldRun .done = .done ∧
      (r = .parked w → heldRun r = match w with
        | .fifo _ | .fifoTurn _ _ _ _ => .held none
        | w => .held (some w)) ∧
      ((getGang s k).status ≠ .running → stopGang s k = s) ∧
      ((mfind s.gangs k).isSome → (getGang s k).status = .running → (getGang (stopGang s k) k).status = .stopping) ∧
      ((getGang s k).status = .running → t.grp ∈ (getGang s k).groups → t.gi < (threadGroup s t).threads.length →
        (∀ c, ∀ e ∈ (getCore s c).queue, threadCore s e.tid = c) →
        let v := stopGang s k
        let c := threadCore s t
        (getThread v t).pc = (getThread s t).pc ∧
        (midPack s t.grp = true → (getThread v t).run = (getThread s t).run) ∧
        (midPack s t.grp = false → (getThread v t).run = heldRun (getThread s t).run ∧
          (getThread v t).walkFails = [] ∧ (getThread v t).late = [] ∧
          (∀ q ∈ v.resv, q.tid ≠ t) ∧ (∀ e ∈ (getCore v c).queue, e.tid ≠ t) ∧
          (∀ e ∈ (getCore v c).table, e.2.grp ≠ t.grp) ∧ (∀ e ∈ (getCore v c).overflow, e.1.grp ≠ t.grp) ∧
          (∀ st, (getCore v c).stream = some st → st.grp ≠ t.grp) ∧
          ∀ e ∈ (getGang v (threadGroup s t).gang).banks,
            (∀ y ∈ e.2.readers, y.1.grp ≠ t.grp) ∧ ∀ y ∈ e.2.writers, writerIn t.grp y = false)) ∧
      ((getGang s k).status ≠ .held → goGang s k = s) ∧
      ((getThread s t).run = .held none → goThread s t = post s t (getThread s t).pc) ∧
      ((getThread s t).run = .held (some w) →
        let u := modThread s t fun th => { th with run := .parked w }
        goThread s t = if mayDeliver (getThread s t) w then u else settleWait u t w) ∧
      ((getGang s k).status = .held → (getGang s k).groups.Nodup →
        (∀ g ∈ (getGang s k).groups, ∀ x ∈ groupTids s g,
          (getThread s x).run = .held none ∨ (getThread s x).run = .done) →
        goGang s k = (((getGang s k).groups.filter fun g => !(getGroup s g).stopped).flatMap fun g =>
            (groupTids s g).filter fun x => (getThread s x).run = .held none).foldl
          (fun u x => post u x (getThread s x).pc) (modGang s k fun g => { g with status := .running })) ∧
      (t.gi < (threadGroup s t).threads.length → ∀ pc, let v := post s t pc
        (getThread v t).run = .ready ∧ (getThread v t).pc = pc ∧
        ((∃ e ∈ (getCore v (threadCore s t)).table, e.2.grp = t.grp ∧ e.2.pc = pc ∧
            (mfind e.2.waiting t.gi).isSome) ∨
          (t, pc, (getCore s (threadCore s t)).selections + 1) ∈ (getCore v (threadCore s t)).overflow))) ∧
  (∀ (s : State) (grp : Nat) (g : Group), mfind s.groups grp = some g →
      (∀ c, ∀ e ∈ (getCore s c).queue, threadCore s e.tid = c ∧ e.tid.gi < (threadGroup s e.tid).threads.length) →
      let v := haltGroup s grp
      (g.terminated = true → v = s) ∧
      (g.terminated = false → midPack s grp = true →
        v = modGroup s grp fun g => { g with stopped := true, doomed := true }) ∧
      (g.terminated = false → midPack s grp = false →
        (mfind v.groups grp = none ∨ ∃ h, mfind v.groups grp = some h ∧ h.terminated = true ∧ h.stopped = false ∧
          h.threads = [] ∧ h.sets = []) ∧
        (∀ q ∈ v.resv, q.tid.grp ≠ grp) ∧ (∀ e ∈ v.ops, unbegunCopy grp e.2 = false) ∧
        (∀ e ∈ (getGang v g.gang).accs, ∀ q, e.2.reserved = some q → q.1 ≠ grp) ∧
        ∀ x, mfind s.grids (getGang s g.gang).grid = some x →
          (mget x v.grids (getGang s g.gang).grid).terminated = x.terminated + 1)) ∧
  (∀ (s : State) (k : Nat) (g : Gang), mfind s.gangs k = some g → g.nbanks ≤ (banksFree s g.cluster).length →
      let v := restoreGang s k
      let r := getGang v k
      r = { g with status := .held, phys := r.phys, slot := freeGangSlot s g.cluster } ∧ r.phys.length = g.nbanks ∧
      (∀ b ∈ r.phys, b ∈ banksFree s g.cluster ∧ ∀ q ∈ banksFree s g.cluster, q < b → q ∈ r.phys) ∧
      (∀ j, j ≠ k → getGang v j = getGang s j) ∧ v.groups = s.groups ∧ v.ops = s.ops ∧ v.mem = s.mem)

/-- Translation maintenance: a `TLBINV` waits for the walks of its scope and for the strict accesses that hold a
translation of it (log 37), that of `TLBINV.page` being the whole page of its address, and then drops its translations
from every core of the partition; `PASIDSET` moves a PASID along FREE, ACTIVE, DYING and FREE alone; a walker takes
the oldest miss and completes it: its translation is cached in the cores that missed, or each thread that waits for it
is to take PAGE_FAULT; a root entry in an X window fails the walk while the PCIe port is down, and counts an error of
the port (R321, R329 to R332, R350, R351). That a change to DYING drops the queued misses before it counts, and how
the page of `TLBINV.page` is found, is log 37; that a walk goes on while a core which waits for it is issuing a pack
is log 1. -/
def Obligations.TranslationMaintenance : Prop :=
  ∀ (o : Ops) (s : State) (cx : Ctx) (die n : Nat) (m : Miss) (ms : List Miss),
    let t := cx.t
    let p := threadPart s t
    let next := nextPc (getThread s t).pc
    let drops (i : Instr) (page : Option (Nat × Nat)) (pasid : Option Nat) (kept : TlbEntry → Prop) : Prop :=
      (Acts i s cx → scopeBusy s p page pasid = true →
        exec i s = .next (parkRetry (issued i s t) t (.walks page pasid))) ∧
      (Acts i s cx → scopeBusy s p page pasid = false → ∃ u, exec i s = .next u ∧
        (∀ c e, holdsDie s p (c / 64) = true → (e ∈ (getCore u c).tlb ↔ e ∈ (getCore s c).tlb ∧ kept e)) ∧
        (∀ c, holdsDie s p (c / 64) = false → (getCore u c).tlb = (getCore s c).tlb) ∧
        (∀ c, (getCore u c).queue = (getCore s c).queue) ∧ (getThread u t).pc = next ∧ u.mem = s.mem)
    let va := BitVec.ofNat 64 (cx.a s)
    let pasid := cx.b s
    let x := cx.a s
    let st := pasidState s p x
    let moves (v : Nat → State → Prop) (after : PasidState) : Prop :=
      ∃ u r, exec (.pasidset o) s = .next u ∧ Holds u t cx.dst r ∧ v r u ∧ pasidState u p x = after ∧
        (∀ y, y ≠ x → pasidState u p y = pasidState s p y) ∧ (getThread u t).pc = next
    let isSet := Acts (.pasidset o) s cx ∧ x < pasidCount s p
    let legal := (st = .free ∧ cx.b s = 1) ∨ (st = .active ∧ cx.b s = 2) ∨ (st = .dying ∧ cx.b s = 0)
    let out := pasidOutstanding s p x
    let scope := scopePage (issued (.tlbinvPage o) s t) p pasid va
    (scope.1 = va.toNat % 2 ^ 57 / 2 ^ scope.2 ∧ 16 ≤ scope.2 ∧
      ∀ c ∈ coresOfPart s p, ∀ e ∈ (getCore s c).tlb, tlbServes pasid va e = true → e.leaf.bits ≤ scope.2) ∧
    (∀ page pd, scopeBusy s p page pd = true ↔
      (∃ d ∈ partDies s p, ∃ m ∈ (getDie s d).walks,
        (∀ y, page = some y → y.1 = m.vpn * 65536 / 2 ^ y.2) ∧ ∀ y, pd = some y → y = m.pasid) ∨
      ∃ q ∈ allTids s, ∃ y l, holdsDie s p (threadCore s q / 64) = true ∧ (getThread s q).strict = some y ∧
        y.leaf = some l ∧ (∀ v, page = some v → v.1 = y.acc.va.toNat % 2 ^ 57 / 2 ^ v.2) ∧
        (pd = none ∨ pd = some (threadPasid s q) ∨ (l.global = true ∧ page ≠ none))) ∧
    drops (.tlbinvPage o) (some scope) (some pasid) (fun e =>
      ¬((e.pasid = none ∨ e.pasid = some pasid) ∧ e.vpn = va.toNat % 2 ^ 57 / 2 ^ e.leaf.bits)) ∧
    drops (.tlbinvPasid o) none (some pasid) (fun e => e.pasid ≠ some pasid) ∧
    drops (.tlbinvAll o) none none (fun _ => False) ∧
    (isSet → st = .free → cx.b s = 1 → moves (fun r _ => r = out) .active) ∧
    (isSet → st = .active → cx.b s = 2 →
      moves (fun r u => r = pasidOutstanding u p x ∧
        ∀ d ∈ partDies s p, ∀ y ∈ (getDie u d).misses, y.pasid ≠ x) .dying) ∧
    (isSet → st = .dying → cx.b s = 0 → out = 0 → moves (fun r _ => r = 0) .free) ∧
    (isSet → st = .dying → cx.b s = 0 → out ≠ 0 → moves (fun r _ => r = out) .dying) ∧
    (isSet → cx.b s ≤ 2 → ¬legal → moves (fun r _ => r = 0xFFFFFFFE) st) ∧
    (isSet → 2 < cx.b s → moves (fun r _ => r = 0xFFFFFFFF) st) ∧
    ((getDie s die).misses = m :: ms → (getDie s die).walks.length < 64 → ∃ u, exec (.walkStart die) s = .next u ∧
      (getDie u die).walks = (getDie s die).walks ++ [m] ∧ (getDie u die).misses = ms ∧ u.mem = s.mem) ∧
    ((getDie s die).misses = [] ∨ 64 ≤ (getDie s die).walks.length → ∃ u, exec (.walkStart die) s = .next u ∧
      getDie u die = getDie s die) ∧
    ((getDie s die).walks[n]? = none → exec (.walkComplete die n) s = .next s) ∧
    (∀ (q pd : Nat) (v : DWord), q < 8 → pd < pasidCount s q → regionOf (rootEntry s q pd v) = .ext →
      Port.pcie ∈ s.link.down →
      walk s q pd v = none ∧ Report.linkError die ∈ (walkTouch s die q pd v).link.reports) ∧
    ((getDie s die).walks[n]? = some m →
      let q := (partOfDie s die).getD 8
      let u := modDie s die fun d => { d with walks := d.walks.eraseIdx n }
      (pasidState s q m.pasid = .dying → exec (.walkComplete die n) s = .next u) ∧
      (pasidState s q m.pasid ≠ .dying → walkStays s q m = false →
        exec (.walkComplete die n) s = .next (walkFinish u q die m)) ∧
      (pasidState s q m.pasid ≠ .dying → walkStays s q m = true → exec (.walkComplete die n) s = .next s)) ∧
    (∀ q : Nat, let va : DWord := (BitVec.ofNat 57 (m.vpn * 65536)).signExtend 64
      let z := walkTouch s die q m.pasid va
      (∀ l, walk z q m.pasid va = some l → ∀ c ∈ m.cores,
        tlbLookup (getCore (walkFinish s q die m) c).tlb m.pasid va = some l) ∧
      (walk z q m.pasid va = none → ∀ w ∈ m.waiters, w.gi < (threadGroup z w).threads.length →
        let fails := (getThread (walkFinish s q die m) w).walkFails
        (heldThread z w = false → m.vpn ∈ fails) ∧ (heldThread z w = true → fails = (getThread z w).walkFails)))

/-- `ACLS.clear` and `CACHEOP`: a misaligned or empty range is MISALIGN, one outside the partition's memory
PAGE_FAULT; `ACLS.clear` waits for lock records; otherwise the granules return to class U, or the range's cached
copies are written back, dropped, or both, and the thread goes on (R322). That a fault's TADDR is the physical address
operand is the model's choice (log 31). Past the accesses that the cores have queued, `.clean` leaves bytes, marks and
copies and no dirty line; `.flush` leaves the bytes and no copy; `.inv` leaves what memory holds and no copy, where a
dirty line may have been written back before, and a mark of a clean copy goes with the copy (log 8). -/
def Obligations.CacheMaintenance : Prop :=
  (∀ (o : Ops) (s : State) (cx : Ctx) (i : Instr) (act : CacheAct),
      let t := cx.t
      let p := threadPart s t
      let pa := cx.a s
      let n := cx.b s
      let traps (c : Code) : Prop := exec i s = .next (takeTrap (issued i s t) t { code := c, addr := BitVec.ofNat 64 pa })
      let isOp := (i = .cacheopClean o ∧ act = .clean) ∨ (i = .cacheopInv o ∧ act = .inv) ∨
        (i = .cacheopFlush o ∧ act = .flush)
      let badLines := pa % 128 ≠ 0 ∨ n % 128 ≠ 0 ∨ n = 0
      let badGranules := pa % 4096 ≠ 0 ∨ n = 0 ∨ 2 ^ 20 < n
      Acts i s cx →
      (i = .aclsClear o → badGranules → traps .misalign) ∧
      (i = .aclsClear o → ¬badGranules → rangeMemory s p pa (n * 4096) = false → traps .pageFault) ∧
      (i = .aclsClear o → ¬badGranules → rangeMemory s p pa (n * 4096) = true →
        granulesLocked s (pa / 4096) n = true →
        exec i s = .next (parkRetry (issued i s t) t (.granules (pa / 4096) n))) ∧
      (i = .aclsClear o → ¬badGranules → rangeMemory s p pa (n * 4096) = true →
        granulesLocked s (pa / 4096) n = false →
        exec i s = .next (advance (clearGranules (issued i s t) (pa / 4096) n) t)) ∧
      (isOp → badLines → traps .misalign) ∧
      (isOp → ¬badLines → rangeMemory s p pa n = false → traps .pageFault) ∧
      (isOp → ¬badLines → rangeMemory s p pa n = true →
        exec i s = .next (advance (cacheAct (issued i s t) act p pa n) t))) ∧
  (∀ (s : State) (lo n g l : Nat), risingKeys s.pages = true → lo ≤ g → g < lo + n → l / 32 = g →
      let v := clearGranules s lo n
      (getGranule v g).cls = .u ∧ (getGranule v g).annealing = none ∧ mfind v.backing l = none ∧
        (getLine v l).st = .inv ∧ ∀ e ∈ v.wayPoison, e.2 / 16 ≠ l) ∧
  (∀ (s : State) (act : CacheAct) (p pa n l a : Nat), pa % 128 = 0 → n % 128 = 0 → 0 < n →
      (∀ k b, mfind (drainRange s p pa n).backing k = some b → b.bytes.length = 128 ∧ ∀ w ∈ b.marks, w / 16 = k) →
      let z := drainRange s p pa n
      let v := cacheAct s act p pa n
      let beneath := mfind z.backing l
      let inside (k : Nat) : Prop := pa / 128 ≤ k ∧ k < (pa + n) / 128
      let dropped := mfind v.backing l = none ∧ (∀ c, Holder.cluster c ∉ (getLine v l).st.holders) ∧
        ∀ e ∈ v.wayPoison, e.2 / 16 ≠ l
      (¬inside l → mfind v.backing l = beneath ∧ lineMarks v l = lineMarks z l ∧ getLine v l = getLine z l) ∧
      (¬inside (a / 128) → readByte v a = readByte z a) ∧
      (act = .clean → v = { z with backing := v.backing } ∧
        (inside l → mfind v.backing l = if beneath.any Beneath.dirty then none else beneath)) ∧
      (act = .flush → v.mem = z.mem ∧ (inside l → dropped ∧
        ((beneath = none ∨ ∃ b, beneath = some b ∧ b.dirty = true) → lineMarks v l = lineMarks z l) ∧
        ∀ b, beneath = some b → b.dirty = false → ∀ w, w ∈ lineMarks v l ↔ w ∈ b.marks)) ∧
      (act = .inv → inside l → dropped ∧
        (beneath = none → readBytes v (128 * l) 128 = readBytes z (128 * l) 128 ∧ lineMarks v l = lineMarks z l) ∧
        ∀ b, beneath = some b →
          (readBytes v (128 * l) 128 = b.bytes ∧ ∀ w, w ∈ lineMarks v l ↔ w ∈ b.marks) ∨
          (b.dirty = true ∧ readBytes v (128 * l) 128 = readBytes z (128 * l) 128 ∧
            lineMarks v l = lineMarks z l)))

/-! ## The Planisher's events -/

/-- PLANISHER_SELECT: with no stream, the candidate that no other comes before by the keys of R74 becomes the core's
stream and its selection is counted; otherwise nothing changes. LINE_REFETCH: with no stream, no thread about to issue
or no mismatch of the next line, nothing changes; otherwise the line is read again and checked, and a mismatch that
persists is the fault of each thread about to issue from it, which for one at the entry of its handler means that the
handler cannot be entered (R64, R314). ORPHAN_SET: when every thread of a running group has
exited or waits in a way that only its group's sets and signings could end, and no user interrupt is pending for it
outside a handler, the lowest thread that has arrived, has signed and waits to sign again or for `MRD`, or is at a
`WAITC` that its signatures hold, has its arrival or its signature withdrawn and takes the fault with the set's
number; otherwise nothing happens (R26, R74, R75, R117, R231). Which signature is withdrawn where a thread has
several, that of a thread which has arrived and signed the arrival alone is, and the members that wait to leave a set
or to free a tile, is log 60. -/
def Obligations.PlanisherEvents : Prop :=
  (∀ (s : State) (core : Nat) (st : Stream) (gi pa : Nat) (rest : List Nat) (l : Leaf) (bs : List Byte) (e : Exc)
      (u : State),
    let c := getCore s core
    let sel := c.selections + 1
    let line := fetchPa s ⟨st.grp, gi⟩ st.pc
    let about := c.stream = some st ∧ st.todo.flatten = gi :: rest
    let t : Tid := ⟨st.grp, gi⟩
    let mismatch := lineMismatch s core pa st t
    let open_ := fetchStopped s t = false ∧ fetchMiss s t (lineOf st.pc) = false
    (c.stream = some st → exec (.planisherSelect core) s = .next s) ∧
    (c.stream = none → candidates c = [] → exec (.planisherSelect core) s = .next s) ∧
    (c.stream = none → candidates c ≠ [] → ∃ v b x, exec (.planisherSelect core) s = .next v ∧ b ∈ candidates c ∧
      (∀ y ∈ candidates c, keysBefore (y.keys s sel) (b.keys s sel) = false) ∧
      (getCore v core).stream = some x ∧ x.grp = b.grp ∧ x.pc = b.pc ∧ (getCore v core).selections = sel ∧
      v.mem = s.mem) ∧
    (c.stream = none → exec (.lineRefetch core) s = .next s) ∧
    (c.stream = some st → st.todo.flatten = [] → exec (.lineRefetch core) s = .next s) ∧
    (about → line = .error e → exec (.lineRefetch core) s = .next s) ∧
    (about → line = .ok (pa, l) → mismatch = false ∨ ¬open_ → exec (.lineRefetch core) s = .next s) ∧
    (about → line = .ok (pa, l) → open_ → mismatch = true → lineFor s t st st.pc = (.ok bs, u) →
      exec (.lineRefetch core) s = .next u) ∧
    (about → line = .ok (pa, l) → open_ → mismatch = true → lineFor s t st st.pc = (.error e, u) →
      exec (.lineRefetch core) s = .next ((st.todo.headD []).foldl (fun s gi => lineTrap e s ⟨st.grp, gi⟩)
        (modCore u core fun k =>
          { k with stream := k.stream.map fun x => { x with todo := [] :: x.todo.drop 1 } }))) ∧
    lineTrap e s t = if (getThread s t).checkTvec then
        handlerLost (modThread s t fun th => { th with checkTvec := false }) t
      else takeTrap s t e) ∧
  (∀ (s : State) (grp : Nat),
      let g := getGroup s grp
      let n := g.threads.length
      let th (gi : Nat) : Thread := getThread s ⟨grp, gi⟩
      let on (gi j : Nat) : Prop := (th gi).run = .parked (.arrived j) ∨ (th gi).run = .parked (.signing j) ∨
        ((th gi).run = .parked (.mrd j) ∧ hasSigned (getSet s grp j) gi = true) ∨
        ∃ ld st cp mx, (th gi).run = .parked (.counts ld st cp mx) ∧ mx < signedCount s ⟨grp, gi⟩ ∧
          signedSet s ⟨grp, gi⟩ = some j
      let stuck (gi : Nat) : Prop := (th gi).run = .done ∨
        (((∃ j, on gi j) ∨ signsOnly s ⟨grp, gi⟩ = true) ∧ ((th gi).uiPend = false ∨ (th gi).inTrap = true))
      let due : Prop := (getGang s g.gang).status = .running ∧ g.stopped = false ∧ ∀ gi < n, stuck gi
      let orphans := exec (.orphanSet grp) s
      let raised (u : State) (gi j : Nat) : State :=
        takeTrap u ⟨grp, gi⟩ { code := .orphanSet, addr := BitVec.ofNat 64 j }
      (¬due ∨ (∀ gi < n, ∀ j, ¬on gi j) → orphans = .next s) ∧
      (∀ gi j, due → gi < n → on gi j → (∀ i < gi, ∀ k, ¬on i k) →
        ((th gi).run = .parked (.arrived j) → orphans = .next (raised (withdrawArrival s ⟨grp, gi⟩ j) gi j)) ∧
        ((∀ k, (th gi).run ≠ .parked (.arrived k)) →
          orphans = .next (raised (withdrawSignature s ⟨grp, gi⟩ j) gi j))))

/-! ## Queues, ring commands and messages -/

/-- A notify, the fault ring and MSI-X: a host's write of QNOTIFY waits while its queue is enabled and is dropped
otherwise, and when released sets TAIL and PEND, as a thread's D store does at once; the oldest waiting escalation
goes to an open ring as the record at TAIL and wakes service thread 63; a message to an unmasked vector is held and
then sent, one to a masked vector sets its pending bit (R305, R307, R314, R319, R346 to R348). The ring commands: an
entry that is not there, or is another command's, changes nothing; one that lacks a translation or a page asks for it
and stays at the head; a malformed one and a bad opcode complete with STATUS 1; under a DYING PASID with 2 + 256 × 27;
a launch with a misaligned header with 2 + 256 × 15, with a bad one 2 + 256 × 27, otherwise with its grid's handle; a
graph with its handle; CANCEL, INTERRUPT, and WAIT once its handle is gone, with STATUS 0; a completion moves the head
on, and its 16 bytes are those of R306 (R193, R284, R306, R330, R332). What a cancel does to its grid or graph is
stated by LaunchInstructions. The model's choices: the STATUS of a misaligned header (2 + 256 × 15) and of an entry
whose tail is not zero (1), HANDLE 0 where a command sets none, which entries a DYING PASID refuses, and the reading
and completion of an entry in one step are log 10; ENABLE as tested when a notify arrives log 68; the layout of the
MSI-X table with its mask bit log 19, the room that opens the fault ring log 16, and how a completion under a DYING
PASID is translated log 13. -/
def Obligations.QueuesAndRingCommands : Prop :=
  (∀ (s : State) (die q v n : Nat) (value : Word) (e : Escalation) (es : List Escalation) (vs : List Nat),
      let d := getDie s die
      let masked := (msixWord s.link (4 * v + 3)).getLsbD 0
      let up : Prop := Port.pcie ∉ s.link.down
      let entry := qentryAddr s die 63 (mget 0 d.tail 63).toNat
      let address := msixWord s.link (4 * v + 1) ++ msixWord s.link (4 * v)
      (q < 48 → up → (qcfgOf s die q).getLsbD 31 = true → ∃ u k, exec (.qnotify die q value) s = .next u ∧
        (getDie u die).notifies = d.notifies ++ [(k, q, value)] ∧ (getDie u die).tail = d.tail ∧ u.mem = s.mem) ∧
      (48 ≤ q ∨ ¬up ∨ (qcfgOf s die q).getLsbD 31 = false → exec (.qnotify die q value) s = .next s) ∧
      (∀ (t : Tid) (a : Access), die < 8 → q < 48 ∨ (q < 64 ∧ isPriv s t = true) →
        a.pa = 0xF000000000000 + die * 0x10000 + 0x400 + 4 * q → a.size = 4 → a.op = .store (bytesLE 4 value.toNat) →
        performDevice s t a = if (qcfgOf s die q).getLsbD 31 then modDie s die fun d =>
          { d with tail := mset 0 d.tail q (value.setWidth 16), pend := nadd d.pend q } else s) ∧
      (d.notifies.find? (fun x => x.2.1 = q) = none → exec (.notifyRelease die q) s = .next s) ∧
      (d.notifies.find? (fun x => x.2.1 = q) = some (n, q, value) → earlierWrites s n = true →
        exec (.notifyRelease die q) s = .next s) ∧
      (d.notifies.find? (fun x => x.2.1 = q) = some (n, q, value) → earlierWrites s n = false →
        ∃ u, exec (.notifyRelease die q) s = .next u ∧ mget 0 (getDie u die).tail q = value.setWidth 16 ∧
          latchPend u die q = true ∧ (∀ x ∈ (getDie u die).notifies, x.1 ≠ n) ∧ u.mem = s.mem) ∧
      (d.escalated = e :: es → faultRingOpen s die = true → ∃ u, exec (.faultRingAppend die) s = .next u ∧
        latchPend u die 63 = true ∧
        (s.link.fwLock = true → inCarveOut entry = true → u.mem = s.mem ∧
          u.link.denied = min 65535 (s.link.denied + 1)) ∧
        (s.link.fwLock = false ∨ inCarveOut entry = false → readBytes u entry 64 =
          recordBytes (escalationRecord e (mget 0 d.tail 63).toNat))) ∧
      (d.escalated = [] ∨ faultRingOpen s die = false → exec (.faultRingAppend die) s = .next s) ∧
      (v < 64 → masked = true → ∃ u, exec (.msixSend (BitVec.ofNat 32 v)) s = .next u ∧
        v ∈ u.link.msixPending ∧ u.link.msixHeld = s.link.msixHeld ∧ u = { s with link := u.link }) ∧
      (v < 64 → masked = false → exec (.msixSend (BitVec.ofNat 32 v)) s =
        .next { s with link := { s.link with msixHeld := s.link.msixHeld ++ [v] } }) ∧
      (s.link.msixHeld = v :: vs → up → exec (.msixDeliver v) s =
        .next { s with link := { s.link with msixHeld := vs, msixSent := s.link.msixSent ++
          [(v, address, msixWord s.link (4 * v + 2))] } }) ∧
      (s.link.msixHeld.head? ≠ some v ∨ ¬up → exec (.msixDeliver v) s = .next s)) ∧
  (∀ (s r w x : State) (die q k slot op : Nat) (c : Cmd) (i : Instr) (bs : List Byte) (nodes : List Node) (l : Lack),
      let p := (partOfDie r die).getD 8
      let pasid := qpasidOf r die q
      let hdr : Shape := BitVec.ofNat 512 (ofBytesLE bs)
      let h := cmdHandle c
      let ends (u : State) (status : Nat) (handle : Word) : Prop :=
        exec i s = .next (ringComplete u die q c status handle)
      let live : Prop := c.opcode = op ∧ c.zero = true ∧ pasidState r p pasid ≠ .dying
      let fresh : Prop := op = 1 ∧ live ∧ mfind (getDie r die).inprog q = none
      let aligned := c.arg0.toNat % 64 = 0
      (op, i) ∈ [(1, Instr.launch die q), (2, .ringGraph die q), (3, .cancel die q), (4, .wait die q),
        (5, .interrupt die q)] →
      (ringPending s die q = false → exec i s = .next s ∧ exec (.ringBadOpcode die q) s = .next s) ∧
      (∀ v, ringPending s die q = true → ringBar s (headEntry s die q) = some v →
        exec i s = .next (wantPage s v) ∧ exec (.ringBadOpcode die q) s = .next (wantPage s v)) ∧
      (ringPending s die q = true → ringBar s (headEntry s die q) = none → ringRead s die q = (c, r) →
        (c.opcode ≠ op → exec i s = .next s) ∧
        (c.opcode = op → exec (.ringBadOpcode die q) s = .next s) ∧
        (ringLack r die q c = some l → let u := askRing r die q l
          (c.opcode = op → exec i s = .next u) ∧
          (c.opcode = 0 ∨ 5 < c.opcode → exec (.ringBadOpcode die q) s = .next u) ∧
          qheadOf u die q = qheadOf r die q ∧ u.mem = r.mem)) ∧
      (ringPending s die q = true → ringBar s (headEntry s die q) = none → ringRead s die q = (c, r) →
        ringLack r die q c = none →
        (c.opcode = 0 ∨ 5 < c.opcode →
          exec (.ringBadOpcode die q) s = .next (ringComplete r die q c 1 0)) ∧
        (c.opcode = op → c.zero = false → ends r 1 0) ∧
        (c.opcode = op → c.zero = true → pasidState r p pasid = .dying → ends r (2 + 256 * 27) 0) ∧
        (op = 3 → live → ends (cancelHandle r p pasid h) 0 0) ∧
        (op = 5 → live → ends (raiseHandle r p pasid h (c.arg1.setWidth 32)) 0 0) ∧
        (op = 4 → live → liveHandle r p pasid h = none → ends r 0 0) ∧
        (op = 4 → live → liveHandle r p pasid h ≠ none →
          ∃ u, exec i s = .next u ∧ qheadOf u die q = qheadOf r die q ∧ u.mem = r.mem) ∧
        (fresh → ¬aligned → ends r (2 + 256 * 15) 0) ∧
        (∀ e, fresh → aligned → serviceRead r die q c.arg0 64 = .error e →
          ends (noteRead r die (schedCore r die) p pasid sprueLoad c.arg0 64) (2 + 256 * codeNum e.code) 0) ∧
        (fresh → aligned → serviceRead r die q c.arg0 64 = .ok (bs, w) → launchOk w p pasid hdr = false →
          ends w (2 + 256 * 27) 0) ∧
        (fresh → aligned → serviceRead r die q c.arg0 64 = .ok (bs, w) → launchOk w p pasid hdr = true →
          openGrid w p pasid hdr (some (die, q, c.seq)) none = some (k, x) →
          spanWaits x p pasid (gridHandle x k) = false → ends x 0 (gridHandle x k)) ∧
        (∀ e, op = 2 → live → readTable r (schedCore r die) p pasid c.arg0 c.arg1.toNat = (.error e, w) →
          ends w (2 + 256 * codeNum e.code) 0) ∧
        (op = 2 → live → readTable r (schedCore r die) p pasid c.arg0 c.arg1.toNat = (.ok nodes, w) →
          freeEntry r p = some slot → ends (openGraph w p pasid slot c.arg0 nodes) 0 (handleOf r p slot)))) ∧
  (∀ (s : State) (die q status : Nat) (c : Cmd) (h : Word),
      let w := if c.compl = 0 then s else serviceWrite s die q c.compl (completionBytes c.seq status h)
      let u := ringComplete s die q c status h
      let bs := completionBytes c.seq status h
      qheadOf u die q = (qheadOf w die q + 1) % 65536 ∧ mfind (getDie u die).inprog q = none ∧ u.mem = w.mem ∧
        ((mget 0 (getDie w die).tail q).toNat = (qheadOf w die q + 1) % 65536 → latchPend u die q = false) ∧
        bs.length = 16 ∧ ofBytesLE (bs.take 4) = c.seq.toNat ∧
        (status < 2 ^ 32 → ofBytesLE ((bs.drop 4).take 4) = status) ∧
        ofBytesLE ((bs.drop 8).take 4) = h.toNat ∧ ofBytesLE (bs.drop 12) = 0)

/-! ## Registers, firmware, attestation and power -/

/-- Registers written from outside, the lock, the partition map, boot, the measurements and the mailbox, reset, and
the power and temperature alarms and the thermal trip: what each event leaves in its registers (R305, R334, R338, R354
to R361). The offsets of the partition map's registers are log 17, the ERROR chosen among several dies log 29, which
bytes of memory a reset keeps log 27, its own counters log 1, the power limit in force and either temperature event as
alarm or trip log 38, SPDM responses as kinds, the bytes of HALLMARK[2] and the signature schemes log 7, and a
PART_LOCK that stays writable after a refused write log 48. -/
def Obligations.RegistersFirmwareAndPower : Prop :=
  (∀ (s : State) (die q n : Nat) (v : DWord) (w : Word) (dg : BitVec 384) (nonce : BitVec 256) (code : Byte),
      let l := s.link
      let linkOnly (i : Instr) (l' : Link) : Prop := exec i s = .next { s with link := l' }
      let same (i : Instr) : Prop := exec i s = .next s
      let win := bitsOf w 0 13
      let runs := l.fwState = .running ∨ l.fwState = .ready
      let mapped := extendHallmark s 2 (sha384 (mapBytes s))
      (∃ u, exec (.errStatusClear die v) s = .next u ∧ (∀ d, d ≠ die → getDie u d = getDie s d) ∧
        getDie u die = { getDie s die with corrected :=
          (BitVec.ofNat 16 (min 65535 (getDie s die).corrected) &&& ~~~(v.setWidth 16)).toNat }) ∧
      (l.fwLock = false → linkOnly .lock { l with fwLock := true, fwState := .verifying }) ∧
      (l.fwLock = true → same .lock) ∧
      (l.partLock = true ∨ mapOverlaps s = true → same .partLock) ∧
      (l.partLock = false → mapOverlaps s = false → ∃ u, exec .partLock s = .next u ∧ u.link.partLock = true ∧
        u.link.hallmark = mapped.link.hallmark ∧ u = { s with link := u.link } ∧
        (u.link.fwState = .ready ∨ u.link.fwState = l.fwState)) ∧
      (1500 ≤ win → win ≤ 3300 → linkOnly (.pwrLimit w) { l with pwrLimit := BitVec.ofNat 13 win }) ∧
      (win < 1500 ∨ 3300 < win → same (.pwrLimit w)) ∧
      (runs → exec (.hallmarkExtend dg) s = .next (extendHallmark s 3 dg)) ∧
      (¬runs → same (.hallmarkExtend dg)) ∧
      (let u := extendHallmark s n dg
       mget 0 u.link.hallmark n = sha384 (bytes384 (mget 0 l.hallmark n) ++ bytes384 dg) ∧
       (∀ m, m ≠ n → mget 0 u.link.hallmark m = mget 0 l.hallmark m) ∧ u = { s with link := u.link }) ∧
      (die < 8 → q < 48 → ∃ u, exec (.registerWrite (die * 0x10000 + 16 * q) v) s = .next u ∧
        mget 0 (getDie u die).qbase q = v ∧
        ∀ m, m ≠ q → mget 0 (getDie u die).qbase m = mget 0 (getDie s die).qbase m) ∧
      linkOnly (.registerWrite 0x80200 v) { l with fwStage := v.setWidth 14 } ∧
      (n < 0x8000 → l.fwLock = true → linkOnly (.registerWrite (0x88000 + n) v)
        { l with denied := min 65535 (l.denied + 1) }) ∧
      (n < 0x8000 → l.fwLock = false → let a := 0x1FE0000000 + l.fwStage.toNat * 32768 + n
        let k := min 8 (0x8000 - n)
        ∃ u, exec (.registerWrite (0x88000 + n) v) s = .next u ∧ u.link = l ∧ OutsideKept s u a k ∧
          readBytes u a k = (bytesLE 8 v.toNat).take k) ∧
      (0x200000 ≤ n → n < 0x200200 → l.partLock = true → same (.registerWrite n v)) ∧
      (n < 8 → l.partLock = false → ∃ u, exec (.registerWrite (0x200000 + 64 * n) v) s = .next u ∧
        getPart u n = { getPart s n with dies := v.setWidth 8 }) ∧
      linkOnly .getVersion { l with doe := some .version } ∧
      linkOnly .getCapabilities { l with doe := some .capabilities } ∧
      linkOnly .negotiateAlgorithms { l with doe := some .algorithms } ∧
      linkOnly .getDigests { l with doe := some .digests } ∧
      linkOnly .getCertificate { l with doe := some .certificate } ∧
      linkOnly (.challenge nonce) { l with doe := some (.challenge nonce) } ∧
      (1 ≤ n → n ≤ 4 → linkOnly (.getMeasurements n)
        { l with doe := some (.measurement n (mget 0 l.hallmark (n - 1))) }) ∧
      linkOnly (.spdmUnsupportedRequest code) { l with doe := some (.unsupported code) } ∧
      (∃ u, exec .conventionalReset s = .next u ∧ u.mem = s.mem ∧ u.poison = s.poison ∧
        u.link = State.reset.link ∧ u.groups = [] ∧ u.gangs = [] ∧ u.cores = [] ∧ u.dies = [] ∧ u.parts = [] ∧
        u.assay = [] ∧ u.dir = [] ∧ u.ops = [] ∧ u.resv = [])) ∧
  (∀ (s : State) (die e : Nat),
      let booting := s.link.fwState = .verifying ∧ die < 8 ∧ mfind s.link.booted die = none
      let r := bootReport s die
      let b := bootDecide s
      (¬booting → exec (.bootVerifyComplete die) s = .next s) ∧
      (booting → s.link.booted.length ≠ 7 → exec (.bootVerifyComplete die) s = .next r) ∧
      (booting → s.link.booted.length = 7 → exec (.bootVerifyComplete die) s = .next (bootDecide r)) ∧
      (die < 8 → bootCore s die ≠ none → imageCheck s = 0 →
        mfind r.link.booted die = some 0 ∧ r.link.diePass.getLsbD die = true ∧
          (getDie r die).digest = some (sha384 (imageMessage s))) ∧
      (bootCore s die ≠ none → imageCheck s ≠ 0 →
        mfind r.link.booted die = some (imageCheck s) ∧ r.link.diePass = s.link.diePass) ∧
      (let m := imageMessage s
       let rsa := rsaVerifies m (readBytes s 0x1FE0000100 384)
       let slh := slhVerifies m (readBytes s 0x1FE0000280 16224)
       (imageHeaderOk s = false → imageCheck s = 1) ∧ (imageHeaderOk s = true → rsa = false → imageCheck s = 2) ∧
       (imageHeaderOk s = true → rsa = true → slh = false → imageCheck s = 3) ∧
       (imageHeaderOk s = true → rsa = true → slh = true → imageCheck s = 0)) ∧
      (workingDies s = [] → b.link.fwState = .failed ∧ b.link.fwError = 5) ∧
      (workingDies s ≠ [] → bootError s = some e →
        b.link.fwState = .failed ∧ b.link.fwError = BitVec.ofNat 4 e) ∧
      (workingDies s ≠ [] → bootError s = none → digestsAgree s = false →
        b.link.fwState = .failed ∧ b.link.fwError = 4) ∧
      (∀ d ds, workingDies s = d :: ds → bootError s = none → digestsAgree s = true →
        (b.link.fwState = .running ∨ b.link.fwState = .ready) ∧
        b.link.hallmark = (extendHallmark s 1 ((getDie s d).digest.getD 0)).link.hallmark)) ∧
  (∀ (s : State) (die n : Nat),
      let raised (i : Instr) : Prop := ∃ u, exec i s = .next u ∧ u.link.alarm = true ∧
        u.link.quenchCount = (if s.link.alarm then s.link.quenchCount else s.link.quenchCount + 1) ∧ u.mem = s.mem
      (n ≤ 8191 → s.link.pwrLimit.toNat < n → raised (.powerAverage n)) ∧
      (n ≤ s.link.pwrLimit.toNat → exec (.powerAverage n) s =
        .next { s with link := { s.link with power := BitVec.ofNat 13 n, limit := s.link.pwrLimit } }) ∧
      (∀ i ∈ [Instr.temperatureAlarm die n, .thermalTrip die n],
        (105 < n → n ≤ 115 ∨ s.link.trip = true → raised i) ∧
        (n ≤ 105 → ∃ u, exec i s = .next u ∧ (getDie u die).temp = n ∧ u.link = s.link) ∧
        (115 < n → s.link.trip = false → ∃ u, exec i s = .next u ∧ u.link.trip = true ∧ u.link.alarm = true ∧
          Report.fatal ∈ u.link.reports ∧ ∀ k ∈ allUserGangs s, (getGang u k).status ≠ .running) ∧
        (n ≤ 115 ∨ s.link.trip = true → ∃ u, exec i s = .next u ∧ u.link.trip = s.link.trip ∧ u.gangs = s.gangs)) ∧
      (s.link.alarm = true → alarmMayClear s = true →
        ∃ u, exec .alarmClear s = .next u ∧ u.link = { s.link with alarm := false } ∧ u.mem = s.mem) ∧
      (s.link.alarm = false ∨ alarmMayClear s = false → exec .alarmClear s = .next s))

/-- No partition's memory holds a byte of the carve-out, and a walk never gives a page that covers one; while LOCK is
0, a write through FW_APERTURE stores its bytes at OFFSET × 32,768 plus its offset in the aperture. -/
def Obligations.CarveOutBelongsToNoPartition : Prop :=
  ∀ (s : State) (p pasid pa off : Nat) (va : DWord) (l : Leaf) (bytes : List Byte),
    (0x1FE0000000 ≤ pa → pa ≤ 0x1FFFFFFFFF → partOwns s p pa = false) ∧
    (walk s p pasid va = some l → ¬(0x1FE0000000 ≤ l.pa va ∧ l.pa va ≤ 0x1FFFFFFFFF)) ∧
    (s.link.fwLock = false → off + bytes.length ≤ 32768 →
      let a := 0x1FE0000000 + s.link.fwStage.toNat * 32768 + off
      ∃ u, exec (.fwAperture off bytes) s = .next u ∧ readBytes u a bytes.length = bytes ∧
        OutsideKept s u a bytes.length ∧ u.link = s.link)

/-! ## Errors, links and pages between devices -/

/-- Errors and the loss of a scheduler core: a corrected error is counted, and the eighth in a unit's window withdraws
the unit; an uncorrectable error poisons its word: of memory, of a slice, of a way, of a scratchpad, or of a column of
a B tile (R224); recovery waits for an idle core (R319, R336 to R339, R362). X completions and their timeout, ports,
pages that pass between devices, and accesses from the host and from peers (R192 to R197, R205, R345, R346, R349 to
R353, R356). The page on which a handover acts is log 20, and what the model brings to an end within the step of such
an access log 14; which copy of a line holds which marks is log 8. -/
def Obligations.ErrorsLinksAndPages : Prop :=
  (∀ (s : State) (unit : ErrUnit) (pa gang bank off die c : Nat),
      let withdrawn (u : State) : Prop := match unit with
        | .cluster d k => (getCluster u (d * 16 + k)).withdrawn = true
        | .slice d k => k ∈ (getDie u d).slicesLost
        | .page a => (getUnit u (pageNo a)).retired = true
      let recovers := (s.link.fwState = .running ∨ s.link.fwState = .ready) ∧ (getDie s die).sched = none ∧
        (getDie s die).functioning = true
      (∃ u, exec (.correctedError unit) s = .next u ∧
        (windowCount s unit + 1 < 8 → windowCount u unit = windowCount s unit + 1 ∧
          (getDie u (unitDie s unit)).corrected = min 65535 ((getDie s (unitDie s unit)).corrected + 1)) ∧
        (8 ≤ windowCount s unit + 1 → withdrawn u)) ∧
      (∃ u, exec (.correctedWindowExpiry unit) s = .next u ∧ windowCount u unit = windowCount s unit - 1) ∧
      (∃ u, exec (.uncorrectableError (.memory pa)) s = .next u ∧ u.mem = s.mem ∧
        (mfind s.backing (pa / 128) = none → pa / 8 ∈ u.poison) ∧
        (∀ b, mfind s.backing (pa / 128) = some b → u.poison = s.poison ∧
          ∃ m, mfind u.backing (pa / 128) = some m ∧ pa / 8 ∈ m.marks ∧ m.bytes = b.bytes) ∧
        (getDie u (homeDie s pa)).uncorrected = min 65535 ((getDie s (homeDie s pa)).uncorrected + 1)) ∧
      (∃ u, exec (.uncorrectableError (.slice pa)) s = .next u ∧ pa / 8 ∈ u.poison ∧ u.mem = s.mem ∧
        (mfind s.backing (pa / 128) = none → ∃ m, mfind u.backing (pa / 128) = some m ∧ m.dirty = false ∧
          ∀ w, w ∈ m.marks ↔ w ∈ s.poison ∧ w / 16 = pa / 128) ∧
        u.pages = s.pages) ∧
      (∃ u, exec (.uncorrectableError (.way die c pa)) s = .next u ∧ u.mem = s.mem ∧
        (soleCopy s (die * 16 + c) (pa / 128) = true → pa / 8 ∈ u.poison) ∧
        (soleCopy s (die * 16 + c) (pa / 128) = false →
          (die * 16 + c, pa / 8) ∈ u.wayPoison ∧ u.poison = s.poison) ∧
        (getDie u die).uncorrected = min 65535 ((getDie s die).uncorrected + 1)) ∧
      ((mfind s.gangs gang).isSome → ∃ u, exec (.uncorrectableError (.scratch gang bank off)) s = .next u ∧
        off % bankBytes / 8 ∈ (getBank u gang bank).poison ∧ u.mem = s.mem) ∧
      (∀ entry elem t, mfind (getGang s gang).tiles entry = some t → t.isA = false → elem < 2 ^ 24 →
        let n := 64 / tileBits t.fmt
        ∃ u t', exec (.uncorrectableError (.tile gang entry elem)) s = .next u ∧
          mfind (getGang u gang).tiles entry = some t' ∧
          ∀ x, x ∈ t'.poison ↔ x ∈ t.poison ∨ (x % 64 = elem % 64 ∧ x / 64 / n = elem / 64 / n)) ∧
      (∃ u, exec (.uncorrectableError (.logic die bank)) s = .next u ∧
        (getCluster u (die * 16 + bank)).withdrawn = true) ∧
      (¬recovers → exec (.schedulerCoreRecovery die) s = .next s) ∧
      (recovers → nextSched s die = some c → residents s (coreKey die c) ≠ [] →
        exec (.schedulerCoreRecovery die) s = .next s) ∧
      (recovers → nextSched s die = some c → residents s (coreKey die c) = [] →
        exec (.schedulerCoreRecovery die) s = .next (recoverOn s die c)) ∧
      ((getDie s die).digest ≠ some (sha384 (imageMessage s)) →
        (getDie (recoverOn s die c) die).functioning = false ∧ Report.fatal ∈ (recoverOn s die c).link.reports)) ∧
  (∀ (s : State) (t : Tid) (x : Strict) (reply : XReply) (port : Port),
      let waits := (getThread s t).strict = some x ∧ x.place = .link ∧ packTurn s t x = true
      let up : Prop := Port.pcie ∉ s.link.down
      let isLoad := ∃ ty, x.acc.op = .load ty
      let refused := { s with link := { s.link with atomicRefused := min 255 (s.link.atomicRefused + 1) } }
      (¬up ∨ (getThread s t).strict = none → exec (.xCompletion t.grp t.gi reply) s = .next s) ∧
      (up → waits →
        (accessBarred s t x.acc = false → exec (.xCompletion t.grp t.gi .ok) s =
            .next (strictDone (writeBack (performMem s t x.acc) (x.acc.pa / 128)) t)) ∧
          (accessBarred s t x.acc = true → exec (.xCompletion t.grp t.gi .ok) s =
            .next (strictFault s t { code := .rangeLock, addr := x.acc.va })) ∧
          exec (.xCompletion t.grp t.gi .poisoned) s = .next (strictDone (failAccess s t x.acc) t) ∧
          (isLoad → exec (.xCompletion t.grp t.gi .refused) s = .next (strictDone (failAccess s t x.acc) t)) ∧
          (¬isLoad → exec (.xCompletion t.grp t.gi .refused) s =
            .next (strictFault refused t { code := .atomicUnsupported, addr := x.acc.va }))) ∧
      (waits → exec (.completionTimeout t.grp t.gi) s =
        .next (report (strictDone (failAccess s t x.acc) t) (.linkError (threadDie s t)))) ∧
      (¬waits → (∀ y, (getThread s t).strict = some y → y = x) →
        exec (.completionTimeout t.grp t.gi) s = .next s) ∧
      (portUp s.link port = true ∨ port ∈ s.link.down → exec (.linkDown port) s = .next s) ∧
      (portUp s.link port = false → port ∉ s.link.down → ∃ u, exec (.linkDown port) s = .next u ∧
        port ∈ u.link.down ∧ (∀ y ∈ s.link.down, y ∈ u.link.down) ∧
        (cxlDown s = false → cxlDown u = true → s.link.pcieUp = true → Report.fatal ∈ u.link.reports)) ∧
      ((∀ n, port = .cxl n → n < 2) → (∀ n, port = .fabric n → n < 4) → ∃ u v,
        exec (.linkL0Change port true) s = .next u ∧ exec (.linkL0Change port false) s = .next v ∧
        portUp u.link port = true ∧ port ∉ u.link.down ∧ portUp v.link port = false ∧ v.link.down = s.link.down ∧
        ∀ y, y ≠ port → (∀ n, y = .cxl n → n < 2) → (∀ n, y = .fabric n → n < 4) →
          portUp u.link y = portUp s.link y ∧ portUp v.link y = portUp s.link y)) ∧
  (∀ (s : State) (page m : Nat) (acc : ExtAccess) (who : Holder),
      let p := getPage s page
      let asks := regionOf (page * 65536) = .cxl ∧ cxlDown s = false ∧ p.departing = false ∧ heldHere s page = true
      let lent := lentPage s page = true
      let ready := p.departing = true ∧ p.drains = [] ∧ pageLocked s page = false ∧ passPort s page = true
      let atHome := extOk acc = true ∧ moduleMemory acc.pa = true
      let z := flushRange s acc.pa acc.size
      let answered (u : State) (bs : List Byte) : Prop :=
        u.answers = if acc.store = none ∨ acc.cmp ≠ none then s.answers ++ [(.host, acc.pa, bs)] else s.answers
      let own := getPage s (acc.pa / 65536)
      let hostDoes := exec (.hostCxlAccess acc) s
      (asks → ∃ u, exec (.hostSnoop page) s = .next u ∧ (getPage u page).departing = true ∧
        (getPage u page).taker = some .host ∧ (getPage u page).snooped = true ∧ u.mem = s.mem) ∧
      (regionOf (page * 65536) = .cxl → cxlDown s = false → p.departing = true →
        exec (.hostSnoop page) s = .next (modPage s page fun p => { p with snooped := true })) ∧
      (¬asks → regionOf (page * 65536) ≠ .cxl ∨ cxlDown s = true ∨ p.departing = false →
        exec (.hostSnoop page) s = .next s) ∧
      (lent → p.departing = false → ∃ u, exec (.peerReclaim page) s = .next u ∧
        (getPage u page).departing = true ∧ (getPage u page).taker = none ∧ u.mem = s.mem) ∧
      (¬lent ∨ p.departing = true → exec (.peerReclaim page) s = .next s) ∧
      (¬ready → exec (.pageHandoverComplete page) s = .next s) ∧
      (ready → p.taker = some who → ∃ u, exec (.pageHandoverComplete page) s = .next u ∧
        (getPage u page).holder = some who ∧ (getPage u page).departing = false ∧
        (getPage u page).taker = (if (getPage (passPage s page) page).snooped then some who else none) ∧
        u.link.recalls = (passPage s page).link.recalls + (if who = .host then 1 else 0)) ∧
      (ready → p.taker = none → exec (.pageHandoverComplete page) s = .next (takePage s page)) ∧
      (lent → exec (.peerPageReturn page) s = .next (takePage s page)) ∧
      (¬lent → exec (.peerPageReturn page) s = .next s) ∧
      (atHome → cxlDown s = false → own.departing = false → own.holder = none →
        (inCarveOut acc.pa = true → s.link.fwLock = true → ∃ u, hostDoes = .next u ∧ u.mem = s.mem ∧
          u.link = { s.link with denied := min 65535 (s.link.denied + 1) } ∧
          answered u (List.replicate acc.size 0)) ∧
        (inCarveOut acc.pa = false → extWaits z z.extHeld .host acc = false →
          hostDoes = .next (extPerform z .host acc)) ∧
        (inCarveOut acc.pa = false → extWaits z z.extHeld .host acc = true →
          ∃ u k, hostDoes = .next u ∧ u.extHeld = z.extHeld ++ [(k, .host, acc)] ∧ u.mem = z.mem)) ∧
      (atHome → own.departing = false → own.holder = some (.peer m) →
        exec (.peerAccess m acc) s = .next (extPerform s (.peer m) acc)) ∧
      (atHome → own.departing = false → own.holder = none → inCarveOut acc.pa = false →
        pageLocked s (acc.pa / 65536) = false →
        exec (.peerAccess m acc) s = .next (extPerform (lendPage s (acc.pa / 65536) m) (.peer m) acc)) ∧
      (∀ bs, atHome → acc.store = some bs → acc.cmp = none →
        let u := extPerform s .host acc
        readBytes u acc.pa acc.size = bs ∧ (getLine u (acc.pa / 128)).st = .ow .host) ∧
      (regionOf acc.pa = .ext → extOk acc = true →
        exec (.hostMemoryAccess acc) s = .next (hostPerform s acc)) ∧
      (regionOf acc.pa = .cxl → extOk acc = true → own.departing = false → heldHere s (acc.pa / 65536) = false →
        exec (.hostMemoryAccess acc) s = .next (hostDone (hostPerform s acc) (acc.pa / 65536))) ∧
      (∀ bs, extOk acc = true → acc.store = some bs →
        acc.cmp = none ∨ (acc.cmp = some (readBytes s acc.pa acc.size) ∧ poisoned s acc.pa acc.size = false) →
        readBytes (hostPerform s acc) acc.pa acc.size = bs ∧ OutsideKept s (hostPerform s acc) acc.pa acc.size) ∧
      (acc.store = none ∨ (∃ bs, acc.cmp = some bs ∧ (bs ≠ readBytes s acc.pa acc.size ∨
          poisoned s acc.pa acc.size = true)) → (hostPerform s acc).mem = s.mem) ∧
      answered (hostPerform s acc) (readBytes s acc.pa acc.size))

/-! ## Two rules of the spec, word for word -/

/-- `XGET (major 0x36), XGET d, xn`: d := limit[15:0], base[15:0] into a 32-bit data destination; SRC_A holds the x
code. -/
def Obligations.XgetWritesLimitAndBase : Prop :=
  ∀ (o : Ops) (s : State) (cx : Ctx), Acts (.xget o) s cx →
    (∃ w, encode (.xget o) = some w ∧ w.toNat / 2 ^ 88 = 0x36) ∧ (∃ n, o.a = .x n) ∧
    ∃ u, exec (.xget o) s = .next u ∧
      let e := mget (0, 0) (getThread s cx.t).xr (opndNum cx.o.a)
      (∀ c w, cx.dst = .reg c w → w = 1 ∧
        regOf u cx.t c = (BitVec.ofNat 16 e.2 ++ BitVec.ofNat 16 e.1 : BitVec 32))

/-- Byte n of a multi-byte value at a stands at a + n and holds bits [8n+7:8n]; slot s of a line is bytes 12s to
12s+11, its bit 0 in the lowest of them; the line word is bytes 60 to 63. Parity is even: the check of a slot passes
exactly when bit 5+s of the line word is set exactly for an odd number of ones in the slot's 96 bits, and that of the
line word exactly when its 32 bits hold an even number of ones, whichever fields they stand in. -/
def Obligations.LineLayoutAndParity : Prop :=
  (∀ (s : State) (a n k v : Nat), k < n →
      readByte (storeBytes s a (bytesLE n v)) (a + k) = BitVec.ofNat 8 (v / 2 ^ (8 * k))) ∧
  (∀ (bs : List Byte) (slot : Nat), bs.length = 64 → slot < 5 →
      (∀ b, b < 96 → (slotBits bs slot).testBit b = (bs.getD (12 * slot + b / 8) 0).getLsbD (b % 8)) ∧
      (∀ b, b < 32 → (lineWord bs).testBit b = (bs.getD (60 + b / 8) 0).getLsbD (b % 8)) ∧
      (slotParityOk bs slot = true ↔ ((lineWord bs).testBit (5 + slot) = true ↔
        ((List.range 96).filter fun b => (slotBits bs slot).testBit b).length % 2 = 1)) ∧
      (lwParityOk bs = true ↔ ((List.range 32).filter fun b => (lineWord bs).testBit b).length % 2 = 0))
end

