-- ==== Sys2Proof/Laws/Map.lean ====
section
/-! SUPPORT. Laws of finite maps: reading after listing and removing, and that rising keys stay rising. -/

namespace Sys2Proof.Machine

variable {α : Type}

@[simp] theorem mfind_nil (k : Nat) : mfind ([] : NMap α) k = none := rfl

@[simp] theorem mfind_mput_same (m : NMap α) (k : Nat) (v : α) : mfind (mput m k v) k = some v := by
  induction m with
  | nil => simp [mput, mfind]
  | cons e m ih =>
    obtain ⟨j, w⟩ := e
    simp only [mput]
    split
    · simp [mfind]
    · split
      · simp [mfind]
      · rename_i h
        simp [mfind, Ne.symm h, ih]

theorem mfind_mput_ne {m : NMap α} {k j : Nat} {v : α} (h : j ≠ k) :
    mfind (mput m k v) j = mfind m j := by
  induction m with
  | nil => simp [mput, mfind, Ne.symm h]
  | cons e m ih =>
    obtain ⟨i, w⟩ := e
    simp only [mput]
    split
    · simp [mfind, Ne.symm h]
    · split
      · rename_i _ e
        subst e
        simp [mfind, Ne.symm h]
      · simp [mfind, ih]

theorem mfind_mdel_ne {m : NMap α} {k j : Nat} (h : j ≠ k) : mfind (mdel m k) j = mfind m j := by
  induction m with
  | nil => rfl
  | cons e m ih =>
    obtain ⟨i, w⟩ := e
    simp only [mdel]
    split
    · rename_i e
      subst e
      simp [mfind, Ne.symm h, ih]
    · simp [mfind, ih]

theorem risingKeys_tail {e : Nat × α} {m : NMap α} (h : risingKeys (e :: m) = true) : risingKeys m = true := by
  cases m with
  | nil => rfl
  | cons f m => simp [risingKeys] at h; exact h.2

/-- Every key of a rising map's tail lies above its head. -/
theorem risingKeys_lt {j : Nat} {w : α} {m : NMap α} (h : risingKeys ((j, w) :: m) = true) :
    ∀ e ∈ m, j < e.1 := by
  induction m generalizing j w with
  | nil => simp
  | cons f m ih =>
    obtain ⟨k, v⟩ := f
    simp [risingKeys] at h
    intro e he
    rcases List.mem_cons.mp he with rfl | he
    · exact h.1
    · exact Nat.lt_trans h.1 (ih h.2 e he)

theorem mfind_none_of_lt {m : NMap α} {k : Nat} (h : ∀ e ∈ m, k < e.1) : mfind m k = none := by
  induction m with
  | nil => rfl
  | cons e m ih =>
    obtain ⟨j, w⟩ := e
    have hj := h (j, w) (by simp)
    simp at hj
    simp [mfind, Nat.ne_of_gt hj, ih fun e he => h e (by simp [he])]

@[simp] theorem mfind_mdel_same (m : NMap α) (k : Nat) : mfind (mdel m k) k = none := by
  induction m with
  | nil => rfl
  | cons e m ih =>
    obtain ⟨j, w⟩ := e
    simp only [mdel]
    split
    · exact ih
    · rename_i e
      simp [mfind, e, ih]

/-- What `mset` makes a key read as. -/
@[simp] theorem mget_mset_same [DecidableEq α] (d v : α) (m : NMap α) (k : Nat) :
    mget d (mset d m k v) k = v := by
  unfold mset
  split
  · rename_i e
    simp [mget, e]
  · simp [mget]

theorem mget_mset_ne [DecidableEq α] {d v : α} {m : NMap α} {k j : Nat} (h : j ≠ k) :
    mget d (mset d m k v) j = mget d m j := by
  unfold mset
  split <;> simp [mget, mfind_mdel_ne h, mfind_mput_ne h]

/-! ## The canonical form -/

theorem mem_mput {m : NMap α} {k : Nat} {v : α} {e : Nat × α} (h : e ∈ mput m k v) :
    e = (k, v) ∨ e ∈ m := by
  induction m with
  | nil => exact .inl (by simpa [mput] using h)
  | cons f m ih =>
    obtain ⟨j, w⟩ := f
    simp only [mput] at h
    split at h
    · simpa using h
    · split at h
      · rcases List.mem_cons.mp h with h | h
        · exact .inl h
        · exact .inr (by simp [h])
      · rcases List.mem_cons.mp h with h | h
        · exact .inr (by simp [h])
        · rcases ih h with h | h
          · exact .inl h
          · exact .inr (by simp [h])

theorem mem_mdel {m : NMap α} {k : Nat} {e : Nat × α} (h : e ∈ mdel m k) : e ∈ m := by
  induction m with
  | nil => simp [mdel] at h
  | cons f m ih =>
    obtain ⟨j, w⟩ := f
    simp only [mdel] at h
    split at h
    · simp [ih h]
    · rcases List.mem_cons.mp h with h | h
      · simp [h]
      · simp [ih h]

theorem risingKeys_cons {j : Nat} {w : α} {m : NMap α} (h : risingKeys m = true) (hl : ∀ e ∈ m, j < e.1) :
    risingKeys ((j, w) :: m) = true := by
  cases m with
  | nil => rfl
  | cons f m =>
    obtain ⟨k, v⟩ := f
    have := hl (k, v) (by simp)
    simp at this
    simp [risingKeys, this, h]

theorem risingKeys_mput {m : NMap α} {k : Nat} {v : α} (h : risingKeys m = true) :
    risingKeys (mput m k v) = true := by
  induction m with
  | nil => rfl
  | cons f m ih =>
    obtain ⟨j, w⟩ := f
    have hl := risingKeys_lt h
    simp only [mput]
    split
    · rename_i hk
      refine risingKeys_cons h fun e he => ?_
      rcases List.mem_cons.mp he with rfl | he
      · exact hk
      · exact Nat.lt_trans hk (hl e he)
    · split
      · rename_i _ e
        subst e
        exact risingKeys_cons (risingKeys_tail h) hl
      · refine risingKeys_cons (ih (risingKeys_tail h)) fun e he => ?_
        rcases mem_mput he with rfl | he
        · simp; omega
        · exact hl e he

theorem risingKeys_mdel {m : NMap α} {k : Nat} (h : risingKeys m = true) : risingKeys (mdel m k) = true := by
  induction m with
  | nil => rfl
  | cons f m ih =>
    obtain ⟨j, w⟩ := f
    simp only [mdel]
    split
    · exact ih (risingKeys_tail h)
    · exact risingKeys_cons (ih (risingKeys_tail h)) fun e he => risingKeys_lt h e (mem_mdel he)

theorem risingKeys_mset [DecidableEq α] {d v : α} {m : NMap α} {k : Nat} (h : risingKeys m = true) :
    risingKeys (mset d m k v) = true := by
  unfold mset
  split
  · exact risingKeys_mdel h
  · exact risingKeys_mput h

theorem mfind_mmod (m : NMap α) (k j : Nat) (f : α → α) :
    mfind (mmod m k f) j = if j = k then (mfind m k).map f else mfind m j := by
  unfold mmod
  by_cases h : j = k
  · subst h
    cases e : mfind m j <;> simp [e]
  · cases e : mfind m k <;> simp [h, mfind_mput_ne h]

theorem mget_mupd (d : α) (m : NMap α) (k j : Nat) (f : α → α) :
    mget d (mupd d m k f) j = if j = k then f (mget d m k) else mget d m j := by
  unfold mupd
  by_cases h : j = k
  · subst h; simp [mget]
  · simp [mget, h, mfind_mput_ne h]

end Sys2Proof.Machine
end

