-- ==== Sys2Proof/Laws/State.lean ====
section
/-! SUPPORT. What each update of a record leaves: one lemma per field and update, and what the accessors
read after an update. -/

namespace Sys2Proof.Machine

section modCore
variable (s : State) (c : Nat) (f : Core → Core)
@[simp] theorem modCore_mem : (modCore s c f).mem = s.mem := rfl
@[simp] theorem modCore_poison : (modCore s c f).poison = s.poison := rfl
@[simp] theorem modCore_backing : (modCore s c f).backing = s.backing := rfl
@[simp] theorem modCore_wayPoison : (modCore s c f).wayPoison = s.wayPoison := rfl
@[simp] theorem modCore_clusters : (modCore s c f).clusters = s.clusters := rfl
@[simp] theorem modCore_dies : (modCore s c f).dies = s.dies := rfl
@[simp] theorem modCore_groups : (modCore s c f).groups = s.groups := rfl
@[simp] theorem modCore_gangs : (modCore s c f).gangs = s.gangs := rfl
@[simp] theorem modCore_grids : (modCore s c f).grids = s.grids := rfl
@[simp] theorem modCore_graphs : (modCore s c f).graphs = s.graphs := rfl
@[simp] theorem modCore_ops : (modCore s c f).ops = s.ops := rfl
@[simp] theorem modCore_assay : (modCore s c f).assay = s.assay := rfl
@[simp] theorem modCore_dir : (modCore s c f).dir = s.dir := rfl
@[simp] theorem modCore_refusedQ : (modCore s c f).refusedQ = s.refusedQ := rfl
@[simp] theorem modCore_resv : (modCore s c f).resv = s.resv := rfl
@[simp] theorem modCore_pages : (modCore s c f).pages = s.pages := rfl
@[simp] theorem modCore_parts : (modCore s c f).parts = s.parts := rfl
@[simp] theorem modCore_extHeld : (modCore s c f).extHeld = s.extHeld := rfl
@[simp] theorem modCore_answers : (modCore s c f).answers = s.answers := rfl
@[simp] theorem modCore_link : (modCore s c f).link = s.link := rfl
@[simp] theorem modCore_agenda : (modCore s c f).agenda = s.agenda := rfl
@[simp] theorem modCore_cur : (modCore s c f).cur = s.cur := rfl
@[simp] theorem modCore_free : (modCore s c f).free = s.free := rfl
@[simp] theorem modCore_ticks : (modCore s c f).ticks = s.ticks := rfl
@[simp] theorem modCore_nextId : (modCore s c f).nextId = s.nextId := rfl
@[simp] theorem modCore_events : (modCore s c f).events = s.events := rfl
end modCore

section modDie
variable (s : State) (d : Nat) (f : Die → Die)
@[simp] theorem modDie_mem : (modDie s d f).mem = s.mem := rfl
@[simp] theorem modDie_poison : (modDie s d f).poison = s.poison := rfl
@[simp] theorem modDie_backing : (modDie s d f).backing = s.backing := rfl
@[simp] theorem modDie_wayPoison : (modDie s d f).wayPoison = s.wayPoison := rfl
@[simp] theorem modDie_cores : (modDie s d f).cores = s.cores := rfl
@[simp] theorem modDie_clusters : (modDie s d f).clusters = s.clusters := rfl
@[simp] theorem modDie_groups : (modDie s d f).groups = s.groups := rfl
@[simp] theorem modDie_gangs : (modDie s d f).gangs = s.gangs := rfl
@[simp] theorem modDie_grids : (modDie s d f).grids = s.grids := rfl
@[simp] theorem modDie_graphs : (modDie s d f).graphs = s.graphs := rfl
@[simp] theorem modDie_ops : (modDie s d f).ops = s.ops := rfl
@[simp] theorem modDie_assay : (modDie s d f).assay = s.assay := rfl
@[simp] theorem modDie_dir : (modDie s d f).dir = s.dir := rfl
@[simp] theorem modDie_refusedQ : (modDie s d f).refusedQ = s.refusedQ := rfl
@[simp] theorem modDie_resv : (modDie s d f).resv = s.resv := rfl
@[simp] theorem modDie_pages : (modDie s d f).pages = s.pages := rfl
@[simp] theorem modDie_parts : (modDie s d f).parts = s.parts := rfl
@[simp] theorem modDie_extHeld : (modDie s d f).extHeld = s.extHeld := rfl
@[simp] theorem modDie_answers : (modDie s d f).answers = s.answers := rfl
@[simp] theorem modDie_link : (modDie s d f).link = s.link := rfl
@[simp] theorem modDie_agenda : (modDie s d f).agenda = s.agenda := rfl
@[simp] theorem modDie_cur : (modDie s d f).cur = s.cur := rfl
@[simp] theorem modDie_free : (modDie s d f).free = s.free := rfl
@[simp] theorem modDie_ticks : (modDie s d f).ticks = s.ticks := rfl
@[simp] theorem modDie_nextId : (modDie s d f).nextId = s.nextId := rfl
@[simp] theorem modDie_events : (modDie s d f).events = s.events := rfl
end modDie

section modCluster
variable (s : State) (c : Nat) (f : Cluster → Cluster)
@[simp] theorem modCluster_mem : (modCluster s c f).mem = s.mem := rfl
@[simp] theorem modCluster_poison : (modCluster s c f).poison = s.poison := rfl
@[simp] theorem modCluster_backing : (modCluster s c f).backing = s.backing := rfl
@[simp] theorem modCluster_wayPoison : (modCluster s c f).wayPoison = s.wayPoison := rfl
@[simp] theorem modCluster_cores : (modCluster s c f).cores = s.cores := rfl
@[simp] theorem modCluster_dies : (modCluster s c f).dies = s.dies := rfl
@[simp] theorem modCluster_groups : (modCluster s c f).groups = s.groups := rfl
@[simp] theorem modCluster_gangs : (modCluster s c f).gangs = s.gangs := rfl
@[simp] theorem modCluster_grids : (modCluster s c f).grids = s.grids := rfl
@[simp] theorem modCluster_graphs : (modCluster s c f).graphs = s.graphs := rfl
@[simp] theorem modCluster_ops : (modCluster s c f).ops = s.ops := rfl
@[simp] theorem modCluster_assay : (modCluster s c f).assay = s.assay := rfl
@[simp] theorem modCluster_dir : (modCluster s c f).dir = s.dir := rfl
@[simp] theorem modCluster_refusedQ : (modCluster s c f).refusedQ = s.refusedQ := rfl
@[simp] theorem modCluster_resv : (modCluster s c f).resv = s.resv := rfl
@[simp] theorem modCluster_pages : (modCluster s c f).pages = s.pages := rfl
@[simp] theorem modCluster_parts : (modCluster s c f).parts = s.parts := rfl
@[simp] theorem modCluster_extHeld : (modCluster s c f).extHeld = s.extHeld := rfl
@[simp] theorem modCluster_answers : (modCluster s c f).answers = s.answers := rfl
@[simp] theorem modCluster_link : (modCluster s c f).link = s.link := rfl
@[simp] theorem modCluster_agenda : (modCluster s c f).agenda = s.agenda := rfl
@[simp] theorem modCluster_cur : (modCluster s c f).cur = s.cur := rfl
@[simp] theorem modCluster_free : (modCluster s c f).free = s.free := rfl
@[simp] theorem modCluster_ticks : (modCluster s c f).ticks = s.ticks := rfl
@[simp] theorem modCluster_nextId : (modCluster s c f).nextId = s.nextId := rfl
@[simp] theorem modCluster_events : (modCluster s c f).events = s.events := rfl
end modCluster

section modPart
variable (s : State) (p : Nat) (f : Part → Part)
@[simp] theorem modPart_mem : (modPart s p f).mem = s.mem := rfl
@[simp] theorem modPart_poison : (modPart s p f).poison = s.poison := rfl
@[simp] theorem modPart_backing : (modPart s p f).backing = s.backing := rfl
@[simp] theorem modPart_wayPoison : (modPart s p f).wayPoison = s.wayPoison := rfl
@[simp] theorem modPart_cores : (modPart s p f).cores = s.cores := rfl
@[simp] theorem modPart_clusters : (modPart s p f).clusters = s.clusters := rfl
@[simp] theorem modPart_dies : (modPart s p f).dies = s.dies := rfl
@[simp] theorem modPart_groups : (modPart s p f).groups = s.groups := rfl
@[simp] theorem modPart_gangs : (modPart s p f).gangs = s.gangs := rfl
@[simp] theorem modPart_grids : (modPart s p f).grids = s.grids := rfl
@[simp] theorem modPart_graphs : (modPart s p f).graphs = s.graphs := rfl
@[simp] theorem modPart_ops : (modPart s p f).ops = s.ops := rfl
@[simp] theorem modPart_assay : (modPart s p f).assay = s.assay := rfl
@[simp] theorem modPart_dir : (modPart s p f).dir = s.dir := rfl
@[simp] theorem modPart_refusedQ : (modPart s p f).refusedQ = s.refusedQ := rfl
@[simp] theorem modPart_resv : (modPart s p f).resv = s.resv := rfl
@[simp] theorem modPart_pages : (modPart s p f).pages = s.pages := rfl
@[simp] theorem modPart_extHeld : (modPart s p f).extHeld = s.extHeld := rfl
@[simp] theorem modPart_answers : (modPart s p f).answers = s.answers := rfl
@[simp] theorem modPart_link : (modPart s p f).link = s.link := rfl
@[simp] theorem modPart_agenda : (modPart s p f).agenda = s.agenda := rfl
@[simp] theorem modPart_cur : (modPart s p f).cur = s.cur := rfl
@[simp] theorem modPart_free : (modPart s p f).free = s.free := rfl
@[simp] theorem modPart_ticks : (modPart s p f).ticks = s.ticks := rfl
@[simp] theorem modPart_nextId : (modPart s p f).nextId = s.nextId := rfl
@[simp] theorem modPart_events : (modPart s p f).events = s.events := rfl
end modPart

section setGranule
variable (s : State) (g : Nat) (v : Granule)
@[simp] theorem setGranule_mem : (setGranule s g v).mem = s.mem := rfl
@[simp] theorem setGranule_poison : (setGranule s g v).poison = s.poison := rfl
@[simp] theorem setGranule_backing : (setGranule s g v).backing = s.backing := rfl
@[simp] theorem setGranule_wayPoison : (setGranule s g v).wayPoison = s.wayPoison := rfl
@[simp] theorem setGranule_cores : (setGranule s g v).cores = s.cores := rfl
@[simp] theorem setGranule_clusters : (setGranule s g v).clusters = s.clusters := rfl
@[simp] theorem setGranule_dies : (setGranule s g v).dies = s.dies := rfl
@[simp] theorem setGranule_groups : (setGranule s g v).groups = s.groups := rfl
@[simp] theorem setGranule_gangs : (setGranule s g v).gangs = s.gangs := rfl
@[simp] theorem setGranule_grids : (setGranule s g v).grids = s.grids := rfl
@[simp] theorem setGranule_graphs : (setGranule s g v).graphs = s.graphs := rfl
@[simp] theorem setGranule_ops : (setGranule s g v).ops = s.ops := rfl
@[simp] theorem setGranule_dir : (setGranule s g v).dir = s.dir := rfl
@[simp] theorem setGranule_refusedQ : (setGranule s g v).refusedQ = s.refusedQ := rfl
@[simp] theorem setGranule_resv : (setGranule s g v).resv = s.resv := rfl
@[simp] theorem setGranule_pages : (setGranule s g v).pages = s.pages := rfl
@[simp] theorem setGranule_parts : (setGranule s g v).parts = s.parts := rfl
@[simp] theorem setGranule_extHeld : (setGranule s g v).extHeld = s.extHeld := rfl
@[simp] theorem setGranule_answers : (setGranule s g v).answers = s.answers := rfl
@[simp] theorem setGranule_link : (setGranule s g v).link = s.link := rfl
@[simp] theorem setGranule_agenda : (setGranule s g v).agenda = s.agenda := rfl
@[simp] theorem setGranule_cur : (setGranule s g v).cur = s.cur := rfl
@[simp] theorem setGranule_free : (setGranule s g v).free = s.free := rfl
@[simp] theorem setGranule_ticks : (setGranule s g v).ticks = s.ticks := rfl
@[simp] theorem setGranule_nextId : (setGranule s g v).nextId = s.nextId := rfl
@[simp] theorem setGranule_events : (setGranule s g v).events = s.events := rfl
end setGranule

section setLine
variable (s : State) (l : Nat) (v : Line)
@[simp] theorem setLine_mem : (setLine s l v).mem = s.mem := rfl
@[simp] theorem setLine_poison : (setLine s l v).poison = s.poison := rfl
@[simp] theorem setLine_backing : (setLine s l v).backing = s.backing := rfl
@[simp] theorem setLine_wayPoison : (setLine s l v).wayPoison = s.wayPoison := rfl
@[simp] theorem setLine_cores : (setLine s l v).cores = s.cores := rfl
@[simp] theorem setLine_clusters : (setLine s l v).clusters = s.clusters := rfl
@[simp] theorem setLine_dies : (setLine s l v).dies = s.dies := rfl
@[simp] theorem setLine_groups : (setLine s l v).groups = s.groups := rfl
@[simp] theorem setLine_gangs : (setLine s l v).gangs = s.gangs := rfl
@[simp] theorem setLine_grids : (setLine s l v).grids = s.grids := rfl
@[simp] theorem setLine_graphs : (setLine s l v).graphs = s.graphs := rfl
@[simp] theorem setLine_ops : (setLine s l v).ops = s.ops := rfl
@[simp] theorem setLine_assay : (setLine s l v).assay = s.assay := rfl
@[simp] theorem setLine_refusedQ : (setLine s l v).refusedQ = s.refusedQ := rfl
@[simp] theorem setLine_resv : (setLine s l v).resv = s.resv := rfl
@[simp] theorem setLine_pages : (setLine s l v).pages = s.pages := rfl
@[simp] theorem setLine_parts : (setLine s l v).parts = s.parts := rfl
@[simp] theorem setLine_extHeld : (setLine s l v).extHeld = s.extHeld := rfl
@[simp] theorem setLine_answers : (setLine s l v).answers = s.answers := rfl
@[simp] theorem setLine_link : (setLine s l v).link = s.link := rfl
@[simp] theorem setLine_agenda : (setLine s l v).agenda = s.agenda := rfl
@[simp] theorem setLine_cur : (setLine s l v).cur = s.cur := rfl
@[simp] theorem setLine_free : (setLine s l v).free = s.free := rfl
@[simp] theorem setLine_ticks : (setLine s l v).ticks = s.ticks := rfl
@[simp] theorem setLine_nextId : (setLine s l v).nextId = s.nextId := rfl
@[simp] theorem setLine_events : (setLine s l v).events = s.events := rfl
end setLine

section modPage
variable (s : State) (p : Nat) (f : PageHold → PageHold)
@[simp] theorem modPage_mem : (modPage s p f).mem = s.mem := rfl
@[simp] theorem modPage_poison : (modPage s p f).poison = s.poison := rfl
@[simp] theorem modPage_backing : (modPage s p f).backing = s.backing := rfl
@[simp] theorem modPage_wayPoison : (modPage s p f).wayPoison = s.wayPoison := rfl
@[simp] theorem modPage_cores : (modPage s p f).cores = s.cores := rfl
@[simp] theorem modPage_clusters : (modPage s p f).clusters = s.clusters := rfl
@[simp] theorem modPage_dies : (modPage s p f).dies = s.dies := rfl
@[simp] theorem modPage_groups : (modPage s p f).groups = s.groups := rfl
@[simp] theorem modPage_gangs : (modPage s p f).gangs = s.gangs := rfl
@[simp] theorem modPage_grids : (modPage s p f).grids = s.grids := rfl
@[simp] theorem modPage_graphs : (modPage s p f).graphs = s.graphs := rfl
@[simp] theorem modPage_ops : (modPage s p f).ops = s.ops := rfl
@[simp] theorem modPage_assay : (modPage s p f).assay = s.assay := rfl
@[simp] theorem modPage_dir : (modPage s p f).dir = s.dir := rfl
@[simp] theorem modPage_refusedQ : (modPage s p f).refusedQ = s.refusedQ := rfl
@[simp] theorem modPage_resv : (modPage s p f).resv = s.resv := rfl
@[simp] theorem modPage_parts : (modPage s p f).parts = s.parts := rfl
@[simp] theorem modPage_extHeld : (modPage s p f).extHeld = s.extHeld := rfl
@[simp] theorem modPage_answers : (modPage s p f).answers = s.answers := rfl
@[simp] theorem modPage_link : (modPage s p f).link = s.link := rfl
@[simp] theorem modPage_agenda : (modPage s p f).agenda = s.agenda := rfl
@[simp] theorem modPage_cur : (modPage s p f).cur = s.cur := rfl
@[simp] theorem modPage_free : (modPage s p f).free = s.free := rfl
@[simp] theorem modPage_ticks : (modPage s p f).ticks = s.ticks := rfl
@[simp] theorem modPage_nextId : (modPage s p f).nextId = s.nextId := rfl
@[simp] theorem modPage_events : (modPage s p f).events = s.events := rfl
end modPage

section modUnit
variable (s : State) (p : Nat) (f : PageHold → PageHold)
@[simp] theorem modUnit_mem : (modUnit s p f).mem = s.mem := rfl
@[simp] theorem modUnit_poison : (modUnit s p f).poison = s.poison := rfl
@[simp] theorem modUnit_backing : (modUnit s p f).backing = s.backing := rfl
@[simp] theorem modUnit_wayPoison : (modUnit s p f).wayPoison = s.wayPoison := rfl
@[simp] theorem modUnit_cores : (modUnit s p f).cores = s.cores := rfl
@[simp] theorem modUnit_clusters : (modUnit s p f).clusters = s.clusters := rfl
@[simp] theorem modUnit_dies : (modUnit s p f).dies = s.dies := rfl
@[simp] theorem modUnit_groups : (modUnit s p f).groups = s.groups := rfl
@[simp] theorem modUnit_gangs : (modUnit s p f).gangs = s.gangs := rfl
@[simp] theorem modUnit_grids : (modUnit s p f).grids = s.grids := rfl
@[simp] theorem modUnit_graphs : (modUnit s p f).graphs = s.graphs := rfl
@[simp] theorem modUnit_ops : (modUnit s p f).ops = s.ops := rfl
@[simp] theorem modUnit_assay : (modUnit s p f).assay = s.assay := rfl
@[simp] theorem modUnit_dir : (modUnit s p f).dir = s.dir := rfl
@[simp] theorem modUnit_refusedQ : (modUnit s p f).refusedQ = s.refusedQ := rfl
@[simp] theorem modUnit_resv : (modUnit s p f).resv = s.resv := rfl
@[simp] theorem modUnit_parts : (modUnit s p f).parts = s.parts := rfl
@[simp] theorem modUnit_extHeld : (modUnit s p f).extHeld = s.extHeld := rfl
@[simp] theorem modUnit_answers : (modUnit s p f).answers = s.answers := rfl
@[simp] theorem modUnit_link : (modUnit s p f).link = s.link := rfl
@[simp] theorem modUnit_agenda : (modUnit s p f).agenda = s.agenda := rfl
@[simp] theorem modUnit_cur : (modUnit s p f).cur = s.cur := rfl
@[simp] theorem modUnit_free : (modUnit s p f).free = s.free := rfl
@[simp] theorem modUnit_ticks : (modUnit s p f).ticks = s.ticks := rfl
@[simp] theorem modUnit_nextId : (modUnit s p f).nextId = s.nextId := rfl
@[simp] theorem modUnit_events : (modUnit s p f).events = s.events := rfl
end modUnit

section modGroup
variable (s : State) (g : Nat) (f : Group → Group)
@[simp] theorem modGroup_mem : (modGroup s g f).mem = s.mem := rfl
@[simp] theorem modGroup_poison : (modGroup s g f).poison = s.poison := rfl
@[simp] theorem modGroup_backing : (modGroup s g f).backing = s.backing := rfl
@[simp] theorem modGroup_wayPoison : (modGroup s g f).wayPoison = s.wayPoison := rfl
@[simp] theorem modGroup_cores : (modGroup s g f).cores = s.cores := rfl
@[simp] theorem modGroup_clusters : (modGroup s g f).clusters = s.clusters := rfl
@[simp] theorem modGroup_dies : (modGroup s g f).dies = s.dies := rfl
@[simp] theorem modGroup_gangs : (modGroup s g f).gangs = s.gangs := rfl
@[simp] theorem modGroup_grids : (modGroup s g f).grids = s.grids := rfl
@[simp] theorem modGroup_graphs : (modGroup s g f).graphs = s.graphs := rfl
@[simp] theorem modGroup_ops : (modGroup s g f).ops = s.ops := rfl
@[simp] theorem modGroup_assay : (modGroup s g f).assay = s.assay := rfl
@[simp] theorem modGroup_dir : (modGroup s g f).dir = s.dir := rfl
@[simp] theorem modGroup_refusedQ : (modGroup s g f).refusedQ = s.refusedQ := rfl
@[simp] theorem modGroup_resv : (modGroup s g f).resv = s.resv := rfl
@[simp] theorem modGroup_pages : (modGroup s g f).pages = s.pages := rfl
@[simp] theorem modGroup_parts : (modGroup s g f).parts = s.parts := rfl
@[simp] theorem modGroup_extHeld : (modGroup s g f).extHeld = s.extHeld := rfl
@[simp] theorem modGroup_answers : (modGroup s g f).answers = s.answers := rfl
@[simp] theorem modGroup_link : (modGroup s g f).link = s.link := rfl
@[simp] theorem modGroup_agenda : (modGroup s g f).agenda = s.agenda := rfl
@[simp] theorem modGroup_cur : (modGroup s g f).cur = s.cur := rfl
@[simp] theorem modGroup_free : (modGroup s g f).free = s.free := rfl
@[simp] theorem modGroup_ticks : (modGroup s g f).ticks = s.ticks := rfl
@[simp] theorem modGroup_nextId : (modGroup s g f).nextId = s.nextId := rfl
@[simp] theorem modGroup_events : (modGroup s g f).events = s.events := rfl
end modGroup

section modGang
variable (s : State) (g : Nat) (f : Gang → Gang)
@[simp] theorem modGang_mem : (modGang s g f).mem = s.mem := rfl
@[simp] theorem modGang_poison : (modGang s g f).poison = s.poison := rfl
@[simp] theorem modGang_backing : (modGang s g f).backing = s.backing := rfl
@[simp] theorem modGang_wayPoison : (modGang s g f).wayPoison = s.wayPoison := rfl
@[simp] theorem modGang_cores : (modGang s g f).cores = s.cores := rfl
@[simp] theorem modGang_clusters : (modGang s g f).clusters = s.clusters := rfl
@[simp] theorem modGang_dies : (modGang s g f).dies = s.dies := rfl
@[simp] theorem modGang_groups : (modGang s g f).groups = s.groups := rfl
@[simp] theorem modGang_grids : (modGang s g f).grids = s.grids := rfl
@[simp] theorem modGang_graphs : (modGang s g f).graphs = s.graphs := rfl
@[simp] theorem modGang_ops : (modGang s g f).ops = s.ops := rfl
@[simp] theorem modGang_assay : (modGang s g f).assay = s.assay := rfl
@[simp] theorem modGang_dir : (modGang s g f).dir = s.dir := rfl
@[simp] theorem modGang_refusedQ : (modGang s g f).refusedQ = s.refusedQ := rfl
@[simp] theorem modGang_resv : (modGang s g f).resv = s.resv := rfl
@[simp] theorem modGang_pages : (modGang s g f).pages = s.pages := rfl
@[simp] theorem modGang_parts : (modGang s g f).parts = s.parts := rfl
@[simp] theorem modGang_extHeld : (modGang s g f).extHeld = s.extHeld := rfl
@[simp] theorem modGang_answers : (modGang s g f).answers = s.answers := rfl
@[simp] theorem modGang_link : (modGang s g f).link = s.link := rfl
@[simp] theorem modGang_agenda : (modGang s g f).agenda = s.agenda := rfl
@[simp] theorem modGang_cur : (modGang s g f).cur = s.cur := rfl
@[simp] theorem modGang_free : (modGang s g f).free = s.free := rfl
@[simp] theorem modGang_ticks : (modGang s g f).ticks = s.ticks := rfl
@[simp] theorem modGang_nextId : (modGang s g f).nextId = s.nextId := rfl
@[simp] theorem modGang_events : (modGang s g f).events = s.events := rfl
end modGang

section modGrid
variable (s : State) (g : Nat) (f : Grid → Grid)
@[simp] theorem modGrid_mem : (modGrid s g f).mem = s.mem := rfl
@[simp] theorem modGrid_poison : (modGrid s g f).poison = s.poison := rfl
@[simp] theorem modGrid_backing : (modGrid s g f).backing = s.backing := rfl
@[simp] theorem modGrid_wayPoison : (modGrid s g f).wayPoison = s.wayPoison := rfl
@[simp] theorem modGrid_cores : (modGrid s g f).cores = s.cores := rfl
@[simp] theorem modGrid_clusters : (modGrid s g f).clusters = s.clusters := rfl
@[simp] theorem modGrid_dies : (modGrid s g f).dies = s.dies := rfl
@[simp] theorem modGrid_groups : (modGrid s g f).groups = s.groups := rfl
@[simp] theorem modGrid_gangs : (modGrid s g f).gangs = s.gangs := rfl
@[simp] theorem modGrid_graphs : (modGrid s g f).graphs = s.graphs := rfl
@[simp] theorem modGrid_ops : (modGrid s g f).ops = s.ops := rfl
@[simp] theorem modGrid_assay : (modGrid s g f).assay = s.assay := rfl
@[simp] theorem modGrid_dir : (modGrid s g f).dir = s.dir := rfl
@[simp] theorem modGrid_refusedQ : (modGrid s g f).refusedQ = s.refusedQ := rfl
@[simp] theorem modGrid_resv : (modGrid s g f).resv = s.resv := rfl
@[simp] theorem modGrid_pages : (modGrid s g f).pages = s.pages := rfl
@[simp] theorem modGrid_parts : (modGrid s g f).parts = s.parts := rfl
@[simp] theorem modGrid_extHeld : (modGrid s g f).extHeld = s.extHeld := rfl
@[simp] theorem modGrid_answers : (modGrid s g f).answers = s.answers := rfl
@[simp] theorem modGrid_link : (modGrid s g f).link = s.link := rfl
@[simp] theorem modGrid_agenda : (modGrid s g f).agenda = s.agenda := rfl
@[simp] theorem modGrid_cur : (modGrid s g f).cur = s.cur := rfl
@[simp] theorem modGrid_free : (modGrid s g f).free = s.free := rfl
@[simp] theorem modGrid_ticks : (modGrid s g f).ticks = s.ticks := rfl
@[simp] theorem modGrid_nextId : (modGrid s g f).nextId = s.nextId := rfl
@[simp] theorem modGrid_events : (modGrid s g f).events = s.events := rfl
end modGrid

section modOp
variable (s : State) (k : Nat) (f : EngineOp → EngineOp)
@[simp] theorem modOp_mem : (modOp s k f).mem = s.mem := rfl
@[simp] theorem modOp_poison : (modOp s k f).poison = s.poison := rfl
@[simp] theorem modOp_backing : (modOp s k f).backing = s.backing := rfl
@[simp] theorem modOp_wayPoison : (modOp s k f).wayPoison = s.wayPoison := rfl
@[simp] theorem modOp_cores : (modOp s k f).cores = s.cores := rfl
@[simp] theorem modOp_clusters : (modOp s k f).clusters = s.clusters := rfl
@[simp] theorem modOp_dies : (modOp s k f).dies = s.dies := rfl
@[simp] theorem modOp_groups : (modOp s k f).groups = s.groups := rfl
@[simp] theorem modOp_gangs : (modOp s k f).gangs = s.gangs := rfl
@[simp] theorem modOp_grids : (modOp s k f).grids = s.grids := rfl
@[simp] theorem modOp_graphs : (modOp s k f).graphs = s.graphs := rfl
@[simp] theorem modOp_assay : (modOp s k f).assay = s.assay := rfl
@[simp] theorem modOp_dir : (modOp s k f).dir = s.dir := rfl
@[simp] theorem modOp_refusedQ : (modOp s k f).refusedQ = s.refusedQ := rfl
@[simp] theorem modOp_resv : (modOp s k f).resv = s.resv := rfl
@[simp] theorem modOp_pages : (modOp s k f).pages = s.pages := rfl
@[simp] theorem modOp_parts : (modOp s k f).parts = s.parts := rfl
@[simp] theorem modOp_extHeld : (modOp s k f).extHeld = s.extHeld := rfl
@[simp] theorem modOp_answers : (modOp s k f).answers = s.answers := rfl
@[simp] theorem modOp_link : (modOp s k f).link = s.link := rfl
@[simp] theorem modOp_agenda : (modOp s k f).agenda = s.agenda := rfl
@[simp] theorem modOp_cur : (modOp s k f).cur = s.cur := rfl
@[simp] theorem modOp_free : (modOp s k f).free = s.free := rfl
@[simp] theorem modOp_ticks : (modOp s k f).ticks = s.ticks := rfl
@[simp] theorem modOp_nextId : (modOp s k f).nextId = s.nextId := rfl
@[simp] theorem modOp_events : (modOp s k f).events = s.events := rfl
end modOp

section modLink
variable (s : State) (f : Link → Link)
@[simp] theorem modLink_mem : (modLink s f).mem = s.mem := rfl
@[simp] theorem modLink_poison : (modLink s f).poison = s.poison := rfl
@[simp] theorem modLink_backing : (modLink s f).backing = s.backing := rfl
@[simp] theorem modLink_wayPoison : (modLink s f).wayPoison = s.wayPoison := rfl
@[simp] theorem modLink_cores : (modLink s f).cores = s.cores := rfl
@[simp] theorem modLink_clusters : (modLink s f).clusters = s.clusters := rfl
@[simp] theorem modLink_dies : (modLink s f).dies = s.dies := rfl
@[simp] theorem modLink_groups : (modLink s f).groups = s.groups := rfl
@[simp] theorem modLink_gangs : (modLink s f).gangs = s.gangs := rfl
@[simp] theorem modLink_grids : (modLink s f).grids = s.grids := rfl
@[simp] theorem modLink_graphs : (modLink s f).graphs = s.graphs := rfl
@[simp] theorem modLink_ops : (modLink s f).ops = s.ops := rfl
@[simp] theorem modLink_assay : (modLink s f).assay = s.assay := rfl
@[simp] theorem modLink_dir : (modLink s f).dir = s.dir := rfl
@[simp] theorem modLink_refusedQ : (modLink s f).refusedQ = s.refusedQ := rfl
@[simp] theorem modLink_resv : (modLink s f).resv = s.resv := rfl
@[simp] theorem modLink_pages : (modLink s f).pages = s.pages := rfl
@[simp] theorem modLink_parts : (modLink s f).parts = s.parts := rfl
@[simp] theorem modLink_extHeld : (modLink s f).extHeld = s.extHeld := rfl
@[simp] theorem modLink_answers : (modLink s f).answers = s.answers := rfl
@[simp] theorem modLink_agenda : (modLink s f).agenda = s.agenda := rfl
@[simp] theorem modLink_cur : (modLink s f).cur = s.cur := rfl
@[simp] theorem modLink_free : (modLink s f).free = s.free := rfl
@[simp] theorem modLink_ticks : (modLink s f).ticks = s.ticks := rfl
@[simp] theorem modLink_nextId : (modLink s f).nextId = s.nextId := rfl
@[simp] theorem modLink_events : (modLink s f).events = s.events := rfl
end modLink

section modThread
variable (s : State) (t : Tid) (f : Thread → Thread)
@[simp] theorem modThread_mem : (modThread s t f).mem = s.mem := rfl
@[simp] theorem modThread_poison : (modThread s t f).poison = s.poison := rfl
@[simp] theorem modThread_backing : (modThread s t f).backing = s.backing := rfl
@[simp] theorem modThread_wayPoison : (modThread s t f).wayPoison = s.wayPoison := rfl
@[simp] theorem modThread_cores : (modThread s t f).cores = s.cores := rfl
@[simp] theorem modThread_clusters : (modThread s t f).clusters = s.clusters := rfl
@[simp] theorem modThread_dies : (modThread s t f).dies = s.dies := rfl
@[simp] theorem modThread_gangs : (modThread s t f).gangs = s.gangs := rfl
@[simp] theorem modThread_grids : (modThread s t f).grids = s.grids := rfl
@[simp] theorem modThread_graphs : (modThread s t f).graphs = s.graphs := rfl
@[simp] theorem modThread_ops : (modThread s t f).ops = s.ops := rfl
@[simp] theorem modThread_assay : (modThread s t f).assay = s.assay := rfl
@[simp] theorem modThread_dir : (modThread s t f).dir = s.dir := rfl
@[simp] theorem modThread_refusedQ : (modThread s t f).refusedQ = s.refusedQ := rfl
@[simp] theorem modThread_resv : (modThread s t f).resv = s.resv := rfl
@[simp] theorem modThread_pages : (modThread s t f).pages = s.pages := rfl
@[simp] theorem modThread_parts : (modThread s t f).parts = s.parts := rfl
@[simp] theorem modThread_extHeld : (modThread s t f).extHeld = s.extHeld := rfl
@[simp] theorem modThread_answers : (modThread s t f).answers = s.answers := rfl
@[simp] theorem modThread_link : (modThread s t f).link = s.link := rfl
@[simp] theorem modThread_agenda : (modThread s t f).agenda = s.agenda := rfl
@[simp] theorem modThread_cur : (modThread s t f).cur = s.cur := rfl
@[simp] theorem modThread_free : (modThread s t f).free = s.free := rfl
@[simp] theorem modThread_ticks : (modThread s t f).ticks = s.ticks := rfl
@[simp] theorem modThread_nextId : (modThread s t f).nextId = s.nextId := rfl
@[simp] theorem modThread_events : (modThread s t f).events = s.events := rfl
end modThread

/-! ## Accessors after updates -/

theorem getCore_modCore (s : State) (c k : Nat) (f : Core → Core) :
    getCore (modCore s c f) k = if k = c then f (getCore s c) else getCore s k := by
  simp [getCore, modCore, mget_mupd]

theorem getDie_modDie (s : State) (d k : Nat) (f : Die → Die) :
    getDie (modDie s d f) k = if k = d then f (getDie s d) else getDie s k := by
  simp [getDie, modDie, mget_mupd]

theorem getPart_modPart (s : State) (p k : Nat) (f : Part → Part) :
    getPart (modPart s p f) k = if k = p then f (getPart s p) else getPart s k := by
  simp [getPart, modPart, mget_mupd]

/-- A part of every group that an update of one group keeps. -/
theorem getGroup_modGroup_keep {α : Type} (p : Group → α) (s : State) (g k : Nat) (f : Group → Group)
    (h : ∀ x, p (f x) = p x) : p (getGroup (modGroup s g f) k) = p (getGroup s k) := by
  unfold getGroup modGroup mget
  simp only [mfind_mmod]
  by_cases e : k = g
  · subst e
    cases mfind s.groups k <;> simp [h]
  · simp [e]

theorem getGroup_modGroup_ne {s : State} {g k : Nat} {f : Group → Group} (h : k ≠ g) :
    getGroup (modGroup s g f) k = getGroup s k := by
  simp [getGroup, modGroup, mget, mfind_mmod, h]

theorem lmod_getD {α : Type} (f : α → α) (l : List α) (i j : Nat) (d : α) :
    (lmod f l i).getD j d = if j = i ∧ i < l.length then f (l.getD i d) else l.getD j d := by
  induction l generalizing i j with
  | nil => simp [lmod]
  | cons x xs ih =>
    cases i with
    | zero => cases j <;> simp [lmod]
    | succ i =>
      cases j with
      | zero => simp [lmod]
      | succ j =>
        simp only [lmod, List.getD_cons_succ, List.length_cons]
        rw [ih]
        by_cases e : j = i <;> simp [e]

theorem lmod_length {α : Type} (f : α → α) (l : List α) (i : Nat) : (lmod f l i).length = l.length := by
  induction l generalizing i with
  | nil => rfl
  | cons x xs ih => cases i <;> simp [lmod, ih]

/-- A thread that exists: its group lists its GINDEX. -/
def threadExists (s : State) (t : Tid) : Prop := t.gi < (getGroup s t.grp).threads.length

theorem getGroup_modThread_keep {α : Type} (p : Group → α) (s : State) (t : Tid) (k : Nat)
    (f : Thread → Thread) (h : ∀ x l, p { x with threads := l } = p x) :
    p (getGroup (modThread s t f) k) = p (getGroup s k) :=
  getGroup_modGroup_keep p s t.grp k _ fun x => h x _

theorem getThread_modThread_same {s : State} {t : Tid} {f : Thread → Thread} (h : threadExists s t) :
    getThread (modThread s t f) t = f (getThread s t) := by
  unfold threadExists getGroup at h
  unfold getThread modThread getGroup modGroup
  simp only [mget, mfind_mmod, if_true] at *
  cases e : mfind s.groups t.grp with
  | none => simp [e, noGroup] at h
  | some g =>
    simp only [e, Option.getD_some, Option.map_some] at *
    rw [lmod_getD]
    simp [h]

theorem getThread_modThread_ne {s : State} {t u : Tid} {f : Thread → Thread} (h : u ≠ t) :
    getThread (modThread s t f) u = getThread s u := by
  unfold getThread modThread getGroup modGroup
  simp only [mget, mfind_mmod]
  by_cases e : u.grp = t.grp
  · simp only [e, if_true]
    cases mfind s.groups t.grp with
    | none => rfl
    | some g =>
      simp only [Option.getD_some, Option.map_some]
      rw [lmod_getD, if_neg]
      rintro ⟨i, _⟩
      exact h (by cases u; cases t; simp_all)
  · simp [e]

/-- A part of every thread that an update of one thread keeps. -/
theorem getThread_modThread_keep {α : Type} (p : Thread → α) (s : State) (t u : Tid) (f : Thread → Thread)
    (h : ∀ x, p (f x) = p x) : p (getThread (modThread s t f) u) = p (getThread s u) := by
  by_cases e : u = t
  · subst e
    unfold getThread modThread getGroup modGroup
    simp only [mget, mfind_mmod, if_true]
    cases mfind s.groups u.grp with
    | none => rfl
    | some g =>
      simp only [Option.getD_some, Option.map_some]
      rw [lmod_getD]
      split
      · exact h _
      · rfl
  · rw [getThread_modThread_ne e]

/-- An update that changes nothing but a group's threads: what every accessor of a group's own fields
reads. -/
@[simp] theorem threadCore_modThread (s : State) (t u : Tid) (f : Thread → Thread) :
    threadCore (modThread s t f) u = threadCore s u :=
  getGroup_modThread_keep Group.core s t u.grp f fun _ _ => rfl

@[simp] theorem getCore_modThread (s : State) (t : Tid) (f : Thread → Thread) (c : Nat) :
    getCore (modThread s t f) c = getCore s c := rfl
@[simp] theorem getDie_modThread (s : State) (t : Tid) (f : Thread → Thread) (d : Nat) :
    getDie (modThread s t f) d = getDie s d := rfl
@[simp] theorem getPart_modThread (s : State) (t : Tid) (f : Thread → Thread) (p : Nat) :
    getPart (modThread s t f) p = getPart s p := rfl
@[simp] theorem getGang_modThread (s : State) (t : Tid) (f : Thread → Thread) (g : Nat) :
    getGang (modThread s t f) g = getGang s g := rfl

@[simp] theorem isPriv_modThread (s : State) (t u : Tid) (f : Thread → Thread) :
    isPriv (modThread s t f) u = isPriv s u := by
  unfold isPriv
  rw [threadCore_modThread, getDie_modThread]

@[simp] theorem groupTids_modThread (s : State) (t : Tid) (f : Thread → Thread) (g : Nat) :
    groupTids (modThread s t f) g = groupTids s g := by
  unfold groupTids
  have : (getGroup (modThread s t f) g).threads.length = (getGroup s g).threads.length := by
    unfold modThread getGroup modGroup
    simp only [mget, mfind_mmod]
    by_cases e : g = t.grp
    · subst e
      cases mfind s.groups t.grp <;> simp [lmod_length]
    · simp [e]
  rw [this]

/-- An internal queue that hears of an event changes its die alone. -/
@[simp] theorem notifyInternal_mem (s : State) (d q : Nat) : (notifyInternal s d q).mem = s.mem := by
  unfold notifyInternal
  split <;> rfl
@[simp] theorem notifyInternal_link (s : State) (d q : Nat) : (notifyInternal s d q).link = s.link := by
  unfold notifyInternal
  split <;> rfl
@[simp] theorem notifyInternal_groups (s : State) (d q : Nat) : (notifyInternal s d q).groups = s.groups := by
  unfold notifyInternal
  split <;> rfl
@[simp] theorem notifyInternal_gangs (s : State) (d q : Nat) : (notifyInternal s d q).gangs = s.gangs := by
  unfold notifyInternal
  split <;> rfl

end Sys2Proof.Machine
end

