-- ==== Sys2Proof/Laws/Issue.lean ====
section
/-! SUPPORT. What one issue of an instruction does: the counted state reads as the state before in everything
an instruction looks at, and an instruction that reaches its effect makes exactly that effect. -/

namespace Sys2Proof.Machine

/-! ## The counted state reads as the state before -/

/-- A part of a thread that counting an issue keeps. -/
theorem getThread_countIssue_keep {α : Type} (p : Thread → α) (s : State) (t u : Tid) (own : Bool)
    (h : ∀ (x : Thread) (n : Nat), p { x with sinceRsv := n, counted := false } = p x) :
    p (getThread (countIssue s t own) u) = p (getThread s u) :=
  getThread_modThread_keep p s t u _ fun x => h x _

section
variable (s : State) (t u : Tid) (own : Bool)

@[simp] theorem countIssue_regs : (getThread (countIssue s t own) u).regs = (getThread s u).regs :=
  getThread_countIssue_keep Thread.regs s t u own fun _ _ => rfl
@[simp] theorem countIssue_rpoison : (getThread (countIssue s t own) u).rpoison = (getThread s u).rpoison :=
  getThread_countIssue_keep Thread.rpoison s t u own fun _ _ => rfl
@[simp] theorem countIssue_xr : (getThread (countIssue s t own) u).xr = (getThread s u).xr :=
  getThread_countIssue_keep Thread.xr s t u own fun _ _ => rfl
@[simp] theorem countIssue_preds : (getThread (countIssue s t own) u).preds = (getThread s u).preds :=
  getThread_countIssue_keep Thread.preds s t u own fun _ _ => rfl
@[simp] theorem countIssue_tokens : (getThread (countIssue s t own) u).tokens = (getThread s u).tokens :=
  getThread_countIssue_keep Thread.tokens s t u own fun _ _ => rfl
@[simp] theorem countIssue_pc : (getThread (countIssue s t own) u).pc = (getThread s u).pc :=
  getThread_countIssue_keep Thread.pc s t u own fun _ _ => rfl
@[simp] theorem countIssue_link : (getThread (countIssue s t own) u).link = (getThread s u).link :=
  getThread_countIssue_keep Thread.link s t u own fun _ _ => rfl
@[simp] theorem countIssue_callDepth :
    (getThread (countIssue s t own) u).callDepth = (getThread s u).callDepth :=
  getThread_countIssue_keep Thread.callDepth s t u own fun _ _ => rfl
@[simp] theorem countIssue_fstat : (getThread (countIssue s t own) u).fstat = (getThread s u).fstat :=
  getThread_countIssue_keep Thread.fstat s t u own fun _ _ => rfl
@[simp] theorem countIssue_tsticky : (getThread (countIssue s t own) u).tsticky = (getThread s u).tsticky :=
  getThread_countIssue_keep Thread.tsticky s t u own fun _ _ => rfl
@[simp] theorem countIssue_rndctr : (getThread (countIssue s t own) u).rndctr = (getThread s u).rndctr :=
  getThread_countIssue_keep Thread.rndctr s t u own fun _ _ => rfl
@[simp] theorem countIssue_cntLd : (getThread (countIssue s t own) u).cntLd = (getThread s u).cntLd :=
  getThread_countIssue_keep Thread.cntLd s t u own fun _ _ => rfl
@[simp] theorem countIssue_cntSt : (getThread (countIssue s t own) u).cntSt = (getThread s u).cntSt :=
  getThread_countIssue_keep Thread.cntSt s t u own fun _ _ => rfl
@[simp] theorem countIssue_cntCp : (getThread (countIssue s t own) u).cntCp = (getThread s u).cntCp :=
  getThread_countIssue_keep Thread.cntCp s t u own fun _ _ => rfl
@[simp] theorem countIssue_cntMx : (getThread (countIssue s t own) u).cntMx = (getThread s u).cntMx :=
  getThread_countIssue_keep Thread.cntMx s t u own fun _ _ => rfl
@[simp] theorem countIssue_inTrap : (getThread (countIssue s t own) u).inTrap = (getThread s u).inTrap :=
  getThread_countIssue_keep Thread.inTrap s t u own fun _ _ => rfl
@[simp] theorem countIssue_uiPend : (getThread (countIssue s t own) u).uiPend = (getThread s u).uiPend :=
  getThread_countIssue_keep Thread.uiPend s t u own fun _ _ => rfl
@[simp] theorem countIssue_cancelPend :
    (getThread (countIssue s t own) u).cancelPend = (getThread s u).cancelPend :=
  getThread_countIssue_keep Thread.cancelPend s t u own fun _ _ => rfl
@[simp] theorem countIssue_tcause : (getThread (countIssue s t own) u).tcause = (getThread s u).tcause :=
  getThread_countIssue_keep Thread.tcause s t u own fun _ _ => rfl
@[simp] theorem countIssue_tepc : (getThread (countIssue s t own) u).tepc = (getThread s u).tepc :=
  getThread_countIssue_keep Thread.tepc s t u own fun _ _ => rfl
@[simp] theorem countIssue_taddr : (getThread (countIssue s t own) u).taddr = (getThread s u).taddr :=
  getThread_countIssue_keep Thread.taddr s t u own fun _ _ => rfl
@[simp] theorem countIssue_uiCause : (getThread (countIssue s t own) u).uiCause = (getThread s u).uiCause :=
  getThread_countIssue_keep Thread.uiCause s t u own fun _ _ => rfl
@[simp] theorem countIssue_pasid : (getThread (countIssue s t own) u).pasid = (getThread s u).pasid :=
  getThread_countIssue_keep Thread.pasid s t u own fun _ _ => rfl
@[simp] theorem countIssue_ident : (getThread (countIssue s t own) u).ident = (getThread s u).ident :=
  getThread_countIssue_keep Thread.ident s t u own fun _ _ => rfl
@[simp] theorem countIssue_run : (getThread (countIssue s t own) u).run = (getThread s u).run :=
  getThread_countIssue_keep Thread.run s t u own fun _ _ => rfl
@[simp] theorem countIssue_late : (getThread (countIssue s t own) u).late = (getThread s u).late :=
  getThread_countIssue_keep Thread.late s t u own fun _ _ => rfl
@[simp] theorem countIssue_strict : (getThread (countIssue s t own) u).strict = (getThread s u).strict :=
  getThread_countIssue_keep Thread.strict s t u own fun _ _ => rfl

/-- A part of a group other than its threads. -/
theorem getGroup_countIssue_keep {α : Type} (p : Group → α) (k : Nat)
    (h : ∀ x l, p { x with threads := l } = p x) :
    p (getGroup (countIssue s t own) k) = p (getGroup s k) :=
  getGroup_modThread_keep p s t k _ h

@[simp] theorem countIssue_gcount :
    (threadGroup (countIssue s t own) u).gcount = (threadGroup s u).gcount :=
  getGroup_countIssue_keep s t own Group.gcount u.grp fun _ _ => rfl
@[simp] theorem countIssue_nsets : (threadGroup (countIssue s t own) u).nsets = (threadGroup s u).nsets :=
  getGroup_countIssue_keep s t own Group.nsets u.grp fun _ _ => rfl
@[simp] theorem countIssue_spoison :
    (threadGroup (countIssue s t own) u).spoison = (threadGroup s u).spoison :=
  getGroup_countIssue_keep s t own Group.spoison u.grp fun _ _ => rfl
@[simp] theorem countIssue_shpoison :
    (threadGroup (countIssue s t own) u).shpoison = (threadGroup s u).shpoison :=
  getGroup_countIssue_keep s t own Group.shpoison u.grp fun _ _ => rfl
@[simp] theorem countIssue_sets : (threadGroup (countIssue s t own) u).sets = (threadGroup s u).sets :=
  getGroup_countIssue_keep s t own Group.sets u.grp fun _ _ => rfl
@[simp] theorem countIssue_groupSets (g : Nat) :
    (getGroup (countIssue s t own) g).sets = (getGroup s g).sets :=
  getGroup_countIssue_keep s t own Group.sets g fun _ _ => rfl

@[simp] theorem threadCore_countIssue : threadCore (countIssue s t own) u = threadCore s u :=
  threadCore_modThread s t u _
@[simp] theorem isPriv_countIssue : isPriv (countIssue s t own) u = isPriv s u := isPriv_modThread s t u _
@[simp] theorem groupTids_countIssue (g : Nat) : groupTids (countIssue s t own) g = groupTids s g :=
  groupTids_modThread s t _ g
@[simp] theorem getCore_countIssue (c : Nat) : getCore (countIssue s t own) c = getCore s c := rfl
@[simp] theorem countIssue_cur : (countIssue s t own).cur = s.cur := rfl
@[simp] theorem countIssue_mem : (countIssue s t own).mem = s.mem := rfl

@[simp] theorem guardTrue_countIssue (g : Guard) : guardTrue (countIssue s t own) u g = guardTrue s u g := by
  simp [guardTrue, readPred]

@[simp] theorem readPred_countIssue (n : Nat) : readPred (countIssue s t own) u n = readPred s u n := by
  simp [readPred]

theorem fieldHere_congr {g g' : Group} {th th' : Thread} (u : Use) (x : Opnd) (h1 : g.gcount = g'.gcount)
    (h2 : g.nsets = g'.nsets) (h3 : th.inTrap = th'.inTrap) : fieldHere g th u x = fieldHere g' th' u x := by
  cases x <;> simp [fieldHere, h1, h2, h3]

theorem mssHere_countIssue (i : Instr) : mssHere (countIssue s t own) u i = mssHere s u i := by
  unfold mssHere
  simp only [countIssue_inTrap, isPriv_countIssue]

@[simp] theorem legalHere_countIssue (i : Instr) (o : Ops) (f : Fmt) :
    legalHere (countIssue s t own) u i o f = legalHere s u i o f := by
  unfold legalHere
  simp only [mssHere_countIssue,
    fieldHere_congr _ _ (countIssue_gcount s t u own) (countIssue_nsets s t u own)
      (countIssue_inTrap s t u own)]

theorem resolve_congr {th th' : Thread} (h : th.xr = th'.xr) (u : Use) (off : Nat) (x : Opnd) :
    resolve th u off x = resolve th' u off x := by
  cases x <;> simp [resolve, h]

@[simp] theorem resolveOps_countIssue (o : Ops) (f : Fmt) :
    resolveOps (getThread (countIssue s t own) u) f o = resolveOps (getThread s u) f o := by
  unfold resolveOps
  simp only [resolve_congr (countIssue_xr s t u own)]

@[simp] theorem writersOf_countIssue (c : Nat) : writersOf (countIssue s t own) u c = writersOf s u c := by
  simp [writersOf]

@[simp] theorem loadAwaited_countIssue (c : Nat) :
    loadAwaited (countIssue s t own) u c = loadAwaited s u c := by
  simp [loadAwaited]

@[simp] theorem lateAwaited_countIssue (c : Nat) :
    lateAwaited (countIssue s t own) u c = lateAwaited s u c := by
  simp [lateAwaited]

@[simp] theorem awaited_countIssue (c : Nat) : awaited (countIssue s t own) u c = awaited s u c := by
  simp [awaited]

@[simp] theorem loadCodes_countIssue (o : Ops) (f : Fmt) :
    loadCodes (countIssue s t own) u o f = loadCodes s u o f := by
  have h : loadAwaited (countIssue s t own) u = loadAwaited s u := funext (loadAwaited_countIssue s t u own)
  simp [loadCodes, h]

/-- Where no register that the instruction names awaits a value, none awaits a load. -/
theorem loadCodes_of_awaitedCodes {s : State} {t : Tid} {o : Ops} {f : Fmt} (h : awaitedCodes s t o f = []) :
    loadCodes s t o f = [] := by
  simp only [awaitedCodes, loadCodes, List.filter_eq_nil_iff, awaited, Bool.or_eq_true, not_or] at *
  exact fun c hc => (h c hc).1

/-- Without an awaited register no late result is written at an issue. -/
@[simp] theorem finishLates_nil (s : State) (t : Tid) : finishLates s t [] = s := rfl

@[simp] theorem awaitedCodes_countIssue (o : Ops) (f : Fmt) :
    awaitedCodes (countIssue s t own) u o f = awaitedCodes s u o f := by
  have h : awaited (countIssue s t own) u = awaited s u := funext (awaited_countIssue s t u own)
  simp [awaitedCodes, h]

@[simp] theorem markOf_countIssue (c : Nat) : markOf (countIssue s t own) u c = markOf s u c := by
  simp [markOf]

@[simp] theorem poisonSource_countIssue (o : Ops) (f : Fmt) :
    poisonSource (countIssue s t own) u o f = poisonSource s u o f := by
  have h : markOf (countIssue s t own) u = markOf s u := funext (markOf_countIssue s t u own)
  simp [poisonSource, h]

@[simp] theorem readReg_countIssue (snap : NMap Word) (c : Nat) :
    readReg (countIssue s t own) u snap c = readReg s u snap c := by
  simp [readReg]

@[simp] theorem readRegs_countIssue (snap : NMap Word) (c w : Nat) :
    readRegs (countIssue s t own) u snap c w = readRegs s u snap c w := by
  induction w generalizing c with
  | zero => rfl
  | succ w ih => simp [readRegs, ih]

@[simp] theorem operand_countIssue (cx : Ctx) (w : Nat) (x : Opnd) :
    operand cx (countIssue s t own) w x = operand cx s w x := by
  cases x <;> simp [operand]

@[simp] theorem getSet_countIssue (g j : Nat) : getSet (countIssue s t own) g j = getSet s g j := by
  simp [getSet]

@[simp] theorem arriveCheck_countIssue (o : Ops) :
    arriveCheck (countIssue s t own) u o = arriveCheck s u o := by
  simp [arriveCheck]

end

@[simp] theorem issued_a (i : Instr) (s : State) (t : Tid) (cx : Ctx) : cx.a (issued i s t) = cx.a s :=
  operand_countIssue s t _ cx _ _
@[simp] theorem issued_b (i : Instr) (s : State) (t : Tid) (cx : Ctx) : cx.b (issued i s t) = cx.b s :=
  operand_countIssue s t _ cx _ _
@[simp] theorem issued_c (i : Instr) (s : State) (t : Tid) (cx : Ctx) : cx.c (issued i s t) = cx.c s :=
  operand_countIssue s t _ cx _ _
@[simp] theorem issued_d (i : Instr) (s : State) (t : Tid) (cx : Ctx) : cx.d (issued i s t) = cx.d s :=
  operand_countIssue s t _ cx _ _

/-! ## An instruction that reaches its effect -/

/-- What `ctxAt` says. -/
theorem ctxAt_some {i : Instr} {s : State} {cx : Ctx} (h : ctxAt i s = some cx) :
    ∃ c o, s.cur = some c ∧ form i = some (o, cx.f) ∧ cx.t = c.tid ∧ cx.snap = c.snap ∧
      legalHere s cx.t i o cx.f = true ∧ (needsPriv i cx.f = true → isPriv s cx.t = true) ∧
      guardTrue s cx.t o.guard = true ∧ resolveOps (getThread s cx.t) cx.f o = .ok cx.o ∧
      awaitedCodes s cx.t cx.o cx.f = [] ∧ poisonSource s cx.t cx.o cx.f = none := by
  unfold ctxAt at h
  split at h
  · rename_i c o f hc hf
    split at h
    · rename_i hl
      split at h
      · rename_i o' ho
        split at h
        · rename_i hw
          injection h with h
          subst h
          simp only [Bool.and_eq_true, Bool.not_eq_true', Bool.and_eq_false_iff] at hl hw
          refine ⟨c, o, hc, hf, rfl, rfl, hl.1.1, ?_, hl.2, ho, ?_, ?_⟩
          · intro hn
            rcases hl.1.2 with h | h
            · simp [hn] at h
            · simpa using h
          · simpa using hw.1
          · simpa using hw.2
        · simp at h
      · simp at h
    · simp at h
  · simp at h

theorem opndNum_resolve {th : Thread} {u : Use} {off : Nat} {x y : Opnd} (h : resolve th u off x = .ok y) :
    opndNum y = opndNum x := by
  cases x <;> simp only [resolve] at h
  case idx k =>
    split at h
    · split at h
      · injection h with h
        subst h
        rfl
      · cases h
    · cases h
  all_goals injection h with h; subst h; rfl

theorem setNum_resolveOps {th : Thread} {f : Fmt} {o o' : Ops} (h : resolveOps th f o = .ok o') :
    setNum o' = setNum o := by
  unfold resolveOps at h
  simp only at h
  split at h <;> try cases h
  rename_i ha _ _
  exact opndNum_resolve ha

/-- One issue of an instruction that reaches its effect. -/
theorem issueWith_acts {i : Instr} {s : State} {cx : Ctx} {pre : State → Tid → Ops → Option Exc}
    {body : Ctx → State → State} (h : ctxAt i s = some cx)
    (hp : ∀ o, form i = some (o, cx.f) → pre (issued i s cx.t) cx.t o = none) :
    issueWith i pre body s = .next (body cx (issued i s cx.t)) := by
  obtain ⟨c, o, hc, hf, ht, hs, hl, hn, hg, hr, hw, hm⟩ := ctxAt_some h
  have hp := hp o hf
  unfold issueWith
  simp only [hc, hf]
  rw [← ht, ← hs]
  unfold issueAt issued at *
  simp only [hg, Bool.and_true] at *
  rw [if_neg (by simp [hl]), if_neg (by
    simp only [isPriv_countIssue, Bool.and_eq_true, Bool.not_eq_true', not_and]
    intro g
    simp [hn g]), if_neg (by simp), hp]
  simp only [operandsThen, resolveOps_countIssue, hr, loadCodes_countIssue, loadCodes_of_awaitedCodes hw,
    awaitedCodes_countIssue, hw, finishLates_nil, poisonSource_countIssue, hm]
  rfl

/-- One issue of an instruction that reaches its effect and makes no checks of its own before it. -/
theorem issue_acts {i : Instr} {s : State} {cx : Ctx} {body : Ctx → State → State} (h : Acts i s cx) :
    issue i body s = .next (body cx (issued i s cx.t)) :=
  issueWith_acts h.at_ctx fun _ _ => rfl

/-- One issue of an arrival that passes its checks. -/
theorem issue_arrives {i : Instr} {s : State} {cx : Ctx} {body : Ctx → State → State} (h : Arrives i s cx) :
    issueWith i arriveCheck body s = .next (body cx (issued i s cx.t)) := by
  refine issueWith_acts h.at_ctx fun o hf => ?_
  obtain ⟨_, o', _, hf', _, _, _, _, _, hr, _, _⟩ := ctxAt_some h.at_ctx
  rw [hf] at hf'
  injection hf' with e
  injection e with e _
  subst e
  have := h.member
  unfold issued
  rw [arriveCheck_countIssue]
  simpa [arriveCheck, setNum_resolveOps hr] using this

/-! ## Every instruction row is one issue -/

/-- What every instruction row is: one issue with its own body, and the membership checks of R115 first where it
arrives at a set. -/
theorem exec_issues {i : Instr} {o : Ops} {f : Fmt} (h : form i = some (o, f)) (s : State) :
    ∃ body, exec i s = issueWith i (if isArrival i then arriveCheck else noPre) body s := by
  cases i
  all_goals first
    | exact ⟨_, rfl⟩
    | (simp [form] at h)

end Sys2Proof.Machine
end

