-- ==== Sys2Proof/Laws/Dest.lean ====
section
/-! SUPPORT. What writing a destination does: it holds the value, and nothing else of the machine changes. -/

namespace Sys2Proof.Machine

theorem Untouched.refl (s : State) (t : Tid) (d : Dest) : Untouched s s t d :=
  ⟨⟨rfl, fun _ _ => rfl, rfl, fun _ _ => rfl, fun _ _ => ⟨rfl, rfl⟩, fun _ _ => ⟨rfl, rfl⟩⟩, fun _ _ => rfl⟩

theorem Untouched.step {s u v : State} {t : Tid} {d : Dest} (h : Untouched s u t d) (k : Untouched u v t d) :
    Untouched s v t d where
  machine := by rw [k.machine, h.machine]
  groups g e := by rw [k.groups g e, h.groups g e]
  group := by rw [k.group, h.group]
  others w e := by rw [k.others w e, h.others w e]
  regs c e := ⟨by rw [(k.regs c e).1, (h.regs c e).1], by rw [(k.regs c e).2, (h.regs c e).2]⟩
  preds n e := by rw [k.preds n e, h.preds n e]
  shapes n e := ⟨by rw [(k.shapes n e).1, (h.shapes n e).1], by rw [(k.shapes n e).2, (h.shapes n e).2]⟩

/-- An update of the thread that keeps its registers, marks and predicates touches no destination. -/
theorem Untouched.modThread {s : State} {t : Tid} {d : Dest} {f : Thread → Thread}
    (hr : ∀ x c, destHas d c = false → c < 256 →
      mget 0 (f x).regs c = mget 0 x.regs c ∧ mfind (f x).rpoison c = mfind x.rpoison c)
    (hp : ∀ x n, d ≠ .pred n → n < 7 → (f x).preds.getLsbD n = x.preds.getLsbD n) :
    Untouched s (modThread s t f) t d where
  machine := rfl
  groups k e := getGroup_modGroup_ne e
  group := by
    unfold threadGroup Machine.modThread getGroup modGroup
    simp only [mget, mfind_mmod, if_true]
    cases mfind s.groups t.grp <;> rfl
  others v e := getThread_modThread_ne e
  regs c e := by
    unfold regOf markOf
    by_cases h : c < 256
    · simp only [h, if_true]
      exact ⟨getThread_modThread_keep (fun x => mget 0 x.regs c) s t t f fun x => (hr x c e h).1,
        getThread_modThread_keep (fun x => mfind x.rpoison c) s t t f fun x => (hr x c e h).2⟩
    · simp only [h, if_false]
      exact ⟨getGroup_modThread_keep (fun x => mget 0 x.scal (c - 256)) s t t.grp f fun _ _ => rfl,
        getGroup_modThread_keep (fun x => mfind x.spoison (c - 256)) s t t.grp f fun _ _ => rfl⟩
  preds n e := by
    unfold readPred
    by_cases h : 7 ≤ n
    · simp [h]
    · rw [getThread_modThread_keep (fun x => x.preds.getLsbD n) s t t f fun x => hp x n e (by omega)]
  shapes n _ :=
    ⟨getGroup_modThread_keep (fun x => mget 0 x.shapes n) s t t.grp f fun _ _ => rfl,
      getGroup_modThread_keep (fun x => mfind x.shpoison n) s t t.grp f fun _ _ => rfl⟩

/-- The same for an update of the group's scalars and shape registers. -/
theorem Untouched.modGroup {s : State} {t : Tid} {d : Dest} {f : Group → Group}
    (hf : ∀ x, f x = { x with scal := (f x).scal, spoison := (f x).spoison, shapes := (f x).shapes,
                              shpoison := (f x).shpoison })
    (hr : ∀ x c, destHas d (256 + c) = false →
      mget 0 (f x).scal c = mget 0 x.scal c ∧ mfind (f x).spoison c = mfind x.spoison c)
    (hs : ∀ x n, d ≠ .shape n →
      mget 0 (f x).shapes n = mget 0 x.shapes n ∧ mfind (f x).shpoison n = mfind x.shpoison n) :
    Untouched s (modGroup s t.grp f) t d where
  machine := rfl
  groups k e := getGroup_modGroup_ne e
  group := by
    unfold threadGroup getGroup Machine.modGroup
    simp only [mget, mfind_mmod, if_true]
    cases h : mfind s.groups t.grp with
    | none => rfl
    | some g =>
      simp only [Option.map_some, Option.getD_some]
      conv => lhs; rw [hf g]
      rw [hf g]
  others v e := by
    unfold getThread
    rw [getGroup_modGroup_keep Group.threads s t.grp v.grp f fun x => by rw [hf x]]
  regs c e := by
    unfold regOf markOf getThread threadGroup
    by_cases h : c < 256
    · simp only [h, if_true]
      rw [getGroup_modGroup_keep Group.threads s t.grp t.grp f fun x => by rw [hf x]]
      exact ⟨rfl, rfl⟩
    · simp only [h, if_false]
      have e' : destHas d (256 + (c - 256)) = false := by
        have : 256 + (c - 256) = c := by omega
        rw [this]; exact e
      exact ⟨getGroup_modGroup_keep (fun x => mget 0 x.scal (c - 256)) s t.grp t.grp f fun x => (hr x _ e').1,
        getGroup_modGroup_keep (fun x => mfind x.spoison (c - 256)) s t.grp t.grp f fun x => (hr x _ e').2⟩
  preds n _ := by
    unfold readPred getThread
    rw [getGroup_modGroup_keep Group.threads s t.grp t.grp f fun x => by rw [hf x]]
  shapes n e :=
    ⟨getGroup_modGroup_keep (fun x => mget 0 x.shapes n) s t.grp t.grp f fun x => (hs x n e).1,
      getGroup_modGroup_keep (fun x => mfind x.shpoison n) s t.grp t.grp f fun x => (hs x n e).2⟩

/-- One register written touches it alone. -/
theorem untouched_setReg {s : State} {t : Tid} {d : Dest} {c : Nat} {v : Word} {m : Option DWord}
    (h : destHas d c = true) : Untouched s (setReg s t c v m) t d := by
  unfold setReg
  split
  · refine Untouched.modThread (fun x k e _ => ?_) fun _ _ _ _ => rfl
    have : k ≠ c := by rintro rfl; simp [h] at e
    exact ⟨mget_mset_ne this, by
      cases m with
      | none => exact mfind_mdel_ne this
      | some a => exact mfind_mput_ne this⟩
  · refine Untouched.modGroup (fun _ => rfl) (fun x k e => ?_) fun _ _ _ => ⟨rfl, rfl⟩
    have hc : 256 + (c - 256) = c := by omega
    have : k ≠ c - 256 := fun he => by
      rw [he, hc, h] at e
      cases e
    exact ⟨mget_mset_ne this, by
      cases m with
      | none => exact mfind_mdel_ne this
      | some a => exact mfind_mput_ne this⟩

theorem threadExists_setReg {s : State} {t : Tid} {c : Nat} {v : Word} {m : Option DWord}
    (h : threadExists s t) : threadExists (setReg s t c v m) t := by
  unfold threadExists setReg at *
  split
  · unfold modThread getGroup modGroup at *
    simp only [mget, mfind_mmod, if_true] at *
    cases e : mfind s.groups t.grp <;> simp_all [lmod_length]
  · rw [getGroup_modGroup_keep Group.threads s t.grp t.grp]
    · exact h
    · intro x
      rfl

theorem regOf_setReg {s : State} {t : Tid} {c : Nat} {v : Word} {m : Option DWord} (h : threadExists s t) :
    regOf (setReg s t c v m) t c = v ∧ markOf (setReg s t c v m) t c = m := by
  unfold setReg regOf markOf
  by_cases e : c < 256
  · simp only [e, if_true]
    rw [getThread_modThread_same h]
    exact ⟨mget_mset_same _ _ _ _, by cases m <;> simp⟩
  · simp only [e, if_false]
    unfold threadExists at h
    unfold threadGroup modGroup getGroup at *
    simp only [mget, mfind_mmod, if_true] at *
    cases f : mfind s.groups t.grp with
    | none => simp [f, noGroup] at h
    | some g =>
      simp only [Option.map_some, Option.getD_some]
      exact ⟨mget_mset_same _ _ _ _, by cases m <;> simp⟩

theorem untouched_setRegs {s : State} {t : Tid} {d : Dest} {c w v : Nat} {m : Option DWord}
    (h : ∀ k, k < w → destHas d (c + k) = true) : Untouched s (setRegs s t c w v m) t d := by
  induction w generalizing s c v with
  | zero => exact Untouched.refl s t d
  | succ w ih =>
    refine Untouched.step (untouched_setReg (h 0 (by omega))) (ih fun k e => ?_)
    have := h (k + 1) (by omega)
    rwa [show c + 1 + k = c + (k + 1) by omega]

theorem threadExists_setRegs {s : State} {t : Tid} {c w v : Nat} {m : Option DWord} (h : threadExists s t) :
    threadExists (setRegs s t c w v m) t := by
  induction w generalizing s c v with
  | zero => exact h
  | succ w ih => exact ih (threadExists_setReg h)

theorem regOf_setRegs {s : State} {t : Tid} {c w v : Nat} {m : Option DWord} (h : threadExists s t) (k : Nat)
    (hk : k < w) : regOf (setRegs s t c w v m) t (c + k) = BitVec.ofNat 32 (v / 2 ^ (32 * k)) ∧
      markOf (setRegs s t c w v m) t (c + k) = m := by
  induction w generalizing s c v k with
  | zero => omega
  | succ w ih =>
    cases k with
    | zero =>
      have u : Untouched (setReg s t c (BitVec.ofNat 32 v) m)
          (setRegs (setReg s t c (BitVec.ofNat 32 v) m) t (c + 1) w (v / 2 ^ 32) m) t (.reg (c + 1) w) :=
        untouched_setRegs fun k e => by simp [destHas] <;> omega
      have e := u.regs c (by simp [destHas] <;> omega)
      have r := regOf_setReg (c := c) (v := BitVec.ofNat 32 v) (m := m) h
      simp only [setRegs, Nat.add_zero, Nat.mul_zero, Nat.pow_zero, Nat.div_one]
      exact ⟨e.1.trans r.1, e.2.trans r.2⟩
    | succ k =>
      have := ih (s := setReg s t c (BitVec.ofNat 32 v) m) (c := c + 1) (v := v / 2 ^ 32) (threadExists_setReg h) k (by omega)
      rw [show c + (k + 1) = c + 1 + k by omega]
      simp only [setRegs]
      rw [this.1, this.2, Nat.div_div_eq_div_mul, ← Nat.pow_add, show 32 + 32 * k = 32 * (k + 1) by omega]
      exact ⟨rfl, rfl⟩

theorem getLsbD_setBit (p : BitVec 7) (n m : Nat) (b : Bool) (hm : m < 7) :
    (if b then p ||| BitVec.ofNat 7 (2 ^ n) else p &&& ~~~(BitVec.ofNat 7 (2 ^ n))).getLsbD m =
      if m = n then b else p.getLsbD m := by
  have e : (BitVec.ofNat 7 (2 ^ n)).getLsbD m = decide (m = n) := by
    rw [BitVec.getLsbD_ofNat, Nat.testBit_two_pow]
    simp [hm, eq_comm]
  cases b with
  | true =>
    rw [if_pos rfl, BitVec.getLsbD_or, e]
    by_cases h : m = n <;> simp [h]
  | false =>
    rw [if_neg (by simp), BitVec.getLsbD_and, BitVec.getLsbD_not, e]
    by_cases h : m = n <;> simp [h, hm]

theorem untouched_setPred {s : State} {t : Tid} {n : Nat} {b : Bool} :
    Untouched s (setPred s t n b) t (.pred n) := by
  unfold setPred
  split
  · exact Untouched.refl _ _ _
  · refine Untouched.modThread (fun _ _ _ _ => ⟨rfl, rfl⟩) fun x m e hm => ?_
    have := getLsbD_setBit x.preds n m b hm
    simp only [this]
    rw [if_neg]
    rintro rfl
    exact e rfl

theorem readPred_setPred {s : State} {t : Tid} {n : Nat} {b : Bool} (h : threadExists s t) :
    readPred (setPred s t n b) t n = (decide (7 ≤ n) || b) := by
  unfold setPred readPred
  split
  · rename_i e
    simp [e]
  · rename_i e
    rw [getThread_modThread_same h]
    simp only [getLsbD_setBit _ n n b (by omega), if_true]

theorem untouched_setShape {s : State} {t : Tid} {n : Nat} {v : Shape} {m : Option DWord} :
    Untouched s (setShape s t n v m) t (.shape n) := by
  unfold setShape
  refine Untouched.modGroup (fun _ => rfl) (fun _ _ _ => ⟨rfl, rfl⟩) fun x k e => ?_
  have : k ≠ n := by rintro rfl; exact e rfl
  exact ⟨mget_mset_ne this, by
      cases m with
      | none => exact mfind_mdel_ne this
      | some a => exact mfind_mput_ne this⟩

/-- A result written holds, and touches nothing but its destination. -/
theorem untouched_writeDest {s : State} {t : Tid} {d : Dest} {v : Nat} {m : Option DWord} :
    Untouched s (writeDest s t d v m) t d := by
  cases d with
  | none => exact Untouched.refl _ _ _
  | reg c w => exact untouched_setRegs fun k e => by simp [destHas] <;> omega
  | pred n => exact untouched_setPred
  | shape n => exact untouched_setShape

theorem threadExists_modThread {s : State} {t : Tid} {f : Thread → Thread} (h : threadExists s t) :
    threadExists (modThread s t f) t := by
  unfold threadExists modThread getGroup modGroup at *
  simp only [mget, mfind_mmod, if_true] at *
  cases e : mfind s.groups t.grp <;> simp_all [lmod_length]

theorem threadExists_modGroup {s : State} {t : Tid} {g : Nat} {f : Group → Group} (h : threadExists s t)
    (hf : ∀ x, (f x).threads = x.threads) : threadExists (modGroup s g f) t := by
  unfold threadExists at *
  rw [getGroup_modGroup_keep Group.threads s g t.grp f hf]
  exact h

theorem threadExists_writeDest {s : State} {t : Tid} {d : Dest} {v : Nat} {m : Option DWord}
    (h : threadExists s t) : threadExists (writeDest s t d v m) t := by
  cases d with
  | none => exact h
  | reg c w => exact threadExists_setRegs h
  | pred n =>
    show threadExists (setPred s t n _) t
    unfold setPred
    split
    · exact h
    · exact threadExists_modThread h
  | shape n => exact threadExists_modGroup h fun _ => rfl

theorem holds_writeDest {s : State} {t : Tid} {d : Dest} {v : Nat} (h : threadExists s t) :
    Holds (writeDest s t d v none) t d v := by
  cases d with
  | none => exact trivial
  | reg c w => exact fun k hk => regOf_setRegs h k hk
  | pred n => exact readPred_setPred h
  | shape n =>
    unfold writeDest setShape Holds readShape threadGroup
    unfold threadExists at h
    unfold getGroup modGroup at *
    simp only [mget, mfind_mmod, if_true] at *
    cases f : mfind s.groups t.grp with
    | none => simp [f, noGroup] at h
    | some g =>
      simp only [Option.map_some, Option.getD_some]
      exact ⟨mget_mset_same _ _ _ _, mfind_mdel_same _ _⟩

/-- What `Holds` reads is kept by an update of the thread that keeps registers, marks and predicates. -/
theorem holds_modThread {s : State} {t : Tid} {d : Dest} {v : Nat} {f : Thread → Thread}
    (h : Holds s t d v) (hr : ∀ x, (f x).regs = x.regs) (hm : ∀ x, (f x).rpoison = x.rpoison)
    (hp : ∀ x, (f x).preds = x.preds) : Holds (modThread s t f) t d v := by
  have u : Untouched s (modThread s t f) t .none :=
    Untouched.modThread (fun x _ _ _ => by simp [hr, hm]) fun x _ _ _ => by rw [hp]
  cases d with
  | none => exact trivial
  | reg c w =>
    intro k hk
    have := u.regs (c + k) rfl
    exact ⟨this.1.trans (h k hk).1, this.2.trans (h k hk).2⟩
  | pred n => exact (u.preds n (by simp)).trans h
  | shape n =>
    have := u.shapes n (by simp)
    exact ⟨this.1.trans h.1, this.2.trans h.2⟩

/-- What a part of the thread that no destination covers reads as, after a result is written. -/
theorem getThread_writeDest {s : State} {t : Tid} {d : Dest} {v : Nat} {m : Option DWord} (u : Tid) :
    getThread (writeDest s t d v m) u =
      { getThread s u with regs := (getThread (writeDest s t d v m) u).regs,
                           rpoison := (getThread (writeDest s t d v m) u).rpoison,
                           preds := (getThread (writeDest s t d v m) u).preds } := by
  have keep : ∀ (s : State) (c : Nat) (v : Word), getThread (setReg s t c v m) u =
      { getThread s u with regs := (getThread (setReg s t c v m) u).regs,
                           rpoison := (getThread (setReg s t c v m) u).rpoison,
                           preds := (getThread s u).preds } := by
    intro s c v
    unfold setReg
    split
    · by_cases e : u = t
      · subst e
        by_cases h : threadExists s u
        · rw [getThread_modThread_same h]
        · unfold getThread modThread getGroup modGroup
          unfold threadExists getGroup at h
          simp only [mget, mfind_mmod, if_true] at *
          cases f : mfind s.groups u.grp with
          | none => rfl
          | some g =>
            simp only [f, Option.getD_some, Option.map_some] at *
            rw [lmod_getD, if_neg (by simpa using h)]
      · rw [getThread_modThread_ne e]
    · unfold getThread
      rw [getGroup_modGroup_keep Group.threads s t.grp u.grp]
      intro x
      rfl
  have many : ∀ (w : Nat) (s : State) (c v : Nat), getThread (setRegs s t c w v m) u =
      { getThread s u with regs := (getThread (setRegs s t c w v m) u).regs,
                           rpoison := (getThread (setRegs s t c w v m) u).rpoison,
                           preds := (getThread s u).preds } := by
    intro w
    induction w with
    | zero => intro s c v; rfl
    | succ w ih =>
      intro s c v
      have a := ih (setReg s t c (BitVec.ofNat 32 v) m) (c + 1) (v / 2 ^ 32)
      have b := keep s c (BitVec.ofNat 32 v)
      have p : (getThread (setReg s t c (BitVec.ofNat 32 v) m) u).preds = (getThread s u).preds := by rw [b]
      simp only [setRegs]
      rw [a, p]
      conv => lhs; rw [b]
  cases d with
  | none => rfl
  | reg c w =>
    have := many w s c v
    rw [show writeDest s t (.reg c w) v m = setRegs s t c w v m from rfl]
    have p : (getThread (setRegs s t c w v m) u).preds = (getThread s u).preds := by rw [this]
    rw [p]
    exact this
  | pred n =>
    rw [show writeDest s t (.pred n) v m = setPred s t n (decide (v % 2 = 1)) from rfl]
    unfold setPred
    split
    · rfl
    · by_cases e : u = t
      · subst e
        by_cases h : threadExists s u
        · rw [getThread_modThread_same h]
        · unfold getThread modThread getGroup modGroup
          unfold threadExists getGroup at h
          simp only [mget, mfind_mmod, if_true] at *
          cases f : mfind s.groups u.grp with
          | none => rfl
          | some g =>
            simp only [f, Option.getD_some, Option.map_some] at *
            rw [lmod_getD, if_neg (by simpa using h)]
      · rw [getThread_modThread_ne e]
  | shape n =>
    rw [show writeDest s t (.shape n) v m = setShape s t n (BitVec.ofNat 512 v) m from rfl]
    unfold setShape getThread
    rw [getGroup_modGroup_keep Group.threads s t.grp u.grp]
    intro x
    rfl

/-- An instruction whose effect is its result: it holds, the thread goes on, nothing else changes. -/
theorem finish_spec {s : State} {cx : Ctx} {v : Nat} (h : threadExists s cx.t) :
    Holds (finish cx s v) cx.t cx.dst v ∧ (getThread (finish cx s v) cx.t).pc = nextPc (getThread s cx.t).pc ∧
      Untouched s (finish cx s v) cx.t cx.dst ∧ SameThread false (getThread s cx.t) (getThread (finish cx s v) cx.t) := by
  have e := threadExists_writeDest (d := cx.dst) (v := v) (m := none) h
  have g := getThread_writeDest (s := s) (t := cx.t) (d := cx.dst) (v := v) (m := none) cx.t
  have a : getThread (finish cx s v) cx.t = { getThread (writeDest s cx.t cx.dst v none) cx.t with
      pc := nextPc (getThread (writeDest s cx.t cx.dst v none) cx.t).pc, counted := false } :=
    getThread_modThread_same e
  refine ⟨holds_modThread (holds_writeDest h) (fun _ => rfl) (fun _ => rfl) fun _ => rfl, ?_, ?_, ?_⟩
  · rw [a]
    exact congrArg nextPc (by rw [g])
  · exact Untouched.step untouched_writeDest (Untouched.modThread (fun _ _ _ _ => ⟨rfl, rfl⟩) fun _ _ _ _ => rfl)
  · unfold SameThread
    rw [a, g]
    simp

end Sys2Proof.Machine
end

