-- ==== Sys2Proof/Laws/Memory.lean ====
section
/-! SUPPORT. Laws of memory: every write keeps the canonical form, and a byte reads as what was last
written to it. -/

namespace Sys2Proof.Machine

theorem Memory.wf_iff (m : List Host.Cell) :
    Memory.wf m = true ↔ risingKeys m = true ∧ ∀ c ∈ m, c.2 ≠ memDefault := by
  simp [Memory.wf]

theorem Memory.wf_writeByte {m : List Host.Cell} {a : Nat} {b : Byte} (h : Memory.wf m = true) :
    Memory.wf (writeByte m a b) = true := by
  rw [Memory.wf_iff] at *
  refine ⟨risingKeys_mset h.1, fun c hc => ?_⟩
  unfold writeByte mset at hc
  split at hc
  · exact h.2 c (mem_mdel hc)
  · rcases mem_mput hc with rfl | hc
    · assumption
    · exact h.2 c hc

theorem Memory.wf_writeMem {m : List Host.Cell} {a : Nat} {bs : List Byte} (h : Memory.wf m = true) :
    Memory.wf (writeMem m a bs) = true := by
  induction bs generalizing m a with
  | nil => exact h
  | cons b bs ih => exact ih (Memory.wf_writeByte h)

/-- A byte as memory `m` reads it. -/
theorem mget_writeByte (m : List Host.Cell) (a x : Nat) (b : Byte) :
    mget memDefault (writeByte m a b) x = if x = a then b else mget memDefault m x := by
  unfold writeByte
  split
  · rename_i e
    subst e
    exact mget_mset_same memDefault _ _ _
  · rename_i e
    exact mget_mset_ne e

/-- Read after write, over a whole range. -/
theorem mget_writeMem (m : List Host.Cell) (a x : Nat) (bs : List Byte) :
    mget memDefault (writeMem m a bs) x =
      if a ≤ x ∧ x < a + bs.length then bs.getD (x - a) 0 else mget memDefault m x := by
  induction bs generalizing m a with
  | nil =>
    rw [if_neg (by simp only [List.length_nil]; omega)]
    rfl
  | cons b bs ih =>
    rw [writeMem, ih, mget_writeByte]
    by_cases e : x = a
    · subst e
      rw [if_neg (by omega), if_pos rfl, if_pos (by simp)]
      simp
    · by_cases g : a ≤ x ∧ x < a + (b :: bs).length
      · have g1 : a + 1 ≤ x ∧ x < a + 1 + bs.length := by simp at g; omega
        have g2 : x - a = (x - (a + 1)) + 1 := by omega
        rw [if_pos g1, if_pos g, g2]
        simp
      · have g1 : ¬(a + 1 ≤ x ∧ x < a + 1 + bs.length) := by simp at g; omega
        rw [if_neg g1, if_neg g, if_neg e]

theorem mget_head (j : Nat) (v : Byte) (m : List Host.Cell) : mget memDefault ((j, v) :: m) j = v := by
  simp [mget, mfind]

theorem mget_below {j k : Nat} {w : Byte} {n : List Host.Cell} (g : j < k) (ln : ∀ e ∈ n, k < e.1) :
    mget memDefault ((k, w) :: n) j = memDefault := by
  have : mfind ((k, w) :: n) j = none := mfind_none_of_lt fun e he => by
    rcases List.mem_cons.mp he with rfl | he
    · exact g
    · exact Nat.lt_trans g (ln e he)
  simp [mget, this]

/-- Two maps in canonical form that read alike are the same list. -/
theorem Memory.wf_ext {m n : List Host.Cell} (hm : Memory.wf m = true) (hn : Memory.wf n = true)
    (h : ∀ a, mget memDefault m a = mget memDefault n a) : m = n := by
  rw [Memory.wf_iff] at hm hn
  obtain ⟨hm, dm⟩ := hm
  obtain ⟨hn, dn⟩ := hn
  induction m generalizing n with
  | nil =>
    cases n with
    | nil => rfl
    | cons e n =>
      have := h e.1
      simp [mget, mfind] at this
      exact absurd this.symm (dn e (by simp))
  | cons e m ih =>
    obtain ⟨j, v⟩ := e
    have lm := risingKeys_lt hm
    have dv := dm (j, v) (by simp)
    cases n with
    | nil =>
      have := h j
      simp [mget, mfind] at this
      exact absurd this dv
    | cons f n =>
      obtain ⟨k, w⟩ := f
      have ln := risingKeys_lt hn
      have dw := dn (k, w) (by simp)
      have hjk : j = k := by
        rcases Nat.lt_trichotomy j k with g | g | g
        · exact absurd ((mget_head j v m).symm.trans ((h j).trans (mget_below g ln))) dv
        · exact g
        · exact absurd ((mget_head k w n).symm.trans ((h k).symm.trans (mget_below g lm))) dw
      subst hjk
      have hv : v = w := by simpa [mget, mfind] using h j
      subst hv
      have : m = n := ih (n := n) (fun a => by
        by_cases e : a = j
        · subst e
          simp [mget, mfind_none_of_lt lm, mfind_none_of_lt ln]
        · simpa [mget, mfind, Ne.symm e] using h a) (risingKeys_tail hm) (fun c hc => dm c (by simp [hc]))
          (risingKeys_tail hn) (fun c hc => dn c (by simp [hc]))
      rw [this]

/-! ## Stores -/

@[simp] theorem keepBeneath_mem (d : Bool) (s : State) (l : Nat) : (keepBeneath d s l).mem = s.mem := rfl
@[simp] theorem dropWays_mem (s : State) (p : Nat → Bool) : (dropWays s p).mem = s.mem := rfl
@[simp] theorem restoreMarks_mem (s : State) (l : Nat) (ms : List Nat) : (restoreMarks s l ms).mem = s.mem := rfl

@[simp] theorem keepBacking_mem (s : State) (a n : Nat) : (keepBacking s a n).mem = s.mem := by
  unfold keepBacking
  induction linesOf a n generalizing s with
  | nil => rfl
  | cons l ls ih => simpa using ih (keepBeneath true s l)

@[simp] theorem writeBack_mem (s : State) (l : Nat) : (writeBack s l).mem = s.mem := by
  unfold writeBack
  split <;> rfl

@[simp] theorem leaveCaches_mem (s : State) (l : Nat) : (leaveCaches s l).mem = s.mem := by
  unfold leaveCaches
  split
  · rfl
  · split <;> rfl

@[simp] theorem adoptWay_mem (s : State) (ck a n : Nat) : (adoptWay s ck a n).mem = s.mem := by
  simp [adoptWay]

@[simp] theorem writeThrough_mem (s : State) (a n : Nat) : (writeThrough s a n).mem = s.mem := by
  unfold writeThrough
  induction linesOf a n generalizing s with
  | nil => rfl
  | cons l ls ih => simpa using ih (writeBack s l)

theorem storeBytes_mem (s : State) (a : Nat) (bs : List Byte) :
    (storeBytes s a bs).mem = writeMem s.mem a bs := by
  simp [storeBytes]

theorem readByte_storeBytes (s : State) (a x : Nat) (bs : List Byte) :
    readByte (storeBytes s a bs) x =
      if a ≤ x ∧ x < a + bs.length then bs.getD (x - a) 0 else readByte s x := by
  simp [readByte, storeBytes_mem, mget_writeMem]

@[simp] theorem markPoison_mem (s : State) (a n : Nat) : (markPoison s a n).mem = s.mem := rfl

end Sys2Proof.Machine
end

