-- ==== Sys2Proof/Tests/Slice0.lean ====
section
/-! SUPPORT. The package's own tests: words written out from the spec's encoding tables, an ill-formed term for
each check of WellFormed, and states that meet the hypotheses of the statements. -/

namespace Sys2Proof.Tests

open Sys2Proof Sys2Proof.Machine

set_option maxRecDepth 40000
set_option exponentiation.threshold 600

/-! ## Decoding: one word for each instruction row, from Tables 2-3, 2-4, 2-6, 2-9 and 2-10 -/

def no : Opnd := .g 0

/-- The fields of an instruction that every thread executes. -/
def op (d a b c : Opnd) (ty : Ty) (mod : BitVec 4) (imm : Word) : Ops := ⟨⟨7, false⟩, d, a, b, c, ty, mod, imm⟩

/-- Each word decodes to its instruction, and is that instruction's encoding. -/
def wordsDecode (l : List (Nat × Instr)) : Bool :=
  l.all fun e => decide (decodeTableWord 96 e.1 = some e.2) && decide (encode e.2 = some (BitVec.ofNat 96 e.1))

def wordsControl : List (Nat × Instr) :=
  [
    (0x000000000000070000000000, .nop (op no no no no .n8 0 0)),
    (0x010000000000070000000010, .br (op no no no no .n8 0 0x10)),
    (0x020000546840070000000010, .bany (op no (.j 1) (.p 2) no .n8 0 0x10)),
    (0x030000546840070000000010, .ball (op no (.j 1) (.p 2) no .n8 0 0x10)),
    (0x040000546840070000000010, .bnone (op no (.j 1) (.p 2) no .n8 0 0x10)),
    (0x050000010000070000000000, .jmpi (op no (.g 4) no no .n8 0 0)),
    (0x0600000000000700FFFFFFF9, .call (op no no no no .n8 0 0xFFFFFFF9)),
    (0x070000408000070000000000, .calli (op no (.s 2) no no .n8 0 0)),
    (0x0800003E0000070000000000, .ret (op no .gz no no .n8 0 0)),
    (0x0A0000000000070000000000, .yield (op no no no no .n8 0 0))]

theorem decode_control : wordsDecode wordsControl = true := by decide

def wordsInteger : List (Nat × Instr) :=
  [
    (0x100001804040072800000000, .iadd (op (.g 3) (.g 1) (.g 2) no .n32 8 0)),
    (0x100101804040576000000000, .iadd3 (op (.g 3) (.g 1) (.g 2) (.g 5) .i32 0 0)),
    (0x1002010100D4173000000002, .iaddc (op (.g 2) (.g 4) (.g 6) (.p 1) .n64 0 2)),
    (0x100301805FA0072000000001, .isub (op (.g 3) (.g 1) .imm no .n32 0 1)),
    (0x110001804040076000000000, .imul (op (.g 3) (.g 1) (.g 2) no .i32 0 0)),
    (0x1101010100C0077000000000, .imulh (op (.g 2) (.g 4) (.g 6) no .i64 0 0)),
    (0x110201804040572000000000, .imad (op (.g 3) (.g 1) (.g 2) (.g 5) .n32 0 0)),
    (0x110301004060476000000000, .imadw (op (.g 2) (.g 1) (.g 3) (.g 4) .i32 0 0)),
    (0x120001804040072000000000, .idiv (op (.g 3) (.g 1) (.g 2) no .n32 0 0)),
    (0x120101804040076000000000, .irem (op (.g 3) (.g 1) (.g 2) no .i32 0 0)),
    (0x130001804040076000000000, .imin (op (.g 3) (.g 1) (.g 2) no .i32 0 0)),
    (0x130101804040072000000000, .imax (op (.g 3) (.g 1) (.g 2) no .n32 0 0)),
    (0x130201804000076800000000, .iabs (op (.g 3) (.g 1) no no .i32 8 0)),
    (0x130301010000077000000000, .ineg (op (.g 2) (.g 4) no no .i64 0 0)),
    (0x1402A1804040076000000000, .icmp .lt (op (.p 3) (.g 1) (.g 2) no .i32 0 0)),
    (0x150001804040072000000000, .and (op (.g 3) (.g 1) (.g 2) no .n32 0 0)),
    (0x150101804040072000000000, .or (op (.g 3) (.g 1) (.g 2) no .n32 0 0)),
    (0x1502010100C0073000000000, .xor (op (.g 2) (.g 4) (.g 6) no .n64 0 0)),
    (0x150301804040072000000000, .andn (op (.g 3) (.g 1) (.g 2) no .n32 0 0)),
    (0x150401804000072000000000, .not (op (.g 3) (.g 1) no no .n32 0 0)),
    (0x160001804040072000000000, .shl (op (.g 3) (.g 1) (.g 2) no .n32 0 0)),
    (0x1601010100C0073000000000, .shr (op (.g 2) (.g 4) (.g 6) no .n64 0 0)),
    (0x160201805FA0076000000005, .shra (op (.g 3) (.g 1) .imm no .i32 0 5)),
    (0x160301804040072000000000, .rol (op (.g 3) (.g 1) (.g 2) no .n32 0 0)),
    (0x160401804040072000000000, .ror (op (.g 3) (.g 1) (.g 2) no .n32 0 0)),
    (0x170001804040076000000000, .bfe (op (.g 3) (.g 1) (.g 2) no .i32 0 0)),
    (0x170101804040572000000000, .bfi (op (.g 3) (.g 1) (.g 2) (.g 5) .n32 0 0)),
    (0x180001810000073000000000, .popc (op (.g 3) (.g 4) no no .n64 0 0)),
    (0x180101804000072000000000, .clz (op (.g 3) (.g 1) no no .n32 0 0)),
    (0x180201804000072000000000, .ctz (op (.g 3) (.g 1) no no .n32 0 0)),
    (0x180301804000072000000000, .brev (op (.g 3) (.g 1) no no .n32 0 0)),
    (0x190001804040570000000000, .perm (op (.g 3) (.g 1) (.g 2) (.g 5) .n8 0 0)),
    (0x1A00010100C0076300000000, .lea (op (.g 2) (.g 4) (.g 6) no .i32 3 0)),
    (0x1B0001804040574000000000, .idot4 (op (.g 3) (.g 1) (.g 2) (.g 5) .i8 0 0))]

theorem decode_integer : wordsDecode wordsInteger = true := by decide

def wordsMove : List (Nat × Instr) :=
  [
    (0x30000202000007F000000000, .mov (op (.g 4) (.g 8) no no .b128 0 0)),
    (0x310001804054472000000000, .isel (op (.g 3) (.g 1) (.g 2) (.p 4) .n32 0 0)),
    (0x3200A0804000072000000000, .pset (op (.p 1) (.g 1) no no .n32 0 0)),
    (0x3300A0D0A860070200000000, .pmov (op (.p 1) (.p 2) (.p 3) no .n8 2 0)),
    (0x340001E14000070000000000, .movs (op (.g 3) (.sp 5) no no .n8 0 0)),
    (0x3500A4804040070000000000, .xset (op (.x 1) (.g 1) (.g 2) no .n8 0 0)),
    (0x3500A4804000070100000000, .xsetAdd (op (.x 1) (.g 1) no no .n8 1 0)),
    (0x360001D28000070000000000, .xget (op (.g 3) (.x 2) no no .n8 0 0))]

theorem decode_move : wordsDecode wordsMove = true := by decide

def wordsFloat : List (Nat × Instr) :=
  [
    (0x400102808060079000000000, .fsub (op (.g 5) (.g 2) (.g 3) no .f32 0 0)),
    (0x41000280806007A100000000, .fmul (op (.g 5) (.g 2) (.g 3) no .f16 1 0)),
    (0x430002808060079000000000, .fmin (op (.g 5) (.g 2) (.g 3) no .f32 0 0)),
    (0x430102808060079000000000, .fmax (op (.g 5) (.g 2) (.g 3) no .f32 0 0)),
    (0x430202808060079000000000, .fminn (op (.g 5) (.g 2) (.g 3) no .f32 0 0)),
    (0x4303020080C0078000000000, .fmaxn (op (.g 4) (.g 2) (.g 6) no .f64 0 0)),
    (0x4406A1008060079000000000, .fcmp .un (op (.p 2) (.g 2) (.g 3) no .f32 0 0)),
    (0x45000280800007C000000000, .fclass (op (.g 5) (.g 2) no no .e4m3 0 0)),
    (0x460002808000079300000000, .frnd (op (.g 5) (.g 2) no no .f32 3 0)),
    (0x470002808060079000000000, .fscale (op (.g 5) (.g 2) (.g 3) no .f32 0 0)),
    (0x48000280806007A000000000, .padd2 (op (.g 5) (.g 2) (.g 3) no .f16 0 0)),
    (0x49000280806007B800000000, .pmul2 (op (.g 5) (.g 2) (.g 3) no .bf16 8 0)),
    (0x4A000280806047A000000000, .pfma2 (op (.g 5) (.g 2) (.g 3) (.g 4) .f16 0 0)),
    (0x4B000280806047B000000000, .pdot2 (op (.g 5) (.g 2) (.g 3) (.g 4) .bf16 0 0)),
    (0x600002808000079000000000, .frcp (op (.g 5) (.g 2) no no .f32 0 0)),
    (0x600102808000079000000000, .frsq (op (.g 5) (.g 2) no no .f32 0 0)),
    (0x600202808000079200000000, .fsqrt (op (.g 5) (.g 2) no no .f32 2 0)),
    (0x600302808060079000000000, .fdiv (op (.g 5) (.g 2) (.g 3) no .f32 0 0)),
    (0x610002808000079000000000, .fexp2 (op (.g 5) (.g 2) no no .f32 0 0)),
    (0x610102808000079000000000, .flog2 (op (.g 5) (.g 2) no no .f32 0 0)),
    (0x620002808000079000000000, .fsin (op (.g 5) (.g 2) no no .f32 0 0)),
    (0x620102808000079000000000, .fcos (op (.g 5) (.g 2) no no .f32 0 0)),
    (0x620202808000079800000000, .ftanh (op (.g 5) (.g 2) no no .f32 8 0)),
    (0x69000280806007C000000019, .cvpk (op (.g 5) (.g 2) (.g 3) no .e4m3 0 0x19)),
    (0x6A000302000007E00000000B, .cvq8 (op (.g 6) (.g 8) no no .e2m1 0 0xB)),
    (0x6B000400806047B000000004, .dq (op (.g 8) (.g 2) (.g 3) (.g 4) .bf16 0 0x4)),
    (0x6C0002800000079000000000, .rnd (op (.g 5) no no no .f32 0 0))]

theorem decode_float : wordsDecode wordsFloat = true := by decide

def wordsSets : List (Nat × Instr) :=
  [
    (0x7000A9800000070100000000, .jnew (op (.j 3) no no no .n8 1 0)),
    (0x71000054C000070000000000, .jent (op no (.j 3) no no .n8 0 0)),
    (0x72000054C000070000000000, .jquit (op no (.j 3) no no .n8 0 0)),
    (0x73000054C000070000000000, .jwait (op no (.j 3) no no .n8 0 0)),
    (0x74000254C000070600000000, .jinfo (op (.g 4) (.j 3) no no .n8 6 0)),
    (0x75040254E820070000000000, .vote .mask (op (.g 4) (.j 3) (.p 1) no .n8 0 0)),
    (0x77010254C0A0072000000000, .matchLanes .agree (op (.g 4) (.j 3) (.g 5) no .n32 0 0)),
    (0x78060254C0C0779000000000, .rduc .maxi (op (.g 4) (.j 3) (.g 6) (.g 7) .f32 0 0)),
    (0x79000254C0A0076100000000, .scan .add (op (.g 4) (.j 3) (.g 5) no .i32 1 0))]

theorem decode_sets : wordsDecode wordsSets = true := by decide

def wordsMemory : List (Nat × Instr) :=
  [
    (0x8100000100C0072000000008, .st (op no (.g 4) (.g 6) no .n32 0 8)),
    (0x820003010000075000000020, .ldsp (op (.g 6) (.g 4) no no .i16 0 0x20)),
    (0x83000001010007F000000000, .stsp (op no (.g 4) (.g 8) no .b128 0 0)),
    (0x840000010000070000000080, .pref (op no (.g 4) no no .n8 0 0x80)),
    (0x850003000000072000000003, .cbrd (op (.g 6) no no no .n32 0 3)),
    (0x86000000010007F00000000F, .cbwr (op no no (.g 8) no .b128 0 0xF)),
    (0x870200000000070000000012, .bkcfg .fifo (op no no no no .n8 0 0x12)),
    (0x870100000000070100000302, .bkcfgPhys .scratch (op no no no no .n8 1 0x302)),
    (0x880000000000070000001230, .waitc (op no no no no .n8 0 0x1230))]

theorem decode_memory : wordsDecode wordsMemory = true := by decide

def wordsAtomics : List (Nat × Instr) :=
  [
    (0x9102000100C0076000000000, .atomn .max (op no (.g 4) (.g 6) no .i32 0 0)),
    (0x920003010100972000000000, .acas (op (.g 6) (.g 4) (.g 8) (.g 9) .n32 0 0)),
    (0x940003010000073000000000, .ldrsv (op (.g 6) (.g 4) no no .n64 0 0)),
    (0x9600000100C007B000000000, .axadd (op no (.g 4) (.g 6) no .bf16 0 0)),
    (0x970003010000079100000000, .axrd (op (.g 6) (.g 4) no no .f32 1 0)),
    (0x980003010100976000000000, .amaxi (op (.g 6) (.g 4) (.g 8) (.g 9) .i32 0 0)),
    (0x990603010100073000000000, .satom .swap (op (.g 6) (.g 4) (.g 8) no .n64 0 0)),
    (0x9A0003010100972000000000, .sacas (op (.g 6) (.g 4) (.g 8) (.g 9) .n32 0 0))]

theorem decode_atomics : wordsDecode wordsAtomics = true := by decide

def wordsMatrix : List (Nat × Instr) :=
  [
    (0xA00003010000074100000000, .bzaloc (op (.g 6) (.g 4) no no .i8 1 0)),
    (0xA101000100CF870000000001, .bzld .cscale (op no (.g 4) (.g 6) .gz .n8 0 0x001)),
    (0xA20000010000070000000000, .bzfree (op no (.g 4) no no .n8 0 0)),
    (0xA3010054008067C000000042, .mmaBb (op no (.j 0) (.g 4) (.g 6) .e4m3 0 0x42)),
    (0xA40000540000076000000003, .macz (op no (.j 0) no no .i32 0 3)),
    (0xA40000540000070100000003, .maczRel (op no (.j 0) no no .n8 1 3)),
    (0xA50008540000079000000012, .mrd (op (.g 16) (.j 0) no no .f32 0 0x12)),
    (0xA7000300000007010000003F, .amxrd (op (.g 6) no no no .n8 1 0x3F)),
    (0xA8000000000007000000003F, .amxclr (op no no no no .n8 0 0x3F)),
    (0xA90003000000070000000000, .mstat (op (.g 6) no no no .n8 0 0))]

theorem decode_matrix : wordsDecode wordsMatrix = true := by decide

def wordsLadle : List (Nat × Instr) :=
  [
    (0xB100B88100D6270000000000, .cpy2d (op (.tk 1) (.g 4) (.g 6) (.sh 2) .n8 0 0)),
    (0xB200B88100D6270000000000, .cpyg (op (.tk 1) (.g 4) (.g 6) (.sh 2) .n8 0 0)),
    (0xB300B88100D6270000000000, .cpys (op (.tk 1) (.g 4) (.g 6) (.sh 2) .n8 0 0)),
    (0xB400B88000C087000000000F, .cpycb (op (.tk 1) no (.g 6) (.g 8) .n8 0 0xF)),
    (0xB500005DC000070000000000, .tkwait (op no (.tk 7) no no .n8 0 0)),
    (0xB700005DC000070000000000, .tkdrop (op no (.tk 7) no no .n8 0 0))]

theorem decode_ladle : wordsDecode wordsLadle = true := by decide

def wordsStream : List (Nat × Instr) :=
  [
    (0xB9000302000007A000000000, .spk24 (op (.g 6) (.g 8) no no .f16 0 0)),
    (0xBA00B1010000070000000040, .shld (op (.sh 2) (.g 4) no no .n8 0 0x40)),
    (0xBB0000012C40070000000000, .shst (op no (.g 4) (.sh 2) no .n8 0 0)),
    (0xBC00B1010000072000003E10, .shset (op (.sh 2) (.g 4) no no .n32 0 0x3E10)),
    (0xBD0003588000073000007E00, .shget (op (.g 6) (.sh 2) no no .n64 0 0x7E00))]

theorem decode_stream : wordsDecode wordsStream = true := by decide

def wordsLaunch : List (Nat × Instr) :=
  [
    (0xC10003011FA0070000000009, .graph (op (.g 6) (.g 4) .imm no .n8 0 9)),
    (0xC20000010000070000000000, .gwait (op no (.g 4) no no .n8 0 0)),
    (0xC30000010000070000000000, .gcan (op no (.g 4) no no .n8 0 0)),
    (0xC40003010000070000000000, .gstat (op (.g 6) (.g 4) no no .n8 0 0)),
    (0xC50003000000072100000005, .wid (op (.g 6) no no no .n32 1 5))]

theorem decode_launch : wordsDecode wordsLaunch = true := by decide

def wordsSystem : List (Nat × Instr) :=
  [
    (0xC8000000000007000000002A, .trap (op no no no no .n8 0 0x2A)),
    (0xC90000000000070000000000, .tret (op no no no no .n8 0 0)),
    (0xCA0000000000070000000000, .uiack (op no no no no .n8 0 0)),
    (0xCB0003000000070000000000, .clk (op (.g 6) no no no .n8 0 0)),
    (0xCC0003000000070000000000, .idphys (op (.g 6) no no no .n8 0 0)),
    (0xCD00C8010000070000000000, .mss (op (.sp 16) (.g 4) no no .n8 0 0)),
    (0xCD00C43F4000070000000003, .tstickyClear (op (.sp 8) .imm no no .n8 0 3)),
    (0xCD00E3010000070000000000, .uiraise (op (.sp 70) (.g 4) no no .n8 0 0)),
    (0xCE0001800000070000000000, .svwait (op (.g 3) no no no .n8 0 0)),
    (0xCF00000100A0070000000000, .svwake (op no (.g 4) (.g 5) no .n8 0 0)),
    (0xD00003010000070000000000, .ctxsv (op (.g 6) (.g 4) no no .n8 0 0)),
    (0xD10003010000070000000000, .ctxld (op (.g 6) (.g 4) no no .n8 0 0)),
    (0xD200000100C0070000000000, .tlbinvPage (op no (.g 4) (.g 6) no .n8 0 0)),
    (0xD201000000C0070000000000, .tlbinvPasid (op no no (.g 6) no .n8 0 0)),
    (0xD20200000000070000000000, .tlbinvAll (op no no no no .n8 0 0)),
    (0xD300030100A0070000000000, .pasidset (op (.g 6) (.g 4) (.g 5) no .n8 0 0)),
    (0xD400000100C0070000000000, .aclsClear (op no (.g 4) (.g 6) no .n8 0 0)),
    (0xD500000100C0070000000000, .cacheopClean (op no (.g 4) (.g 6) no .n8 0 0)),
    (0xD501000100C0070000000000, .cacheopInv (op no (.g 4) (.g 6) no .n8 0 0)),
    (0xD502000100C0070000000000, .cacheopFlush (op no (.g 4) (.g 6) no .n8 0 0)),
    (0xD600003F40000700FFFFFFFF, .halt (op no .imm no no .n8 0 0xFFFFFFFF)),
    (0xD60000010000070100000000, .haltGo (op no (.g 4) no no .n8 1 0)),
    (0xD600000100A0070200000000, .haltTerm (op no (.g 4) (.g 5) no .n8 2 0))]

theorem decode_system : wordsDecode wordsSystem = true := by decide

/-! ## Ill-formed terms: one for each check of WellFormed -/

/-- A class that the field does not accept, a misaligned pair, a register beyond g239, a block that is not
aligned, gz where it is not accepted (R36 to R38). -/
theorem wellFormed_refuses_operands :
    [Instr.iadd (op (.p 1) (.g 1) (.g 2) no .n32 0 0), .iadd (op (.g 3) (.j 1) (.g 2) no .n32 0 0),
      .iadd (op (.g 3) (.g 4) (.g 6) no .n64 0 0), .ld (op (.g 6) (.g 5) no no .n32 0 0),
      .cvq8 (op (.g 6) (.g 6) no no .e2m1 0 0xB), .mrd (op (.g 8) (.j 0) no no .f32 0 0),
      .mrd (op .gz (.j 0) no no .f32 0 0), .pset (op (.g 1) (.g 1) no no .n32 0 0),
      .xget (op (.g 3) (.g 2) no no .n8 0 0), .jent (op no (.p 3) no no .n8 0 0),
      .chain (op no (.g 2) (.g 1) no .n8 0 0), .tkdrop (op no (.g 7) no no .n8 0 0),
      .movs (op (.g 3) (.sp 0x20) no no .n8 0 0), .bzld .cscale (op no (.g 4) (.g 6) (.g 8) .n8 0 1)].all
      (fun i => !wellFormed i) = true := by decide

/-- A field that is not used, a type, a modifier, a guard, and bits of IMM without a meaning (R34, R35, R39,
R42, R44). -/
theorem wellFormed_refuses_fields :
    [Instr.isub (op (.g 3) (.g 1) (.g 2) (.g 1) .n32 0 0), .iadd (op (.g 3) (.g 1) (.g 2) no .f32 0 0),
      .imul (op (.g 3) (.g 1) (.g 2) no .n32 8 0), .iadd (op (.g 3) (.g 1) (.g 2) no .n32 0 1),
      .iaddc (op (.g 3) (.g 1) (.g 2) (.p 1) .n32 0 8), .fadd (op (.g 5) .imm (.g 3) no .f16 0 0x10000),
      .nop ⟨⟨7, true⟩, no, no, no, no, .n8, 0, 0⟩, .jwait ⟨⟨1, false⟩, no, .j 1, no, no, .n8, 0, 0⟩,
      .cvt (op (.g 5) (.g 2) no no .n32 8 9), .cvpk (op (.g 5) (.g 2) (.g 3) no .e4m3 0 0x29),
      .bkcfg .scratch (op no no no no .n8 0 0x10), .bzaloc (op (.g 6) (.g 4) no no .bf16 1 0),
      .shset (op (.sh 2) (.g 4) no no .n32 0 0x3FFF), .shset (op (.sh 2) (.g 4) no no .n32 0 0x7E00),
      .mss (op (.sp 0) (.g 4) no no .n8 0 0), .mss (op (.sp 8) (.g 4) no no .n8 0 0),
      .tstickyClear (op (.sp 7) (.g 4) no no .n8 0 0), .mmaLb (op no (.j 0) (.g 16) (.g 4) .bf16 0 0x20),
      .mov (op (.g 4) .imm no no .b128 0 5), .wid (op (.g 6) no no no .n32 0 6), .walkStart 0].all
      (fun i => !wellFormed i) = true := by decide

/-- Codes that are no operands, and opcodes that are not assigned (R36, R50). -/
theorem decode_refuses :
    [0x30 * 2 ^ 88 + 0xFF * 2 ^ 71 + 0x72 * 2 ^ 36, 0x30 * 2 ^ 88 + 0x14C * 2 ^ 62 + 0x72 * 2 ^ 36,
      0x0B * 2 ^ 88 + 7 * 2 ^ 40, 0xFF * 2 ^ 88 + 7 * 2 ^ 40, 0x10 * 2 ^ 88 + 4 * 2 ^ 80 + 0x72 * 2 ^ 36,
      7 * 2 ^ 40 + 1].all
      (fun w => decide (decodeTableWord 96 w = none)) = true := by decide

/-! ## Words of the spec's worked encodings that the obligation does not name -/

theorem decode_worked :
    wordsDecode [(0x090000000000070000000000, .exit (op no no no no .n8 0 0)),
      (0x68000300800007C800000009, .cvt (op (.g 6) (.g 2) no no .e4m3 8 9)),
      (0x880000000000070000000000, .waitc (op no no no no .n8 0 0)),
      (0x9000030100A0072000000010, .atom .add (op (.g 6) (.g 4) (.g 5) no .n32 0 0x10)),
      (0xA3000054020047B000000010, .mmaLb (op no (.j 0) (.g 16) (.g 4) .bf16 0 0x10)),
      (0xB600A15C0000070000000000, .tktest (op (.p 2) (.tk 0) no no .n8 0 0)),
      (0xC50001800000072000000002, .wid (op (.g 3) no no no .n32 0 2)),
      (0xCE0001800000070000000000, .svwait (op (.g 3) no no no .n8 0 0)),
      (0x93000600808087F000000000, .acas2 (op (.g 12) (.g 2) (.g 4) (.g 8) .b128 0 0))] = true := by decide

/-! ## States -/

/-- The one thread of a demonstration state. -/
def t0 : Tid := ⟨2, 0⟩

/-- A user thread about to issue at 0x10000, on core 1 of die 0; and a service thread on the scheduler core. -/
def user : State := { State.reset.withFetchWord 96 0 with cur := some ⟨t0, []⟩ }
def priv : State :=
  { State.reset.withFetchWord 96 0xCE0001800000070000000000 with cur := some ⟨t0, []⟩ }

/-- The thread changed, or only its registers; the group; the core; a rejoin set. -/
def thr (s : State) (f : Thread → Thread) : State := modThread s t0 f
def rg (s : State) (l : NMap Word) : State := thr s fun th => { th with regs := l }
def grp (s : State) (f : Group → Group) : State := modGroup s 2 f
def cor (s : State) (f : Core → Core) : State := modCore s 1 f
def set3 (s : State) (x : JSet) : State := grp s fun g => { g with sets := [(3, x)] }

/-- The thread is the one member of set 3; and it is one of two. -/
def solo : State := set3 user { lx := true, members := [(0, 0)] }
def duo : State :=
  grp (set3 user { lx := true, members := [(0, 0), (1, 0)] }) fun g => { g with threads := g.threads ++ [{}] }

/-- The thread has a handler at the line, without a record area. -/
def handled : State := grp user fun g => { g with tvec := 0x10000 }

/-- An instruction acts in a state, where `p` holds of its operands. -/
structure Wit where
  i : Instr
  s : State
  p : Ctx → Bool := fun _ => true

def Wit.ok (w : Wit) : Bool :=
  wellFormed w.i && match ctxAt w.i w.s with
    | some cx => decide (cx.t.gi < (threadGroup w.s cx.t).threads.length) && w.p cx
    | none => false

theorem acts_of_ok {w : Wit} (h : w.ok = true) : ∃ cx, Acts w.i w.s cx ∧ w.p cx = true := by
  cases hc : ctxAt w.i w.s with
  | none => simp [Wit.ok, hc] at h
  | some cx =>
    simp only [Wit.ok, hc, Bool.and_eq_true, decide_eq_true_eq] at h
    exact ⟨cx, ⟨h.1, hc, h.2.1⟩, h.2.2⟩

theorem acts_all {l : List Wit} (h : l.all Wit.ok = true) : ∀ w ∈ l, ∃ cx, Acts w.i w.s cx ∧ w.p cx = true :=
  fun w hw => acts_of_ok (List.all_eq_true.mp h w hw)

/-! ## Every instruction reaches its own effect in some state -/

def actsIn (s : State) (l : List (Nat × Instr)) : List Wit := l.map fun e => { i := e.2, s := s }

theorem witness_user :
    ∀ w ∈ actsIn user (wordsControl ++ wordsInteger ++ wordsMove ++ wordsFloat ++ wordsMemory.take 7 ++
      wordsMemory.drop 8 ++ wordsAtomics ++ wordsMatrix ++ wordsLadle ++ wordsStream ++ wordsLaunch ++
      wordsSystem.take 7 ++ wordsSets.take 3), ∃ cx, Acts w.i w.s cx ∧ w.p cx = true := acts_all (by decide)

theorem witness_priv :
    ∀ w ∈ actsIn priv (wordsSystem.drop 7 ++ (wordsMemory.drop 7).take 1), ∃ cx, Acts w.i w.s cx ∧ w.p cx = true :=
  acts_all (by decide)

/-- Arrivals at a set of which the thread is a member (R115). -/
theorem witness_arrivals :
    ((wordsSets.drop 3).all fun e => (e.2 matches .jinfo _) || (Wit.ok { i := e.2, s := solo } &&
      match ctxAt e.2 solo with
      | some cx => arriveCheck solo cx.t cx.o = none
      | none => false)) = true := by decide

/-! ## Hypotheses of the statements, clause by clause -/

theorem witness_DecodeInvertsEncode : wellFormed (.iadd (op (.g 239) .gz (.s 63) no .i32 8 0)) = true := by decide

theorem witness_EncodeInvertsDecode :
    (decode (BitVec.ofNat 96 0x420003808060419000000000)).toOption =
      some (.ffma ⟨⟨1, false⟩, .g 7, .g 2, .g 3, .g 4, .f32, 0, 0⟩) := by decide

/-- A user thread whose turn it is, at a line that holds `NOP`. -/
def ready : State := State.reset.withFetchWord 96 0x000000000000070000000000

theorem witness_StepRunsDecodedInstruction :
    nextTurn ready = some (.core 1) ∧
      (getCore ready 1).stream.any (fun st =>
        let s1 := atFetch ready 1 st t0
        st.todo = [[0]] && fetchStopped s1 t0 = false && fetchMiss s1 t0 (lineOf st.pc) = false &&
          match lineFor s1 t0 st st.pc with
          | (.ok bs, _) =>
            (decode (BitVec.ofNat 96 (slotBits bs (slotOf st.pc)))).toOption = some (.nop (op no no no no .n8 0 0))
          | _ => false) = true ∧
      (getThread ready t0).run = .issuing ∧ (getThread ready t0).checkTvec = false := by decide

theorem witness_StepRunsEvent : form (.msixSend 3) = none ∧ Answers (exec (.msixSend 3) State.reset) ∧
    mayOccur State.reset (.msixSend 3) = true ∧
    mayOccur (modLink State.reset fun l => { l with down := [.pcie] }) .lock = false :=
  ⟨rfl, ⟨_, rfl⟩, rfl, rfl⟩

theorem witness_StepKeepsMemoryCanonical : Memory.wf ready.mem = true ∧ Safe ready :=
  ⟨by decide, _, rfl⟩

/-- The checks of every issue: an operand beyond the allocation, a privileged instruction in user mode, a false
guard, an index out of bounds, an awaited register, a poisoned one. -/
theorem witness_EveryIssueIsChecked :
    (∃ o f, form (.svwait (op (.g 3) no no no .n8 0 0)) = some (o, f) ∧
      legalHere user t0 (.svwait (op (.g 3) no no no .n8 0 0)) o f = true ∧
      needsPriv (.svwait (op (.g 3) no no no .n8 0 0)) f = true ∧ isPriv user t0 = false) ∧
    (∃ o f, form (.mov (op (.k 3) (.g 1) no no .n32 0 0)) = some (o, f) ∧
      legalHere user t0 (.mov (op (.k 3) (.g 1) no no .n32 0 0)) o f = false) ∧
    guardTrue user t0 ⟨3, false⟩ = false ∧
    (∃ o f, form (.mov (op (.idx 0) (.g 1) no no .n32 0 0xFF000000)) = some (o, f) ∧
      (resolveOps (getThread user t0) f o).toOption = none) ∧
    (∃ o f, form (.mov (op (.g 3) (.g 1) no no .n32 0 0)) = some (o, f) ∧
      awaitedCodes (thr user fun th => { th with late := [{ dst := .reg 3 1, value := 0, flags := {}, spk := false }] }) t0 o f =
        [3] ∧
      poisonSource (thr user fun th => { th with rpoison := [(1, 64)] }) t0 o f = some 64) := by
  refine ⟨⟨_, _, rfl, ?_⟩, ⟨_, _, rfl, ?_⟩, ?_, ⟨_, _, rfl, ?_⟩, ⟨_, _, rfl, ?_⟩⟩ <;> decide

/-- `MOVS` of FSTAT while a late result is outstanding. -/
theorem witness_FstatAwaitsLateResults :
    let i : Instr := .movs (op (.g 3) (.sp 7) no no .n8 0 0)
    let s := thr user fun th => { th with late := [{ dst := .reg 3 1, value := 5, flags := {}, spk := false }] }
    ∃ o f, form i = some (o, f) ∧ legalHere s t0 i o f = true ∧
      (resolveOps (getThread s t0) f o).toOption.any (fun o' => spNum o'.a = 7 && loadCodes s t0 o' f = [] &&
        awaitedCodes s t0 o' f ≠ [] && (poisonSource (finishLates s t0 (awaitedCodes s t0 o' f)) t0 o' f).isNone) = true :=
  ⟨_, _, rfl, by decide, by decide⟩

/-- A divisor of 0, the corner −2^31 by −1, and neither. -/
theorem witness_IntegerArithmeticResults :
    ∀ w ∈ ([{ i := .idiv (op (.g 3) (.g 1) (.g 2) no .i32 0 0), s := rg user [(1, 7)],
              p := fun cx => num cx.o.ty (cx.b user) = 0 },
            { i := .irem (op (.g 3) (.g 1) (.g 2) no .i32 0 0), s := rg user [(1, 0x80000000), (2, 0xFFFFFFFF)],
              p := fun cx =>
                let s := rg user [(1, 0x80000000), (2, 0xFFFFFFFF)]
                isSigned cx.o.ty && num cx.o.ty (cx.a s) = leastOf cx.o.ty && num cx.o.ty (cx.b s) = -1 },
            { i := .idiv (op (.g 3) (.g 1) (.g 2) no .n32 0 0), s := rg user [(1, 7), (2, 2)],
              p := fun cx => num cx.o.ty (cx.b (rg user [(1, 7), (2, 2)])) = 2 }] : List Wit),
      ∃ cx, Acts w.i w.s cx ∧ w.p cx = true := acts_all (by decide)

/-- The functions of `PMOV`. -/
theorem witness_MoveSelectAndPredicateResults :
    ∀ w ∈ ([0, 1, 2, 3, 4, 5].map fun m : Nat =>
      ({ i := .pmov (op (.p 1) (.p 2) (if m < 2 then no else .p 3) no .n8 (BitVec.ofNat 4 m) 0), s := user,
         p := fun cx => cx.o.mod = BitVec.ofNat 4 m } : Wit)), ∃ cx, Acts w.i w.s cx ∧ w.p cx = true :=
  acts_all (by decide)

/-- Bases and limits at and past their bounds. -/
theorem witness_IndexRegisterInstructions :
    ∀ w ∈ ([(240, 240), (241, 0), (0, 241)].map fun v : Nat × Nat =>
        let s := rg user [(1, BitVec.ofNat 32 v.1), (2, BitVec.ofNat 32 v.2)]
        ({ i := .xset (op (.x 1) (.g 1) (.g 2) no .n8 0 0), s := s,
           p := fun cx => cx.a s = v.1 && cx.b s = v.2 && (threadGroup s t0).gcount = 240 } : Wit)) ++
      ([240, 241, 0xFFFFFFFF].map fun v : Nat =>
        let s := rg user [(1, BitVec.ofNat 32 v)]
        ({ i := .xsetAdd (op (.x 1) (.g 1) no no .n8 1 0), s := s, p := fun cx => cx.a s = v } : Wit)),
      ∃ cx, Acts w.i w.s cx ∧ w.p cx = true := acts_all (by decide)

/-- Every special register, as user code and as a service thread. -/
theorem witness_SpecialRegisters :
    ∀ w ∈ (([0, 1, 2, 3, 4, 5, 6, 7, 8, 9, 10, 11, 12, 0x10, 0x11, 0x12, 0x13, 0x14, 0x40, 0x41, 0x43] :
          List (Fin 128)).map fun n =>
        ({ i := .movs (op (.g 4) (.sp n) no no .n8 0 0), s := user, p := fun cx => spNum cx.o.a = n.val } : Wit)) ++
      (([0x40, 0x41, 0x42, 0x43, 0x44, 0x45] : List (Fin 128)).map fun n =>
        ({ i := .movs (op (.g 4) (.sp n) no no .n8 0 0), s := priv, p := fun _ => isPriv priv t0 } : Wit)) ++
      (([7, 0xB, 0xC, 0x10, 0x11, 0x13] : List (Fin 128)).map fun n =>
        ({ i := .mss (op (.sp n) (.g 4) no no .n8 0 0), s := thr user fun th => { th with inTrap := true },
           p := fun cx => spNum cx.o.dst = n.val } : Wit)) ++
      (([0x41, 0x43, 0x44, 0x45] : List (Fin 128)).map fun n =>
        ({ i := .mss (op (.sp n) (.g 4) no no .n8 0 0), s := priv, p := fun cx => spNum cx.o.dst = n.val } : Wit)) ++
      ([{ i := .clk (op (.g 6) no no no .n8 0 0), s := priv },
        { i := .idphys (op (.g 6) no no no .n8 0 0), s := priv }] : List Wit),
      ∃ cx, Acts w.i w.s cx ∧ w.p cx = true := acts_all (by decide)

theorem witness_RegisterInstructionsFrame :
    registerOnly (.nop (op no no no no .n8 0 0)) = true ∧ floatOnly (.fadd (op (.g 5) (.g 2) (.g 3) no .f32 0 0)) = true ∧
      Wit.ok { i := .fadd (op (.g 5) (.g 2) (.g 3) no .f32 0 0), s := user } = true := by decide

/-- `FRND` of an infinity, of 2.5 in each mode, and of −0.25. -/
theorem witness_FloatArithmeticResults :
    (∀ w ∈ (([(0x7F800000, 0), (0x40200000, 0), (0x40200000, 1), (0x40200000, 2), (0x40200000, 3), (0xBE800000, 0)] :
          List (Word × BitVec 4)).map fun v =>
        ({ i := .frnd (op (.g 5) (.g 2) no no .f32 v.2 0), s := rg user [(2, v.1)],
           p := fun cx => cx.a (rg user [(2, v.1)]) = v.1.toNat && cx.o.mod.toNat % 8 ≤ 3 } : Wit)),
      ∃ cx, Acts w.i w.s cx ∧ w.p cx = true) ∧
      (∃ m, fpVal (fpFmt .f32) 0x40200000 = .fin false m) ∧ ∃ m, fpVal (fpFmt .f32) 0xBE800000 = .fin true m :=
  ⟨acts_all (by decide), ⟨_, rfl⟩, _, rfl⟩

/-- `FFMA`: zero times an infinity, with and without a NaN addend; an infinite product and the opposite infinity. -/
theorem witness_FfmaSpecialCases :
    ∀ w ∈ (([(0, 0x7F800000, 0x7FC00000), (0x7F800000, 0, 0), (0x7F800000, 0xBF800000, 0x7F800000)] :
        List (Word × Word × Word)).map fun v =>
      let s := rg user [(2, v.1), (3, v.2.1), (4, v.2.2)]
      ({ i := .ffma (op (.g 5) (.g 2) (.g 3) (.g 4) .f32 0 0), s := s,
         p := fun cx => cx.a s = v.1.toNat && cx.b s = v.2.1.toNat && cx.c s = v.2.2.toNat } : Wit)),
      ∃ cx, Acts w.i w.s cx ∧ w.p cx = true := acts_all (by decide)

/-- A quiet and a signalling NaN, infinities, zeros, in the first and the second operand. -/
theorem witness_FloatSpecialCases :
    (∀ w ∈ (([(0x7FC00000, 0), (0x7F800001, 0), (0, 0x7FC00000), (0x7F800000, 0xFF800000), (0x7F800000, 0x7F800000),
          (0xFF800000, 0x80000000), (0x3F800000, 0x40000000)] : List (Word × Word)).map fun v =>
        ({ i := .fmin (op (.g 5) (.g 2) (.g 3) no .f32 0 0), s := rg user [(2, v.1), (3, v.2)],
           p := fun cx => cx.a (rg user [(2, v.1), (3, v.2)]) = v.1.toNat &&
             cx.b (rg user [(2, v.1), (3, v.2)]) = v.2.toNat } : Wit)), ∃ cx, Acts w.i w.s cx ∧ w.p cx = true) ∧
      fpVal (fpFmt .f32) 0x7FC00000 = .nan false ∧ fpVal (fpFmt .f32) 0x7F800001 = .nan true ∧
      fpVal (fpFmt .f32) 0x7F800000 = .inf false ∧ fpVal (fpFmt .f32) 0xFF800000 = .inf true ∧
      (fpVal (fpFmt .f32) 0x80000000).isZero = true ∧ (fpVal (fpFmt .f32) 0x3F800000).isNan = false ∧
      (∃ n m, fpVal (fpFmt .f32) 0x007FFFFF = .fin n m) ∧ expOf .f32 0x007FFFFF = 0 ∧
      (∃ n m, fpVal (fpFmt .f32) 0x00800000 = .fin n m) ∧ expOf .f32 0x00800000 = 1 :=
  ⟨acts_all (by decide), by decide, by decide, by decide, by decide, by decide, by decide, ⟨_, _, rfl⟩, by decide,
    ⟨_, _, rfl⟩, by decide⟩

theorem witness_RoundedResults :
    isFloat .e4m3 = true ∧ 0x7E < 2 ^ tyBits .e4m3 ∧ (∃ n m, fpVal (fpFmt .e4m3) 0x7E = .fin n m) :=
  ⟨by decide, by decide, _, _, rfl⟩

/-- A third is 10 and two thirds spacings of E4M3, 2^-5 each; 480 lies on the first spacing beyond 448; 3 × 2^-10 lies
one and a half spacings above 0, a tie. -/
theorem witness_RoundingHasNeighbours :
    (3 * 2 ^ 8 ≤ 1 * 2 ^ 10 ∧ 1 * 2 ^ 10 < 3 * 2 ^ 9 ∧ 10 * (2 ^ 5 * 3) ≤ 1 * 2 ^ 10 ∧ 1 * 2 ^ 10 < 11 * (2 ^ 5 * 3)) ∧
      (∃ n, fpVal (fpFmt .e4m3) (topCode .e4m3) = .fin false n ∧ n.den = 1 ∧ n.num * 2 ^ (n.ex + 10).toNat = 448 * 2 ^ 10) ∧
      roundFp (fpFmt .e4m3) 0 0 false (.fin false { num := 1, den := 3 }) = (0x2B, { nx := true }) ∧
      roundFp (fpFmt .e4m3) 3 0 false (.fin false { num := 480 }) = (0x7E, { ovf := true, nx := true }) ∧
      roundFp (fpFmt .f16) 2 0 false (.fin false { num := 65536 }) = (0x7BFF, { ovf := true, nx := true }) ∧
      roundFp (fpFmt .e4m3) 0 0 false (.fin true { num := 3, ex := -10 }) = (0x82, { uf := true, nx := true }) :=
  ⟨by decide, ⟨_, rfl, rfl, by decide⟩, by decide, by decide, by decide, by decide⟩

/-- Conversions from each kind of source to each kind of destination; a NaN, an infinity, and values below, in and
above the range of a byte; `RND`'s types. -/
theorem witness_ConversionAndRandomResults :
    ∀ w ∈ ([(.f16, 9, 0), (.f32, 6, 0), (.i8, 6, 0), (.i8, 9, 0x7FC00000), (.i8, 9, 0x7F800000),
          (.i8, 9, 0xC3010000), (.i8, 9, 0x42FE0000), (.i8, 9, 0x43000000)].map fun v : Ty × Word × Word =>
        let s := rg user [(2, v.2.2)]
        ({ i := .cvt (op (.g 5) (.g 2) no no v.1 0 v.2.1), s := s,
           p := fun cx => cx.o.ty = v.1 && cx.a s = v.2.2.toNat } : Wit)) ++
      ([.n32, .n64, .f32].map fun ty => ({ i := .rnd (op (.g 6) no no no ty 0 0), s := user } : Wit)),
      ∃ cx, Acts w.i w.s cx ∧ w.p cx = true := acts_all (by decide)

theorem witness_ConversionRanges :
    (roundInt 0 0 true { num := 129 }).1 < intLo .i8 ∧ (roundInt 0 0 false { num := 127 }).1 = intHi .i8 ∧
      intHi .i8 < (roundInt 0 0 false { num := 128 }).1 := by decide

/-- `CVQ8` of zeros, of a row that holds 6 and of one that holds an infinity; the scale code of 6 is 96. -/
theorem witness_BlockQuantisation :
    (∀ w ∈ (([0, 0x40C0, 0x7F80] : List Word).map fun v =>
      ({ i := .cvq8 (op (.g 6) (.g 8) no no .e2m1 0 0xB), s := rg user [(8, v)],
         p := fun cx => cx.a (rg user [(8, v)]) = v.toNat && srcTy cx.o = .bf16 } : Wit)),
      ∃ cx, Acts w.i w.s cx ∧ w.p cx = true) ∧
      (∃ m, fpVal (fpFmt .bf16) 0x40C0 = .fin false m ∧
        fle (.fin false m) (.fin false { num := 6 * 32, ex := -5 }) = true ∧
        fle (.fin false m) (.fin false { num := 6 * 63, ex := -6 }) = false) ∧
      (fpVal (fpFmt .bf16) 0).isZero = true ∧ fpVal (fpFmt .bf16) 0x7F80 = .inf false :=
  ⟨acts_all (by decide), ⟨_, rfl, by decide, by decide⟩, by decide, by decide⟩

/-- Operands of the special functions: 2, a whole power of two; −2; zeros; infinities; beyond the exponent's range. -/
theorem witness_SpecialFunctionCases :
    (∃ m, fpVal (fpFmt .f32) 0x40000000 = .fin false m ∧ m.num = 2 ^ 23 ∧
      m.num * 2 ^ m.ex.toNat = 2 * 2 ^ (-m.ex).toNat) ∧
      (∃ m, fpVal (fpFmt .f32) 0xC59C4000 = .fin true m ∧ m.num * 2 ^ m.ex.toNat = 5000 * 2 ^ (-m.ex).toNat) ∧
      (fpVal (fpFmt .f32) 0).isZero = true ∧ (fpVal (fpFmt .f32) 0xC0000000).neg? = true ∧
      fpVal (fpFmt .f32) 0xFF800000 = .inf true :=
  ⟨⟨_, rfl, by decide, by decide⟩, ⟨_, rfl, by decide⟩, by decide, by decide, by decide⟩

theorem witness_SpecialFunctionResults :
    (getThread (thr user fun th => { th with late := [{ dst := .reg 3 1, value := 5, flags := {}, spk := false }] }) t0).late.find?
        (fun x => x.spk = false) = some { dst := .reg 3 1, value := 5, flags := {}, spk := false } ∧
      (getThread user t0).late.find? (fun x => x.spk = true) = none := by decide

/-! ### Control and rejoin sets -/

theorem witness_BlockEndsPostOrTakeInterrupts :
    goesOn user t0 = true ∧ nonePending user t0 = true ∧ t0.gi < (threadGroup user t0).threads.length ∧
      (getThread (thr user fun th => { th with cancelPend := true }) t0).cancelPend = true ∧
      (getThread (thr user fun th => { th with uiPend := true }) t0).cancelPend = false := by decide

/-- The destination of the transfer passes its checks; or it fails them; or the PASID is DYING. -/
def passes (s : State) (dest : DWord) : Bool :=
  !fetchStopped s t0 && !misses s t0 dest && (checkDest s t0 dest).1.isNone
def fails (s : State) (dest : DWord) : Bool :=
  !fetchStopped s t0 && !misses s t0 dest && (checkDest s t0 dest).1.isSome

def dying : State := modPart user 0 fun p => { p with pasids := [(0, .dying)] }
def called (n : Nat) : State := thr user fun th => { th with callDepth := n, link := 0x10004 }

/-- At depth 1 with a set entered there, of which the thread is one member; and with its signature in it. -/
def entered (sg : Option Signing) : State :=
  set3 (called 1) { lx := true, members := [(0, 1), (1, 0)], signing := sg }
def mine : Signing := { pc := 0x10000, kind := .maczRel 0, rows := [(0, { gi := 0 })] }
def leavesAt (s : State) : Option Nat := signedBar s t0 fun _ x => enteredDeeper 0 0 x

theorem witness_ControlTransfers :
    (∀ w ∈ ([{ i := .br (op no no no no .n8 0 1), s := user, p := fun cx => passes user (branchTo 0x10000 cx.o.imm) },
          { i := .br (op no no no no .n8 0 5), s := user, p := fun cx => fails user (branchTo 0x10000 cx.o.imm) },
          { i := .br (op no no no no .n8 0 1), s := dying, p := fun _ => fetchStopped dying t0 },
          { i := .jmpi (op no (.g 4) no no .n8 0 0), s := rg user [(4, 0x10004)],
            p := fun cx => passes user (BitVec.ofNat 64 (cx.a (rg user [(4, 0x10004)]))) },
          { i := .call (op no no no no .n8 0 2), s := called 65534, p := fun cx => passes user (branchTo 0x10000 cx.o.imm) },
          { i := .calli (op no .gz no no .n8 0 0), s := called 65535, p := fun _ => 65535 ≤ (getThread (called 65535) t0).callDepth },
          { i := .ret (op no .gz no no .n8 0 0), s := called 1, p := fun _ => passes user 0x10004 },
          { i := .ret (op no .gz no no .n8 0 0), s := called 0 },
          { i := .ret (op no .gz no no .n8 0 0), s := entered none,
            p := fun _ => passes (entered none) 0x10004 && leavesAt (entered none) = none &&
              setsOf (entered none) t0 (fun _ x => enteredDeeper 0 0 x) = [3] },
          { i := .ret (op no .gz no no .n8 0 0), s := entered (some mine),
            p := fun _ => leavesAt (entered (some mine)) = some 3 },
          { i := .exit (op no no no no .n8 0 0), s := user, p := fun _ => (getGroup user 2).sets = [] },
          { i := .exit (op no no no no .n8 0 0), s := entered none,
            p := fun _ => signedBar (entered none) t0 (fun _ _ => true) = none },
          { i := .exit (op no no no no .n8 0 0), s := entered (some mine),
            p := fun _ => signedBar (entered (some mine)) t0 (fun _ _ => true) = some 3 },
          { i := .jmpi (op no (.g 4) no no .n8 0 0), s := rg user [(4, 0x50000)],
            p := fun _ => misses (rg user [(4, 0x50000)]) t0 0x50000 },
          { i := .yield (op no no no no .n8 0 0), s := user, p := fun _ => passes user (nextPc 0x10000) }] : List Wit),
        ∃ cx, Acts w.i w.s cx ∧ w.p cx = true) ∧
      (0x10005 : Nat) % 8 > 4 ∧ (0x10008 : Nat) / 8 % 8 ≠ 0 := ⟨acts_all (by decide), by decide, by decide⟩

/-- A set with the thread's lane taken by another member; one whose other member has arrived. -/
def taken3 : State := set3 user { lx := true, members := [(32, 0)] }
def awaited3 (what : Option Instr) : State :=
  grp (set3 user { members := [(0, 0), (1, 0)], arrived := [(1, {})], pending := 0x10002, what := what }) fun g =>
    { g with threads := g.threads ++ [{}] }

theorem witness_SetMembership :
    ∀ w ∈ ([{ i := .jnew (op (.j 3) no no no .n8 1 0), s := user, p := fun _ => (getSet user 2 3).members = [] },
        { i := .jnew (op (.j 3) no no no .n8 0 0), s := solo, p := fun _ => (getSet solo 2 3).members ≠ [] },
        { i := .jent (op no (.j 3) no no .n8 0 0), s := solo, p := fun _ => (getSet solo 2 3).has 0 },
        { i := .jent (op no (.j 3) no no .n8 0 0), s := taken3,
          p := fun _ => !(getSet taken3 2 3).has 0 && (getSet taken3 2 3).members.any fun m => m.1 % 32 = 0 % 32 },
        { i := .jent (op no (.j 3) no no .n8 0 0), s := user, p := fun _ => !(getSet user 2 3).has 0 },
        { i := .jquit (op no (.j 3) no no .n8 0 0), s := user, p := fun _ => !(getSet user 2 3).has 0 },
        { i := .jquit (op no (.j 3) no no .n8 0 0), s := duo, p := fun _ => !hasSigned (getSet duo 2 3) 0 },
        { i := .jquit (op no (.j 3) no no .n8 0 0), s := entered (some mine),
          p := fun _ => hasSigned (getSet (entered (some mine)) 2 3) 0 },
        { i := .jquit (op no (.j 3) no no .n8 0 0), s := solo,
          p := fun _ => mkeys (getSet solo 2 3).members = [0] && (getSet solo 2 3).arrived = [] }] ++
      ([0, 1, 2, 3, 4, 5, 6, 7].map fun m : Nat =>
        { i := .jinfo (op (.g 4) (.j 3) no no .n8 (BitVec.ofNat 4 m) 0), s := solo,
          p := fun _ => (ranked (mkeys (getSet solo 2 3).members))[0]? = some 0 &&
            mfind (getSet solo 2 3).members 0 = some 0 }) ++
      [{ i := .jinfo (op (.g 4) (.j 3) no no .n8 6 0), s := user,
         p := fun _ => !(getSet user 2 3).has 0 }] : List Wit), ∃ cx, Acts w.i w.s cx ∧ w.p cx = true :=
  acts_all (by decide)

/-- A thread that leaves a set: it is no member, the last one, one of two, and the last not to have arrived. -/
theorem witness_LeavingASet :
    (getSet user 2 3).has 0 = false ∧ mdel (getSet solo 2 3).members 0 = [] ∧
      mkeys (mdel (getSet duo 2 3).members 0) ≠ mkeys (mdel (getSet duo 2 3).arrived 0) ∧
      (let x := getSet (awaited3 (some (.jwait (op no (.j 3) no no .n8 0 0)))) 2 3
       x.has 0 = true ∧ mdel x.members 0 ≠ [] ∧ x.signing = none ∧ x.what.isSome = true ∧
         mkeys (mdel x.members 0) = mkeys (mdel x.arrived 0)) := by decide

/-- Membership faults: no set, and arrivals pending at another slot. -/
theorem witness_ArrivalFaults :
    (form (.jwait (op no (.j 3) no no .n8 0 0))).any (fun r =>
      legalHere user t0 (.jwait (op no (.j 3) no no .n8 0 0)) r.1 r.2 && guardTrue user t0 r.1.guard &&
        !(getSet user 2 3).has 0) = true ∧
      (let x := getSet (awaited3 none) 2 3
       x.has 0 = true ∧ x.arrived ≠ [] ∧ x.pending ≠ (getThread (awaited3 none) t0).pc) := by decide

theorem witness_ArrivalsJoinTheirSet :
    passes solo (branchTo 0x10000 1) = true ∧ passes solo (nextPc 0x10000) = true ∧
      passes (set3 user { members := [(0, 0)] }) (nextPc 0x10000) = true ∧
      (getSet solo 2 3).lx = true ∧ (getSet (set3 user { members := [(0, 0)] }) 2 3).lx = false ∧
      Wit.ok { i := .shfl .abs (op (.g 9) (.j 3) (.g 4) .gz .n32 5 0), s := set3 user { members := [(0, 0)] } } = true ∧
      Wit.ok { i := .bany (op no (.j 3) (.p 1) no .n8 0 1), s := solo } = true := by decide

theorem witness_ArrivalsWaitForEveryMember :
    mkeys (getSet solo 2 3).members = mkeys (mput (getSet solo 2 3).arrived 0 {}) ∧
      mkeys (getSet duo 2 3).members ≠ mkeys (mput (getSet duo 2 3).arrived 0 {}) := by decide

/-- Segments of 8 lanes: the last lane that `rise` and `fall` reach, and the first that they do not. -/
theorem witness_CrossLaneResults :
    reduces .max .f16 = true ∧ reduces .xor .n64 = true ∧ (0x80000000 : Nat) < 2 ^ bitsWide .i32 ∧
      [33, 0, 31, 1].Nodup ∧ (∀ g ∈ [33, 0, 31, 1], g < 2048) ∧
      (let caps : List (Nat × Capture) := [(0, { a := 1 }), (3, { a := 7, sel := 3 }), (7, { a := 9, sel := 1 })]
       (∃ e ∈ caps.zip (setResults (.shfl .rise (op (.g 9) (.j 2) (.g 4) .gz .n32 3 0)) caps), e.1.1 = 3 ∧ e.2.v = 1) ∧
         ∃ e ∈ caps.zip (setResults (.shfl .fall (op (.g 9) (.j 2) (.g 4) .gz .n32 3 0)) caps),
           e.1.1 = 7 ∧ e.2.miss = some true) := by decide

/-! ### Memory -/

def leafOn (ty : PageTy) (base : Nat) (bias : Bool) : Leaf :=
  { base := base, bits := 16, ty := ty, r := true, w := true, ex := false, global := false, bias := bias,
    forceS := false, pin := false }

/-- Pages 2 to 4: module registers, the PCIe port, and host memory under host bias. -/
def mapped : State :=
  cor (rg user [(4, 0x10100)]) fun c => { c with tlb := c.tlb ++
    [{ pasid := some 0, vpn := 2, leaf := leafOn .d 0xF000000080000 false },
     { pasid := some 0, vpn := 3, leaf := leafOn .x 0x2000000000000 false },
     { pasid := some 0, vpn := 4, leaf := leafOn .n 0x1000000000000 true }] }

/-- The access of an instruction reaches its page, in the sense of `Reaches`, and goes `way` there. -/
def reachesBy (s : State) (i : Instr) (ty : PageTy) (way : Option Route) (cx : Ctx) : Bool :=
  match accessOf i cx s with
  | none => false
  | some (op, size, d) =>
    let va := dataAddr cx s
    match tlbLookup (getCore s (threadCore s t0)).tlb (threadPasid s t0) va with
    | none => false
    | some l =>
      let a : Access := { op := op, va := va, pa := l.pa va, size := size, dst := d, host := l.bias }
      va.toNat % size = 0 && canonical va && (!op.needsR || l.r) && (!op.needsW || l.w) && acceptedOn op l &&
        !lockHit s (some (threadCore s t0)) (l.pa va) size op.storesLock && l.ty = ty &&
        (way.isNone || some (assayRoute s t0 a l.forceS (strictAlways a)).1 = way)

def ldAt (d : Opnd) (a : Word) : Instr := .ld (op d (.g 4) no no .n32 0 a)
def stAt (a : Word) : Instr := .st (op no (.g 4) (.g 6) no .n32 0 a)

def classS : State := setGranule mapped 0x10 { cls := .s }
/-- A store, a load and a pair at an address of memory. -/
def acc (o : MemOp) : Access := { op := o, va := 0x2000, pa := 0x2000, size := 4, dst := .reg 3 1 }

def annealed : State := setGranule mapped 0x10 { cls := .p 9, annealing := some ([.core 9], .s) }
def departed : State := modPage mapped 1 fun p => { p with departing := true }

theorem witness_MemoryInstructionsIssueTheirAccess :
    ∀ w ∈ ([(ldAt (.g 6) 0x40, mapped, .n, some .queue), (stAt 0x40, mapped, .n, some .queue),
        (ldAt (.g 6) 0x40, thr mapped fun th => { th with cntLd := 255 }, .n, some .queue),
        (stAt 0x40, thr mapped fun th => { th with cntSt := 255 }, .n, some .queue),
        (ldAt (.g 6) 0x10000, thr mapped fun th => { th with cntLd := 1 }, .d, none),
        (ldAt (.g 6) 0x40, classS, .n, some .home), (ldAt (.s 6) 0x40, mapped, .n, some .core),
        (ldAt (.g 6) 0x40, annealed, .n, some .held), (stAt 0x40, departed, .n, some .away),
        (ldAt (.g 6) 0x30000, mapped, .n, some .host), (ldAt (.g 6) 0x10000, mapped, .d, none),
        (stAt 0x20000, mapped, .x, none), (ldAt (.g 6) 0x20000, mapped, .x, none)].map
          fun e : Instr × State × PageTy × Option Route =>
        ({ i := e.1, s := e.2.1, p := reachesBy e.2.1 e.1 e.2.2.1 e.2.2.2 } : Wit)),
      ∃ cx, Acts w.i w.s cx ∧ w.p cx = true := acts_all (by decide)

/-- A granule of a class, as an access to it meets it. -/
def classed (c : Machine.Class) : State := setGranule mapped 0x10 { cls := c }
def accP (o : MemOp) : Access := { acc o with pa := 0x10000 }

theorem witness_AssayTransitions :
    (∀ c ∈ [Machine.Class.u, .p 1, .p 9, .r, .s],
        let n := noteLeaf (classed c) t0 (accP (.load .n32))
        let gr := getGranule n 0x10
        classified 0x10000 false = true ∧ unreached n 0x10000 = false ∧ pageAway n 0x10000 = false ∧ gr.cls = c ∧
          gr.annealing = none ∧ gr.held = []) ∧
      threadCore mapped t0 = 1 ∧
      ackers (classed .r) 0x10 ≠ [] ∧ ackers { classed .r with cores := [] } 0x10 = [] ∧
      (getGranule annealed 0x10).annealing.isSome = true := by decide

theorem witness_IssuedAccessIsOutstanding : t0.gi < (threadGroup mapped t0).threads.length := by decide

/-- A misaligned address, one that is not canonical, an unmapped one, one whose walk failed, one without the right,
a pair on a page with host bias, and a range that is held. -/
def locked : State :=
  { mapped with ops := [(9, { kind := .chain 0 0, core := 1, gang := 1, grp := 2, threads := [0],
                              ranges := [{ scratch := none, pieces := [(0x10000, 0x1000, true)], dst := true }] })] }

theorem witness_MemoryAccessFaults :
    (∀ w ∈ ([{ i := ldAt (.g 6) 0x41, s := mapped, p := fun cx => (dataAddr cx mapped).toNat % 4 ≠ 0 },
        { i := ldAt (.g 6) 0x40, s := rg mapped [(5, 0x7F000000)],
          p := fun cx => !canonical (dataAddr cx (rg mapped [(5, 0x7F000000)])) },
        { i := ldAt (.g 6) 0x50000, s := mapped,
          p := fun cx => (tlbLookup (getCore mapped 1).tlb 0 (dataAddr cx mapped)).isNone && !fetchStopped mapped t0 },
        { i := ldAt (.g 6) 0x50000, s := thr mapped fun th => { th with walkFails := [6] },
          p := fun cx => (dataAddr cx mapped).toNat % 2 ^ 57 / 2 ^ 16 = 6 },
        { i := .ldrsv (op (.g 6) (.g 4) no no .n32 0 0x30000), s := mapped,
          p := fun cx => (tlbLookup (getCore mapped 1).tlb 0 (dataAddr cx mapped)).any fun l => !acceptedOn .ldrsv l },
        { i := stAt 0x40, s := locked,
          p := fun cx => (tlbLookup (getCore locked 1).tlb 0 (dataAddr cx locked)).any fun l =>
            acceptedOn (.store [0, 0, 0, 0]) l && lockHit locked (some 1) (l.pa (dataAddr cx locked)) 4 true }] : List Wit),
        ∃ cx, Acts w.i w.s cx ∧ w.p cx = true) ∧
      (tlbLookup (getCore mapped 1).tlb 0 0x10100).any (fun l => l.r && l.w) = true :=
  ⟨acts_all (by decide), by decide⟩

/-- A word of memory is poisoned. -/
def poisoned4 : State := { user with poison := [0x400] }

theorem witness_PerformedAccessResults :
    accessBad user t0 (acc (.load .n32)) = false ∧ ([1, 2, 3, 4] : List Byte).length = (acc (.store [1, 2, 3, 4])).size ∧
      (∀ ty ∈ [Ty.i32, .n32, .f32], 8 * (acc (.atom .min ty 5 true)).size = tyBits ty) ∧
      fpVal (fpFmt .f32) 0x7FC00000 = .nan false ∧ fpVal (fpFmt .f32) 0xFF800000 = .inf true ∧
      (∃ m, fpVal (fpFmt .f32) 1 = .fin false m ∧ 0 ≤ m.ex + 200) :=
  ⟨by decide, by decide, by decide, by decide, by decide, _, rfl, by decide⟩

theorem witness_PoisonedMemoryIsMetAsStated :
    accessBad poisoned4 t0 (acc (.load .n32)) = true ∧ (acc (.load .n32)).op.returns = true ∧
      accessBad poisoned4 t0 (acc (.atom .add .n32 5 false)) = true ∧ accessBad poisoned4 t0 (acc (.axadd .f32 0)) = true ∧
      wayMarked { user with wayPoison := [(0, 0x400)] } (threadCore user t0 / 4) 0x2000 4 = true ∧
      ([1, 2, 3, 4] : List Byte).length = (acc (.store [1, 2, 3, 4])).size := by decide

theorem witness_ReservationPair :
    (performMem user t0 (acc .ldrsv)).resv.any (fun r => r.tid = t0 && r.line = 0x40) = true ∧
      (getThread (performMem user t0 (acc .ldrsv)) t0).sinceRsv ≤ 64 ∧ user.resv = [] := by decide

/-- A core with two queued accesses, of which the first touches the granule. -/
def queued : State :=
  cor user fun c => { c with queue := [{ tid := t0, acc := acc (.store [1, 2, 3, 4]) },
                                       { tid := t0, acc := { acc (.store [5]) with pa := 0x9000, size := 1 } }] }

def strictAt (pa : Nat) (p : Place) : State :=
  thr user fun th => { th with strict := some { acc := { acc (.load .n32) with pa := pa }, place := p, pack := 0 } }

/-- One that stands ready on a granule of class S without its copy. -/
def lapsed : State := setGranule (strictAt 0x2000 .ready) 2 { cls := .s }

theorem witness_MemoryEvents :
    (getCore queued 1).queue.head?.any (fun e => e.acc.pa / 4096 = 2) = true ∧ (getCore user 1).queue = [] ∧
      (getThread (strictAt 0x2000 .ready) t0).strict.any (fun x => packTurn (strictAt 0x2000 .ready) t0 x &&
        !lockHit (strictAt 0x2000 .ready) (some 1) x.acc.pa 4 false &&
        !needsHome (strictAt 0x2000 .ready) t0 x.acc) = true ∧
      (getThread lapsed t0).strict.any (fun x => x.place = .ready && needsHome lapsed t0 x.acc) = true ∧
      (getThread (strictAt 0xF000000080000 .ready) t0).strict.any (fun x => 0xF000000000000 ≤ x.acc.pa) = true ∧
      (getLine (setLine (strictAt 0x2000 .home) 0x40 { busy := some (t0, [.cluster 3, .host]) }) 0x40).busy =
        some (t0, [.cluster 3] ++ [.host]) ∧
      (getGranule annealed 0x10).annealing = some ([.core 9], .s) ∧
      (getPage (modPage queued 0 fun p => { p with departing := true, drains := [1] }) (2 / 16)).drains.contains 1 =
        true := by decide

theorem witness_PrefetchAndWaitForCounters :
    (∀ w ∈ ([{ i := .waitc (op no no no no .n8 0 0x0001), s := thr user fun th => { th with cntLd := 1 },
               p := fun cx => passes user (nextPc 0x10000) && cx.o.imm.toNat % 16 = 1 },
            { i := .waitc (op no no no no .n8 0 0x0001), s := thr user fun th => { th with cntLd := 2 } }] : List Wit),
      ∃ cx, Acts w.i w.s cx ∧ w.p cx = true) := acts_all (by decide)

/-- The gang has one bank, in a mode. -/
def banked (m : BankMode) : State := modGang user 1 fun g => { g with nbanks := 1, banks := [(0, { mode := m })] }

/-- The last word of the bank, one beyond it, a misaligned one, and a bank in another mode. -/
theorem witness_ScratchpadAccesses :
    ∀ w ∈ (([(0x3FFFC, .scratch), (0x40000, .scratch), (0x3FFFD, .scratch), (0, .fifo 0), (0, .cache)] :
        List (Word × BankMode)).map fun v =>
      ({ i := .ldsp (op (.g 6) .gz no no .n32 0 v.1), s := banked v.2,
         p := fun cx => scratchAddr cx (banked v.2) = v.1.toNat && (scratchOf (.ldsp cx.o) cx (banked v.2)).isSome } : Wit)),
      ∃ cx, Acts w.i w.s cx ∧ w.p cx = true := acts_all (by decide)

/-- An unowned bank, and one whose queue holds the thread. -/
def served : State :=
  modGang (strictAt 0 (.bank 0)) 1 fun g => { g with nbanks := 1, phys := [5], banks := [(0, { queue := [t0] })] }

theorem witness_BankServe :
    bankOwner served 0 5 = some (1, 0) ∧ (getBank served 1 0).queue = [t0] ∧ bankOwner served 0 6 = none ∧
      (getThread served t0).strict.any (fun x => packTurn served t0 x && !scratchHit served 1 x.acc.pa 4 false) =
        true := by decide

/-- An empty, a filled and a full FIFO bank. -/
def fifo (n : Nat) : State :=
  modGang user 1 fun g => { g with nbanks := 1, banks := [(0, { mode := .fifo 0, filled := n })] }

/-- A FIFO bank whose queue holds another thread; and a FIFO access at the head of its bank's queue. -/
def queueing : State :=
  modGang user 1 fun g => { g with nbanks := 1, banks := [(0, { mode := .fifo 0, queue := [⟨2, 1⟩] })] }
def turning (m : BankMode) : State :=
  modGang (thr user fun th => { th with run := .parked (.fifoTurn 0 4 (.reg 6 1) none) }) 1 fun g =>
    { g with nbanks := 1, phys := [5], banks := [(0, { mode := m, queue := [t0] })] }

theorem witness_FifoTurn :
    bankOwner (turning .cache) 0 5 = some (1, 0) ∧ (getBank (turning (.fifo 0)) 1 0).queue = [t0] ∧
      (getThread (turning .cache) t0).strict = none ∧ fifoCheck (turning (.fifo 0)) t0 0 4 = none ∧
      (fifoCheck (turning .cache) t0 0 4).isSome = true := by decide

/-- A service thread beside a gang whose bank 0 is physical bank 5 of cluster 3; and `BKCFG` in its bank's queue. -/
def owning : State :=
  { priv with gangs := mput priv.gangs 7 { grid := 9, cluster := 3, nbanks := 1, phys := [5] } }
def configuring : State :=
  modGang (thr user fun th => { th with run := .parked (.bank 1 0 .cache 0) }) 1 fun g =>
    { g with nbanks := 1, phys := [5], banks := [(0, { queue := [t0] })] }

theorem witness_FifoBanksAndModes :
    ∀ w ∈ (([0, 1, 65536] : List Nat).map fun n =>
        ({ i := .cbrd (op (.g 6) no no no .n32 0 0), s := fifo n,
           p := fun cx => (getBank (fifo n) 1 0).filled = n && tyBits cx.o.ty / 8 = 4 } : Wit)) ++
      (([0, 65535, 65536] : List Nat).map fun n =>
        ({ i := .cbwr (op no no (.g 6) no .n32 0 0), s := fifo n,
           p := fun _ => (getBank (fifo n) 1 0).filled = n && (getBank (fifo n) 1 0).writers = [] } : Wit)) ++
      ([{ i := .cbrd (op (.g 6) no no no .n32 0 0), s := queueing, p := fun _ => (getBank queueing 1 0).queue ≠ [] },
        { i := .cbwr (op no no (.g 6) no .n32 0 0), s := queueing, p := fun _ => (getBank queueing 1 0).queue ≠ [] },
        { i := .cbrd (op (.g 6) no no no .n32 0 1), s := fifo 0 },
        { i := .bkcfg .scratch (op no no no no .n8 0 1), s := fifo 0 }, { i := .cbrd (op (.g 6) no no no .n64 0 0), s := fifo 0 },
        { i := .cbwr (op no no (.g 6) no .n32 0 0), s := banked .scratch },
        { i := .bkcfg .fifo (op no no no no .n8 0 0x20), s := fifo 0, p := fun _ => !bankHeld (fifo 0) 1 0 },
        { i := .bkcfgPhys .scratch (op no no no no .n8 1 0x302), s := priv,
          p := fun _ => bankOwner priv 3 2 = none },
        { i := .bkcfgPhys .scratch (op no no no no .n8 1 0x305), s := owning,
          p := fun _ => bankOwner owning 3 5 = some (7, 0) && !bankHeld owning 7 0 }] : List Wit),
      ∃ cx, Acts w.i w.s cx ∧ w.p cx = true := acts_all (by decide)

/-- A thread at the head of a bank's queue that configures the bank; and a bank that an operation holds. -/
theorem witness_BankConfig :
    bankOwner configuring 0 5 = some (1, 0) ∧ (getBank configuring 1 0).queue = [t0] ∧
      configOf (getThread configuring t0) = some (.cache, 0) ∧ bankHeld configuring 1 0 = false ∧
      bankHeld { configuring with ops := [(9, {
        kind := .chain 0 0, core := 1, gang := 1, grp := 2, threads := [0],
        ranges := [{ scratch := some 1, pieces := [(0, 0x1000, true)], dst := true }] })] } 1 0 = true := by decide

/-! ### Engines -/

def tiled : State :=
  modGang user 1 fun g => { g with nbanks := 1, tiles := [(0, { isA := false, fmt := .bf16, depth := 32, base := 0, units := 1 })] }

/-- A fill of the tile from an address with a pitch: its shape fits, the walk it needs, and its range. -/
def filling (a pitch : Word) : State := rg tiled [(6, a), (8, pitch)]
def fills (s : State) (_ : Ctx) : Bool := (liveTile (getGang s 1) 0).any fun e => fillOk .data e.2 0 1
def fillBytes (s : State) (cx : Ctx) : Nat :=
  (liveTile (getGang s 1) 0).elim 0 fun e => fillLen .data e.2 1 (BitVec.ofNat 32 (cx.c s)) false
def fillWalk (s : State) (cx : Ctx) : Option DWord :=
  rangeWants s t0 (BitVec.ofNat 64 (cx.b s)) (fillBytes s cx)
def fillTakes (s : State) (cx : Ctx) : Except Exc Claim :=
  fillClaim s t0 false 0 (cx.b s) (BitVec.ofNat 32 (cx.c s)) (fillBytes s cx)

theorem witness_TileInstructions :
    ∀ w ∈ ([{ i := .bzaloc (op (.g 6) (.g 4) no no .bf16 0 0), s := rg tiled [(4, 32)],
              p := fun cx => 32 % depthMultiple (fmtOf cx.o) = 0 && (placeTile (getGang tiled 1) 1).isSome },
        { i := .bzaloc (op (.g 6) (.g 4) no no .bf16 0 0), s := tiled, p := fun cx => cx.a tiled = 0 },
        { i := .bzfree (op no (.g 4) no no .n8 0 0), s := tiled, p := fun _ => (liveTile (getGang tiled 1) 0).isSome },
        { i := .bzfree (op no (.g 4) no no .n8 0 0), s := user, p := fun _ => (liveTile (getGang user 1) 0).isNone },
        { i := .bzld .data (op no (.g 4) (.g 6) (.g 8) .n8 0 1), s := filling 0x10000 256,
          p := fun cx => fills (filling 0x10000 256) cx && fillWalk (filling 0x10000 256) cx = none &&
            (fillTakes (filling 0x10000 256) cx).toOption.any fun c => claimsFree (filling 0x10000 256) 1 [c] },
        { i := .bzld .data (op no (.g 4) (.g 6) (.g 8) .n8 0 1), s := filling 0x10008 256,
          p := fun cx => fills (filling 0x10008 256) cx && fillWalk (filling 0x10008 256) cx = none &&
            (fillTakes (filling 0x10008 256) cx).toOption.isNone },
        { i := .bzld .data (op no (.g 4) (.g 6) (.g 8) .n8 0 1), s := filling 0x50000 256,
          p := fun cx => fills (filling 0x50000 256) cx &&
            fillWalk (filling 0x50000 256) cx = some 0x50000 }] : List Wit) ++
      ([(0xFF, false), (0xFE, true)] : List (Nat × Bool)).map fun v =>
        let s := thr (filling 0x10000 256) fun th => { th with cntMx := v.1 }
        let z := if v.2 then modPage s 1 fun p => { p with departing := true } else s
        { i := .bzld .data (op no (.g 4) (.g 6) (.g 8) .n8 0 1), s := z,
          p := fun cx => fills z cx && fillWalk z cx = none &&
            (fillTakes z cx).toOption.any fun c => !v.2 || !claimsFree z 1 [c] },
      ∃ cx, Acts w.i w.s cx ∧ w.p cx = true := acts_all (by decide)

/-- `MACZ`, whose operands pass with one gang of one bank pair; and a set in the other mode. -/
def matrix : State := modGang solo 1 fun g => { g with nbanks := 2 }

/-- Accumulator 0 is bound to the set, and the operands of an `MST` name an address. -/
def storing (a : Word) : State :=
  modGang (rg matrix [(4, a), (6, 256)]) 1 fun g => { g with accs := [(0, { bound := some (2, 3) })] }

theorem witness_SignedInstructions :
    ∀ w ∈ ([{ i := .macz (op no (.j 3) no no .f32 0 0), s := matrix,
              p := fun cx => (signOf (.macz cx.o) cx matrix).any (fun r => r.2.2.isNone) && (getSet matrix 2 3).has 0 &&
            !hasSigned (getSet matrix 2 3) 0 },
        { i := .macz (op no (.j 3) no no .f32 0 0), s := thr matrix fun th => { th with cntMx := 255 },
          p := fun cx => (signOf (.macz cx.o) cx matrix).any (fun r => r.2.2.isNone) && !hasSigned (getSet matrix 2 3) 0 },
        { i := .macz (op no (.j 3) no no .f32 0 0), s := user, p := fun _ => !(getSet user 2 3).has 0 },
        { i := .mst (op .gz (.j 3) (.g 4) (.g 6) .f32 0 0), s := storing 0x10000,
          p := fun cx => walksDone (.mst cx.o) cx (storing 0x10000) && mstAtRange cx (storing 0x10000) &&
            (signOf (.mst cx.o) cx (storing 0x10000)).any fun r => r.2.2.isNone },
        { i := .mst (op .gz (.j 3) (.g 4) (.g 6) .f32 0 0), s := storing 0x50000,
          p := fun cx => mstAtRange cx (storing 0x50000) && !walksDone (.mst cx.o) cx (storing 0x50000) },
        { i := .macz (op no (.j 3) no no .f32 0 7), s := matrix,
          p := fun cx => (signOf (.macz cx.o) cx matrix).any fun r => r.2.2.isSome }] : List Wit),
      ∃ cx, Acts w.i w.s cx ∧ w.p cx = true := acts_all (by decide)

theorem witness_SigningCompletesWithItsLastMember :
    (getSet solo 2 3).members ≠ [] ∧ (∀ m ∈ (getSet solo 2 3).members, m.1 = ({ gi := 0 } : SignRow).gi) ∧
      (∃ m ∈ (getSet duo 2 3).members, m.1 ≠ ({ gi := 0 } : SignRow).gi) := by decide

/-- A floating-point pass: a plain pair of formats, FP8, and a narrow B tile (Table 11-1). -/
theorem witness_IntegerPassAddsTheExactProduct :
    combines .bf16 .bf16 = true ∧ combines .e4m3 .e5m2 = true ∧ combines .f16 .i4 = true ∧ combines .bf16 .e2m1 = true :=
  by decide

/-- An operation that waits, and one that is done with its passes. -/
def opWith (k : OpKind) (p : Phase) (start : Option Nat) : State :=
  { user with ops := [(9, { kind := k, grp := 2, gang := 1, core := 1, threads := [0], ranges := [], phase := p, start := start })] }

def flatCopy : OpKind := .copy (.flat 0x10000 0x10100 16) false false 0

theorem witness_EngineEvents :
    (mfind (opWith (.chain 0 1) .running (some 1)).ops 9).any (fun o => o.stopped = false) = true ∧
      (getGang user 1).status = .running ∧
      (mfind (opWith flatCopy .waiting (some 1)).ops 9).any (copyMayBegin (opWith flatCopy .waiting (some 1)) 9) = true ∧
      (mfind (opWith flatCopy .waiting none).ops 9).any (copyMayBegin (opWith flatCopy .waiting none) 9) = false ∧
      (mfind (opWith flatCopy .running (some 1)).ops 9).any (copyDone (opWith flatCopy .running (some 1))) = true ∧
      grantOf user 0 user.ops = none := by decide

/-- Ranges of one piece each, from bytes 0x10000 to 0x20000; a sweep of one element; an `MRD` into g16 and an `MST`. -/
def oneRange (a n : Nat) : Range := { scratch := none, dst := false, pieces := [(a, n, true)] }
def moving (k : OpKind) : EngineOp :=
  { kind := k, grp := 2, gang := 1, core := 1, threads := [0], phase := .running, ranges := [oneRange 0x20000 8192, oneRange 0x30000 8192] }

theorem witness_FinishedOperationsAndTheirWrites :
    (mfind (opWith flatCopy .running (some 1)).ops 9).any (fun o => (opThread o).gi < (threadGroup user t0).threads.length &&
        o.gang = 1 && o.threads = [0]) = true ∧
      (mfind user.grids (getGang user 1).grid).isSome = true ∧ (mfind user.gangs 1).isSome = true ∧
      tokenOf (setToken (opWith flatCopy .running (some 1)) t0 2 (.pending 9)) t0 9 = some 2 ∧
      ((copyMoves user (.flat 0 0 16) (moving flatCopy).ranges).all fun q => q.src + q.len ≤ 8192) = true ∧
      linkLost user none (0x30000, 8192, true) = false ∧
      ((List.range 2048).all fun k => mstAt .i8 64 false k + outBytes .i8 ≤ 8192) = true ∧
      (0 : Int) ≤ chAt 0 3 0 ∧ chOpc 0 0 = 0 := by decide

/-- Threads 0 and 1 belong to set 3, and thread 1 alone has signed it; a member is given a value; an operation waits
for its ranges. -/
def halfSigned : State := grp duo fun g => { g with sets := g.sets.map fun e =>
  (e.1, { e.2 with signing := some { pc := 0x10000, kind := .maczRel 0, rows := [(1, { gi := 1 })] } }) }

theorem witness_SigningsAndGivenResults :
    (getSet halfSigned 2 3).has 0 = true ∧ mdel (getSet halfSigned 2 3).members 0 = [(1, 0)] ∧
      (getSet halfSigned 2 3).signing.any (fun g => g.rows.any fun e => e.2.gi = 1) = true ∧
      mkeys [(1, 0)] ≠ mkeys (mdel (getSet halfSigned 2 3).arrived 0) ∧
      (getThread halfSigned ⟨2, 1⟩).strict = none ∧ t0.gi < (threadGroup duo t0).threads.length ∧
      (Given.miss { v := 5 } : Option Bool) = none ∧
      (mfind (opWith (.sign (.maczRel 0) [] 3) .claiming none).ops 9).any (fun o => o.phase = .claiming) = true ∧
      (mfind (opWith (.sign (.maczRel 0) [] 3) .waiting none).ops 9).any (fun o => o.phase ≠ .claiming) = true := by
  decide

/-- A copy of 16 bytes, of none, with an address that is not a multiple of 16, and to a token in use. -/
theorem witness_CopiesAndTokens :
    ∀ w ∈ (([(0x10100, 16, .empty), (0x10100, 0, .empty), (0x10108, 16, .empty), (0x10100, 16, .done)] :
        List (Word × Word × Token)).map fun v =>
      let s := thr (rg user [(4, 0x10000), (6, v.1), (8, v.2.1)]) fun th => { th with tokens := mset .empty [] 1 v.2.2 }
      ({ i := .cpy (op (.tk 1) (.g 4) (.g 6) (.g 8) .n8 0 0), s := s,
         p := fun cx => (copyOf (.cpy cx.o) cx s).any (fun r => r.2.1) && cx.c s = v.2.1.toNat &&
           mget .empty (getThread s t0).tokens 1 = v.2.2 } : Wit)) ++
      ([(0x3FFF0, true), (0x40000, false)].map fun v : Word × Bool =>
        let s := thr (rg (banked .scratch) [(4, v.1), (6, 0x10100), (8, 16)]) fun th => { th with tokens := [] }
        { i := .cpy (op (.tk 1) (.g 4) (.g 6) (.g 8) .n8 1 0), s := s,
          p := fun cx => (copyOf (.cpy cx.o) cx s).any fun r =>
            ((copyPlaces s 1 (copySides r.1 true false)).or (copyFifo s t0 r.1)).isNone == v.2 }) ++
      ([.empty, .done, .pending 9, .faulted { code := .poison, addr := 0 }].map fun k =>
        ({ i := .tkwait (op no (.tk 1) no no .n8 0 0), s := thr user fun th => { th with tokens := mset .empty [] 1 k },
           p := fun _ => passes user (nextPc 0x10000) } : Wit)), ∃ cx, Acts w.i w.s cx ∧ w.p cx = true :=
  acts_all (by decide)

/-- A program without a slot, whose streams A and D are binary32 elements in a row, in scratchpad memory of the gang. -/
def plainSweep : Shape := BitVec.ofNat 512 ((9 + 9 * 2 ^ 12) * 2 ^ 256 + (4 + 4 * 2 ^ 48) * 2 ^ 192 + 64 * 2 ^ 160)
def swept (n : Nat) : State :=
  thr (grp (banked .scratch) fun g => { g with shapes := [(2, plainSweep)] }) fun th => { th with cntCp := n }

/-- A sweep starts at 254 copies and sweeps, and parks at 255. -/
theorem witness_SweepStartsOrParks :
    ∀ w ∈ ([254, 255].map fun n =>
        ({ i := .chain (op no (.sh 2) .imm no .n8 0 4), s := swept n,
           p := fun cx => cx.b (swept n) = 4 && readShape (swept n) cx.t (opndNum cx.o.a) = plainSweep &&
             chainOk plainSweep && chainFault (swept n) 1 plainSweep 4 = none &&
             claimsFree (swept n) 1 (chainClaims 1 plainSweep 4) && (getThread (swept n) t0).cntCp = n } : Wit)),
      ∃ cx, Acts w.i w.s cx ∧ w.p cx = true := acts_all (by decide)

/-- A range-lock table with as many ranges. -/
def entriesTaken (n : Nat) : State :=
  { user with ops := [(9, { kind := .chain 0 0, core := 1, gang := 1, grp := 2, threads := [0],
                            ranges := List.replicate n { scratch := some 1, pieces := [], dst := true } })] }

/-- The table may be full, whatever its size. -/
theorem witness_SweepWaitsForEntries :
    claimsFree (entriesTaken (Config.rangeEntries + 1)) 1 (chainClaims 1 plainSweep 4) = false := by
  have g : ∀ n, (getGang (entriesTaken n) 1).status = .running := fun _ => by
    show (getGang user 1).status = .running
    decide
  have h : ∀ n, entriesUsed (entriesTaken n) (clusterOfCore 1) = n := fun n => by
    simp only [entriesUsed, tableHeld, show (entriesTaken n).ops = [(9, _)] from rfl, List.foldl, g]
    simp
  have c : (chainClaims 1 plainSweep 4).length = 2 := by decide
  have c0 : chainClaims 1 plainSweep 4 ≠ [] := by decide
  have full : ¬Config.rangeEntries + 1 + 2 ≤ Config.rangeEntries := by omega
  simp [claimsFree, h, c, c0, full]

theorem witness_StreamUnitInstructions :
    ∀ w ∈ (([0, 4095, 4096] : List Word).map fun n =>
        ({ i := .chain (op no (.sh 2) .imm no .n8 0 n), s := user, p := fun cx => cx.b user = n.toNat } : Wit)) ++
      ([{ i := .shset (op (.sh 2) (.g 4) no no .n32 0 0x3FE0), s := user,
          p := fun cx => cx.o.imm.toNat % 512 + (cx.o.imm.toNat / 512 % 64 + 1) = 512 },
        { i := .shget (op (.g 6) (.sh 2) no no .n64 0 0x7E00), s := user }] : List Wit),
      ∃ cx, Acts w.i w.s cx ∧ w.p cx = true := acts_all (by decide)

/-! ### Launching, traps, scheduler core -/

/-- A grid of the header in the queue of partition 0. -/
def queuedGrid (s : State) : State := match openGrid s 0 0 placeHeader none none with
  | some (_, s) => s
  | none => s
def waiting : State := queuedGrid user

theorem witness_LaunchInstructions :
    (∀ w ∈ ([{ i := .lnch (op (.g 6) (.sh 0) no no .n8 0 0), s := user,
               p := fun _ => hdrOk user 0 placeHeader && !launchBehind user t0 && (openGrid user 0 0 placeHeader none none).any fun e =>
                (mfind e.2.grids e.1).any fun g => g.acks = [] },
            { i := .lnch (op (.g 6) (.sh 1) no no .n8 0 0), s := user, p := fun _ => !hdrOk user 0 0 },
            { i := .graph (op (.g 6) (.g 4) .imm no .n8 0 9), s := user,
              p := fun _ => match readTable user 1 0 0 0 9 with | (.ok _, _) => false | (.error _, _) => true },
            { i := .graph (op (.g 6) (.g 4) .imm no .n8 0 9), s := rg user [(4, 0x50000)],
              p := fun cx => (tableLack user t0 (BitVec.ofNat 64 (cx.a (rg user [(4, 0x50000)]))) 9).isSome },
            { i := .graph (op (.g 6) (.g 4) .imm no .n8 0 9), s := rg user [(4, 0x10000)],
              p := fun cx => (tableLack user t0 (BitVec.ofNat 64 (cx.a (rg user [(4, 0x10000)]))) 9).isNone },
            { i := .gcan (op no (.g 4) no no .n8 0 0), s := user, p := fun _ => (cancelBar user 0 0 0).isNone },
            { i := .gstat (op (.g 6) (.g 4) no no .n8 0 0), s := queuedGrid user,
              p := fun _ => !isPriv (queuedGrid user) t0 && liveHandle (queuedGrid user) 0 0 0 = some (.grid 3) },
            { i := .gstat (op (.g 6) (.g 4) no no .n8 0 0), s := queuedGrid priv,
              p := fun _ => isPriv (queuedGrid priv) t0 && liveHandle (queuedGrid priv) 0 0 0 = some (.grid 3) },
            { i := .gwait (op no (.g 4) no no .n8 0 0), s := rg user [(4, 0x5000)],
              p := fun _ => (liveHandle user 0 0 0x5000).isNone },
            { i := .gstat (op (.g 6) (.g 4) no no .n8 0 0), s := user },
            { i := .wid (op (.g 6) no no no .n32 1 7), s := user, p := fun _ => (threadGrid user t0).isSome }] : List Wit),
      ∃ cx, Acts w.i w.s cx ∧ w.p cx = true) := acts_all (by decide)

/-- It has started; it may span a domain with module 2; and a die of that module has joined it. -/
def started : State := (mfind waiting.grids 3).elim waiting fun g => startHead waiting 0 3 g
def spanning : State :=
  modPart (modGrid started 3 fun g => { g with modules := [2], hdr := placeHeader + BitVec.ofNat 512 (2 ^ 478 + 2 ^ 492) })
    0 fun p => { p with domain := [2] }
def farIn : State := modGrid spanning 3 fun g => { g with farDies := [16] }

theorem witness_RangeRequests :
    joined started 3 = [0] ∧ (getPart started 0).queue = [] ∧
      (mfind started.grids 3).any (fun g => rangeDone g 0 && g.state = .running && g.nextRange < hdrRanges g.hdr &&
        !headWants started g.part 0 && g.root = none) = true ∧
      (mfind farIn.grids 3).any (fun g => farAsks farIn g 2 && g.farDies.contains 16 && g.state = .running && g.nextRange < hdrRanges g.hdr) = true :=
  by decide

/-- It is over: every range dealt, its die reported, its gangs retired; and with a report to write. -/
def overGrid (done : Nat) : State :=
  modGrid started 3 fun g => { g with nextRange := hdrRanges g.hdr, hdr := g.hdr + BitVec.ofNat 512 (done * 2 ^ 128),
                                      dies := g.dies.map fun e => (e.1, { e.2 with reported := true }) }
/-- A graph of nodes with two, one and no predecessor left, one tainted, one with a misaligned header. -/
def nodesOf : List Node :=
  [{ hdrAddr := 0, pred := 2, succ := [1], cont := false }, { hdrAddr := 0, pred := 1, succ := [], cont := false },
   { hdrAddr := 0, pred := 1, succ := [], cont := false, taint := true },
   { hdrAddr := 8, pred := 1, succ := [], cont := false }, { hdrAddr := 0, pred := 0, succ := [], cont := true }]

theorem witness_GridsAndNodesEnd :
    (mfind (overGrid 0).grids 3).any (fun g => gridOver (overGrid 0) 3 g && (gridBar (overGrid 0) g).isNone &&
        g.root = none && g.graph = none && hdrDone g.hdr = 0) = true ∧
      (mfind (overGrid 0x10000).grids 3).any (fun g => gridOver (overGrid 0x10000) 3 g && hdrDone g.hdr = 0x10000) = true ∧
      (mfind started.grids 3).any (fun g => !gridOver started 3 g && g.state = .running && g.acks.isEmpty) = true ∧
      (mfind waiting.grids 3).any (fun g => g.state = .queued && g.acks.isEmpty) = true ∧
      liveHandle waiting 0 0 0 = some (.grid 3) ∧ liveHandle user 0 0 0x5000 = none ∧
      ((nodesOf.map fun x => (x.state, x.pred, x.taint)) = [(.waiting, 2, false), (.waiting, 1, false),
        (.waiting, 1, true), (.waiting, 1, false), (.waiting, 0, false)]) ∧
      (mfind (modGrid farIn 3 fun g => { g with nextRange := hdrRanges g.hdr }).grids 3).any (fun g =>
        g.farDies.contains (32 - 16) && hdrRanges g.hdr ≤ g.nextRange) = true := by decide

/-- A grid of a graph's node that awaits its launch event, its root table's page there or departing. -/
def graphed (d : Bool) : State :=
  let node : Node := { hdrAddr := 0, pred := 0, succ := [], cont := false }
  modPage { modGrid waiting 3 fun g => { g with graph := some (5, 0) } with
    graphs := [(5, { part := 0, pasid := 0, slot := 9, table := 0x10000, nodes := [node] })] }
    0 fun p => { p with departing := d }

theorem witness_NodeTables :
    tableBar (graphed false) 5 = none ∧ tableBar (graphed true) 5 = some (0, false) ∧
      (mfind (modPart (graphed true) 0 fun p => { p with queue := [] }).grids 3).any (fun g =>
        g.state = .queued && g.acks = [] && g.graph = some (5, 0) &&
          !spanBehind (modPart (graphed true) 0 fun p => { p with queue := [] }) 3 g) = true := by decide

/-- A member of a domain has at least one die, whatever firmware chose. -/
theorem witness_FarDieJoins :
    ∃ g, mfind spanning.grids 3 = some g ∧ mayJoinFar spanning 0 16 (3, g) = true := by
  have h : 1 ≤ memberDies 2 := Nat.le_max_left ..
  refine ⟨_, rfl, ?_⟩
  have hj : diesJoined spanning 3 = 1 := by decide
  have hp : (partDies spanning 0).length = 1 ∧ (getPart spanning 0).domain = [2] := by decide
  simp only [mayJoinFar, mayGrow, Bool.and_eq_true, decide_eq_true_eq]
  refine ⟨⟨⟨⟨⟨⟨⟨⟨?_, ?_⟩, ?_⟩, ?_⟩, ?_⟩, ?_⟩, ?_⟩, ?_⟩, ?_⟩
  case refine_5 =>
    have hl : ∀ d, hdrDieMax d = 2 → hdrDomain d = true →
        1 < min (hdrDieMax d) (diesAvailable spanning 0 (hdrDomain d)) := by
      intro d h2 hd
      simp only [h2, hd, diesAvailable, hp, domainDies, List.foldl]
      simp only [if_true]
      omega
    rw [hj]
    exact hl _ (by decide) (by decide)
  case refine_7 => exact h
  all_goals decide

theorem witness_LaunchEvents :
    (getPart waiting 0).queue = [3] ∧ (mfind waiting.grids 3).any (headStarts waiting 0) = true ∧
      (getPart user 0).queue = [] ∧ placeable user 0 = none ∧
      (mfind (modGrid waiting 3 fun g => { g with acks := [2, 5] }).grids 3).any (fun g => g.acks = [2, 5]) = true := by
  decide

theorem witness_TakingAnException :
    (getThread handled t0).run ≠ .done ∧ (getThread handled t0).inTrap = false ∧ (threadGroup handled t0).tvec ≠ 0 ∧
      (threadGroup handled t0).trec = 0 ∧ goesOn handled t0 = true ∧
      (threadGroup user t0).tvec = 0 ∧ isPriv user t0 = false ∧ isPriv priv t0 = true ∧
      mfind user.groups t0.grp ≠ none ∧ (threadGroup user t0).stopped = false ∧
      (threadGroup (grp user fun g => { g with stopped := true }) t0).stopped = true := by decide

/-- A record area without a translation, and one that is mapped. -/
def recorded (a : DWord) : State := grp user fun g => { g with tvec := 0x10000, trec := a }

theorem witness_TrapRecords :
    recordLack (recorded 0x50000) t0 = some (.walk 0x50000) ∧ recordLack (recorded 0x10000) t0 = none ∧
      (appendRecord (recorded 0x10000) t0 { code := .poison } 0x10000 0).isSome = true ∧
      goesOn (askFor (recorded 0x50000) t0 (.walk 0x50000)) t0 = true ∧ (getThread (recorded 0x50000) t0).inTrap = false :=
  by decide

theorem witness_TrapInstructions :
    ∀ w ∈ ([{ i := .trap (op no no no no .n8 0 0xFFFF), s := user }, { i := .tret (op no no no no .n8 0 0), s := user },
        { i := .tret (op no no no no .n8 0 0), s := thr user fun th => { th with inTrap := true, tepc := 0x10004 } },
        { i := .tret (op no no no no .n8 0 0), s := thr user fun th => { th with inTrap := true, tepc := 0x10005 } },
        { i := .uiraise (op (.sp 0x46) (.g 4) no no .n8 0 0), s := priv,
          p := fun _ => (liveHandle priv 0 0 0).isNone }] : List Wit), ∃ cx, Acts w.i w.s cx ∧ w.p cx = true :=
  acts_all (by decide)

/-- The service thread's die holds a user gang, in a status; a context is saved. -/
def hosting (st : GangStatus) : State :=
  { priv with grids := [(7, { hdr := placeHeader, event := 0, part := 0, pasid := 0, slot := 0 })],
              gangs := mput priv.gangs 8 { grid := 7, cluster := 3, groups := [], status := st } }

/-- Its context is larger than shadow storage. -/
def large : State := modGang (hosting .held) 8 fun g => { g with nbanks := 2000 }

def latched : State := modDie priv 0 fun d => { d with pend := [0], tail := [(0, 5)] }

theorem witness_SchedulerInstructions :
    (∀ w ∈ ([{ i := .svwait (op (.g 3) no no no .n8 0 0), s := latched, p := fun _ => latchPend latched 0 0 },
            { i := .svwait (op (.g 3) no no no .n8 0 0), s := priv, p := fun _ => !latchPend priv 0 0 && passes priv (nextPc 0x10000) },
            { i := .halt (op no .imm no no .n8 0 0xFFFFFFFF), s := hosting .running,
              p := fun _ => gangsNamed (hosting .running) 0 0xFFFFFFFF = [8] },
            { i := .haltGo (op no (.g 4) no no .n8 1 0), s := hosting .held, p := fun _ => !priv.link.trip },
            { i := .ctxsv (op (.g 6) (.g 4) no no .n8 0 0), s := priv, p := fun _ => gangsNamed priv 0 0 = [] },
            { i := .ctxsv (op (.g 6) (.g 4) no no .n8 0 0), s := rg (hosting .held) [(4, 0x300)],
              p := fun _ => gangsNamed (hosting .held) 0 0x300 = [8] && (getGang (hosting .held) 8).status = .held &&
                shadowFits (hosting .held) 0 [8] },
            { i := .ctxsv (op (.g 6) (.g 4) no no .n8 0 0), s := rg large [(4, 0x300)],
              p := fun _ => gangsNamed large 0 0x300 = [8] && !shadowFits large 0 [8] },
            { i := .ctxsv (op (.g 6) no no no .n8 1 0), s := hosting .running,
              p := fun _ => userGangs (hosting .running) 0 = [8] },
            { i := .ctxld (op (.g 6) (.g 4) no no .n8 0 0), s := priv, p := fun _ => (getDie priv 0).contexts = [] },
            { i := .ctxld (op (.g 6) (.g 4) no no .n8 0 0), s := modDie priv 0 fun d => { d with contexts := [(0, [99])] } }] : List Wit),
      ∃ cx, Acts w.i w.s cx ∧ w.p cx = true) := acts_all (by decide)

/-- The thread's gang, running, about to issue a pack, and HELD with the thread held. -/
def running : State := cor (thr user fun th => { th with run := .ready }) fun c => { c with stream := none }
def gangHeld : State := modGang (thr running fun th => { th with run := .held none }) 1 fun g => { g with status := .held }
def midway : State := cor running fun c => { c with stream := some { placeStream 2 with begun := true } }

theorem witness_GangsStopGoAndEnd :
    (getGroup running 2).gang = 1 ∧ (getGang running 1).groups = [2] ∧ (getGang running 1).status = .running ∧
      (mfind running.gangs 1).isSome = true ∧ t0.gi < (threadGroup running t0).threads.length ∧
      midPack running 2 = false ∧ midPack midway 2 = true ∧
      (running.cores.all fun e => e.2.queue.isEmpty) = true ∧ (getGang gangHeld 1).status = .held ∧
      ((getGang gangHeld 1).groups.all fun g => (groupTids gangHeld g).all fun x =>
        (getThread gangHeld x).run = .held none) = true ∧
      (mfind running.groups 2).any (fun g => !g.terminated) = true ∧
      (mfind gangHeld.gangs 1).any (fun g => g.nbanks ≤ (banksFree gangHeld g.cluster).length) = true := by decide

def withPasid (st : PasidState) (wait : List Miss) : State :=
  modDie (modPart (rg priv [(4, 1), (5, 1)]) 0 fun p => { p with pasidCfg := 1, pasids := mset .free [] 1 st }) 0
    fun d => { d with misses := wait }

/-- The tables of partition 0 lie in an X window, whose port is down at reset or not. -/
def tablesAway : State :=
  modLink (modPart user 0 fun p => { p with pasidBase := 0x2000000000000 }) fun l => { l with down := [.pcie] }

theorem witness_WalkWithoutItsPort :
    0 < pasidCount tablesAway 0 ∧ regionOf (rootEntry tablesAway 0 0 0x10000) = .ext ∧
      Report.linkError 3 ∈ (walkTouch tablesAway 3 0 0 0x10000).link.reports := by decide

theorem witness_TranslationMaintenance :
    (∀ w ∈ ([(.free, 1), (.active, 2), (.dying, 0), (.active, 1), (.free, 3)].map fun v : PasidState × Word =>
        let s := rg (withPasid v.1 []) [(4, 1), (5, v.2)]
        ({ i := .pasidset (op (.g 6) (.g 4) (.g 5) no .n8 0 0), s := s,
           p := fun cx => pasidState s 0 1 = v.1 && cx.b s = v.2.toNat && 1 < pasidCount s 0 } : Wit)) ++
      ([{ i := .tlbinvAll (op no no no no .n8 0 0), s := priv, p := fun _ => !scopeBusy priv 0 none none },
        { i := .tlbinvAll (op no no no no .n8 0 0), s := withPasid .active [{ pasid := 1, vpn := 0, waiters := [], cores := [] }],
          p := fun _ => (getDie (withPasid .active [{ pasid := 1, vpn := 0, waiters := [], cores := [] }]) 0).misses ≠ [] }] : List Wit),
      ∃ cx, Acts w.i w.s cx ∧ w.p cx = true) := acts_all (by decide)

/-- The other scopes of `TLBINV`, with and without a walk of the scope. -/
def walker : Miss := { pasid := 1, vpn := 5, waiters := [], cores := [1] }
def walking (st : PasidState) : State :=
  modDie (rg (withPasid st []) [(4, 0x50000), (6, 1)]) 0 fun d => { d with walks := [walker] }

theorem witness_TlbScopes :
    ∀ w ∈ ([{ i := .tlbinvPage (op no (.g 4) (.g 6) no .n8 0 0), s := walking .active,
              p := fun cx => scopeBusy (walking .active) 0 (some (scopePage (issued (.tlbinvPage cx.o) (walking .active) t0) 0
                (cx.b (walking .active)) (BitVec.ofNat 64 (cx.a (walking .active))))) (some (cx.b (walking .active))) },
            { i := .tlbinvPage (op no (.g 4) (.g 6) no .n8 0 0), s := priv,
              p := fun cx => !scopeBusy priv 0 (some (scopePage (issued (.tlbinvPage cx.o) priv t0) 0
                (cx.b priv) (BitVec.ofNat 64 (cx.a priv)))) (some (cx.b priv)) },
            { i := .tlbinvPasid (op no no (.g 6) no .n8 0 0), s := walking .active,
              p := fun cx => scopeBusy (walking .active) 0 none (some (cx.b (walking .active))) },
            { i := .tlbinvPasid (op no no (.g 6) no .n8 0 0), s := priv, p := fun cx => !scopeBusy priv 0 none (some (cx.b priv)) },
            { i := .tlbinvAll (op no no no no .n8 0 0), s := walking .active,
              p := fun _ => scopeBusy (walking .active) 0 none none }] : List Wit),
      ∃ cx, Acts w.i w.s cx ∧ w.p cx = true := acts_all (by decide)

/-- A miss to start; a walk that may end, one that a core at work on a pack holds, and one of a DYING PASID. -/
theorem witness_Walks :
    (getDie (withPasid .active [walker]) 0).misses = [walker] ∧ (getDie (withPasid .active [walker]) 0).walks.length < 64 ∧
      (getDie (walking .active) 0).walks[0]? = some walker ∧ (getDie priv 0).misses = [] ∧
      pasidState (walking .active) ((partOfDie (walking .active) 0).getD 8) walker.pasid ≠ .dying ∧
      walkStays (walking .active) 0 walker = false ∧
      walkStays (cor (walking .active) fun c =>
        { c with stream := some { placeStream 2 with begun := true } }) 0 walker = true ∧
      pasidState (walking .dying) ((partOfDie (walking .dying) 0).getD 8) walker.pasid = .dying := by decide

/-- A walk whose page has no translation, for a thread of its waiters. -/
theorem witness_WalkFinish :
    let m : Miss := { pasid := 0, vpn := 6, waiters := [t0], cores := [1] }
    let z := walkTouch user 0 0 m.pasid ((BitVec.ofNat 57 (m.vpn * 65536)).signExtend 64)
    walk z 0 m.pasid ((BitVec.ofNat 57 (m.vpn * 65536)).signExtend 64) = none ∧
      t0.gi < (threadGroup z t0).threads.length := by decide

theorem witness_CacheMaintenance :
    ∀ w ∈ (([(0x20000, 0x80), (0x20040, 0x80), (0x20000, 0), (0x2000000000, 0x80)] : List (Nat × Nat)).map fun v =>
        let s := rg priv [(4, BitVec.ofNat 32 v.1), (5, BitVec.ofNat 32 (v.1 / 2 ^ 32)), (6, BitVec.ofNat 32 v.2)]
        ({ i := .cacheopFlush (op no (.g 4) (.g 6) no .n8 0 0), s := s,
           p := fun cx => cx.a s = v.1 && cx.b s = v.2 && rangeMemory s 0 0x20000 0x80 &&
             !rangeMemory s 0 0x2000000000 0x80 } : Wit)) ++
      ([{ i := .aclsClear (op no (.g 4) (.g 6) no .n8 0 0), s := rg priv [(4, 0x20000), (6, 1)],
          p := fun _ => !granulesLocked priv 0x20 1 }] : List Wit), ∃ cx, Acts w.i w.s cx ∧ w.p cx = true :=
  acts_all (by decide)

/-- A line with a dirty copy over memory's zeros; granule 2 of class S. -/
def dirtyLine : State := setGranule (storeBytes user 0x2000 [1]) 2 { cls := .s }

theorem witness_ClearedGranulesAndDroppedCopies :
    risingKeys dirtyLine.pages = true ∧ (getGranule dirtyLine 2).cls = .s ∧ 0x40 / 32 = 2 ∧
      (mfind (drainRange dirtyLine 0 0x2000 0x80).backing 0x40).any (fun b => b.dirty && b.bytes.length = 128) = true ∧
      (drainRange dirtyLine 0 0x2000 0x80).backing.all (fun e => e.2.bytes.length = 128 && e.2.marks.isEmpty) = true ∧
      mfind (drainRange dirtyLine 0 0x2000 0x80).backing 0x41 = none := by decide

/-- A posted thread on an idle core; a stream; a group whose one thread waits at a set alone. -/
def posted : State := cor (post (thr user fun th => { th with run := .ready }) t0 0x10000) fun c => { c with stream := none }
def stuck : State := set3 (thr duo fun th => { th with run := .parked (.arrived 3) })
  { lx := true, members := [(0, 0)], arrived := [(0, {})] }

/-- A bit of the instruction cache's copy of a line has flipped. -/
def struck (pa : Nat) : State := cor user fun c => { c with icache := [(pa / 64, 1)] }

theorem witness_PlanisherEvents :
    (getCore user 1).stream.any (fun st => st.todo.flatten = [0] &&
        (match fetchPa user t0 st.pc with
          | .ok r => !lineMismatch user 1 r.1 st t0 && lineMismatch (struck r.1) 1 r.1 st t0
          | .error _ => false)) = true ∧
      candidates (getCore posted 1) ≠ [] ∧ (getCore posted 1).stream = none ∧ (getCore user 1).stream ≠ none ∧
      (cor user fun c => { c with stream := c.stream.map fun st => { st with todo := [] } }).cores ≠ user.cores ∧
      orphanDue user 2 = none ∧ orphanDue (thr user fun th => { th with run := .parked (.arrived 3) }) 2 = some (t0, 3) ∧
      orphanDue (thr user fun th => { th with run := .parked (.signing 3) }) 2 = some (t0, 3) := by decide

/-! ### Queues, registers, errors and links -/

/-- Die 0 with a scheduler core, queue 0 enabled in memory at 0x20000 and one entry in it. -/
def ringAt (opc : Nat) : State :=
  let s := storeBytes priv 0x20000 (bytesLE 4 opc ++ bytesLE 4 7)
  modDie s 0 fun d => { d with qbase := [(0, 0x20000)], qcfg := [(0, 0x80000006)], tail := [(0, 1)], pend := [0] }

theorem witness_QueuesAndRingCommands :
    (qcfgOf (ringAt 3) 0 0).getLsbD 31 = true ∧ (qcfgOf priv 0 0).getLsbD 31 = false ∧
      (∀ n ∈ [0, 1, 2, 3, 4, 5, 6], ringPending (ringAt n) 0 0 = true ∧ (ringRead (ringAt n) 0 0).1.opcode = n ∧
        (ringRead (ringAt n) 0 0).1.zero = true) ∧
      ringPending priv 0 0 = false ∧ inCarveOut (qentryAddr (ringAt 3) 0 63 0) = false ∧
      inCarveOut (qentryAddr (modDie priv 0 fun d => { d with qbase := [(63, 0x1FE0000000)] }) 0 63 0) = true ∧ (msixWord priv.link 3).getLsbD 0 = true ∧
      (msixWord { priv.link with msix := [(3, 1)] } 3).getLsbD 0 = false ∧
      latchPend (performDevice (ringAt 3) t0 { op := .store [7, 0, 0, 0], va := 0, pa := 0xF000000000400, size := 4, dst := .none })
        0 0 = true := by decide

/-- A launch whose header lacks a walk, and a wait that lacks nothing. -/
theorem witness_RingLacks :
    (ringLack (ringRead (ringAt 1) 0 0).2 0 0 (ringRead (ringAt 1) 0 0).1).isSome = true ∧
      ringLack (ringRead (ringAt 4) 0 0).2 0 0 (ringRead (ringAt 4) 0 0).1 = none := by decide

theorem witness_RegistersFirmwareAndPower :
    bitsOf (1500 : Word) 0 13 = 1500 ∧ bitsOf (3301 : Word) 0 13 = 3301 ∧ mapOverlaps user = false ∧
      mapOverlaps (modPart user 1 fun p => { p with dies := 1 }) = true ∧ alarmMayClear user = true ∧
      alarmMayClear (modDie user 0 fun d => { d with temp := 100 }) = false ∧
      workingDies user = [0, 1, 2, 3, 4, 5, 6, 7] ∧ bootError user = none ∧ bootCore user 0 ≠ none ∧
      bootError (modLink user fun l => { l with booted := [(2, 3)] }) = some 3 ∧ imageHeaderOk user = false := by decide

theorem witness_CarveOutBelongsToNoPartition :
    user.link.fwLock = false ∧ 32764 + ([1, 2, 3, 4] : List Byte).length ≤ 32768 ∧ inCarveOut 0x1FE0000000 = true ∧
      inCarveOut 0x1FFFFFFFFF = true ∧ inCarveOut 0x1FDFFFFFFF = false := by decide

def hostPage : State := setGranule user 0x1000000000 { cls := .s }

theorem witness_ErrorsLinksAndPages :
    windowCount user (.cluster 0 0) + 1 < 8 ∧
      8 ≤ windowCount (modCluster user 0 fun c => { c with errors := 7 }) (.cluster 0 0) + 1 ∧
      (getThread (strictAt 0x2000000000000 .link) t0).strict.any (fun x => packTurn (strictAt 0x2000000000000 .link) t0 x) =
        true ∧ portUp user.link .pcie = false ∧ heldHere hostPage 0x100000000 = true ∧
      regionOf (0x100000000 * 65536) = .cxl ∧ lentPage (modPage user 2 fun p => { p with holder := some (.peer 3) }) 2 = true ∧
      extOk { pa := 0x20000, size := 4, store := some [1, 2, 3, 4] } = true ∧ moduleMemory 0x20000 = true ∧
      extWaits user [] .host { pa := 0x20000, size := 4, store := none } = false ∧
      extWaits (setLine user 0x400 { busy := some (t0, []) }) [] .host { pa := 0x20000, size := 4, store := none } = true ∧
      accessBarred (strictAt 0x2000000000000 .link) t0 (acc (.load .n32)) = false ∧
      accessBarred locked t0 { acc (.store [1]) with pa := 0x10000 } = true ∧ cxlDown hostPage = false ∧
      (getPage (modPage hostPage 0x100000000 fun p => { p with departing := true }) 0x100000000).departing = true ∧
      soleCopy (setLine user 0x400 { st := .ow (.cluster 0) }) 0 0x400 = true ∧ soleCopy user 0 0x400 = false ∧
      (mfind (storeBytes user 0x2000 [1]).backing (0x2000 / 128)).isSome = true ∧
      passPort user 0x100000000 = true ∧ nextSched (modLink user fun l => { l with fwState := .running }) 0 = some 0 := by
  decide

theorem witness_XgetWritesLimitAndBase : Wit.ok { i := .xget (op (.g 3) (.x 2) no no .n8 0 0), s := user } = true := by
  decide

theorem witness_LineLayoutAndParity : (placeLine 0).length = 64 ∧ (3 : Nat) < 4 := by decide
end Sys2Proof.Tests
end

section
/-! PROOF. A terminated group's reservations (R214, R315): a state in which the group's last access is performed
again after the group has given its reservations up. -/

namespace Sys2Proof.Machine

/-- A thread with an `LDRSV` outstanding that waits for a page (R193, R212). -/
def staleTid : Tid := ⟨2, 0⟩
def staleAccess : Access := { op := .ldrsv, va := 0x2000, pa := 0x2000, size := 4, dst := .reg 3 1 }
def staleThread : Thread := { run := .parked .strict, strict := some { acc := staleAccess, place := .departing 0 } }
def staleGroup : Group := { gang := 1, threads := [staleThread] }

/-- Its gang is HELD, the home of its line is still busy with its request, and a host load of the same line is held at
that home (R191, R197). -/
def staleHome : State :=
  { groups := [(2, staleGroup)]
    gangs := [(1, { grid := 0, groups := [2], status := .held })]
    dir := [(0x40, { busy := some (staleTid, []) })]
    extHeld := [(0, .host, { pa := 0x2000, size := 4, store := none })] }

/-- No core of the state has an access queued. -/
theorem queue_staleHome (c : Nat) : (getCore staleHome c).queue = [] := rfl

/-- No core of the state is issuing a pack of the group. -/
theorem midPack_staleHome : midPack staleHome 2 = false := rfl

/-- Terminating the group performs the access and drops its reservation, but leaves the home busy with the request; the
host load is then released, and the home serves the request before it, once more. -/
theorem resv_haltGroup_staleHome :
    (haltGroup staleHome 2).resv = [{ tid := staleTid, line := 0x40, slice := 2 }] := by decide

/-- Refutes O51, in its clause that a terminated group leaves no reservation: `terminateGroup` drops the group's
reservations before `releaseHeld`, which can still perform an `LDRSV` of the group. In `staleHome` the thread's access
stands at a page while its line is busy with it and the thread itself is not held; the statement asks only that the
queued accesses be those of their core's threads. -/
theorem not_schedulerInstructions : ¬ Obligations.SchedulerInstructions := by
  unfold Obligations.SchedulerInstructions
  intro h
  obtain ⟨-, -, hterm, -⟩ := h
  have noneQueued : ∀ c, ∀ e ∈ (getCore staleHome c).queue,
      threadCore staleHome e.tid = c ∧ e.tid.gi < (threadGroup staleHome e.tid).threads.length := by
    intro c e he
    rw [queue_staleHome] at he
    exact absurd he List.not_mem_nil
  obtain ⟨-, -, hleft⟩ := hterm staleHome 2 staleGroup rfl noneQueued
  obtain ⟨-, noResv, -⟩ := hleft rfl midPack_staleHome
  have stays : { tid := staleTid, line := 0x40, slice := 2 } ∈ (haltGroup staleHome 2).resv := by
    rw [resv_haltGroup_staleHome]
    exact List.mem_singleton_self _
  exact noResv _ stays rfl

end Sys2Proof.Machine
end

section
/-! PROOF. Posting (R72, R73): a thread that posts waits at its code pointer in its core's block table or overflow
list, and the ends of blocks are posts unless an interrupt is to be taken. -/

namespace Sys2Proof.Machine

theorem mem_mput_same {α : Type} (m : NMap α) (k : Nat) (v : α) : (k, v) ∈ mput m k v := by
  induction m with
  | nil => exact List.mem_singleton_self _
  | cons e m ih =>
    obtain ⟨j, w⟩ := e
    simp only [mput]
    split
    · exact List.mem_cons_self
    · split
      · exact List.mem_cons_self
      · exact List.mem_cons_of_mem _ ih

/-- The table's slot that serves (group, PC) takes the thread's bit. -/
theorem mem_postSlot {grp : Nat} {pc : DWord} {gi stamp : Nat} {m m' : NMap Slot}
    (h : postSlot grp pc gi stamp m = some m') :
    ∃ k sl, (k, sl) ∈ m' ∧ sl.grp = grp ∧ sl.pc = pc ∧ (gi, stamp) ∈ sl.waiting := by
  induction m generalizing m' with
  | nil => cases h
  | cons e m ih =>
    obtain ⟨k, sl⟩ := e
    simp only [postSlot] at h
    split at h
    · rename_i serves
      simp only [Bool.and_eq_true, decide_eq_true_eq] at serves
      cases h
      exact ⟨k, _, List.mem_cons_self, serves.1, serves.2, mem_mput_same _ _ _⟩
    · split at h
      · rename_i rest hr
        cases h
        obtain ⟨j, x, hx, hg, hp, hw⟩ := ih hr
        exact ⟨j, x, List.mem_cons_of_mem _ hx, hg, hp, hw⟩
      · cases h

/-- A core to which a thread posts has it in its table or on its overflow list (R72, R73). -/
theorem waits_postCore (c : Core) (t : Tid) (pc : DWord) :
    (∃ k sl stamp, (k, sl) ∈ (postCore c t pc).table ∧ sl.grp = t.grp ∧ sl.pc = pc ∧ (t.gi, stamp) ∈ sl.waiting) ∨
      ∃ stamp, (t, pc, stamp) ∈ (postCore c t pc).overflow := by
  unfold postCore
  dsimp only
  split
  · rename_i m serves
    obtain ⟨k, sl, hm, hg, hp, hw⟩ := mem_postSlot serves
    exact .inl ⟨k, sl, _, hm, hg, hp, hw⟩
  · split
    · exact .inl ⟨_, _, _, mem_mput_same _ _ _, rfl, rfl, List.mem_singleton_self _⟩
    · exact .inr ⟨_, List.mem_append_right _ (List.mem_singleton_self _)⟩

/-! ## A post changes the thread and its core -/

/-- A thread whose group is not listed does not exist. -/
theorem placed_of_threadExists {s : State} {t : Tid} (h : threadExists s t) : mfind s.groups t.grp ≠ none := by
  intro gone
  simp [threadExists, getGroup, mget, gone, noGroup] at h

theorem getGroup_modGroup_same {s : State} {g : Nat} {f : Group → Group} (placed : mfind s.groups g ≠ none) :
    getGroup (modGroup s g f) g = f (getGroup s g) := by
  obtain ⟨x, hx⟩ := Option.ne_none_iff_exists'.mp placed
  simp [getGroup, modGroup, mget, mfind_mmod, hx]

/-- An update of a thread changes nothing of its group but the threads. -/
theorem getGroup_modThread (s : State) (t : Tid) (f : Thread → Thread) (g : Nat) :
    getGroup (modThread s t f) g = { getGroup s g with threads := (getGroup (modThread s t f) g).threads } := by
  unfold modThread getGroup modGroup mget
  simp only [mfind_mmod]
  split
  · rename_i e
    subst e
    cases mfind s.groups t.grp <;> rfl
  · rfl

section
variable {s : State} {t : Tid} {pc : DWord}

theorem getThread_post_same (h : threadExists s t) :
    getThread (post s t pc) t = { getThread s t with pc := pc, run := .ready, counted := false } :=
  getThread_modThread_same h

theorem getThread_post_ne {v : Tid} (h : v ≠ t) : getThread (post s t pc) v = getThread s v :=
  getThread_modThread_ne h

@[simp] theorem threadCore_post (u : Tid) : threadCore (post s t pc) u = threadCore s u :=
  threadCore_modThread s t u _

theorem getCore_post (c : Nat) :
    getCore (post s t pc) c = if c = threadCore s t then postCore (getCore s c) t pc else getCore s c := by
  unfold post
  rw [getCore_modCore, threadCore_modThread]
  split
  · rename_i e
    rw [e]
    rfl
  · rfl

theorem getGroup_post (g : Nat) :
    getGroup (post s t pc) g = { getGroup s g with threads := (getGroup (post s t pc) g).threads } :=
  getGroup_modThread s t _ g

theorem posted_post (h : threadExists s t) : Posted (post s t pc) t pc := by
  refine ⟨?_, ?_, ?_⟩
  · rw [getThread_post_same h]
  · rw [getThread_post_same h]
  · rw [threadCore_post, getCore_post, if_pos rfl]
    exact waits_postCore _ t pc

/-- A thread that may go on and wakes posts (R78). -/
theorem wake_of_goesOn (h : goesOn s t = true) : wake s t pc = post s t pc := by
  unfold goesOn at h
  unfold wake
  cases e : (getThread s t).run <;> simp [e] at h ⊢

/-- Only a thread that its group lists goes on: what the group does not list reads as DONE. -/
theorem threadExists_of_goesOn (h : goesOn s t = true) : threadExists s t := by
  rcases Nat.lt_or_ge t.gi (getGroup s t.grp).threads.length with inside | beyond
  · exact inside
  · have done : getThread s t = { run := .done } := by
      rw [getThread, List.getD_eq_getElem?_getD, List.getElem?_eq_none beyond, Option.getD_none]
    rw [goesOn, done] at h
    cases h

/-! ## Ends of blocks (R310) -/

theorem endBlock_of_nonePending (h : nonePending s t = true) : endBlock s t pc = wake s t pc := by
  unfold nonePending at h
  unfold endBlock
  cases hi : (getThread s t).inTrap <;> simp_all

theorem endBlock_of_cancel (outside : (getThread s t).inTrap = false) (pending : (getThread s t).cancelPend = true) :
    endBlock s t pc =
      takeTrapWith (modThread s t fun th => { th with cancelPend := false }) t { code := .cancel } pc flagBlockEnd := by
  simp [endBlock, outside, pending]

theorem endBlock_of_userInt (outside : (getThread s t).inTrap = false) (none : (getThread s t).cancelPend = false)
    (pending : (getThread s t).uiPend = true) :
    endBlock s t pc = takeTrapWith s t { code := .userInt, addr := (getThread s t).uiCause.setWidth 64 } pc
      flagBlockEnd := by
  simp [endBlock, outside, none, pending]

end

/-- Settles O21: a block that ends with nothing pending posts, and an interrupt is taken in the order of R310. -/
theorem blockEndsPostOrTakeInterrupts : Obligations.BlockEndsPostOrTakeInterrupts := by
  unfold Obligations.BlockEndsPostOrTakeInterrupts
  refine ⟨fun s t pc listed on none => ?_, fun s t succ outside => ⟨endBlock_of_cancel outside,
    endBlock_of_userInt outside⟩⟩
  have posts : endBlock s t pc = post s t pc := (endBlock_of_nonePending none).trans (wake_of_goesOn on)
  rw [posts]
  exact ⟨posted_post listed, getThread_post_same listed, fun v => getThread_post_ne,
    fun c other => (getCore_post c).trans (if_neg other), getGroup_post, rfl⟩

end Sys2Proof.Machine
end

section
/-! PROOF. What the performing of accesses, late writes and posting leave alone, however many threads they reach:
which groups are placed, which of them have stopped and by what fault, the partitions, and whether the host has heard
of a fatal error. -/

namespace Sys2Proof.Machine

/-- Whether a group has stopped by itself, and the fault that escalated. -/
def Group.standing (g : Group) : Bool × Option FirstFault := (g.stopped, g.fault)

/-- Of every placed group whether it has stopped, the partitions, and whether a fatal error has been reported (R314). -/
def standing (s : State) : (Nat → Option (Bool × Option FirstFault)) × NMap Part × Bool :=
  (fun g => (mfind s.groups g).map Group.standing, s.parts, s.link.reports.contains .fatal)

/-- What `standing` says of one group: it is placed where it was, and stopped as it was. -/
theorem mfind_groups_of_standing {s u : State} (h : standing u = standing s) {g : Nat}
    (placed : mfind s.groups g ≠ none) : mfind u.groups g ≠ none := by
  have same : (mfind u.groups g).map Group.standing = (mfind s.groups g).map Group.standing :=
    congrFun (congrArg Prod.fst h) g
  intro gone
  rw [gone, Option.map_none, eq_comm, Option.map_eq_none_iff] at same
  exact placed same

theorem groupStanding_of_standing {s u : State} (h : standing u = standing s) (g : Nat) :
    (getGroup u g).standing = (getGroup s g).standing := by
  have same : (mfind u.groups g).map Group.standing = (mfind s.groups g).map Group.standing :=
    congrFun (congrArg Prod.fst h) g
  have read (z : State) :
      (getGroup z g).standing = ((mfind z.groups g).map Group.standing).getD noGroup.standing := by
    unfold getGroup mget
    cases mfind z.groups g <;> rfl
  rw [read, read, same]

theorem standing_foldl {α : Type} (f : State → α → State) (h : ∀ s a, standing (f s a) = standing s) (l : List α)
    (s : State) : standing (l.foldl f s) = standing s := by
  induction l generalizing s with
  | nil => rfl
  | cons a l ih => exact (ih (f s a)).trans (h s a)

/-! ## Updates of records -/

theorem standing_modGroup (s : State) (g : Nat) (f : Group → Group) (h : ∀ x, (f x).standing = x.standing) :
    standing (modGroup s g f) = standing s := by
  unfold standing modGroup
  refine Prod.ext (funext fun k => ?_) rfl
  simp only [mfind_mmod]
  by_cases e : k = g
  · subst e
    cases mfind s.groups k <;> simp [h]
  · simp [e]

/-- Whatever an update makes of a group, partitions and reports stay. -/
@[simp] theorem standing_modGroup_snd (s : State) (g : Nat) (f : Group → Group) :
    (standing (modGroup s g f)).2 = (standing s).2 := rfl
@[simp] theorem standing_modThread (s : State) (t : Tid) (f : Thread → Thread) :
    standing (modThread s t f) = standing s := standing_modGroup s t.grp _ fun _ => rfl
@[simp] theorem standing_modCore (s : State) (c : Nat) (f : Core → Core) : standing (modCore s c f) = standing s := rfl
@[simp] theorem standing_modGang (s : State) (g : Nat) (f : Gang → Gang) : standing (modGang s g f) = standing s := rfl
@[simp] theorem standing_setLine (s : State) (l : Nat) (v : Line) : standing (setLine s l v) = standing s := rfl
@[simp] theorem standing_setGranule (s : State) (g : Nat) (v : Granule) : standing (setGranule s g v) = standing s := rfl

/-- A report that is not of a fatal error. -/
theorem standing_report (s : State) {r : Report} (h : r ≠ .fatal) : standing (report s r) = standing s := by
  have kept : (s.link.reports ++ [r]).contains .fatal = s.link.reports.contains .fatal := by
    simp [h.symm]
  exact congrArg (fun b => ((fun g => (mfind s.groups g).map Group.standing), s.parts, b)) kept

/-! ## Destinations -/

@[simp] theorem standing_setReg (s : State) (t : Tid) (c : Nat) (v : Word) (m : Option DWord) :
    standing (setReg s t c v m) = standing s := by
  unfold setReg
  split
  · exact standing_modThread s t _
  · exact standing_modGroup s t.grp _ fun _ => rfl

@[simp] theorem standing_setRegs (s : State) (t : Tid) (c w v : Nat) (m : Option DWord) :
    standing (setRegs s t c w v m) = standing s := by
  induction w generalizing s c v with
  | zero => rfl
  | succ w ih => simp [setRegs, ih]

@[simp] theorem standing_setPred (s : State) (t : Tid) (n : Nat) (b : Bool) :
    standing (setPred s t n b) = standing s := by
  unfold setPred
  split <;> simp

@[simp] theorem standing_writeDest (s : State) (t : Tid) (d : Dest) (v : Nat) (m : Option DWord) :
    standing (writeDest s t d v m) = standing s := by
  cases d with
  | none => rfl
  | reg c w => exact standing_setRegs s t c w v m
  | pred n => exact standing_setPred s t n _
  | shape n => exact standing_modGroup s t.grp _ fun _ => rfl

@[simp] theorem standing_addFlags (s : State) (t : Tid) (f : Flags) : standing (addFlags s t f) = standing s :=
  standing_modThread s t _

/-! ## One access -/

@[simp] theorem standing_keepBacking (s : State) (a n : Nat) : standing (keepBacking s a n) = standing s :=
  standing_foldl (keepBeneath true) (fun _ _ => rfl) (linesOf a n) s

@[simp] theorem standing_adoptWay (s : State) (ck a n : Nat) : standing (adoptWay s ck a n) = standing s :=
  standing_keepBacking s a n

@[simp] theorem standing_storeBytes (s : State) (a : Nat) (bs : List Byte) :
    standing (storeBytes s a bs) = standing s := standing_keepBacking s a bs.length

@[simp] theorem standing_loseResv (s : State) (t : Option Tid) (a n : Nat) :
    standing (loseResv s t a n) = standing s := rfl
@[simp] theorem standing_dropResv (s : State) (t : Tid) : standing (dropResv s t) = standing s := rfl
@[simp] theorem standing_takeResv (s : State) (t : Tid) (pa : Nat) : standing (takeResv s t pa) = standing s := rfl
@[simp] theorem standing_dropWays (s : State) (p : Nat → Bool) : standing (dropWays s p) = standing s := rfl

@[simp] theorem standing_writeThrough (s : State) (a n : Nat) : standing (writeThrough s a n) = standing s := by
  refine standing_foldl _ (fun s l => ?_) _ s
  unfold writeBack
  split <;> rfl

@[simp] theorem standing_atomicWrite (s : State) (t : Tid) (a : Access) (bs : List Byte) :
    standing (atomicWrite s t a bs) = standing s := by
  have kept (u : State) (b : Bool) (ck : Nat) :
      standing (if b then adoptWay u ck a.pa bs.length else keepBacking u a.pa bs.length) = standing u := by
    split <;> simp
  exact kept (loseResv s (some t) a.pa bs.length) _ _

@[simp] theorem standing_poisonMet (s : State) (d : Nat) : standing (report s (.poisonMet d)) = standing s :=
  standing_report s (by simp)

@[simp] theorem standing_performMem (s : State) (t : Tid) (a : Access) : standing (performMem s t a) = standing s := by
  cases e : a.op with
  | load ty => simp [performMem, e]
  | store bs => simp [performMem, e]
  | atom op ty v r =>
    simp only [performMem, e]
    split <;> split <;> simp
  | cas cmp new =>
    simp only [performMem, e, standing_writeDest]
    split <;> simp
  | axadd ty v =>
    simp only [performMem, e]
    split <;> simp
  | axrd clr =>
    simp only [performMem, e, standing_addFlags, standing_writeDest]
    split <;> simp
  | amaxi p =>
    simp only [performMem, e, standing_writeDest]
    split <;> simp
  | ldrsv => simp [performMem, e]
  | stcnd bs =>
    simp only [performMem, e, standing_writeDest]
    split <;> simp

/-! ## Queues and late writes -/

@[simp] theorem standing_uncount (s : State) (t : Tid) (op : MemOp) : standing (uncount s t op) = standing s :=
  standing_modThread s t _

@[simp] theorem standing_startOps (s : State) (c : Nat) (ks : List Nat) : standing (startOps s c ks) = standing s := by
  induction ks generalizing s with
  | nil => rfl
  | cons k ks ih =>
    unfold startOps
    split
    · exact ih s
    · split
      · rw [ih]
        split <;> rfl
      · exact ih s

@[simp] theorem standing_performHead (s : State) (c : Nat) : standing (performHead s c) = standing s := by
  unfold performHead
  split
  · rfl
  · simp

@[simp] theorem standing_performHeads (s : State) (c n : Nat) : standing (performHeads s c n) = standing s := by
  induction n generalizing s with
  | zero => rfl
  | succ n ih => simp [performHeads, ih]

@[simp] theorem standing_drain (s : State) (c : Nat) (p : QEntry → Bool) : standing (drain s c p) = standing s :=
  standing_performHeads s c _

@[simp] theorem standing_makeOne (t : Tid) (s : State) (l : LateWrite) : standing (makeOne t s l) = standing s := by
  simp [makeOne]

@[simp] theorem standing_makeLate (t : Tid) (s : State) (l : LateWrite) : standing (makeLate t s l) = standing s := by
  have same (d : Dest) (u : State) (v : Tid) : standing (makeSame d u v) = standing u :=
    standing_foldl _ (standing_makeOne v) _ u
  unfold makeLate
  split
  · rw [standing_makeOne, standing_foldl _ (same l.dst)]
  · exact standing_makeOne t s l

@[simp] theorem standing_completeAll (s : State) (t : Tid) : standing (completeAll s t) = standing s := by
  unfold completeAll writeLates makeLates
  rw [standing_foldl _ (standing_makeLate t), standing_drain]

/-! ## Posting and holding -/

@[simp] theorem standing_wake (s : State) (t : Tid) (pc : DWord) : standing (wake s t pc) = standing s := by
  unfold wake
  split <;> simp [post]

@[simp] theorem standing_strictDone (s : State) (t : Tid) : standing (strictDone s t) = standing s := by
  unfold strictDone
  dsimp only
  rw [standing_wake, standing_modThread]
  split <;> rfl

@[simp] theorem standing_holdGroup (s : State) (g : Nat) : standing (holdGroup s g) = standing s := by
  have held (u : State) (t : Tid) : standing (holdThread u t) = standing u := by simp [holdThread]
  unfold holdGroup
  exact standing_foldl _ held _ _

@[simp] theorem standing_holdSoon (s : State) (g : Nat) : standing (holdSoon s g) = standing s := by
  unfold holdSoon
  split
  · rfl
  · exact standing_holdGroup s g

/-! ## Homes -/

@[simp] theorem standing_setPlace (s : State) (t : Tid) (p : Place) : standing (setPlace s t p) = standing s :=
  standing_modThread s t _

@[simp] theorem standing_serveLine (s : State) (t : Tid) (op : MemOp) (l : Nat) :
    standing (serveLine s t op l) = standing s := standing_setPlace _ t _

@[simp] theorem standing_homeRequest (s : State) (t : Tid) : standing (homeRequest s t) = standing s := by
  unfold homeRequest
  split
  · rfl
  · split
    · simp
    · dsimp only
      split
      · simp
      · split
        · simp
        · split
          · simp
          · exact standing_setPlace s t .home

@[simp] theorem standing_admitRefused (s : State) (slice fuel : Nat) :
    standing (admitRefused s slice fuel) = standing s := by
  induction fuel generalizing s with
  | zero => rfl
  | succ fuel ih =>
    unfold admitRefused
    split
    · rfl
    · split
      · dsimp only
        rw [ih]
        split
        · rfl
        · split
          · rw [standing_serveLine]; rfl
          · rfl
      · rfl

@[simp] theorem standing_finishLine (s : State) (l : Nat) (st : DirState) :
    standing (finishLine s l st) = standing s := by
  unfold finishLine
  dsimp only
  split
  · simp
  · rw [standing_admitRefused]
    split <;> simp

@[simp] theorem standing_releaseLine (s : State) (t : Tid) (l : Nat) (st : DirState) :
    standing (releaseLine s t l st) = standing s := by
  unfold releaseLine
  split
  · split <;> simp
  · rfl

@[simp] theorem standing_performLocal (s : State) (t : Tid) (a : Access) :
    standing (performLocal s t a) = standing s := by
  unfold performLocal
  dsimp only
  rw [standing_performMem]
  split <;> simp

@[simp] theorem standing_performReady (p : Nat → Bool) (g fuel : Nat) (s : State) :
    standing (performReady p g fuel s) = standing s := by
  induction fuel generalizing s with
  | zero => rfl
  | succ fuel ih =>
    unfold performReady
    split
    · rfl
    · split
      · rfl
      · simp [ih]

@[simp] theorem standing_barRequest (s : State) (t : Tid) (x : Strict) (l : Nat) :
    standing (barRequest s t x l) = standing s := by
  simp [barRequest, waitTrap]

@[simp] theorem standing_flushLine (fuel : Nat) (s : State) (l : Nat) : standing (flushLine fuel s l) = standing s := by
  induction fuel generalizing s with
  | zero => rfl
  | succ fuel ih =>
    unfold flushLine
    dsimp only
    split
    · rfl
    · split
      · rfl
      · split
        · simp [ih]
        · split
          · simp [ih]
          · rfl

@[simp] theorem standing_flushSlice (s : State) (slice : Nat) : standing (flushSlice s slice) = standing s :=
  standing_foldl _ (fun u l => standing_flushLine (strictCount u + 1) u l) _ s

@[simp] theorem standing_flushHome (l fuel : Nat) (s : State) : standing (flushHome l fuel s) = standing s := by
  induction fuel generalizing s with
  | zero => exact standing_flushLine _ s l
  | succ fuel ih =>
    unfold flushHome
    split
    · rw [ih, standing_flushSlice]
    · exact standing_flushLine _ s l

@[simp] theorem standing_flushRange (s : State) (pa n : Nat) : standing (flushRange s pa n) = standing s :=
  standing_foldl _ (fun u l => standing_flushHome l (strictCount u) u) _ s

/-! ## Events -/

@[simp] theorem standing_drainAgent (g : Nat) (s : State) (a : Agent) : standing (drainAgent g s a) = standing s := by
  cases a <;> simp [drainAgent]

@[simp] theorem standing_annealNow (s : State) (g : Nat) (c : Class) : standing (annealNow s g c) = standing s := by
  have point (u : State) : standing (annealPoint u g c) = standing u :=
    standing_foldl _ standing_homeRequest _ _
  unfold annealNow
  rw [point]
  exact standing_foldl _ (standing_drainAgent g) _ s

@[simp] theorem standing_eventGranule (s : State) (who : Agent) (pa : Nat) (store force host : Bool) :
    standing (eventGranule s who pa store force host) = standing s := by
  unfold eventGranule
  split
  · dsimp only
    rw [standing_drainAgent]
    split <;> split <;> simp
  · rfl

@[simp] theorem standing_lineEvent (s : State) (who : Agent) (pa n : Nat) (store host : Bool) :
    standing (lineEvent s who pa n store host) = standing s := by
  refine standing_foldl _ (fun u l => ?_) _ s
  split <;> rfl

@[simp] theorem standing_eventAccessRange (s : State) (who : Agent) (pa n : Nat) (store force host : Bool) :
    standing (eventAccessRange s who pa n store force host) = standing s := by
  unfold eventAccessRange
  dsimp only
  rw [standing_lineEvent, standing_flushRange]
  exact standing_foldl _ (fun u g => standing_eventGranule u who (max pa (g * 4096)) store force host) _ s

@[simp] theorem standing_writeEvent (s : State) (who : Agent) (pa : Nat) (bs : List Byte) (force host : Bool) :
    standing (writeEvent s who pa bs force host) = standing s := by
  have dropped (u : State) : standing (invalidateRange (loseResv u none pa bs.length) pa bs.length) = standing u := rfl
  unfold writeEvent
  dsimp only
  split <;> simp [dropped]

/-! ## Records of escalations -/

@[simp] theorem standing_postEscalation (s : State) (die : Nat) (e : Escalation) :
    standing (postEscalation s die e) = standing s := by
  have stored (n : Nat) : standing (ringStore s die n e) = standing s := by
    unfold ringStore
    dsimp only
    split
    · rfl
    · exact standing_writeEvent s _ _ _ _ _
  unfold postEscalation
  split
  · exact stored _
  · rfl

end Sys2Proof.Machine
end

section
/-! PROOF. Taking an exception (R79, R193, R309, R314): the cases of trap entry, what escalation marks, and the layout
of a record. -/

namespace Sys2Proof.Machine

/-! ## What names a thread -/

section
variable (s : State) (t u : Tid) (f : Thread → Thread)

@[simp] theorem threadGrid_modThread : threadGrid (modThread s t f) u = threadGrid s u :=
  congrArg (fun k => mfind s.grids (getGang s k).grid)
    (getGroup_modThread_keep Group.gang s t u.grp f fun _ _ => rfl)

@[simp] theorem linearOf_modThread : linearOf (modThread s t f) u = linearOf s u :=
  getGroup_modThread_keep (fun g => g.num * g.gsize + u.gi) s t u.grp f fun _ _ => rfl

@[simp] theorem threadWorkid_modThread : threadWorkid (modThread s t f) u = threadWorkid s u := by
  simp [threadWorkid]

@[simp] theorem threadPart_modThread : threadPart (modThread s t f) u = threadPart s u := by
  unfold threadPart
  rw [threadCore_modThread]
  rfl

end

/-! ## Escalation -/

theorem stopped_leaveStream (s : State) (t : Tid) :
    (getGroup (leaveStream s t) t.grp).stopped = (threadGroup s t).stopped :=
  getGroup_modThread_keep Group.stopped s t t.grp _ fun _ _ => rfl

/-- A group that has stopped makes no further record (log 41): its thread leaves the stream, and that is all. -/
theorem escalate_stopped {s : State} {t : Tid} (h : (threadGroup s t).stopped = true) (code : Code) (orig reason : Nat)
    (epc addr : DWord) (flags : Nat) : escalate s t code orig reason epc addr flags = leaveStream s t := by
  have still : (getGroup (leaveStream s t) t.grp).stopped = true :=
    (stopped_leaveStream s t).trans h
  unfold escalate
  exact if_pos still

/-- A user thread's escalation stops its group, whose fault is the one that escalated (R291, R314). -/
theorem escalateRecord_group {s : State} {e : Escalation} (placed : mfind s.groups e.grp ≠ none) :
    (getGroup (escalateRecord s e) e.grp).standing =
      (true, some { code := e.code, workid := threadWorkid s ⟨e.grp, e.gi⟩, addr := e.addr }) := by
  unfold escalateRecord
  dsimp only
  rw [groupStanding_of_standing (standing_postEscalation _ _ _)]
  have there : mfind (holdSoon s e.grp).groups e.grp ≠ none :=
    mfind_groups_of_standing (standing_holdSoon s e.grp) placed
  exact congrArg Group.standing (getGroup_modGroup_same there)

/-- Every escalation of a running group of a user core is such a record. -/
theorem escalate_user {s : State} {t : Tid} (running : (threadGroup s t).stopped = false) (user : isPriv s t = false)
    (placed : mfind s.groups t.grp ≠ none) (code : Code) (orig reason : Nat) (epc addr : DWord) (flags : Nat) :
    (getGroup (escalate s t code orig reason epc addr flags) t.grp).standing =
      (true, some { code := code, workid := threadWorkid s t, addr := addr }) := by
  have still : (getGroup (leaveStream s t) t.grp).stopped = false :=
    (stopped_leaveStream s t).trans running
  have kept : mfind (leaveStream s t).groups t.grp ≠ none :=
    mfind_groups_of_standing (standing_modThread s t _) placed
  have same : threadWorkid (leaveStream s t) t = threadWorkid s t := threadWorkid_modThread s t t _
  have mode : isPriv (leaveStream s t) t = false := (isPriv_modThread s t t _).trans user
  unfold escalate
  dsimp only
  rw [if_neg (by simp [still]), if_neg (by simp [mode]), escalateRecord_group kept, same]

/-- A partition that stops is marked, and the host hears of a fatal error, whatever the threads of its groups still had
outstanding (R314). -/
theorem stopPartition_stops (s : State) (t : Tid) :
    (getPart (stopPartition s t) (threadPart s t)).stopped = true ∧
      Report.fatal ∈ (stopPartition s t).link.reports := by
  have kept (gs : List Nat) (u : State) : (standing (gs.foldl (fun s g =>
      modGroup (holdSoon s g) g fun x => { x with stopped := true }) u)).2 = (standing u).2 := by
    induction gs generalizing u with
    | nil => rfl
    | cons g gs ih => rw [List.foldl_cons, ih, standing_modGroup_snd, standing_holdSoon]
  have said : (standing (stopPartition s t)).2 = (standing (modPart (report s .fatal) (threadPart s t) fun x =>
      { x with stopped := true })).2 := kept _ _
  have parts : (stopPartition s t).parts = mupd {} s.parts (threadPart s t) fun x => { x with stopped := true } :=
    congrArg Prod.fst said
  have fatal : (stopPartition s t).link.reports.contains .fatal = (s.link.reports ++ [Report.fatal]).contains .fatal :=
    congrArg Prod.snd said
  constructor
  · rw [getPart, parts, mget_mupd, if_pos rfl]
  · rw [← List.contains_iff_mem, fatal]
    simp

/-- That of a scheduler core's thread stops its partition and is reported as fatal (R314, log 41). -/
theorem escalate_priv {s : State} {t : Tid} (running : (threadGroup s t).stopped = false) (priv : isPriv s t = true)
    (code : Code) (orig reason : Nat) (epc addr : DWord) (flags : Nat) :
    let x := escalate s t code orig reason epc addr flags
    (getPart x (threadPart s t)).stopped = true ∧ Report.fatal ∈ x.link.reports := by
  have still : (getGroup (leaveStream s t) t.grp).stopped = false :=
    (stopped_leaveStream s t).trans running
  have mode : isPriv (leaveStream s t) t = true := (isPriv_modThread s t t _).trans priv
  have same : threadPart (leaveStream s t) t = threadPart s t := threadPart_modThread s t t _
  unfold escalate
  dsimp only
  rw [if_neg (by simp [still]), if_pos mode, ← same]
  exact stopPartition_stops (leaveStream s t) t

/-! ## Trap entry -/

/-- The state in which a thread takes a trap: its outstanding register writes have completed, and its reservation is
lost (R79 step 1). -/
abbrev atTrap (s : State) (t : Tid) : State := dropResv (completeRegs s t) t

section
variable {s w : State} {t : Tid} {e : Exc} {tepc : DWord} {flags : Nat} {l : Lack}

theorem takeTrapWith_done (ended : (getThread (atTrap s t) t).run = .done) :
    takeTrapWith s t e tepc flags = atTrap s t := if_pos ended

variable (live : (getThread (atTrap s t) t).run ≠ .done)
include live

theorem takeTrapWith_nested (inside : (getThread (atTrap s t) t).inTrap = true) :
    takeTrapWith s t e tepc flags = escalate (modThread (atTrap s t) t fun th => { th with pc := tepc }) t .nestedFault
      (getThread (atTrap s t) t).tcause.toNat 1 tepc e.addr flags :=
  (if_neg live).trans (if_pos inside)

variable (outside : ¬(getThread (atTrap s t) t).inTrap = true)
include outside

theorem takeTrapWith_noHandler (none : (threadGroup (atTrap s t) t).tvec = 0) :
    takeTrapWith s t e tepc flags =
      escalate (modThread (atTrap s t) t fun th => { th with pc := tepc }) t e.code 0 0 tepc e.addr flags :=
  (if_neg live).trans ((if_neg outside).trans (if_pos none))

variable (handler : (threadGroup (atTrap s t) t).tvec ≠ 0)
include handler

theorem takeTrapWith_lacks (lack : recordLack (atTrap s t) t = some l) :
    takeTrapWith s t e tepc flags = parkTrap (atTrap s t) t e tepc flags l := by
  refine (if_neg live).trans ((if_neg outside).trans ((if_neg handler).trans ?_))
  rw [lack]

variable (complete : recordLack (atTrap s t) t = none)
include complete

theorem takeTrapWith_recorded (rec : appendRecord (atTrap s t) t e tepc flags = some w) :
    takeTrapWith s t e tepc flags = enterHandler w t e tepc := by
  refine (if_neg live).trans ((if_neg outside).trans ((if_neg handler).trans ?_))
  rw [complete, rec]

theorem takeTrapWith_unrecorded (rec : appendRecord (atTrap s t) t e tepc flags = none) :
    takeTrapWith s t e tepc flags = escalate (modThread (atTrap s t) t fun th => { th with pc := tepc }) t .nestedFault
      (codeNum e.code) 1 tepc e.addr flags := by
  refine (if_neg live).trans ((if_neg outside).trans ((if_neg handler).trans ?_))
  rw [complete, rec]

end

/-! ## Waiting for the record's pages, and entering the handler -/

section
variable {s : State} {t : Tid} {e : Exc} {tepc : DWord} {flags : Nat}

/-- A thread that may go on parks until it can take its trap (R193, R330). -/
theorem getThread_waitTrap (on : goesOn s t = true) (listed : threadExists s t) :
    getThread (waitTrap s t e tepc flags) t =
      { getThread s t with run := .parked (.trap e tepc flags (getCore s (threadCore s t)).packs) } := by
  unfold goesOn at on
  unfold waitTrap
  rw [getThread_modThread_same listed]
  cases h : (getThread s t).run <;> simp [h] at on ⊢

theorem settleWait_trap_lacks {l : Lack} (n : Nat) (lack : recordLack s t = some l) :
    settleWait s t (.trap e tepc flags n) = askFor s t l := by
  show settleTrap s t e tepc flags = _
  unfold settleTrap
  rw [lack]

theorem settleWait_trap_ready (n : Nat) (lack : recordLack s t = none) :
    settleWait s t (.trap e tepc flags n) =
      modThread (takeTrapWith s t e tepc flags) t fun th => { th with walkFails := [] } := by
  show settleTrap s t e tepc flags = _
  unfold settleTrap
  rw [lack]

/-- Without a TREC no record is made, and none lacks anything (R309). -/
theorem record_none (none : (threadGroup s t).trec = 0) :
    recordLack s t = .none ∧ appendRecord s t e tepc flags = some s := ⟨if_pos none, if_pos none⟩

/-- What trap entry saves in the thread (R79 step 2). -/
def savedTrap (e : Exc) (tepc : DWord) (th : Thread) : Thread :=
  { th with tcause := BitVec.ofNat 32 (codeNum e.code), tepc := tepc, taddr := e.addr, inTrap := true,
            checkTvec := true }

theorem goesOn_savedTrap (on : goesOn s t = true) : goesOn (modThread s t (savedTrap e tepc)) t = true := by
  have same : (getThread (modThread s t (savedTrap e tepc)) t).run = (getThread s t).run :=
    getThread_modThread_keep Thread.run s t t _ fun _ => rfl
  unfold goesOn at on ⊢
  rwa [same]

/-- A thread that may go on enters its group's handler by a post (R79 step 3). -/
theorem enterHandler_posts (on : goesOn s t = true) :
    enterHandler s t e tepc = post (modThread s t (savedTrap e tepc)) t (threadGroup s t).tvec := by
  have entry : (threadGroup (modThread s t (savedTrap e tepc)) t).tvec = (threadGroup s t).tvec :=
    getGroup_modThread_keep Group.tvec s t t.grp _ fun _ _ => rfl
  have saved : enterHandler s t e tepc = wake (modThread s t (savedTrap e tepc)) t
    (threadGroup (modThread s t (savedTrap e tepc)) t).tvec := rfl
  rw [saved, entry, wake_of_goesOn (goesOn_savedTrap on)]

/-- What stands then: the thread waits at TVEC with the trap saved, and no other thread nor memory has changed. -/
theorem enterHandler_spec (on : goesOn s t = true) :
    Posted (enterHandler s t e tepc) t (threadGroup s t).tvec ∧
      getThread (enterHandler s t e tepc) t = { savedTrap e tepc (getThread s t) with
        pc := (threadGroup s t).tvec, run := .ready, counted := false } ∧
      (∀ y, y ≠ t → getThread (enterHandler s t e tepc) y = getThread s y) ∧
      (enterHandler s t e tepc).mem = s.mem := by
  have listed : threadExists s t := threadExists_of_goesOn on
  have still : threadExists (modThread s t (savedTrap e tepc)) t := threadExists_modThread listed
  rw [enterHandler_posts on]
  refine ⟨posted_post still, ?_, fun y other => ?_, rfl⟩
  · rw [getThread_post_same still, getThread_modThread_same listed]
  · rw [getThread_post_ne other, getThread_modThread_ne other]

end

/-! ## The layout of a record (Table 16-7) -/

theorem length_bytesLE (n v : Nat) : (bytesLE n v).length = n := by
  induction n generalizing v with
  | zero => rfl
  | succ n ih => exact congrArg (· + 1) (ih (v / 256))

theorem ofBytesLE_bytesLE (n v : Nat) : ofBytesLE (bytesLE n v) = v % 256 ^ n := by
  induction n generalizing v with
  | zero => simp [bytesLE, ofBytesLE, Nat.mod_one]
  | succ n ih =>
    rw [bytesLE, ofBytesLE, ih, BitVec.toNat_ofNat, Nat.pow_succ' (m := 256)]
    exact Nat.mod_mul.symm

/-- Numbers laid out one after the other, each with its size in bytes. -/
def layOut (fields : List (Nat × Nat)) : List Byte := fields.flatMap fun f => bytesLE f.1 f.2

/-- Where a field begins: after those before it. -/
def fieldAt : List (Nat × Nat) → Nat → Nat
  | f :: fields, i + 1 => f.1 + fieldAt fields i
  | _, _ => 0

/-- A field reads back, cut to its size. -/
theorem ofBytesLE_layOut {fields : List (Nat × Nat)} {i n v : Nat} (h : fields[i]? = some (n, v)) :
    ofBytesLE (((layOut fields).drop (fieldAt fields i)).take n) = v % 256 ^ n := by
  induction fields generalizing i with
  | nil => simp at h
  | cons f fields ih =>
    have split : layOut (f :: fields) = bytesLE f.1 f.2 ++ layOut fields := rfl
    rw [split]
    cases i with
    | zero =>
      simp only [List.getElem?_cons_zero, Option.some.injEq] at h
      subst h
      have whole : ((bytesLE n v ++ layOut fields).drop 0).take n = bytesLE n v :=
        List.take_left' (length_bytesLE n v)
      exact (congrArg ofBytesLE whole).trans (ofBytesLE_bytesLE n v)
    | succ i =>
      have start : fieldAt (f :: fields) (i + 1) = (bytesLE f.1 f.2).length + fieldAt fields i := by
        rw [fieldAt, length_bytesLE]
      rw [start, List.drop_length_add_append]
      exact ih h

/-- The fields of a record, in the order of Table 16-7; eight bytes between DEPTH and REASON are zero. -/
def recordFields (r : Record) : List (Nat × Nat) :=
  [(2, r.code), (2, r.flags), (4, r.gi), (8, r.tepc.toNat), (8, r.taddr.toNat), (8, r.workid.toNat), (4, r.seq),
    (4, r.depth), (8, 0), (4, r.reason), (4, r.orig), (4, r.grid.toNat), (4, r.phys.toNat)]

theorem recordBytes_eq (r : Record) : recordBytes r = layOut (recordFields r) := by
  simp [recordBytes, layOut, recordFields, bytesLE]

/-- Field `i` of a record of `n` bytes, at its place. -/
theorem recordField {r : Record} (i n v at_ m : Nat) (h : (recordFields r)[i]? = some (n, v))
    (place : fieldAt (recordFields r) i = at_) (size : 256 ^ n = m) :
    ofBytesLE (((recordBytes r).drop at_).take n) = v % m := by
  rw [recordBytes_eq, ← place, ← size]
  exact ofBytesLE_layOut h

/-- The same for a field that holds a register of its size, of which nothing is cut. -/
theorem recordField_whole {r : Record} {b : Nat} (v : BitVec b) (i n at_ : Nat)
    (h : (recordFields r)[i]? = some (n, v.toNat)) (place : fieldAt (recordFields r) i = at_) (size : 256 ^ n = 2 ^ b) :
    ofBytesLE (((recordBytes r).drop at_).take n) = v.toNat :=
  (recordField i n v.toNat at_ _ h place size).trans (Nat.mod_eq_of_lt v.isLt)

/-- Table 16-7. -/
theorem record_layout (r : Record) :
    let field (at_ n : Nat) : Nat := ofBytesLE (((recordBytes r).drop at_).take n)
    (recordBytes r).length = 64 ∧ field 0 2 = r.code % 2 ^ 16 ∧ field 2 2 = r.flags % 2 ^ 16 ∧
      field 4 4 = r.gi % 2 ^ 32 ∧ field 8 8 = r.tepc.toNat ∧ field 16 8 = r.taddr.toNat ∧
      field 24 8 = r.workid.toNat ∧ field 32 4 = r.seq % 2 ^ 32 ∧ field 36 4 = r.depth % 2 ^ 32 ∧
      field 40 8 = 0 ∧ field 48 4 = r.reason % 2 ^ 32 ∧ field 52 4 = r.orig % 2 ^ 32 ∧
      field 56 4 = r.grid.toNat ∧ field 60 4 = r.phys.toNat := by
  have size2 : 256 ^ 2 = 2 ^ 16 := by decide
  have size4 : 256 ^ 4 = 2 ^ 32 := by decide
  have size8 : 256 ^ 8 = 2 ^ 64 := by decide
  have zeros := recordField (r := r) 8 8 0 40 _ rfl rfl size8
  refine ⟨by simp [recordBytes, length_bytesLE], recordField 0 2 _ _ _ rfl rfl size2,
    recordField 1 2 _ _ _ rfl rfl size2, recordField 2 4 _ _ _ rfl rfl size4,
    recordField_whole r.tepc 3 8 _ rfl rfl size8, recordField_whole r.taddr 4 8 _ rfl rfl size8,
    recordField_whole r.workid 5 8 _ rfl rfl size8, recordField 6 4 _ _ _ rfl rfl size4,
    recordField 7 4 _ _ _ rfl rfl size4, zeros, recordField 9 4 _ _ _ rfl rfl size4,
    recordField 10 4 _ _ _ rfl rfl size4, recordField_whole r.grid 11 4 _ rfl rfl size4,
    recordField_whole r.phys 12 4 _ rfl rfl size4⟩

/-- Settles O49: trap entry case by case, the marks of an escalation, and the record's fields. -/
theorem takingAnException : Obligations.TakingAnException := by
  unfold Obligations.TakingAnException
  intro s t e tepc flags orig reason w r l u th tvec v out x field
  have outside (h : th.inTrap = false) : ¬th.inTrap = true := by simp [h]
  have outGroup {α : Type} (p : Group → α) (h : ∀ y m, p { y with threads := m } = p y) :
      p (threadGroup out t) = p (threadGroup u t) := getGroup_modThread_keep p u t t.grp _ h
  have outStopped : (threadGroup out t).stopped = (threadGroup u t).stopped := outGroup Group.stopped fun _ _ => rfl
  have outPriv : isPriv out t = isPriv u t := isPriv_modThread u t t _
  refine ⟨takeTrapWith_done, takeTrapWith_nested, fun live hin => takeTrapWith_noHandler live (outside hin),
    fun live hin => takeTrapWith_lacks live (outside hin), getThread_waitTrap, fun n => settleWait_trap_lacks n,
    fun n => settleWait_trap_ready n, fun live hin => takeTrapWith_unrecorded live (outside hin),
    fun live hin handler complete rec on => ?_, record_none, fun still => ?_, fun user placed running => ?_,
    fun priv running => ?_, ?_, by decide⟩
  · have entered : v = enterHandler w t e tepc := takeTrapWith_recorded live (outside hin) handler complete rec
    rw [entered]
    exact enterHandler_spec on
  · exact escalate_stopped (outStopped.trans still) _ _ _ _ _ _
  · have marked := escalate_user (outStopped.trans running) (outPriv.trans user)
      (mfind_groups_of_standing (standing_modThread u t _) placed) e.code orig reason tepc e.addr flags
    rw [threadWorkid_modThread] at marked
    exact Prod.mk.inj marked
  · have stopped := escalate_priv (outStopped.trans running) (outPriv.trans priv) e.code orig reason tepc e.addr flags
    rw [threadPart_modThread] at stopped
    exact stopped
  · exact record_layout r

end Sys2Proof.Machine
end

section
/-! PROOF. Special registers (R65 to R68, R106, R320): what `MOVS`, `CLK` and `IDPHYS` read in the state at their
effect, which is what the state before reads, and what `MSS` writes. -/

namespace Sys2Proof.Machine

theorem threadExists_issued {i : Instr} {s : State} {cx : Ctx} (h : Acts i s cx) :
    threadExists (issued i s cx.t) cx.t := threadExists_modThread h.thread

/-! ## Reads -/

/-- An instruction whose effect is its result gives it. -/
theorem gives_of_finish {i : Instr} {s : State} {cx : Ctx} {v : Nat} (h : Acts i s cx)
    (runs : exec i s = .next (finish cx (issued i s cx.t) v)) : Gives i s cx v := by
  obtain ⟨held, next, -, -⟩ := finish_spec (v := v) (threadExists_issued h)
  exact ⟨_, runs, held, next.trans (congrArg nextPc (countIssue_pc s cx.t cx.t _))⟩

/-- What user code gets of a clock or an identifier: zero, with TSTICKY set (R67). -/
theorem hidden_of_finish {i : Instr} {s : State} {cx : Ctx} {bits : BitVec 2} (h : Acts i s cx)
    (runs : exec i s = .next (finish cx (setSticky (issued i s cx.t) cx.t bits) 0)) :
    ∃ u, exec i s = .next u ∧ Holds u cx.t cx.dst 0 ∧
      (getThread u cx.t).tsticky = (getThread s cx.t).tsticky ||| bits ∧
      (getThread u cx.t).pc = nextPc (getThread s cx.t).pc := by
  have listed := threadExists_issued h
  have marked : getThread (setSticky (issued i s cx.t) cx.t bits) cx.t =
      { getThread (issued i s cx.t) cx.t with tsticky := (getThread (issued i s cx.t) cx.t).tsticky ||| bits } :=
    getThread_modThread_same listed
  have still : threadExists (setSticky (issued i s cx.t) cx.t bits) cx.t := threadExists_modThread listed
  obtain ⟨held, next, -, same⟩ := finish_spec (v := 0) still
  rw [marked] at next same
  refine ⟨_, runs, held, ?_, next.trans (congrArg nextPc (countIssue_pc s cx.t cx.t _))⟩
  exact (congrArg Thread.tsticky same).trans (congrArg (· ||| bits) (countIssue_tsticky s cx.t cx.t _))

section
variable (s : State) (t u : Tid) (own : Bool)

@[simp] theorem countIssue_prio : (threadGroup (countIssue s t own) u).prio = (threadGroup s u).prio :=
  getGroup_countIssue_keep s t own Group.prio u.grp fun _ _ => rfl
@[simp] theorem countIssue_gsize : (threadGroup (countIssue s t own) u).gsize = (threadGroup s u).gsize :=
  getGroup_countIssue_keep s t own Group.gsize u.grp fun _ _ => rfl
@[simp] theorem countIssue_tvec : (threadGroup (countIssue s t own) u).tvec = (threadGroup s u).tvec :=
  getGroup_countIssue_keep s t own Group.tvec u.grp fun _ _ => rfl
@[simp] theorem countIssue_trec : (threadGroup (countIssue s t own) u).trec = (threadGroup s u).trec :=
  getGroup_countIssue_keep s t own Group.trec u.grp fun _ _ => rfl
@[simp] theorem countIssue_linkDie : (countIssue s t own).link = s.link := rfl
@[simp] theorem getDie_countIssue (d : Nat) : getDie (countIssue s t own) d = getDie s d := rfl
@[simp] theorem threadDie_countIssue : threadDie (countIssue s t own) u = threadDie s u :=
  congrArg dieOfCore (threadCore_countIssue s t u own)
@[simp] theorem clockNow_countIssue : clockNow (countIssue s t own) = clockNow s := rfl

@[simp] theorem statusWord_countIssue : statusWord (countIssue s t own) u = statusWord s u := by
  simp [statusWord]

@[simp] theorem identOf_countIssue (n : Nat) : identOf (countIssue s t own) u n = identOf s u n := by
  simp [identOf]

theorem spUser_countIssue (n : Nat) : spUser (countIssue s t own) u n = spUser s u n := by
  unfold spUser
  split <;> simp [cntWord]

theorem spPriv_countIssue (n : Nat) : spPriv (countIssue s t own) u n = spPriv s u n := by
  unfold spPriv
  split <;> simp

end

/-- FSTAT's five flags as a number (Table 3-3). -/
theorem toNat_flagsWord (f : Flags) : (Flags.word f).toNat =
    f.iv.toNat * 16 + f.dz.toNat * 8 + f.ovf.toNat * 4 + f.uf.toNat * 2 + f.nx.toNat := by
  have small (b : Bool) : b.toNat ≤ 1 := b.toNat_le
  have := small f.iv
  have := small f.dz
  have := small f.ovf
  have := small f.uf
  have := small f.nx
  unfold Flags.word
  rw [BitVec.toNat_ofNat]
  omega

section
variable {o : Ops} {s : State} {cx : Ctx} {n v : Nat}

/-- `MOVS` of a register that every thread reads alike. -/
theorem movs_user (h : Acts (.movs o) s cx) (code : spNum cx.o.a = n) (low : n < 0x40) (value : spUser s cx.t n = v) :
    Gives (.movs o) s cx v := by
  refine gives_of_finish h ((issue_acts h).trans (congrArg Host.Outcome.next ?_))
  dsimp only
  rw [code, if_pos low, issued, spUser_countIssue, value]

/-- `MOVS` of a privileged register by a service thread. -/
theorem movs_priv (h : Acts (.movs o) s cx) (code : spNum cx.o.a = n) (high : ¬n < 0x40) (priv : isPriv s cx.t = true)
    (value : spPriv s cx.t n = v) : Gives (.movs o) s cx v := by
  refine gives_of_finish h ((issue_acts h).trans (congrArg Host.Outcome.next ?_))
  dsimp only
  rw [code, if_neg high, issued, isPriv_countIssue, if_pos priv, spPriv_countIssue, value]

/-- The same by user code. -/
theorem exec_movs_hidden (h : Acts (.movs o) s cx) (code : spNum cx.o.a = n) (high : ¬n < 0x40)
    (user : isPriv s cx.t = false) {bits : BitVec 2} (which : stickyFor n = bits) :
    exec (.movs o) s = .next (finish cx (setSticky (issued (.movs o) s cx.t) cx.t bits) 0) := by
  refine (issue_acts h).trans (congrArg Host.Outcome.next ?_)
  dsimp only
  rw [code, if_neg high, issued, isPriv_countIssue, if_neg (by simp [user]), which]

theorem exec_clk (h : Acts (.clk o) s cx) : exec (.clk o) s = .next
    (if isPriv s cx.t then finish cx (issued (.clk o) s cx.t) (Config.clockAt s.ticks).toNat
      else finish cx (setSticky (issued (.clk o) s cx.t) cx.t 1) 0) := by
  refine (issue_acts h).trans (congrArg Host.Outcome.next ?_)
  rw [issued, isPriv_countIssue]
  rfl

theorem exec_idphys (h : Acts (.idphys o) s cx) : exec (.idphys o) s = .next
    (if isPriv s cx.t then finish cx (issued (.idphys o) s cx.t) (idphysN s cx.t)
      else finish cx (setSticky (issued (.idphys o) s cx.t) cx.t 2) 0) := by
  refine (issue_acts h).trans (congrArg Host.Outcome.next ?_)
  rw [issued, isPriv_countIssue, idphysN]
  simp only [identOf_countIssue]
  rfl

end

/-! ## Writes -/

/-- A field of the thread that `MSS` does not write. -/
theorem getThread_writeSp_keep {α : Type} (p : Thread → α) (h : ∀ th n v, p (writeThreadSp th n v) = p th) (s : State)
    (t : Tid) (n : Nat) (v : DWord) : p (getThread (writeSp s t n v) t) = p (getThread s t) := by
  have ofGroup (f : Group → Group) (hf : ∀ g, (f g).threads = g.threads) :
      getThread (modGroup s t.grp f) t = getThread s t := by
    unfold getThread
    rw [getGroup_modGroup_keep Group.threads s t.grp t.grp f hf]
  unfold writeSp
  split
  · exact congrArg p (ofGroup _ fun _ => rfl)
  · exact congrArg p (ofGroup _ fun _ => rfl)
  · rfl
  · exact getThread_modThread_keep p s t t _ fun th => h th n v

theorem threadExists_writeSp {s : State} {t : Tid} (h : threadExists s t) (n : Nat) (v : DWord) :
    threadExists (writeSp s t n v) t := by
  unfold writeSp
  split
  · exact threadExists_modGroup h fun _ => rfl
  · exact threadExists_modGroup h fun _ => rfl
  · exact h
  · exact threadExists_modThread h

theorem writeSp_mem (s : State) (t : Tid) (n : Nat) (v : DWord) : (writeSp s t n v).mem = s.mem := by
  unfold writeSp
  split <;> rfl

theorem getThread_advance {s : State} {t : Tid} (h : threadExists s t) : getThread (advance s t) t =
    { getThread s t with pc := nextPc (getThread s t).pc, counted := false } := getThread_modThread_same h

/-- `MSS` writes its register and its thread goes on, memory and registers as they were. -/
theorem mss_writes {o : Ops} {s : State} {cx : Ctx} {n : Nat} {P : State → Prop} (h : Acts (.mss o) s cx)
    (code : spNum cx.o.dst = n)
    (wrote : P (advance (writeSp (issued (.mss o) s cx.t) cx.t n (BitVec.ofNat 64 (cx.a s))) cx.t)) :
    ∃ u, exec (.mss o) s = .next u ∧ P u ∧ u.mem = s.mem ∧ (getThread u cx.t).regs = (getThread s cx.t).regs ∧
      (getThread u cx.t).pc = nextPc (getThread s cx.t).pc := by
  have keep {α : Type} (p : Thread → α) (hp : ∀ th n v, p (writeThreadSp th n v) = p th) :=
    getThread_writeSp_keep p hp (issued (.mss o) s cx.t) cx.t n (BitVec.ofNat 64 (cx.a s))
  have runs : exec (.mss o) s = .next
      (advance (writeSp (issued (.mss o) s cx.t) cx.t n (BitVec.ofNat 64 (cx.a s))) cx.t) := by
    refine (issue_acts h).trans (congrArg Host.Outcome.next ?_)
    rw [code, issued_a]
  have kept (th : Thread) (n : Nat) (v : DWord) :
      (writeThreadSp th n v).regs = th.regs ∧ (writeThreadSp th n v).pc = th.pc := by
    unfold writeThreadSp
    split <;> exact ⟨rfl, rfl⟩
  refine ⟨_, runs, wrote, writeSp_mem _ _ _ _, ?_, ?_⟩
  · rw [getThread_advance (threadExists_writeSp (threadExists_issued h) _ _)]
    exact (keep Thread.regs fun th n v => (kept th n v).1).trans (countIssue_regs s cx.t cx.t _)
  · rw [getThread_advance (threadExists_writeSp (threadExists_issued h) _ _)]
    exact congrArg nextPc ((keep Thread.pc fun th n v => (kept th n v).2).trans (countIssue_pc s cx.t cx.t _))

/-- A register of the thread's own, after the write. -/
theorem getThread_mss {s : State} {t : Tid} {n : Nat} {v : DWord} (h : threadExists s t)
    (own : writeSp s t n v = modThread s t fun th => writeThreadSp th n v) :
    getThread (advance (writeSp s t n v) t) t = { writeThreadSp (getThread s t) n v with
      pc := nextPc (writeThreadSp (getThread s t) n v).pc, counted := false } := by
  rw [own, getThread_advance (threadExists_modThread h), getThread_modThread_same h]

/-- A register of the group, after the write. -/
theorem threadGroup_mss {α : Type} (p : Group → α) (hp : ∀ g l, p { g with threads := l } = p g) {s : State} {t : Tid}
    {f : Group → Group} (h : threadExists s t) :
    p (threadGroup (advance (modGroup s t.grp f) t) t) = p (f (threadGroup s t)) := by
  rw [threadGroup, advance, getGroup_modThread_keep p _ t t.grp _ hp,
    getGroup_modGroup_same (placed_of_threadExists h)]
  rfl

/-- An identifier that a service thread has written reads back (R66). -/
theorem identOf_written {s : State} {t : Tid} {n : Nat} {w : Word} {m : NMap Word}
    (h : (getThread s t).ident = mput m (n - 0x40) w) : identOf s t n = w := by
  simp [identOf, h, mget]

/-- LAUNCH_FRAG is a register of the thread's die (R66). -/
theorem launchFrag_written (s : State) (t : Tid) (v : DWord) :
    let u := advance (writeSp s t 0x44 v) t
    (getDie u (threadDie u t)).launchFrag = v.setWidth 32 := by
  intro u
  have die : threadDie u t = threadDie s t := congrArg dieOfCore (threadCore_modThread _ t t _)
  have written : getDie u (threadDie s t) = { getDie s (threadDie s t) with launchFrag := v.setWidth 32 } :=
    (getDie_modDie s _ _ fun d => { d with launchFrag := v.setWidth 32 }).trans (if_pos rfl)
  rw [die, written]

theorem flags_ofWord_setWidth (v : DWord) : Flags.ofWord (v.setWidth 32) =
    { iv := v.getLsbD 4, dz := v.getLsbD 3, ovf := v.getLsbD 2, uf := v.getLsbD 1, nx := v.getLsbD 0 } := by
  simp [Flags.ofWord]

/-- Settles O14: each register by its code, as every thread reads it, as a service thread does, and as it is
written. -/
theorem specialRegisters : Obligations.SpecialRegisters := by
  unfold Obligations.SpecialRegisters
  refine ⟨fun o s cx => ⟨fun h => ?_, fun h priv => ?_, fun h user => ?_, fun h priv => ?_, fun h user => ?_⟩,
    fun o s cx => ⟨fun h => ?_, fun h => ?_⟩⟩
  · have reads (n v : Nat) (low : n < 0x40) (value : spUser s cx.t n = v) (code : spNum cx.o.a = n) :=
      movs_user h code low value
    have ident : 0x41 ≤ spNum cx.o.a → spNum cx.o.a ≤ 0x43 →
        spNum cx.o.a = 0x41 ∨ spNum cx.o.a = 0x42 ∨ spNum cx.o.a = 0x43 := by omega
    refine ⟨reads _ _ (by decide) rfl, reads _ _ (by decide) rfl, reads _ _ (by decide) rfl,
      reads _ _ (by decide) rfl, reads _ _ (by decide) rfl, reads _ _ (by decide) rfl, reads _ _ (by decide) rfl,
      reads _ _ (by decide) (toNat_flagsWord _), reads _ _ (by decide) rfl, reads _ _ (by decide) rfl,
      reads _ _ (by decide) rfl, reads _ _ (by decide) rfl, reads _ _ (by decide) rfl, reads _ _ (by decide) rfl,
      reads _ _ (by decide) rfl, reads _ _ (by decide) rfl, reads _ _ (by decide) rfl, reads _ _ (by decide) rfl,
      fun priv code => movs_priv h code (by decide) priv rfl, fun priv lo hi => ?_,
      fun priv code => movs_priv h code (by decide) priv rfl, fun priv code => movs_priv h code (by decide) priv rfl,
      fun user code => hidden_of_finish h (exec_movs_hidden h code (by decide) user rfl), fun user lo hi => ?_⟩
    · rcases ident lo hi with code | code | code
      all_goals exact movs_priv h rfl (by omega) priv (by rw [code]; rfl)
    · rcases ident lo hi with code | code | code
      all_goals exact hidden_of_finish h (exec_movs_hidden h code (by decide) user rfl)
  · exact gives_of_finish h ((exec_clk h).trans (congrArg Host.Outcome.next (if_pos priv)))
  · exact hidden_of_finish h ((exec_clk h).trans (congrArg Host.Outcome.next (if_neg (by simp [user]))))
  · have value : idphysN s cx.t = (identOf s cx.t 0x43).toNat % 2 ^ 8 * 2 ^ 16 +
        (identOf s cx.t 0x42).toNat % 2 ^ 3 * 2 ^ 8 + (identOf s cx.t 0x41).toNat % 2 ^ 6 := by
      simp [idphysN, bitsOf]
    rw [← value]
    exact gives_of_finish h ((exec_idphys h).trans (congrArg Host.Outcome.next (if_pos priv)))
  · exact hidden_of_finish h ((exec_idphys h).trans (congrArg Host.Outcome.next (if_neg (by simp [user]))))
  · have listed := threadExists_issued h
    have own (n : Nat) {v : DWord} (hw : writeSp (issued (.mss o) s cx.t) cx.t n v =
        modThread (issued (.mss o) s cx.t) cx.t fun th => writeThreadSp th n v) := getThread_mss listed hw
    refine ⟨fun code => mss_writes h code ?_, fun code => mss_writes h code ?_, fun code => mss_writes h code ?_,
      fun code => mss_writes h code ⟨?_, ?_⟩, fun code => mss_writes h code ⟨?_, ?_⟩,
      fun code => mss_writes h code ?_, fun lo hi => mss_writes h rfl ?_, fun code => mss_writes h code ?_,
      fun code => mss_writes h code ?_⟩
    · rw [own 0x07 rfl]
      exact flags_ofWord_setWidth _
    · rw [own 0x0B rfl]
      rfl
    · rw [own 0x0C rfl]
      rfl
    · exact threadGroup_mss Group.tvec (fun _ _ => rfl) listed
    · exact (threadGroup_mss Group.trec (fun _ _ => rfl) listed).trans (countIssue_trec s cx.t cx.t _)
    · exact threadGroup_mss Group.trec (fun _ _ => rfl) listed
    · exact (threadGroup_mss Group.tvec (fun _ _ => rfl) listed).trans (countIssue_tvec s cx.t cx.t _)
    · rw [own 0x13 rfl]
      rfl
    · have ident : spNum cx.o.dst = 0x41 ∨ spNum cx.o.dst = 0x42 ∨ spNum cx.o.dst = 0x43 := by omega
      refine identOf_written (m := (getThread (issued (.mss o) s cx.t) cx.t).ident) ?_
      rcases ident with code | code | code
      all_goals rw [code, own _ rfl]; rfl
    · exact launchFrag_written _ _ _
    · rw [own 0x45 rfl]
      rfl
  · have listed := threadExists_issued h
    have runs : exec (.tstickyClear o) s = .next (advance (modThread (issued (.tstickyClear o) s cx.t) cx.t fun th =>
        { th with tsticky := th.tsticky &&& ~~~BitVec.ofNat 2 (cx.a s) }) cx.t) := by
      refine (issue_acts h).trans (congrArg Host.Outcome.next ?_)
      rw [issued_a]
    refine ⟨_, runs, ?_, ?_⟩
    all_goals rw [getThread_advance (threadExists_modThread listed), getThread_modThread_same listed]
    · exact congrArg (· &&& _) (countIssue_tsticky s cx.t cx.t _)
    · exact congrArg nextPc (countIssue_pc s cx.t cx.t _)

end Sys2Proof.Machine
end

section
/-! PROOF. Issued accesses (R158 to R160, R204): an overlapped one is queued and counted, a strict one is outstanding
and parks its thread. -/

namespace Sys2Proof.Machine

/-- The count that an overlapped access adds to (R159, R204). -/
def countAccess (op : MemOp) (th : Thread) : Thread :=
  if op.returns then { th with cntLd := th.cntLd + 1 } else { th with cntSt := th.cntSt + 1 }

/-- An access counts once, as a load exactly when it returns a value, and changes nothing else of its thread. -/
theorem countAccess_spec (op : MemOp) (th : Thread) :
    (countAccess op th).cntLd + (countAccess op th).cntSt = th.cntLd + th.cntSt + 1 ∧
      ((countAccess op th).cntLd = th.cntLd + 1 ↔ op.returns = true) ∧
      (countAccess op th).pc = th.pc ∧ (countAccess op th).regs = th.regs := by
  unfold countAccess
  split
  · rename_i returns
    exact ⟨by dsimp only; omega, by simp [returns], rfl, rfl⟩
  · rename_i silent
    exact ⟨rfl, by simp [silent], rfl, rfl⟩

section
variable {s : State} {t : Tid} {a : Access}

theorem getThread_enqueue_same (h : threadExists s t) : getThread (enqueue s t a) t =
    { countAccess a.op (getThread s t) with pc := nextPc (countAccess a.op (getThread s t)).pc, counted := false } := by
  have thread : getThread (modThread s t (countAccess a.op)) t = countAccess a.op (getThread s t) :=
    getThread_modThread_same h
  rw [← thread]
  exact getThread_advance (s := modCore (modThread s t (countAccess a.op)) _ _) (threadExists_modThread h)

theorem getThread_enqueue_ne {x : Tid} (other : x ≠ t) : getThread (enqueue s t a) x = getThread s x :=
  (getThread_modThread_ne other).trans (getThread_modThread_ne (f := countAccess a.op) other)

theorem queue_enqueue : (getCore (enqueue s t a) (threadCore s t)).queue =
    (getCore s (threadCore s t)).queue ++ [{ tid := t, acc := a }] := by
  have core : threadCore (modThread s t (countAccess a.op)) t = threadCore s t := threadCore_modThread s t t _
  have queued : getCore (enqueue s t a) (threadCore s t) = getCore (modCore (modThread s t (countAccess a.op))
      (threadCore (modThread s t (countAccess a.op)) t) fun c => { c with queue := c.queue ++ [{ tid := t, acc := a }] })
      (threadCore s t) := rfl
  rw [queued, core, getCore_modCore, if_pos rfl]
  rfl

theorem getThread_beginStrict_same {l : Option Leaf} {p : Place} (h : threadExists s t) :
    getThread (beginStrict s t a l p) t = { getThread s t with
      strict := some { acc := a, place := p, pack := (getCore s (threadCore s t)).packs, leaf := l }
      run := .parked .strict, counted := false } := by
  unfold beginStrict park
  rw [getThread_modThread_same (threadExists_modThread h), getThread_modThread_same h]

end

/-- Settles O28: the queue and the counts of an overlapped access, and the outstanding strict one. -/
theorem issuedAccessIsOutstanding : Obligations.IssuedAccessIsOutstanding := by
  unfold Obligations.IssuedAccessIsOutstanding
  intro s t a l p listed th u v
  obtain ⟨total, load, pc, regs⟩ := countAccess_spec a.op th
  have issuer : getThread u t = { countAccess a.op th with pc := nextPc (countAccess a.op th).pc, counted := false } :=
    getThread_enqueue_same listed
  refine ⟨queue_enqueue, ?_, ?_, ?_, ?_, rfl, fun x => getThread_enqueue_ne, getThread_beginStrict_same listed,
    fun x other => (getThread_modThread_ne other).trans (getThread_modThread_ne other), rfl⟩
  all_goals rw [issuer]
  · exact total
  · exact load
  · exact congrArg nextPc pc
  · exact regs

end Sys2Proof.Machine
end

section
/-! PROOF. The trap instructions and user interrupts (R80, R311 to R313). -/

namespace Sys2Proof.Machine

/-! ## What an issue leaves of the machine's records -/

section
variable (s : State) (t u : Tid) (own : Bool)

@[simp] theorem threadPart_countIssue : threadPart (countIssue s t own) u = threadPart s u :=
  threadPart_modThread s t u _

@[simp] theorem threadPasid_countIssue : threadPasid (countIssue s t own) u = threadPasid s u := by
  have grid : threadGrid (countIssue s t own) u = threadGrid s u := threadGrid_modThread s t u _
  unfold threadPasid
  rw [grid, countIssue_pasid]

/-- Handles are read from the grid table alone. -/
@[simp] theorem liveHandle_countIssue (p pasid : Nat) (h : Word) :
    liveHandle (countIssue s t own) p pasid h = liveHandle s p pasid h := rfl

end

/-! ## Slots -/

theorem slotForm_iff (pc : DWord) : slotForm pc = true ↔ pc.toNat / 8 % 8 = 0 ∧ pc.toNat % 8 ≤ 4 := by
  simp [slotForm, bitsOf, Nat.shiftRight_eq_div_pow]

/-! ## User interrupts -/

/-- A thread hears of one interrupt as often as it is told (R313). -/
theorem raiseThread_raiseThread (c : Word) (th : Thread) : raiseThread c (raiseThread c th) = raiseThread c th := by
  unfold raiseThread
  split <;> simp_all

/-- One group of the grid: its threads that are not DONE hear of the interrupt. -/
theorem getThread_raiseGroup (s : State) (g : Nat) (c : Word) (x : Tid) :
    getThread (modGroup s g fun y => { y with threads := y.threads.map (raiseThread c) }) x =
      if x.grp = g then raiseThread c (getThread s x) else getThread s x := by
  split
  · rename_i same
    subst same
    by_cases placed : mfind s.groups x.grp = none
    · simp [getThread, getGroup, modGroup, mget, mfind_mmod, placed, noGroup, raiseThread]
    · have absent : ({ run := .done } : Thread) = raiseThread c { run := .done } := rfl
      rw [getThread, getGroup_modGroup_same placed, getThread, List.getD_eq_getElem?_getD, List.getElem?_map,
        List.getD_eq_getElem?_getD, absent, Option.getD_map, ← absent]
  · rename_i other
    unfold getThread
    rw [getGroup_modGroup_ne other]

/-- Every group of a list, each as often as it is listed. -/
theorem getThread_raiseGroups (gs : List Nat) (c : Word) (x : Tid) (s : State) :
    getThread (gs.foldl (fun s g => modGroup s g fun y => { y with threads := y.threads.map (raiseThread c) }) s) x =
      if x.grp ∈ gs then raiseThread c (getThread s x) else getThread s x := by
  induction gs generalizing s with
  | nil => rfl
  | cons g gs ih =>
    rw [List.foldl_cons, ih, getThread_raiseGroup]
    by_cases here : x.grp = g <;> by_cases later : x.grp ∈ gs <;> simp [here, later, raiseThread_raiseThread]

theorem getThread_raiseGrid {s : State} {k gk : Nat} {c : Word} {x : Tid} (gang : gk ∈ gangsOf s k)
    (group : x.grp ∈ (getGang s gk).groups) :
    getThread (raiseGrid s k c) x = raiseThread c (getThread s x) :=
  (getThread_raiseGroups _ c x s).trans (if_pos (List.mem_flatMap.mpr ⟨gk, gang, group⟩))

/-! ## The instructions at their effect -/

section
variable {o : Ops} {s : State} {cx : Ctx}

theorem exec_trap (h : Acts (.trap o) s cx) : exec (.trap o) s = .next (takeTrapWith (issued (.trap o) s cx.t) cx.t
    { code := .softTrap, addr := BitVec.ofNat 64 (cx.o.imm.toNat % 2 ^ 16) } (nextPc (getThread s cx.t).pc) 0) := by
  have value : bitsOf cx.o.imm 0 16 = cx.o.imm.toNat % 2 ^ 16 := by simp [bitsOf]
  refine (issue_acts h).trans (congrArg Host.Outcome.next ?_)
  rw [value, issued, countIssue_pc]

/-- `TRET` by the mode and the form of TEPC (R312). -/
theorem exec_tret (h : Acts (.tret o) s cx) : exec (.tret o) s = .next
    (if !(getThread s cx.t).inTrap then takeTrap (issued (.tret o) s cx.t) cx.t { code := .illegalOp }
      else if !slotForm (getThread s cx.t).tepc then
        takeTrap (issued (.tret o) s cx.t) cx.t { code := .badTarget, addr := (getThread s cx.t).tepc }
      else returnFromTrap (issued (.tret o) s cx.t) cx.t) := by
  refine (issue_acts h).trans (congrArg Host.Outcome.next ?_)
  dsimp only
  rw [issued, countIssue_inTrap, countIssue_tepc]

/-- The return itself: the mode bit falls, and the block ends at TEPC (R80). -/
theorem returnFromTrap_eq (s : State) (t : Tid) : returnFromTrap s t =
    endBlock (modThread s t fun th => { th with inTrap := false }) t (getThread s t).tepc :=
  congrArg (endBlock _ t) (getThread_modThread_keep Thread.tepc s t t _ fun _ => rfl)

theorem exec_uiraise (h : Acts (.uiraise o) s cx) : exec (.uiraise o) s = .next (advance
    (raiseHandle (issued (.uiraise o) s cx.t) (threadPart s cx.t) (threadPasid s cx.t) (BitVec.ofNat 32 (cx.a s))
      (BitVec.ofNat 32 (cx.a s / 2 ^ 32))) cx.t) := by
  refine (issue_acts h).trans (congrArg Host.Outcome.next ?_)
  dsimp only
  rw [issued_a, issued, threadPart_countIssue, threadPasid_countIssue]

theorem raiseHandle_gone {p pasid : Nat} {h c : Word} (gone : liveHandle s p pasid h = none) :
    raiseHandle s p pasid h c = s := by
  unfold raiseHandle
  rw [gone]

theorem raiseHandle_grid {p pasid k : Nat} {h c : Word} (live : liveHandle s p pasid h = some (.grid k)) :
    raiseHandle s p pasid h c = raiseGrid s k c := by
  unfold raiseHandle
  rw [live]

/-- `UIACK` clears the thread's UI_PEND, and no other thread hears of it (R312). -/
theorem uiack_spec (h : Acts (.uiack o) s cx) : ∃ u, exec (.uiack o) s = .next u ∧
    getThread u cx.t = { getThread (issued (.uiack o) s cx.t) cx.t with
      uiPend := false, pc := nextPc (getThread s cx.t).pc, counted := false } ∧
    (∀ x, x ≠ cx.t → getThread u x = getThread s x) ∧ u = { s with groups := u.groups } := by
  have listed := threadExists_issued h
  refine ⟨_, issue_acts h, ?_, fun x other => ?_, rfl⟩
  · rw [getThread_advance (threadExists_modThread listed), getThread_modThread_same listed]
    have pc : (getThread (issued (.uiack o) s cx.t) cx.t).pc = (getThread s cx.t).pc := countIssue_pc s cx.t cx.t _
    rw [pc]
  · exact (getThread_modThread_ne other).trans ((getThread_modThread_ne other).trans (getThread_modThread_ne other))

end

/-- Settles O50: `TRAP`, `TRET` by its three cases, `UIACK`, and a user interrupt at every thread of a grid. -/
theorem trapInstructions : Obligations.TrapInstructions := by
  unfold Obligations.TrapInstructions
  intro o s cx k t th z cause h formed
  have form : slotForm th.tepc = true ↔ formed := slotForm_iff th.tepc
  refine ⟨exec_trap, fun acts user => ?_, fun acts handler bad => ?_, fun acts handler good => ?_, uiack_spec,
    fun acts gone => ?_, fun acts live => ?_, fun x gk gang group _ => getThread_raiseGrid gang group⟩
  · rw [exec_tret acts, if_pos (by simpa using user)]
  · have misplaced : (!slotForm th.tepc) = true := by simpa using mt form.mp bad
    rw [exec_tret acts, if_neg (by simpa using handler), if_pos misplaced]
  · have placed : ¬(!slotForm th.tepc) = true := by simpa using form.mpr good
    rw [exec_tret acts, if_neg (by simpa using handler), if_neg placed, returnFromTrap_eq]
    exact congrArg (fun pc => Host.Outcome.next (endBlock _ t pc)) (countIssue_tepc s t t _)
  · have named : liveHandle (z (.uiraise o)) (threadPart s t) (threadPasid s t) h = none :=
      (liveHandle_countIssue s t _ _ _ h).trans gone
    rw [exec_uiraise acts, raiseHandle_gone named]
  · have named : liveHandle (z (.uiraise o)) (threadPart s t) (threadPasid s t) h = some (.grid k) :=
      (liveHandle_countIssue s t _ _ _ h).trans live
    rw [exec_uiraise acts, raiseHandle_grid named]

end Sys2Proof.Machine
end
